-- ==== Sys2Proof/Word.lean ====
section
/-! DEFINITION. Words of the XA7 and their plainest arithmetic (spec/00_scope.md R6, R7, R11).

Bit 0 is the least significant bit (R6), `x[hi:lo]` names bits hi down to lo with both ends (R7),
`SExt` and `ZExt` are R11's. -/
namespace Sys2Proof

/-- A 64-bit word, the width of every general register (08_core.md R153). -/
abbrev Word := BitVec 64
/-- One byte of memory (R6). -/
abbrev Byte := BitVec 8
/-- A 512-bit vector register (08_core.md R153). -/
abbrev VWord := BitVec 512

/-- `x[hi:lo]` of R7, as a word of `n = hi - lo + 1` bits starting at `lo`. -/
@[reducible] def bits {w : Nat} (x : BitVec w) (lo n : Nat) : BitVec n := x.extractLsb' lo n

/-- `SExt(x, 64)` of R11. -/
@[reducible] def sext64 {w : Nat} (x : BitVec w) : Word := x.signExtend 64

/-- `ZExt(x, 64)` of R11. -/
@[reducible] def zext64 {w : Nat} (x : BitVec w) : Word := x.zeroExtend 64

/-- One bit as a word. -/
@[reducible] def wordOfBool (b : Bool) : Word := if b then 1#64 else 0#64

end Sys2Proof
end

