-- ==== Sys2Proof/Syntax.lean ====
section
/-! DEFINITION. The abstract syntax of XA7 instructions and device steps (spec/03_encoding.md R38 to R63).

Every register number, operation code and modifier is a constructor or a narrow number here; encodings are read in
Sys2Proof/Decode.lean alone. An immediate is held as the 64-bit value that R41 and R42 give it by sign extension. -/
namespace Sys2Proof

/-- The length of an instruction (R38). -/
inductive Len where | l64 | l96 | l128
deriving DecidableEq, Repr

/-- The guard of R40: predicate p0 to p7 and its sense; `neg` executes when the predicate is false. -/
structure Guard where
  p   : BitVec 3
  neg : Bool
deriving DecidableEq, Repr

/-- A W-class register operand (R43). `q` is code 0x38: `lq` or `sq` by its place. `const` is code 0x3F with the window
and the word offset that X20 holds (R41, R45). -/
inductive WReg where
  | w (n : BitVec 5)
  | g (n : BitVec 3)
  | a (n : BitVec 4)
  | q
  | mp (n : BitVec 2)
  | lkw
  | lke
  | const (win : BitVec 3) (off : BitVec 17)
deriving DecidableEq, Repr

/-- A V-class register operand (R43, R187): `q` is `lq` as a source and `sq` as a destination. -/
inductive VReg where
  | v (n : BitVec 4)
  | q
deriving DecidableEq, Repr

/-- A predicate register p0 to p7 (R43). -/
abbrev PReg := BitVec 3
/-- A mask register m0 to m7 (R43). -/
abbrev MReg := BitVec 3

/-- The condition codes of R53. -/
inductive Cond where | eq | ne | lt | ge | ltu | geu | le | gt | un | or
deriving DecidableEq, Repr

/-- The element types of R54. -/
inductive ETy where | f32 | f16 | bf16 | i32 | i16 | i8 | u32 | u16 | u8 | i64 | u64
deriving DecidableEq, Repr

/-- The types of the F-prefixed scalar forms (R52, R191). -/
inductive FTy where | f32 | f16 | bf16
deriving DecidableEq, Repr

/-- The rounding modes of R54. -/
inductive Rnd where | rne | rtz | rup | rdn | rsr
deriving DecidableEq, Repr

/-- The access sizes of R52. -/
inductive Size where | b | h | w | d | v
deriving DecidableEq, Repr

/-- The order modifier of R52. -/
inductive Order where | none | acq | rel | ar
deriving DecidableEq, Repr

/-- The sub-operations of PLOG (R175). -/
inductive PlogOp where | and | or | xor | andn
deriving DecidableEq, Repr

/-- The sub-operations of BITC (R172). -/
inductive BitcOp where | clz | ctz | pop
deriving DecidableEq, Repr

/-- The system registers that MTSR and MFSR name (15_traps_preemption.md R301). -/
inductive SysReg where
  | nanmode | tsr | uivec | srgen | semts | slotstat | wdcnt
  | cwin (n : BitVec 3)
  | cdone (c : BitVec 3)
  | mpdst (n : BitVec 2)
  | wbase | rslow | rsidx | rsdata
  | cfp | cfda | cfh
  | qpend | relpend
  | qpbuf (n : BitVec 3)
  | mxstat | mxgmode | amskrow | amskcol
  | wmb0 | wmb1
  | win0 | win1 | win2
  | vlim
  | tvec | tcause | tinsn | tpc | tva | tstat
deriving DecidableEq, Repr

/-- Which half of a thread slot (R147). -/
inductive Half where | access | execute
deriving DecidableEq, Repr

/-- The fixed role of a core (R160). -/
inductive Role where | m | v | a
deriving DecidableEq, Repr


/-- shape N0: a guard alone. -/
structure N0 where
  gd : Guard
deriving DecidableEq, Repr

/-- shape N0 of NOP: a guard and one of the three lengths (R58). -/
structure NopOps where
  gd : Guard
  len : Len
deriving DecidableEq, Repr

/-- shape R3 over W-class registers. -/
structure R3W where
  gd : Guard
  d : WReg
  s1 : WReg
  s2 : WReg
deriving DecidableEq, Repr

/-- shape R2 over W-class registers. -/
structure R2W where
  gd : Guard
  d : WReg
  s1 : WReg
deriving DecidableEq, Repr

/-- shape RI over W-class registers: a 64-, 96- or 128-bit form (R41, R42). -/
structure RIW where
  gd : Guard
  len : Len
  d : WReg
  s1 : WReg
  imm : Word
deriving DecidableEq, Repr

/-- shape I1. -/
structure I1W where
  gd : Guard
  len : Len
  d : WReg
  imm : Word
deriving DecidableEq, Repr

/-- CMP: shape R3, D a predicate, condition in M12 (R174). -/
structure CmpR where
  gd : Guard
  cond : Cond
  d : PReg
  s1 : WReg
  s2 : WReg
deriving DecidableEq, Repr

/-- CMPI: shape RI, D a predicate, condition in M12 (R174). -/
structure CmpI where
  gd : Guard
  cond : Cond
  len : Len
  d : PReg
  s1 : WReg
  imm : Word
deriving DecidableEq, Repr

/-- PLOG: shape R3, all predicates (R175). -/
structure PlogR where
  gd : Guard
  op : PlogOp
  d : PReg
  s1 : PReg
  s2 : PReg
deriving DecidableEq, Repr

/-- SEL: shape R3 with a select predicate (R176). -/
structure SelR where
  gd : Guard
  pn : PReg
  d : WReg
  s1 : WReg
  s2 : WReg
deriving DecidableEq, Repr

/-- BITC: shape R2 with a sub-operation (R172). -/
structure BitcR where
  gd : Guard
  op : BitcOp
  d : WReg
  s1 : WReg
deriving DecidableEq, Repr

/-- EXTR: shape RI with a sign bit (R173). -/
structure ExtrI where
  gd : Guard
  sx : Bool
  len : Len
  d : WReg
  s1 : WReg
  imm : Word
deriving DecidableEq, Repr

/-- shape B0: a branch offset in 4-byte units (R42). -/
structure B0 where
  gd : Guard
  len : Len
  imm : Word
deriving DecidableEq, Repr

/-- shape B1 over a W-class register. -/
structure B1W where
  gd : Guard
  len : Len
  s1 : WReg
  imm : Word
deriving DecidableEq, Repr

/-- shape B1 over a predicate (BP, BNP). -/
structure B1P where
  gd : Guard
  len : Len
  s1 : PReg
  imm : Word
deriving DecidableEq, Repr

/-- shape B2. -/
structure B2W where
  gd : Guard
  len : Len
  s1 : WReg
  s2 : WReg
  imm : Word
deriving DecidableEq, Repr

/-- shape S1. -/
structure S1W where
  gd : Guard
  s1 : WReg
deriving DecidableEq, Repr

/-- shape S2. -/
structure S2W where
  gd : Guard
  s1 : WReg
  s2 : WReg
deriving DecidableEq, Repr

/-- shape LD of LD and LDS: size, sign and order (R52, R140). -/
structure LdOps where
  gd : Guard
  sz : Size
  sx : Bool
  acq : Bool
  len : Len
  d : WReg
  base : WReg
  imm : Word
deriving DecidableEq, Repr

/-- shape LX of LDX and LDSX. -/
structure LxOps where
  gd : Guard
  sz : Size
  sx : Bool
  acq : Bool
  d : WReg
  base : WReg
  idx : WReg
deriving DecidableEq, Repr

/-- shape ST of ST and STS. -/
structure StOps where
  gd : Guard
  sz : Size
  rel : Bool
  len : Len
  base : WReg
  imm : Word
  data : WReg
deriving DecidableEq, Repr

/-- shape SX of STX and STSX: the data field is D. -/
structure SxOps where
  gd : Guard
  sz : Size
  rel : Bool
  base : WReg
  idx : WReg
  data : WReg
deriving DecidableEq, Repr

/-- LDFE and LDFF: shape LD, size D (R142). -/
structure FeLd where
  gd : Guard
  acq : Bool
  len : Len
  d : WReg
  base : WReg
  imm : Word
deriving DecidableEq, Repr

/-- STF and BCPOST: shape ST, size D (R142, R144). -/
structure FeSt where
  gd : Guard
  rel : Bool
  len : Len
  base : WReg
  imm : Word
  data : WReg
deriving DecidableEq, Repr

/-- SETE: shape BO, size D (R142). -/
structure FeSet where
  gd : Guard
  rel : Bool
  len : Len
  base : WReg
  imm : Word
deriving DecidableEq, Repr

/-- shape AT of the atomics: size W or D, any order (R143). -/
structure AtOps where
  gd : Guard
  dsz : Bool
  ord : Order
  d : WReg
  base : WReg
  val : WReg
deriving DecidableEq, Repr

/-- ACAS: shape R4, 128-bit layout E (R143). -/
structure AcasOps where
  gd : Guard
  dsz : Bool
  ord : Order
  d : WReg
  base : WReg
  exp : WReg
  new : WReg
deriving DecidableEq, Repr

/-- shape BO of PFH, CFLUSH, CINV, ACQ and REL. -/
structure BoOps where
  gd : Guard
  len : Len
  base : WReg
  imm : Word
deriving DecidableEq, Repr

/-- BCRD: shape R2, size D (R144). -/
structure BcrdOps where
  gd : Guard
  d : WReg
  base : WReg
deriving DecidableEq, Repr

/-- shape CP: four consecutive a registers and a channel (R110). -/
structure CpOps where
  gd : Guard
  d : WReg
  first : BitVec 4
  ch : BitVec 3
deriving DecidableEq, Repr

/-- shape CW of CWAIT (R112). -/
structure CwOps where
  gd : Guard
  id : WReg
  ch : BitVec 3
deriving DecidableEq, Repr

/-- CTEST: shape RI with a channel (R112). -/
structure CtOps where
  gd : Guard
  len : Len
  d : WReg
  id : WReg
  ch : BitVec 3
deriving DecidableEq, Repr

/-- CSTAT: shape I1 with a channel (R112). -/
structure CsOps where
  gd : Guard
  len : Len
  d : WReg
  ch : BitVec 3
deriving DecidableEq, Repr

/-- shape T3 of BIND: D is read (R231). -/
structure T3W where
  gd : Guard
  t : WReg
  s1 : WReg
  s2 : WReg
deriving DecidableEq, Repr

/-- shape K of SEMPOST and SEMWAIT (R241). -/
structure KSem where
  gd : Guard
  n : BitVec 5
deriving DecidableEq, Repr

/-- shape K of TRAP (R312). -/
structure KTrap where
  gd : Guard
  n : BitVec 12
deriving DecidableEq, Repr

/-- scalar floating shape R3 (R191). -/
structure F3 where
  gd : Guard
  ty : FTy
  d : WReg
  s1 : WReg
  s2 : WReg
deriving DecidableEq, Repr

/-- FFMA: shape R4, layout E (R191). -/
structure F4 where
  gd : Guard
  ty : FTy
  d : WReg
  s1 : WReg
  s2 : WReg
  s3 : WReg
deriving DecidableEq, Repr

/-- scalar floating shape R2 (R191). -/
structure F2 where
  gd : Guard
  ty : FTy
  d : WReg
  s1 : WReg
deriving DecidableEq, Repr

/-- FCMP: D a predicate (R192). -/
structure FcmpR where
  gd : Guard
  cond : Cond
  ty : FTy
  d : PReg
  s1 : WReg
  s2 : WReg
deriving DecidableEq, Repr

/-- FCVT: destination and source types, rounding, SAT (R197). -/
structure FcvtR where
  gd : Guard
  dt : ETy
  st : ETy
  rnd : Rnd
  sat : Bool
  d : WReg
  s1 : WReg
deriving DecidableEq, Repr

/-- V-prefixed shape R3 with mask and Z (R188). -/
structure V3 where
  gd : Guard
  ty : ETy
  msk : MReg
  z : Bool
  d : VReg
  s1 : VReg
  s2 : VReg
deriving DecidableEq, Repr

/-- V-prefixed shape R4, layout E. -/
structure V4 where
  gd : Guard
  ty : ETy
  msk : MReg
  z : Bool
  d : VReg
  s1 : VReg
  s2 : VReg
  s3 : VReg
deriving DecidableEq, Repr

/-- V-prefixed shape R2. -/
structure V2 where
  gd : Guard
  ty : ETy
  msk : MReg
  z : Bool
  d : VReg
  s1 : VReg
deriving DecidableEq, Repr

/-- VCMP: D a mask register (R192). -/
structure VcmpR where
  gd : Guard
  cond : Cond
  ty : ETy
  msk : MReg
  z : Bool
  d : MReg
  s1 : VReg
  s2 : VReg
deriving DecidableEq, Repr

/-- VSEL: the mask selects, Z is 0 (R193). -/
structure VselR where
  gd : Guard
  ty : ETy
  msk : MReg
  d : VReg
  s1 : VReg
  s2 : VReg
deriving DecidableEq, Repr

/-- VBCAST: S1 is W (R193). -/
structure VbcR where
  gd : Guard
  ty : ETy
  msk : MReg
  z : Bool
  d : VReg
  s1 : WReg
deriving DecidableEq, Repr

/-- VINS: one 64-bit lane (R194). -/
structure VinsR where
  gd : Guard
  u : Bool
  len : Len
  d : VReg
  s1 : WReg
  lane : BitVec 3
deriving DecidableEq, Repr

/-- VEXT: one 64-bit lane (R194). -/
structure VextR where
  gd : Guard
  u : Bool
  z : Bool
  len : Len
  d : WReg
  s1 : VReg
  lane : BitVec 3
deriving DecidableEq, Repr

/-- VROT: shape RI with a count (R193). -/
structure VrotR where
  gd : Guard
  ty : ETy
  msk : MReg
  z : Bool
  len : Len
  d : VReg
  s1 : VReg
  imm : Word
deriving DecidableEq, Repr

/-- VRADD, VRMAX and VRMIN: D is W (R195). -/
structure VredR where
  gd : Guard
  ty : ETy
  msk : MReg
  d : WReg
  s1 : VReg
deriving DecidableEq, Repr

/-- VDOT: D is W (R195). -/
structure VdotR where
  gd : Guard
  ty : ETy
  msk : MReg
  d : WReg
  s1 : VReg
  s2 : VReg
deriving DecidableEq, Repr

/-- VCVT (R197). -/
structure VcvtR where
  gd : Guard
  dt : ETy
  st : ETy
  rnd : Rnd
  sat : Bool
  d : VReg
  s1 : VReg
deriving DecidableEq, Repr

/-- MAND, MOR and MXOR (R196). -/
structure M3 where
  gd : Guard
  ty : ETy
  d : MReg
  s1 : MReg
  s2 : MReg
deriving DecidableEq, Repr

/-- MNOT (R196). -/
structure M2 where
  gd : Guard
  ty : ETy
  d : MReg
  s1 : MReg
deriving DecidableEq, Repr

/-- MPOP and MFIRST (R196). -/
structure MW where
  gd : Guard
  ty : ETy
  d : WReg
  s1 : MReg
deriving DecidableEq, Repr

/-- MTOP (R196). -/
structure MP where
  gd : Guard
  ty : ETy
  d : PReg
  s1 : MReg
deriving DecidableEq, Repr

/-- shape T2 of the conversion group: rounding and SAT (R52). -/
structure T2C where
  gd : Guard
  rnd : Rnd
  sat : Bool
  t : WReg
  s1 : WReg
deriving DecidableEq, Repr

/-- VPACK (R206). -/
structure VpackR where
  gd : Guard
  rnd : Rnd
  sat : Bool
  d : VReg
  s1 : VReg
  s2 : WReg
deriving DecidableEq, Repr

/-- VUNPK (R206). -/
structure VunpkR where
  gd : Guard
  d : VReg
  s1 : VReg
  s2 : WReg
deriving DecidableEq, Repr

/-- CVLD (R205). -/
structure CvldR where
  gd : Guard
  d : VReg
  s1 : WReg
  s2 : WReg
deriving DecidableEq, Repr

/-- CVST: D is read (R205). -/
structure CvstR where
  gd : Guard
  t : WReg
  s1 : WReg
  s2 : VReg
deriving DecidableEq, Repr

/-- shape T2 of the matrix and grammar group: stream and semaphore (R52, R212). -/
structure T2X where
  gd : Guard
  strm : BitVec 3
  sem : Option (BitVec 5)
  t : WReg
  s1 : WReg
deriving DecidableEq, Repr

/-- ARD: D is V (R225). -/
structure ArdR where
  gd : Guard
  d : VReg
  s1 : WReg
deriving DecidableEq, Repr

/-- CALLD: return point and the operand that names the digest, a constant window where no trap is due (R278). -/
structure CalldOps where
  gd : Guard
  rp : BitVec 12
  s1 : WReg
deriving DecidableEq, Repr

/-- CALLDR: return point (R278). -/
structure CalldrOps where
  gd : Guard
  rp : BitVec 12
  s1 : WReg
deriving DecidableEq, Repr

/-- MTSR (R311). -/
structure MtsrOps where
  gd : Guard
  reg : SysReg
  s1 : WReg
deriving DecidableEq, Repr

/-- MFSR (R311). -/
structure MfsrOps where
  gd : Guard
  d : WReg
  reg : SysReg
deriving DecidableEq, Repr

/-- The instructions and device steps of spec/opcode_table.json, one constructor per row (03_encoding.md R55; the
steps of 95_what_each_step_holds.md). -/
inductive Instr where
  | nop (o : NopOps)
  /-- Any code of R56; `w` is the first 64 bits of the instruction. -/
  | reservedOpcode (w : BitVec 64)
  | br (o : B0)
  | bz (o : B1W)
  | bnz (o : B1W)
  | bp (o : B1P)
  | bnp (o : B1P)
  | beq (o : B2W)
  | bne (o : B2W)
  | blt (o : B2W)
  | bge (o : B2W)
  | bltu (o : B2W)
  | bgeu (o : B2W)
  | loopr (o : B1W)
  | brx (o : S1W)
  | ipf (o : B0)
  | add (o : R3W)
  | sub (o : R3W)
  | addi (o : RIW)
  | subi (o : RIW)
  | mul (o : R3W)
  | mulh (o : R3W)
  | mulhu (o : R3W)
  | div (o : R3W)
  | divu (o : R3W)
  | rem (o : R3W)
  | remu (o : R3W)
  | and (o : R3W)
  | or (o : R3W)
  | xor (o : R3W)
  | andi (o : RIW)
  | ori (o : RIW)
  | xori (o : RIW)
  | shl (o : R3W)
  | shr (o : R3W)
  | sar (o : R3W)
  | shli (o : RIW)
  | shri (o : RIW)
  | sari (o : RIW)
  | mov (o : R2W)
  | movi (o : I1W)
  | cmp (o : CmpR)
  | cmpi (o : CmpI)
  | plog (o : PlogR)
  | sel (o : SelR)
  | bitc (o : BitcR)
  | extr (o : ExtrI)
  | insr (o : RIW)
  | ld (o : LdOps)
  | ldx (o : LxOps)
  | st (o : StOps)
  | stx (o : SxOps)
  | ldfe (o : FeLd)
  | ldff (o : FeLd)
  | stf (o : FeSt)
  | sete (o : FeSet)
  | aadd (o : AtOps)
  | afadd (o : AtOps)
  | amin (o : AtOps)
  | amax (o : AtOps)
  | aand (o : AtOps)
  | aor (o : AtOps)
  | axor (o : AtOps)
  | aswp (o : AtOps)
  | acas (o : AcasOps)
  | pfh (o : BoOps)
  | lds (o : LdOps)
  | sts (o : StOps)
  | ldsx (o : LxOps)
  | stsx (o : SxOps)
  | cflush (o : BoOps)
  | cinv (o : BoOps)
  | bcpost (o : FeSt)
  | bcrd (o : BcrdOps)
  | cpy (o : CpOps)
  | cpynb (o : CpOps)
  | cwait (o : CwOps)
  | ctest (o : CtOps)
  | coll (o : CpOps)
  | collnb (o : CpOps)
  | cstat (o : CsOps)
  | bind (o : T3W)
  | unbind (o : S1W)
  | qput (o : S2W)
  | qget (o : S2W)
  | sempost (o : KSem)
  | semwait (o : KSem)
  | acq (o : BoOps)
  | rel (o : BoOps)
  | fadd (o : F3)
  | fsub (o : F3)
  | fmul (o : F3)
  | ffma (o : F4)
  | fdiv (o : F3)
  | fsqrt (o : F2)
  | fmin (o : F3)
  | fmax (o : F3)
  | fcmp (o : FcmpR)
  | fcvt (o : FcvtR)
  | fabs (o : F2)
  | fneg (o : F2)
  | vadd (o : V3)
  | vsub (o : V3)
  | vmul (o : V3)
  | vfma (o : V4)
  | vfms (o : V4)
  | vfnma (o : V4)
  | vdiv (o : V3)
  | vsqrt (o : V2)
  | vmin (o : V3)
  | vmax (o : V3)
  | vabs (o : V2)
  | vneg (o : V2)
  | vand (o : V3)
  | vor (o : V3)
  | vxor (o : V3)
  | vnot (o : V2)
  | vshl (o : V3)
  | vshr (o : V3)
  | vsar (o : V3)
  | vcmp (o : VcmpR)
  | vsel (o : VselR)
  | vmov (o : V2)
  | vbcast (o : VbcR)
  | vins (o : VinsR)
  | vext (o : VextR)
  | vperm (o : V3)
  | vshuf (o : V3)
  | vrot (o : VrotR)
  | vzip (o : V3)
  | vunzip (o : V3)
  | vcvt (o : VcvtR)
  | vrcp (o : V2)
  | vrsq (o : V2)
  | vexp (o : V2)
  | vlog (o : V2)
  | vradd (o : VredR)
  | vrmax (o : VredR)
  | vrmin (o : VredR)
  | vdot (o : VdotR)
  | mand (o : M3)
  | mor (o : M3)
  | mxor (o : M3)
  | mnot (o : M2)
  | mpop (o : MW)
  | mfirst (o : MW)
  | mtop (o : MP)
  | cvt (o : T2C)
  | align (o : T2C)
  | dealign (o : T2C)
  | bscale (o : T2C)
  | seed (o : S1W)
  | vpack (o : VpackR)
  | vunpk (o : VunpkR)
  | cvld (o : CvldR)
  | cvst (o : CvstR)
  | mload (o : T2X)
  | mma (o : T2X)
  | mmaf (o : T2X)
  | aclr (o : S2W)
  | ard (o : ArdR)
  | asto (o : T2X)
  | mgrp (o : S1W)
  | amask (o : S2W)
  | grule (o : S1W)
  | geval (o : T2X)
  | gclr (o : N0)
  | grd (o : R2W)
  | tspawn (o : S1W)
  | tcommit (o : N0)
  | tend (o : N0)
  | tabort (o : N0)
  | tsadv (o : S1W)
  | tscmp (o : R3W)
  | rinv (o : S2W)
  | calld (o : CalldOps)
  | calldr (o : CalldrOps)
  | retd (o : N0)
  | taild (o : S1W)
  | cfetch (o : S1W)
  | vevict (o : S1W)
  | vprobe (o : R2W)
  | mtsr (o : MtsrOps)
  | mfsr (o : MfsrOps)
  | trap (o : KTrap)
  | uiret (o : N0)
  | tret (o : N0)
  | csave (o : S1W)
  | crest (o : S1W)
  | ttld (o : S2W)
  | ttst (o : S2W)
  | waite (o : N0)
  | bkpt (o : N0)
  | snap (o : N0)
  /-- DEMAND_FETCH (R184). -/
  | demandFetch (slot : Nat) (half : Half)
  /-- INSTRUCTION_LINE_FILL (R369). -/
  | instructionLineFill (core : Nat) (line : Nat)
  /-- LOAD_DATA_RETURN (R19). -/
  | loadDataReturn (slot : Nat) (k : Nat)
  /-- WMB0_READ (R97). -/
  | wmb0Read (core : Nat)
  /-- WMB1_READ (R97). -/
  | wmb1Read (core : Nat)
  /-- WIN2_WRITE (R97). -/
  | win2Write (core : Nat)
  /-- INSTALL_RECORD_RECEIVE (R99). -/
  | installRecordReceive (die : Nat) (slice : Nat)
  /-- CLEARING_QUEUE_RELEASE (R266). -/
  | clearingQueueRelease (part : Nat)
  /-- TRANSFER_START (R111). -/
  | transferStart (tile : Nat) (ch : Nat)
  /-- TRANSFER_COMPLETE (R111). -/
  | transferComplete (tile : Nat) (ch : Nat) (id : Nat)
  /-- TRANSFER_FAULT (R119). -/
  | transferFault (tile : Nat) (ch : Nat) (id : Nat)
  /-- COLLECTIVE_MATCH_COMPLETE (R122). -/
  | collectiveMatchComplete (group : Nat) (k : Nat)
  /-- COMPLETION_INTERRUPT (R31). -/
  | completionInterrupt (slot : Nat)
  /-- BYTE_COUNT_TRAP_DELIVERY (R116). -/
  | byteCountTrapDelivery (slot : Nat)
  /-- SEMAPHORE_OVERFLOW_DELIVERY (R241). -/
  | semaphoreOverflowDelivery (slot : Nat)
  /-- PORT_WORD_ARRIVAL (R157). -/
  | portWordArrival (slot : Nat) (port : Nat)
  /-- LINK_WORD_ARRIVAL (R158). -/
  | linkWordArrival (tile : Nat) (west : Bool)
  /-- SLOT_UNPARK (R151). -/
  | slotUnpark (slot : Nat) (half : Half)
  /-- FAULT_ENTRY_REPLY (R305). -/
  | faultEntryReply (key : Nat) (word0 : Word)
  /-- ENGINE_OPERATION_START (R219). -/
  | engineOperationStart (tile : Nat)
  /-- ENGINE_SEM_POST (R217). -/
  | engineSemPost (tile : Nat)
  /-- ENGINE_OPERATION_COMPLETE (R218). -/
  | engineOperationComplete (tile : Nat)
  /-- CONVERSION_UNIT_COMPLETE (R374). -/
  | conversionUnitComplete (tile : Nat)
  /-- DISPATCHER_PLACE (R260). -/
  | dispatcherPlace (part : Nat)
  /-- BANK_MODE_CHANGE (R127). -/
  | bankModeChange (tile : Nat) (bank : Nat)
  /-- REDUNDANT_MISMATCH (R272). -/
  | redundantMismatch (task : Nat)
  /-- WATCHDOG_EXPIRY (R310). -/
  | watchdogExpiry (task : Nat)
  /-- PARTITION_DRAIN_COMPLETE (R310). -/
  | partitionDrainComplete (part : Nat)
  /-- PREEMPTION_TRAP (R307). -/
  | preemptionTrap (slot : Nat)
  /-- CODE_FETCH_INSTALL (R285). -/
  | codeFetchInstall (cluster : Nat) (k : Nat)
  /-- MINT_PUBLISH (R291). -/
  | mintPublish (k : Nat)
  /-- CODE_FETCH_FAILURE (R286). -/
  | codeFetchFailure (cluster : Nat) (k : Nat)
  /-- INVALIDATION_COMPLETE (R104). -/
  | invalidationComplete
  /-- L1_FLUSH_COMPLETE (R135). -/
  | l1FlushComplete (tile : Nat)
  /-- SECTOR_PIN_COMPLETE (R106). -/
  | sectorPinComplete (die : Nat) (slice : Nat)
  /-- CONTAINMENT_FENCE (R341). -/
  | containmentFence (rect : Nat)
  /-- CONTAINMENT_RESET (R341). -/
  | containmentReset (rect : Nat)
  /-- LINK_TRAINING_COMPLETE (R321). -/
  | linkTrainingComplete (module : Nat)
  /-- AQGAL_REQUEST_TIMEOUT (R330). -/
  | aqgalRequestTimeout (k : Nat)
  /-- SYNC_FLIT_SEND (R336). -/
  | syncFlitSend (port : Nat)
  /-- CREDIT_PROBE (R334). -/
  | creditProbe (qp : Nat)
  /-- START_STAGE_COMPLETE (R348). -/
  | startStageComplete
  /-- STORE_PERFORMED (R50). -/
  | storePerformed (slot : Nat)
  /-- COLLECTIVE_MEMBER_LOST (R122). -/
  | collectiveMemberLost (group : Nat) (k : Nat)
  /-- PFQBASE_WRITE (R303). -/
  | pfqbaseWrite (v : Word)
  /-- LAUNCH_RECORD_ARRIVAL (R253). -/
  | launchRecordArrival (aqgal : Bool) (record : List (BitVec 64))
  /-- PREQ_WRITE (R307). -/
  | preqWrite (core : Nat) (v : Word)
  /-- PARTITION_RESIZE (R257). -/
  | partitionResize (part : Nat) (v : Word)
  /-- VLIM_WRITE (R275). -/
  | vlimWrite (cluster : Nat) (v : Word)
  /-- TXCMD_INVALIDATE_PAGE (R104). -/
  | txcmdInvalidatePage (v : Word)
  /-- TXCMD_INVALIDATE_ASID (R104). -/
  | txcmdInvalidateAsid (v : Word)
  /-- TXCMD_INVALIDATE_ALL (R104). -/
  | txcmdInvalidateAll (v : Word)
  /-- L1CTL_FLUSH_ASID (R135). -/
  | l1ctlFlushAsid (tile : Nat) (v : Word)
  /-- L1CTL_FLUSH_TILE (R135). -/
  | l1ctlFlushTile (tile : Nat) (v : Word)
  /-- SRPCTL_ENABLE (R106). -/
  | srpctlEnable (die : Nat) (slice : Nat) (v : Word)
  /-- SRPADD_PIN (R106). -/
  | srpaddPin (die : Nat) (slice : Nat) (v : Word)
  /-- RSLOW_WRITE (R155). -/
  | rslowWrite (slot : Nat) (v : Word)
  /-- NANMODE_WRITE (R73). -/
  | nanmodeWrite (slot : Nat) (v : Word)
  /-- SRGEN_WRITE (R77). -/
  | srgenWrite (slot : Nat) (v : Word)
  /-- MPDST_WRITE (R156). -/
  | mpdstWrite (slot : Nat) (n : Nat) (v : Word)
  /-- REGISTER_WRITE (R9). -/
  | registerWrite (addr : Nat) (v : Word)
  /-- CTRECT_REJOIN (R341). -/
  | ctrectRejoin (rect : Nat) (v : Word)
  /-- ROUTER_LINK_FAILURE (R343). -/
  | routerLinkFailure (tile : Nat)
  /-- LMCTL_RETRAIN (R321). -/
  | lmctlRetrain (module : Nat) (v : Word)
  /-- LMCTL_COUNTER_CLEAR (R321). -/
  | lmctlCounterClear (module : Nat) (v : Word)
  /-- UCIE_FLIT_RECEIVE (R322). -/
  | ucieFlitReceive (module : Nat) (crcOk : Bool)
  /-- CRC_WINDOW_END (R324). -/
  | crcWindowEnd (module : Nat)
  /-- LANE_RETIREMENT (R323). -/
  | laneRetirement (module : Nat) (lane : Nat)
  /-- AQGAL_FLIT_RECEIVE (R329). -/
  | aqgalFlitReceive (port : Nat) (flit : List (BitVec 64))
  /-- AQGAL_PORT_SET_CHANGE (R330). -/
  | aqgalPortSetChange (port : Nat) (up : Bool)
  /-- LAUNCH_FLIT_SEQUENCE (R331). -/
  | launchFlitSequence (port : Nat) (record : List (BitVec 64))
  /-- ROCE_PACKET_RECEIVE (R333). -/
  | rocePacketReceive (port : Nat) (packet : List (BitVec 8))
  /-- LAUNCH_SEND (R335). -/
  | launchSend (qp : Nat) (record : List (BitVec 64))
  /-- PTP_MESSAGE (R336). -/
  | ptpMessage (time : Word)
  /-- UNDERVOLT_WINDOW_END (R345). -/
  | undervoltWindowEnd (array : Nat) (errors : Nat)
  /-- SNAPCTL_GO (R347). -/
  | snapctlGo (v : Word)
  /-- POWER_GOOD (R348). -/
  | powerGood
  /-- START_STAGE_FAILURE (R348). -/
  | startStageFailure (reason : Word)
  /-- ATTESTATION_CHALLENGE (R349). -/
  | attestationChallenge (nonce : List (BitVec 8))
  /-- THERMAL_TRIP (R346). -/
  | thermalTrip (info : Word)
  /-- POWER_LOSS (R346). -/
  | powerLoss
  /-- SCRUBBING (R344). -/
  | scrubbing (uncorrectable : Bool) (addr : Nat)
deriving DecidableEq, Repr

end Sys2Proof
end

