-- ==== Sys2Proof/Decode.lean ====
section
/-! DEFINITION. Decoding and encoding (spec/03_encoding.md R38 to R63; details of R57, R164, R179, R187, R212, R301).

`Raw` holds the fields of R40 to R42. `decode` makes the checks of R57 in their order; `encode` is written from the same
tables. -/
namespace Sys2Proof

/-- The fields of an instruction (R40, R42): `ext` holds bits [127:64]. -/
structure Raw where
  len : Len
  op  : BitVec 8
  gp  : BitVec 3
  gs  : Bool
  d   : BitVec 6
  s1  : BitVec 6
  s2  : BitVec 6
  x20 : BitVec 20
  m12 : BitVec 12
  ext : BitVec 64
deriving DecidableEq, Repr

def Len.code : Len → BitVec 2 | .l64 => 0 | .l96 => 1 | .l128 => 2
/-- Length code 0b11 is no length (R38); it never reaches this function. -/
def Len.ofCode : BitVec 2 → Len | 0 => .l64 | 1 => .l96 | _ => .l128
/-- The length in bytes (R38). -/
def Len.bytes : Len → Nat | .l64 => 8 | .l96 => 12 | .l128 => 16

/-- The first 64 bits of an instruction (R40). -/
def Raw.word (r : Raw) : BitVec 64 :=
  r.m12 ++ r.x20 ++ r.s2 ++ r.s1 ++ r.d ++ BitVec.ofBool r.gs ++ r.gp ++ r.op ++ r.len.code

/-- The fields of the first 64 bits and of the bits above them (R40, R42). -/
def Raw.ofBits (w : BitVec 64) (ext : BitVec 64) : Raw :=
  { len := Len.ofCode (bits w 0 2), op := bits w 2 8, gp := bits w 10 3, gs := w.getLsbD 13,
    d := bits w 14 6, s1 := bits w 20 6, s2 := bits w 26 6, x20 := bits w 32 20, m12 := bits w 52 12,
    ext := match Len.ofCode (bits w 0 2) with
      | .l64 => 0
      | .l96 => (bits ext 0 32).zeroExtend 64
      | .l128 => ext }

def Raw.ofWord (w : BitVec 64) : Raw := Raw.ofBits w 0

/-- The whole instruction as one number, bit 0 the least significant bit of its first word. -/
def Raw.toNat (r : Raw) : Nat := r.word.toNat + r.ext.toNat * 2 ^ 64

/-! Codes of R43, R52 to R54 and R301. -/

/-- The code of a W-class operand (R43). -/
def WReg.code : WReg → BitVec 6
  | .w n => n.zeroExtend 6
  | .g n => 0x20#6 ||| n.zeroExtend 6
  | .a n => 0x28#6 + n.zeroExtend 6
  | .q => 0x38#6
  | .mp n => 0x39#6 + n.zeroExtend 6
  | .lkw => 0x3D#6
  | .lke => 0x3E#6
  | .const _ _ => 0x3F#6

/-- The constant-window operand that X20 holds for code 0x3F (R41). -/
def winBits (win : BitVec 3) (off : BitVec 17) : BitVec 20 := win ++ off

def WReg.win : WReg → BitVec 20
  | .const win off => winBits win off
  | _ => 0#20

/-- The operand that a code names, with X20 for code 0x3F (R43). -/
def WReg.ofCode (c : BitVec 6) (x20 : BitVec 20) : WReg :=
  if c < 0x20#6 then .w (bits c 0 5)
  else if c < 0x28#6 then .g (bits c 0 3)
  else if c < 0x38#6 then .a (bits (c - 0x28#6) 0 4)
  else if c = 0x38#6 then .q
  else if c < 0x3D#6 then .mp (bits (c - 0x39#6) 0 2)
  else if c = 0x3D#6 then .lkw
  else if c = 0x3E#6 then .lke
  else .const (bits x20 17 3) (bits x20 0 17)

def VReg.code : VReg → BitVec 6 | .v n => n.zeroExtend 6 | .q => 0x38#6
def VReg.ofCode (c : BitVec 6) : VReg := if c < 0x10#6 then .v (bits c 0 4) else .q
def pcode (n : BitVec 3) : BitVec 6 := n.zeroExtend 6
def pOf (c : BitVec 6) : BitVec 3 := bits c 0 3
def acode (n : BitVec 4) : BitVec 6 := 0x28#6 + n.zeroExtend 6
def aOf (c : BitVec 6) : BitVec 4 := bits (c - 0x28#6) 0 4

def Cond.code : Cond → BitVec 4
  | .eq => 0 | .ne => 1 | .lt => 2 | .ge => 3 | .ltu => 4 | .geu => 5 | .le => 6 | .gt => 7 | .un => 8 | .or => 9
def Cond.ofCode (c : BitVec 4) : Cond :=
  match c.toNat with
  | 0 => .eq | 1 => .ne | 2 => .lt | 3 => .ge | 4 => .ltu | 5 => .geu | 6 => .le | 7 => .gt | 8 => .un | _ => .or

def ETy.code : ETy → BitVec 4
  | .f32 => 0 | .f16 => 1 | .bf16 => 2 | .i32 => 3 | .i16 => 4 | .i8 => 5 | .u32 => 6 | .u16 => 7 | .u8 => 8
  | .i64 => 9 | .u64 => 10
def ETy.ofCode (c : BitVec 4) : ETy :=
  match c.toNat with
  | 0 => .f32 | 1 => .f16 | 2 => .bf16 | 3 => .i32 | 4 => .i16 | 5 => .i8 | 6 => .u32 | 7 => .u16 | 8 => .u8
  | 9 => .i64 | _ => .u64

def FTy.code : FTy → BitVec 4 | .f32 => 0 | .f16 => 1 | .bf16 => 2
def FTy.ofCode (c : BitVec 4) : FTy := match c.toNat with | 0 => .f32 | 1 => .f16 | _ => .bf16
def FTy.ety : FTy → ETy | .f32 => .f32 | .f16 => .f16 | .bf16 => .bf16

def Rnd.code : Rnd → BitVec 3 | .rne => 0 | .rtz => 1 | .rup => 2 | .rdn => 3 | .rsr => 4
def Rnd.ofCode (c : BitVec 3) : Rnd :=
  match c.toNat with | 0 => .rne | 1 => .rtz | 2 => .rup | 3 => .rdn | _ => .rsr

def Size.code : Size → BitVec 3 | .b => 0 | .h => 1 | .w => 2 | .d => 3 | .v => 4
def Size.ofCode (c : BitVec 3) : Size :=
  match c.toNat with | 0 => .b | 1 => .h | 2 => .w | 3 => .d | _ => .v
/-- The size in bytes (R52). -/
def Size.bytes : Size → Nat | .b => 1 | .h => 2 | .w => 4 | .d => 8 | .v => 64

def Order.code : Order → BitVec 2 | .none => 0 | .acq => 1 | .rel => 2 | .ar => 3
def Order.ofCode (c : BitVec 2) : Order :=
  match c.toNat with | 0 => .none | 1 => .acq | 2 => .rel | _ => .ar

def PlogOp.code : PlogOp → BitVec 2 | .and => 0 | .or => 1 | .xor => 2 | .andn => 3
def PlogOp.ofCode (c : BitVec 2) : PlogOp :=
  match c.toNat with | 0 => .and | 1 => .or | 2 => .xor | _ => .andn
def BitcOp.code : BitcOp → BitVec 2 | .clz => 0 | .ctz => 1 | .pop => 2
def BitcOp.ofCode (c : BitVec 2) : BitcOp := match c.toNat with | 0 => .clz | 1 => .ctz | _ => .pop

/-- The size code of an atomic of W or D size (R143): true is D. -/
def dszCode (d : Bool) : BitVec 3 := if d then 3 else 2
def dszOf (c : BitVec 3) : Bool := c == 3
/-- VINS and VEXT take `.I64` or `.U64` (R194): true is U64. -/
def uCode (u : Bool) : BitVec 4 := if u then 10 else 9
def uOf (c : BitVec 4) : Bool := c == 10
/-- The SEM enable and semaphore number of R52. -/
def semCode : Option (BitVec 5) → BitVec 7
  | none => 0
  | some n => n.zeroExtend 7 <<< 1 ||| 1
def semOf (c : BitVec 7) : Option (BitVec 5) := if c.getLsbD 0 then some (bits c 1 5) else none

/-- One modifier bit at position `n` of M12. -/
def bitAt (b : Bool) (n : Nat) : BitVec 12 := (BitVec.ofBool b).zeroExtend 12 <<< n

/-- The number of a system register (R301). -/
def SysReg.num : SysReg → BitVec 12
  | .nanmode => 0x000 | .tsr => 0x001 | .uivec => 0x002 | .srgen => 0x003 | .semts => 0x004 | .slotstat => 0x005
  | .wdcnt => 0x006
  | .cwin n => 0x008#12 + n.zeroExtend 12
  | .cdone c => 0x010#12 + c.zeroExtend 12
  | .mpdst n => 0x018#12 + n.zeroExtend 12
  | .wbase => 0x020 | .rslow => 0x021 | .rsidx => 0x022 | .rsdata => 0x023
  | .cfp => 0x024 | .cfda => 0x025 | .cfh => 0x026
  | .qpend => 0x028 | .relpend => 0x029
  | .qpbuf n => 0x030#12 + n.zeroExtend 12
  | .mxstat => 0x038 | .mxgmode => 0x039 | .amskrow => 0x03A | .amskcol => 0x03B
  | .wmb0 => 0x040 | .wmb1 => 0x041 | .win0 => 0x042 | .win1 => 0x043 | .win2 => 0x044
  | .vlim => 0x048
  | .tvec => 0x050 | .tcause => 0x051 | .tinsn => 0x052 | .tpc => 0x053 | .tva => 0x054 | .tstat => 0x055

/-- The register of an assigned number, or none (R301). -/
def SysReg.ofNum? (n : BitVec 12) : Option SysReg :=
  match n.toNat with
  | 0x000 => some .nanmode | 0x001 => some .tsr | 0x002 => some .uivec | 0x003 => some .srgen | 0x004 => some .semts
  | 0x005 => some .slotstat | 0x006 => some .wdcnt
  | 0x008 => some (.cwin 0) | 0x009 => some (.cwin 1) | 0x00A => some (.cwin 2) | 0x00B => some (.cwin 3)
  | 0x00C => some (.cwin 4) | 0x00D => some (.cwin 5) | 0x00E => some (.cwin 6) | 0x00F => some (.cwin 7)
  | 0x010 => some (.cdone 0) | 0x011 => some (.cdone 1) | 0x012 => some (.cdone 2) | 0x013 => some (.cdone 3)
  | 0x014 => some (.cdone 4) | 0x015 => some (.cdone 5) | 0x016 => some (.cdone 6) | 0x017 => some (.cdone 7)
  | 0x018 => some (.mpdst 0) | 0x019 => some (.mpdst 1) | 0x01A => some (.mpdst 2) | 0x01B => some (.mpdst 3)
  | 0x020 => some .wbase | 0x021 => some .rslow | 0x022 => some .rsidx | 0x023 => some .rsdata
  | 0x024 => some .cfp | 0x025 => some .cfda | 0x026 => some .cfh
  | 0x028 => some .qpend | 0x029 => some .relpend
  | 0x030 => some (.qpbuf 0) | 0x031 => some (.qpbuf 1) | 0x032 => some (.qpbuf 2) | 0x033 => some (.qpbuf 3)
  | 0x034 => some (.qpbuf 4) | 0x035 => some (.qpbuf 5) | 0x036 => some (.qpbuf 6) | 0x037 => some (.qpbuf 7)
  | 0x038 => some .mxstat | 0x039 => some .mxgmode | 0x03A => some .amskrow | 0x03B => some .amskcol
  | 0x040 => some .wmb0 | 0x041 => some .wmb1 | 0x042 => some .win0 | 0x043 => some .win1 | 0x044 => some .win2
  | 0x048 => some .vlim
  | 0x050 => some .tvec | 0x051 => some .tcause | 0x052 => some .tinsn | 0x053 => some .tpc | 0x054 => some .tva
  | 0x055 => some .tstat
  | _ => none

def SysReg.ofNum (n : BitVec 12) : SysReg := (SysReg.ofNum? n).getD .nanmode

/-! Immediates (R41, R42). -/

/-- X20 of a form with an immediate: imm20 in the 64-bit form, else the constant-window operand or zero. -/
def immX20 (len : Len) (imm : Word) (win : BitVec 20) : BitVec 20 :=
  match len with
  | .l64 => imm.truncate 20 ||| win
  | _ => win

/-- The bits above 63 of a form with an immediate: none, imm32 or imm64. -/
def immExt (len : Len) (imm : Word) : BitVec 64 :=
  match len with
  | .l64 => 0
  | .l96 => (bits imm 0 32).zeroExtend 64
  | .l128 => imm

/-- The immediate of a form, sign-extended to 64 bits. -/
def immOf (r : Raw) : Word :=
  match r.len with
  | .l64 => sext64 r.x20
  | .l96 => sext64 (bits r.ext 0 32)
  | .l128 => r.ext

/-- S3 of layout E (R42). -/
def s3Ext (c : BitVec 6) : BitVec 64 := c.zeroExtend 64

/-- The class of a register field (R43). -/
inductive Cls where | w | p | v | m
deriving DecidableEq, Repr

/-- The register fields that a shape uses (R63). -/
structure FieldUse where
  d  : Option Cls
  s1 : Option Cls
  s2 : Option Cls
  s3 : Option Cls
deriving DecidableEq, Repr


/-- The words of shape N0 (R40 to R42, R63). -/
def encN0 (op : BitVec 8) (o : N0) : Raw :=
  Raw.mk (.l64) op o.gd.p o.gd.neg (0#6) (0#6) (0#6) (0#20) (0#12) (0#64)
/-- The operands of shape N0 in the fields of an instruction. -/
def decN0 (r : Raw) : N0 :=
  N0.mk ⟨r.gp, r.gs⟩ 

/-- The words of shape NopOps (R40 to R42, R63). -/
def encNopOps (op : BitVec 8) (o : NopOps) : Raw :=
  Raw.mk (o.len) op o.gd.p o.gd.neg (0#6) (0#6) (0#6) (0#20) (0#12) (0#64)
/-- The operands of shape NopOps in the fields of an instruction. -/
def decNopOps (r : Raw) : NopOps :=
  NopOps.mk ⟨r.gp, r.gs⟩ (r.len)

/-- The words of shape R3W (R40 to R42, R63). -/
def encR3W (op : BitVec 8) (o : R3W) : Raw :=
  Raw.mk (.l64) op o.gd.p o.gd.neg (WReg.code o.d) (WReg.code o.s1) (WReg.code o.s2) (WReg.win o.d ||| WReg.win o.s1 ||| WReg.win o.s2) (0#12) (0#64)
/-- The operands of shape R3W in the fields of an instruction. -/
def decR3W (r : Raw) : R3W :=
  R3W.mk ⟨r.gp, r.gs⟩ (WReg.ofCode r.d r.x20) (WReg.ofCode r.s1 r.x20) (WReg.ofCode r.s2 r.x20)

/-- The words of shape R2W (R40 to R42, R63). -/
def encR2W (op : BitVec 8) (o : R2W) : Raw :=
  Raw.mk (.l64) op o.gd.p o.gd.neg (WReg.code o.d) (WReg.code o.s1) (0#6) (WReg.win o.d ||| WReg.win o.s1) (0#12) (0#64)
/-- The operands of shape R2W in the fields of an instruction. -/
def decR2W (r : Raw) : R2W :=
  R2W.mk ⟨r.gp, r.gs⟩ (WReg.ofCode r.d r.x20) (WReg.ofCode r.s1 r.x20)

/-- The words of shape RIW (R40 to R42, R63). -/
def encRIW (op : BitVec 8) (o : RIW) : Raw :=
  Raw.mk (o.len) op o.gd.p o.gd.neg (WReg.code o.d) (WReg.code o.s1) (0#6) (immX20 o.len (o.imm) (WReg.win o.d ||| WReg.win o.s1)) (0#12) (immExt o.len (o.imm))
/-- The operands of shape RIW in the fields of an instruction. -/
def decRIW (r : Raw) : RIW :=
  RIW.mk ⟨r.gp, r.gs⟩ (r.len) (WReg.ofCode r.d r.x20) (WReg.ofCode r.s1 r.x20) (immOf r)

/-- The words of shape I1W (R40 to R42, R63). -/
def encI1W (op : BitVec 8) (o : I1W) : Raw :=
  Raw.mk (o.len) op o.gd.p o.gd.neg (WReg.code o.d) (0#6) (0#6) (immX20 o.len (o.imm) (WReg.win o.d)) (0#12) (immExt o.len (o.imm))
/-- The operands of shape I1W in the fields of an instruction. -/
def decI1W (r : Raw) : I1W :=
  I1W.mk ⟨r.gp, r.gs⟩ (r.len) (WReg.ofCode r.d r.x20) (immOf r)

/-- The words of shape CmpR (R40 to R42, R63). -/
def encCmpR (op : BitVec 8) (o : CmpR) : Raw :=
  Raw.mk (.l64) op o.gd.p o.gd.neg (pcode o.d) (WReg.code o.s1) (WReg.code o.s2) (WReg.win o.s1 ||| WReg.win o.s2) (((Cond.code o.cond).zeroExtend 12 <<< 0)) (0#64)
/-- The operands of shape CmpR in the fields of an instruction. -/
def decCmpR (r : Raw) : CmpR :=
  CmpR.mk ⟨r.gp, r.gs⟩ (Cond.ofCode (bits r.m12 0 4)) (pOf r.d) (WReg.ofCode r.s1 r.x20) (WReg.ofCode r.s2 r.x20)

/-- The words of shape CmpI (R40 to R42, R63). -/
def encCmpI (op : BitVec 8) (o : CmpI) : Raw :=
  Raw.mk (o.len) op o.gd.p o.gd.neg (pcode o.d) (WReg.code o.s1) (0#6) (immX20 o.len (o.imm) (WReg.win o.s1)) (((Cond.code o.cond).zeroExtend 12 <<< 0)) (immExt o.len (o.imm))
/-- The operands of shape CmpI in the fields of an instruction. -/
def decCmpI (r : Raw) : CmpI :=
  CmpI.mk ⟨r.gp, r.gs⟩ (Cond.ofCode (bits r.m12 0 4)) (r.len) (pOf r.d) (WReg.ofCode r.s1 r.x20) (immOf r)

/-- The words of shape PlogR (R40 to R42, R63). -/
def encPlogR (op : BitVec 8) (o : PlogR) : Raw :=
  Raw.mk (.l64) op o.gd.p o.gd.neg (pcode o.d) (pcode o.s1) (pcode o.s2) (0#20) (((PlogOp.code o.op).zeroExtend 12 <<< 0)) (0#64)
/-- The operands of shape PlogR in the fields of an instruction. -/
def decPlogR (r : Raw) : PlogR :=
  PlogR.mk ⟨r.gp, r.gs⟩ (PlogOp.ofCode (bits r.m12 0 2)) (pOf r.d) (pOf r.s1) (pOf r.s2)

/-- The words of shape SelR (R40 to R42, R63). -/
def encSelR (op : BitVec 8) (o : SelR) : Raw :=
  Raw.mk (.l64) op o.gd.p o.gd.neg (WReg.code o.d) (WReg.code o.s1) (WReg.code o.s2) (WReg.win o.d ||| WReg.win o.s1 ||| WReg.win o.s2) ((o.pn.zeroExtend 12 <<< 0)) (0#64)
/-- The operands of shape SelR in the fields of an instruction. -/
def decSelR (r : Raw) : SelR :=
  SelR.mk ⟨r.gp, r.gs⟩ (bits r.m12 0 3) (WReg.ofCode r.d r.x20) (WReg.ofCode r.s1 r.x20) (WReg.ofCode r.s2 r.x20)

/-- The words of shape BitcR (R40 to R42, R63). -/
def encBitcR (op : BitVec 8) (o : BitcR) : Raw :=
  Raw.mk (.l64) op o.gd.p o.gd.neg (WReg.code o.d) (WReg.code o.s1) (0#6) (WReg.win o.d ||| WReg.win o.s1) (((BitcOp.code o.op).zeroExtend 12 <<< 0)) (0#64)
/-- The operands of shape BitcR in the fields of an instruction. -/
def decBitcR (r : Raw) : BitcR :=
  BitcR.mk ⟨r.gp, r.gs⟩ (BitcOp.ofCode (bits r.m12 0 2)) (WReg.ofCode r.d r.x20) (WReg.ofCode r.s1 r.x20)

/-- The words of shape ExtrI (R40 to R42, R63). -/
def encExtrI (op : BitVec 8) (o : ExtrI) : Raw :=
  Raw.mk (o.len) op o.gd.p o.gd.neg (WReg.code o.d) (WReg.code o.s1) (0#6) (immX20 o.len (o.imm) (WReg.win o.d ||| WReg.win o.s1)) (bitAt o.sx 0) (immExt o.len (o.imm))
/-- The operands of shape ExtrI in the fields of an instruction. -/
def decExtrI (r : Raw) : ExtrI :=
  ExtrI.mk ⟨r.gp, r.gs⟩ (r.m12.getLsbD 0) (r.len) (WReg.ofCode r.d r.x20) (WReg.ofCode r.s1 r.x20) (immOf r)

/-- The words of shape B0 (R40 to R42, R63). -/
def encB0 (op : BitVec 8) (o : B0) : Raw :=
  Raw.mk (o.len) op o.gd.p o.gd.neg (0#6) (0#6) (0#6) (immX20 o.len (o.imm) (0#20)) (0#12) (immExt o.len (o.imm))
/-- The operands of shape B0 in the fields of an instruction. -/
def decB0 (r : Raw) : B0 :=
  B0.mk ⟨r.gp, r.gs⟩ (r.len) (immOf r)

/-- The words of shape B1W (R40 to R42, R63). -/
def encB1W (op : BitVec 8) (o : B1W) : Raw :=
  Raw.mk (o.len) op o.gd.p o.gd.neg (0#6) (WReg.code o.s1) (0#6) (immX20 o.len (o.imm) (WReg.win o.s1)) (0#12) (immExt o.len (o.imm))
/-- The operands of shape B1W in the fields of an instruction. -/
def decB1W (r : Raw) : B1W :=
  B1W.mk ⟨r.gp, r.gs⟩ (r.len) (WReg.ofCode r.s1 r.x20) (immOf r)

/-- The words of shape B1P (R40 to R42, R63). -/
def encB1P (op : BitVec 8) (o : B1P) : Raw :=
  Raw.mk (o.len) op o.gd.p o.gd.neg (0#6) (pcode o.s1) (0#6) (immX20 o.len (o.imm) (0#20)) (0#12) (immExt o.len (o.imm))
/-- The operands of shape B1P in the fields of an instruction. -/
def decB1P (r : Raw) : B1P :=
  B1P.mk ⟨r.gp, r.gs⟩ (r.len) (pOf r.s1) (immOf r)

/-- The words of shape B2W (R40 to R42, R63). -/
def encB2W (op : BitVec 8) (o : B2W) : Raw :=
  Raw.mk (o.len) op o.gd.p o.gd.neg (0#6) (WReg.code o.s1) (WReg.code o.s2) (immX20 o.len (o.imm) (WReg.win o.s1 ||| WReg.win o.s2)) (0#12) (immExt o.len (o.imm))
/-- The operands of shape B2W in the fields of an instruction. -/
def decB2W (r : Raw) : B2W :=
  B2W.mk ⟨r.gp, r.gs⟩ (r.len) (WReg.ofCode r.s1 r.x20) (WReg.ofCode r.s2 r.x20) (immOf r)

/-- The words of shape S1W (R40 to R42, R63). -/
def encS1W (op : BitVec 8) (o : S1W) : Raw :=
  Raw.mk (.l64) op o.gd.p o.gd.neg (0#6) (WReg.code o.s1) (0#6) (WReg.win o.s1) (0#12) (0#64)
/-- The operands of shape S1W in the fields of an instruction. -/
def decS1W (r : Raw) : S1W :=
  S1W.mk ⟨r.gp, r.gs⟩ (WReg.ofCode r.s1 r.x20)

/-- The words of shape S2W (R40 to R42, R63). -/
def encS2W (op : BitVec 8) (o : S2W) : Raw :=
  Raw.mk (.l64) op o.gd.p o.gd.neg (0#6) (WReg.code o.s1) (WReg.code o.s2) (WReg.win o.s1 ||| WReg.win o.s2) (0#12) (0#64)
/-- The operands of shape S2W in the fields of an instruction. -/
def decS2W (r : Raw) : S2W :=
  S2W.mk ⟨r.gp, r.gs⟩ (WReg.ofCode r.s1 r.x20) (WReg.ofCode r.s2 r.x20)

/-- The words of shape LdOps (R40 to R42, R63). -/
def encLdOps (op : BitVec 8) (o : LdOps) : Raw :=
  Raw.mk (o.len) op o.gd.p o.gd.neg (WReg.code o.d) (WReg.code o.base) (0#6) (immX20 o.len (o.imm) (WReg.win o.d ||| WReg.win o.base)) (((Size.code o.sz).zeroExtend 12 <<< 0) ||| bitAt o.sx 3 ||| bitAt o.acq 4) (immExt o.len (o.imm))
/-- The operands of shape LdOps in the fields of an instruction. -/
def decLdOps (r : Raw) : LdOps :=
  LdOps.mk ⟨r.gp, r.gs⟩ (Size.ofCode (bits r.m12 0 3)) (r.m12.getLsbD 3) (r.m12.getLsbD 4) (r.len) (WReg.ofCode r.d r.x20) (WReg.ofCode r.s1 r.x20) (immOf r)

/-- The words of shape LxOps (R40 to R42, R63). -/
def encLxOps (op : BitVec 8) (o : LxOps) : Raw :=
  Raw.mk (.l64) op o.gd.p o.gd.neg (WReg.code o.d) (WReg.code o.base) (WReg.code o.idx) (WReg.win o.d ||| WReg.win o.base ||| WReg.win o.idx) (((Size.code o.sz).zeroExtend 12 <<< 0) ||| bitAt o.sx 3 ||| bitAt o.acq 4) (0#64)
/-- The operands of shape LxOps in the fields of an instruction. -/
def decLxOps (r : Raw) : LxOps :=
  LxOps.mk ⟨r.gp, r.gs⟩ (Size.ofCode (bits r.m12 0 3)) (r.m12.getLsbD 3) (r.m12.getLsbD 4) (WReg.ofCode r.d r.x20) (WReg.ofCode r.s1 r.x20) (WReg.ofCode r.s2 r.x20)

/-- The words of shape StOps (R40 to R42, R63). -/
def encStOps (op : BitVec 8) (o : StOps) : Raw :=
  Raw.mk (o.len) op o.gd.p o.gd.neg (0#6) (WReg.code o.base) (WReg.code o.data) (immX20 o.len (o.imm) (WReg.win o.base ||| WReg.win o.data)) (((Size.code o.sz).zeroExtend 12 <<< 0) ||| bitAt o.rel 5) (immExt o.len (o.imm))
/-- The operands of shape StOps in the fields of an instruction. -/
def decStOps (r : Raw) : StOps :=
  StOps.mk ⟨r.gp, r.gs⟩ (Size.ofCode (bits r.m12 0 3)) (r.m12.getLsbD 5) (r.len) (WReg.ofCode r.s1 r.x20) (immOf r) (WReg.ofCode r.s2 r.x20)

/-- The words of shape SxOps (R40 to R42, R63). -/
def encSxOps (op : BitVec 8) (o : SxOps) : Raw :=
  Raw.mk (.l64) op o.gd.p o.gd.neg (WReg.code o.data) (WReg.code o.base) (WReg.code o.idx) (WReg.win o.data ||| WReg.win o.base ||| WReg.win o.idx) (((Size.code o.sz).zeroExtend 12 <<< 0) ||| bitAt o.rel 5) (0#64)
/-- The operands of shape SxOps in the fields of an instruction. -/
def decSxOps (r : Raw) : SxOps :=
  SxOps.mk ⟨r.gp, r.gs⟩ (Size.ofCode (bits r.m12 0 3)) (r.m12.getLsbD 5) (WReg.ofCode r.s1 r.x20) (WReg.ofCode r.s2 r.x20) (WReg.ofCode r.d r.x20)

/-- The words of shape FeLd (R40 to R42, R63). -/
def encFeLd (op : BitVec 8) (o : FeLd) : Raw :=
  Raw.mk (o.len) op o.gd.p o.gd.neg (WReg.code o.d) (WReg.code o.base) (0#6) (immX20 o.len (o.imm) (WReg.win o.d ||| WReg.win o.base)) (3#12 ||| bitAt o.acq 4) (immExt o.len (o.imm))
/-- The operands of shape FeLd in the fields of an instruction. -/
def decFeLd (r : Raw) : FeLd :=
  FeLd.mk ⟨r.gp, r.gs⟩ (r.m12.getLsbD 4) (r.len) (WReg.ofCode r.d r.x20) (WReg.ofCode r.s1 r.x20) (immOf r)

/-- The words of shape FeSt (R40 to R42, R63). -/
def encFeSt (op : BitVec 8) (o : FeSt) : Raw :=
  Raw.mk (o.len) op o.gd.p o.gd.neg (0#6) (WReg.code o.base) (WReg.code o.data) (immX20 o.len (o.imm) (WReg.win o.base ||| WReg.win o.data)) (3#12 ||| bitAt o.rel 5) (immExt o.len (o.imm))
/-- The operands of shape FeSt in the fields of an instruction. -/
def decFeSt (r : Raw) : FeSt :=
  FeSt.mk ⟨r.gp, r.gs⟩ (r.m12.getLsbD 5) (r.len) (WReg.ofCode r.s1 r.x20) (immOf r) (WReg.ofCode r.s2 r.x20)

/-- The words of shape FeSet (R40 to R42, R63). -/
def encFeSet (op : BitVec 8) (o : FeSet) : Raw :=
  Raw.mk (o.len) op o.gd.p o.gd.neg (0#6) (WReg.code o.base) (0#6) (immX20 o.len (o.imm) (WReg.win o.base)) (3#12 ||| bitAt o.rel 5) (immExt o.len (o.imm))
/-- The operands of shape FeSet in the fields of an instruction. -/
def decFeSet (r : Raw) : FeSet :=
  FeSet.mk ⟨r.gp, r.gs⟩ (r.m12.getLsbD 5) (r.len) (WReg.ofCode r.s1 r.x20) (immOf r)

/-- The words of shape AtOps (R40 to R42, R63). -/
def encAtOps (op : BitVec 8) (o : AtOps) : Raw :=
  Raw.mk (.l64) op o.gd.p o.gd.neg (WReg.code o.d) (WReg.code o.base) (WReg.code o.val) (WReg.win o.d ||| WReg.win o.base ||| WReg.win o.val) (((dszCode o.dsz).zeroExtend 12 <<< 0) ||| ((Order.code o.ord).zeroExtend 12 <<< 4)) (0#64)
/-- The operands of shape AtOps in the fields of an instruction. -/
def decAtOps (r : Raw) : AtOps :=
  AtOps.mk ⟨r.gp, r.gs⟩ (dszOf (bits r.m12 0 3)) (Order.ofCode (bits r.m12 4 2)) (WReg.ofCode r.d r.x20) (WReg.ofCode r.s1 r.x20) (WReg.ofCode r.s2 r.x20)

/-- The words of shape AcasOps (R40 to R42, R63). -/
def encAcasOps (op : BitVec 8) (o : AcasOps) : Raw :=
  Raw.mk (.l128) op o.gd.p o.gd.neg (WReg.code o.d) (WReg.code o.base) (WReg.code o.exp) (WReg.win o.d ||| WReg.win o.base ||| WReg.win o.exp ||| WReg.win o.new) (((dszCode o.dsz).zeroExtend 12 <<< 0) ||| ((Order.code o.ord).zeroExtend 12 <<< 4)) (s3Ext (WReg.code o.new))
/-- The operands of shape AcasOps in the fields of an instruction. -/
def decAcasOps (r : Raw) : AcasOps :=
  AcasOps.mk ⟨r.gp, r.gs⟩ (dszOf (bits r.m12 0 3)) (Order.ofCode (bits r.m12 4 2)) (WReg.ofCode r.d r.x20) (WReg.ofCode r.s1 r.x20) (WReg.ofCode r.s2 r.x20) (WReg.ofCode (bits r.ext 0 6) r.x20)

/-- The words of shape BoOps (R40 to R42, R63). -/
def encBoOps (op : BitVec 8) (o : BoOps) : Raw :=
  Raw.mk (o.len) op o.gd.p o.gd.neg (0#6) (WReg.code o.base) (0#6) (immX20 o.len (o.imm) (WReg.win o.base)) (0#12) (immExt o.len (o.imm))
/-- The operands of shape BoOps in the fields of an instruction. -/
def decBoOps (r : Raw) : BoOps :=
  BoOps.mk ⟨r.gp, r.gs⟩ (r.len) (WReg.ofCode r.s1 r.x20) (immOf r)

/-- The words of shape BcrdOps (R40 to R42, R63). -/
def encBcrdOps (op : BitVec 8) (o : BcrdOps) : Raw :=
  Raw.mk (.l64) op o.gd.p o.gd.neg (WReg.code o.d) (WReg.code o.base) (0#6) (WReg.win o.d ||| WReg.win o.base) (3#12) (0#64)
/-- The operands of shape BcrdOps in the fields of an instruction. -/
def decBcrdOps (r : Raw) : BcrdOps :=
  BcrdOps.mk ⟨r.gp, r.gs⟩ (WReg.ofCode r.d r.x20) (WReg.ofCode r.s1 r.x20)

/-- The words of shape CpOps (R40 to R42, R63). -/
def encCpOps (op : BitVec 8) (o : CpOps) : Raw :=
  Raw.mk (.l64) op o.gd.p o.gd.neg (WReg.code o.d) (acode o.first) (0#6) ((WReg.win o.d) ||| (o.ch.zeroExtend 64).truncate 20) (0#12) (0#64)
/-- The operands of shape CpOps in the fields of an instruction. -/
def decCpOps (r : Raw) : CpOps :=
  CpOps.mk ⟨r.gp, r.gs⟩ (WReg.ofCode r.d r.x20) (aOf r.s1) (bits (sext64 r.x20) 0 3)

/-- The words of shape CwOps (R40 to R42, R63). -/
def encCwOps (op : BitVec 8) (o : CwOps) : Raw :=
  Raw.mk (.l64) op o.gd.p o.gd.neg (0#6) (WReg.code o.id) (0#6) ((WReg.win o.id) ||| (o.ch.zeroExtend 64).truncate 20) (0#12) (0#64)
/-- The operands of shape CwOps in the fields of an instruction. -/
def decCwOps (r : Raw) : CwOps :=
  CwOps.mk ⟨r.gp, r.gs⟩ (WReg.ofCode r.s1 r.x20) (bits (sext64 r.x20) 0 3)

/-- The words of shape CtOps (R40 to R42, R63). -/
def encCtOps (op : BitVec 8) (o : CtOps) : Raw :=
  Raw.mk (o.len) op o.gd.p o.gd.neg (WReg.code o.d) (WReg.code o.id) (0#6) (immX20 o.len (o.ch.zeroExtend 64) (WReg.win o.d ||| WReg.win o.id)) (0#12) (immExt o.len (o.ch.zeroExtend 64))
/-- The operands of shape CtOps in the fields of an instruction. -/
def decCtOps (r : Raw) : CtOps :=
  CtOps.mk ⟨r.gp, r.gs⟩ (r.len) (WReg.ofCode r.d r.x20) (WReg.ofCode r.s1 r.x20) (bits (immOf r) 0 3)

/-- The words of shape CsOps (R40 to R42, R63). -/
def encCsOps (op : BitVec 8) (o : CsOps) : Raw :=
  Raw.mk (o.len) op o.gd.p o.gd.neg (WReg.code o.d) (0#6) (0#6) (immX20 o.len (o.ch.zeroExtend 64) (WReg.win o.d)) (0#12) (immExt o.len (o.ch.zeroExtend 64))
/-- The operands of shape CsOps in the fields of an instruction. -/
def decCsOps (r : Raw) : CsOps :=
  CsOps.mk ⟨r.gp, r.gs⟩ (r.len) (WReg.ofCode r.d r.x20) (bits (immOf r) 0 3)

/-- The words of shape T3W (R40 to R42, R63). -/
def encT3W (op : BitVec 8) (o : T3W) : Raw :=
  Raw.mk (.l64) op o.gd.p o.gd.neg (WReg.code o.t) (WReg.code o.s1) (WReg.code o.s2) (WReg.win o.t ||| WReg.win o.s1 ||| WReg.win o.s2) (0#12) (0#64)
/-- The operands of shape T3W in the fields of an instruction. -/
def decT3W (r : Raw) : T3W :=
  T3W.mk ⟨r.gp, r.gs⟩ (WReg.ofCode r.d r.x20) (WReg.ofCode r.s1 r.x20) (WReg.ofCode r.s2 r.x20)

/-- The words of shape KSem (R40 to R42, R63). -/
def encKSem (op : BitVec 8) (o : KSem) : Raw :=
  Raw.mk (.l64) op o.gd.p o.gd.neg (0#6) (0#6) (0#6) ((o.n.zeroExtend 64).truncate 20) (0#12) (0#64)
/-- The operands of shape KSem in the fields of an instruction. -/
def decKSem (r : Raw) : KSem :=
  KSem.mk ⟨r.gp, r.gs⟩ (bits (sext64 r.x20) 0 5)

/-- The words of shape KTrap (R40 to R42, R63). -/
def encKTrap (op : BitVec 8) (o : KTrap) : Raw :=
  Raw.mk (.l64) op o.gd.p o.gd.neg (0#6) (0#6) (0#6) ((o.n.zeroExtend 64).truncate 20) (0#12) (0#64)
/-- The operands of shape KTrap in the fields of an instruction. -/
def decKTrap (r : Raw) : KTrap :=
  KTrap.mk ⟨r.gp, r.gs⟩ (bits (sext64 r.x20) 0 12)

/-- The words of shape F3 (R40 to R42, R63). -/
def encF3 (op : BitVec 8) (o : F3) : Raw :=
  Raw.mk (.l64) op o.gd.p o.gd.neg (WReg.code o.d) (WReg.code o.s1) (WReg.code o.s2) (WReg.win o.d ||| WReg.win o.s1 ||| WReg.win o.s2) (((FTy.code o.ty).zeroExtend 12 <<< 0)) (0#64)
/-- The operands of shape F3 in the fields of an instruction. -/
def decF3 (r : Raw) : F3 :=
  F3.mk ⟨r.gp, r.gs⟩ (FTy.ofCode (bits r.m12 0 4)) (WReg.ofCode r.d r.x20) (WReg.ofCode r.s1 r.x20) (WReg.ofCode r.s2 r.x20)

/-- The words of shape F4 (R40 to R42, R63). -/
def encF4 (op : BitVec 8) (o : F4) : Raw :=
  Raw.mk (.l128) op o.gd.p o.gd.neg (WReg.code o.d) (WReg.code o.s1) (WReg.code o.s2) (WReg.win o.d ||| WReg.win o.s1 ||| WReg.win o.s2 ||| WReg.win o.s3) (((FTy.code o.ty).zeroExtend 12 <<< 0)) (s3Ext (WReg.code o.s3))
/-- The operands of shape F4 in the fields of an instruction. -/
def decF4 (r : Raw) : F4 :=
  F4.mk ⟨r.gp, r.gs⟩ (FTy.ofCode (bits r.m12 0 4)) (WReg.ofCode r.d r.x20) (WReg.ofCode r.s1 r.x20) (WReg.ofCode r.s2 r.x20) (WReg.ofCode (bits r.ext 0 6) r.x20)

/-- The words of shape F2 (R40 to R42, R63). -/
def encF2 (op : BitVec 8) (o : F2) : Raw :=
  Raw.mk (.l64) op o.gd.p o.gd.neg (WReg.code o.d) (WReg.code o.s1) (0#6) (WReg.win o.d ||| WReg.win o.s1) (((FTy.code o.ty).zeroExtend 12 <<< 0)) (0#64)
/-- The operands of shape F2 in the fields of an instruction. -/
def decF2 (r : Raw) : F2 :=
  F2.mk ⟨r.gp, r.gs⟩ (FTy.ofCode (bits r.m12 0 4)) (WReg.ofCode r.d r.x20) (WReg.ofCode r.s1 r.x20)

/-- The words of shape FcmpR (R40 to R42, R63). -/
def encFcmpR (op : BitVec 8) (o : FcmpR) : Raw :=
  Raw.mk (.l64) op o.gd.p o.gd.neg (pcode o.d) (WReg.code o.s1) (WReg.code o.s2) (WReg.win o.s1 ||| WReg.win o.s2) (((FTy.code o.ty).zeroExtend 12 <<< 0) ||| ((Cond.code o.cond).zeroExtend 12 <<< 8)) (0#64)
/-- The operands of shape FcmpR in the fields of an instruction. -/
def decFcmpR (r : Raw) : FcmpR :=
  FcmpR.mk ⟨r.gp, r.gs⟩ (Cond.ofCode (bits r.m12 8 4)) (FTy.ofCode (bits r.m12 0 4)) (pOf r.d) (WReg.ofCode r.s1 r.x20) (WReg.ofCode r.s2 r.x20)

/-- The words of shape FcvtR (R40 to R42, R63). -/
def encFcvtR (op : BitVec 8) (o : FcvtR) : Raw :=
  Raw.mk (.l64) op o.gd.p o.gd.neg (WReg.code o.d) (WReg.code o.s1) (0#6) (WReg.win o.d ||| WReg.win o.s1) (((ETy.code o.dt).zeroExtend 12 <<< 0) ||| ((ETy.code o.st).zeroExtend 12 <<< 4) ||| ((Rnd.code o.rnd).zeroExtend 12 <<< 8) ||| bitAt o.sat 11) (0#64)
/-- The operands of shape FcvtR in the fields of an instruction. -/
def decFcvtR (r : Raw) : FcvtR :=
  FcvtR.mk ⟨r.gp, r.gs⟩ (ETy.ofCode (bits r.m12 0 4)) (ETy.ofCode (bits r.m12 4 4)) (Rnd.ofCode (bits r.m12 8 3)) (r.m12.getLsbD 11) (WReg.ofCode r.d r.x20) (WReg.ofCode r.s1 r.x20)

/-- The words of shape V3 (R40 to R42, R63). -/
def encV3 (op : BitVec 8) (o : V3) : Raw :=
  Raw.mk (.l64) op o.gd.p o.gd.neg (VReg.code o.d) (VReg.code o.s1) (VReg.code o.s2) (0#20) (((ETy.code o.ty).zeroExtend 12 <<< 0) ||| (o.msk.zeroExtend 12 <<< 4) ||| bitAt o.z 7) (0#64)
/-- The operands of shape V3 in the fields of an instruction. -/
def decV3 (r : Raw) : V3 :=
  V3.mk ⟨r.gp, r.gs⟩ (ETy.ofCode (bits r.m12 0 4)) (bits r.m12 4 3) (r.m12.getLsbD 7) (VReg.ofCode r.d) (VReg.ofCode r.s1) (VReg.ofCode r.s2)

/-- The words of shape V4 (R40 to R42, R63). -/
def encV4 (op : BitVec 8) (o : V4) : Raw :=
  Raw.mk (.l128) op o.gd.p o.gd.neg (VReg.code o.d) (VReg.code o.s1) (VReg.code o.s2) (0#20) (((ETy.code o.ty).zeroExtend 12 <<< 0) ||| (o.msk.zeroExtend 12 <<< 4) ||| bitAt o.z 7) (s3Ext (VReg.code o.s3))
/-- The operands of shape V4 in the fields of an instruction. -/
def decV4 (r : Raw) : V4 :=
  V4.mk ⟨r.gp, r.gs⟩ (ETy.ofCode (bits r.m12 0 4)) (bits r.m12 4 3) (r.m12.getLsbD 7) (VReg.ofCode r.d) (VReg.ofCode r.s1) (VReg.ofCode r.s2) (VReg.ofCode (bits r.ext 0 6))

/-- The words of shape V2 (R40 to R42, R63). -/
def encV2 (op : BitVec 8) (o : V2) : Raw :=
  Raw.mk (.l64) op o.gd.p o.gd.neg (VReg.code o.d) (VReg.code o.s1) (0#6) (0#20) (((ETy.code o.ty).zeroExtend 12 <<< 0) ||| (o.msk.zeroExtend 12 <<< 4) ||| bitAt o.z 7) (0#64)
/-- The operands of shape V2 in the fields of an instruction. -/
def decV2 (r : Raw) : V2 :=
  V2.mk ⟨r.gp, r.gs⟩ (ETy.ofCode (bits r.m12 0 4)) (bits r.m12 4 3) (r.m12.getLsbD 7) (VReg.ofCode r.d) (VReg.ofCode r.s1)

/-- The words of shape VcmpR (R40 to R42, R63). -/
def encVcmpR (op : BitVec 8) (o : VcmpR) : Raw :=
  Raw.mk (.l64) op o.gd.p o.gd.neg (pcode o.d) (VReg.code o.s1) (VReg.code o.s2) (0#20) (((ETy.code o.ty).zeroExtend 12 <<< 0) ||| (o.msk.zeroExtend 12 <<< 4) ||| bitAt o.z 7 ||| ((Cond.code o.cond).zeroExtend 12 <<< 8)) (0#64)
/-- The operands of shape VcmpR in the fields of an instruction. -/
def decVcmpR (r : Raw) : VcmpR :=
  VcmpR.mk ⟨r.gp, r.gs⟩ (Cond.ofCode (bits r.m12 8 4)) (ETy.ofCode (bits r.m12 0 4)) (bits r.m12 4 3) (r.m12.getLsbD 7) (pOf r.d) (VReg.ofCode r.s1) (VReg.ofCode r.s2)

/-- The words of shape VselR (R40 to R42, R63). -/
def encVselR (op : BitVec 8) (o : VselR) : Raw :=
  Raw.mk (.l64) op o.gd.p o.gd.neg (VReg.code o.d) (VReg.code o.s1) (VReg.code o.s2) (0#20) (((ETy.code o.ty).zeroExtend 12 <<< 0) ||| (o.msk.zeroExtend 12 <<< 4)) (0#64)
/-- The operands of shape VselR in the fields of an instruction. -/
def decVselR (r : Raw) : VselR :=
  VselR.mk ⟨r.gp, r.gs⟩ (ETy.ofCode (bits r.m12 0 4)) (bits r.m12 4 3) (VReg.ofCode r.d) (VReg.ofCode r.s1) (VReg.ofCode r.s2)

/-- The words of shape VbcR (R40 to R42, R63). -/
def encVbcR (op : BitVec 8) (o : VbcR) : Raw :=
  Raw.mk (.l64) op o.gd.p o.gd.neg (VReg.code o.d) (WReg.code o.s1) (0#6) (WReg.win o.s1) (((ETy.code o.ty).zeroExtend 12 <<< 0) ||| (o.msk.zeroExtend 12 <<< 4) ||| bitAt o.z 7) (0#64)
/-- The operands of shape VbcR in the fields of an instruction. -/
def decVbcR (r : Raw) : VbcR :=
  VbcR.mk ⟨r.gp, r.gs⟩ (ETy.ofCode (bits r.m12 0 4)) (bits r.m12 4 3) (r.m12.getLsbD 7) (VReg.ofCode r.d) (WReg.ofCode r.s1 r.x20)

/-- The words of shape VinsR (R40 to R42, R63). -/
def encVinsR (op : BitVec 8) (o : VinsR) : Raw :=
  Raw.mk (o.len) op o.gd.p o.gd.neg (VReg.code o.d) (WReg.code o.s1) (0#6) (immX20 o.len (o.lane.zeroExtend 64) (WReg.win o.s1)) (((uCode o.u).zeroExtend 12 <<< 0)) (immExt o.len (o.lane.zeroExtend 64))
/-- The operands of shape VinsR in the fields of an instruction. -/
def decVinsR (r : Raw) : VinsR :=
  VinsR.mk ⟨r.gp, r.gs⟩ (uOf (bits r.m12 0 4)) (r.len) (VReg.ofCode r.d) (WReg.ofCode r.s1 r.x20) (bits (immOf r) 0 3)

/-- The words of shape VextR (R40 to R42, R63). -/
def encVextR (op : BitVec 8) (o : VextR) : Raw :=
  Raw.mk (o.len) op o.gd.p o.gd.neg (WReg.code o.d) (VReg.code o.s1) (0#6) (immX20 o.len (o.lane.zeroExtend 64) (WReg.win o.d)) (((uCode o.u).zeroExtend 12 <<< 0) ||| bitAt o.z 7) (immExt o.len (o.lane.zeroExtend 64))
/-- The operands of shape VextR in the fields of an instruction. -/
def decVextR (r : Raw) : VextR :=
  VextR.mk ⟨r.gp, r.gs⟩ (uOf (bits r.m12 0 4)) (r.m12.getLsbD 7) (r.len) (WReg.ofCode r.d r.x20) (VReg.ofCode r.s1) (bits (immOf r) 0 3)

/-- The words of shape VrotR (R40 to R42, R63). -/
def encVrotR (op : BitVec 8) (o : VrotR) : Raw :=
  Raw.mk (o.len) op o.gd.p o.gd.neg (VReg.code o.d) (VReg.code o.s1) (0#6) (immX20 o.len (o.imm) (0#20)) (((ETy.code o.ty).zeroExtend 12 <<< 0) ||| (o.msk.zeroExtend 12 <<< 4) ||| bitAt o.z 7) (immExt o.len (o.imm))
/-- The operands of shape VrotR in the fields of an instruction. -/
def decVrotR (r : Raw) : VrotR :=
  VrotR.mk ⟨r.gp, r.gs⟩ (ETy.ofCode (bits r.m12 0 4)) (bits r.m12 4 3) (r.m12.getLsbD 7) (r.len) (VReg.ofCode r.d) (VReg.ofCode r.s1) (immOf r)

/-- The words of shape VredR (R40 to R42, R63). -/
def encVredR (op : BitVec 8) (o : VredR) : Raw :=
  Raw.mk (.l64) op o.gd.p o.gd.neg (WReg.code o.d) (VReg.code o.s1) (0#6) (WReg.win o.d) (((ETy.code o.ty).zeroExtend 12 <<< 0) ||| (o.msk.zeroExtend 12 <<< 4)) (0#64)
/-- The operands of shape VredR in the fields of an instruction. -/
def decVredR (r : Raw) : VredR :=
  VredR.mk ⟨r.gp, r.gs⟩ (ETy.ofCode (bits r.m12 0 4)) (bits r.m12 4 3) (WReg.ofCode r.d r.x20) (VReg.ofCode r.s1)

/-- The words of shape VdotR (R40 to R42, R63). -/
def encVdotR (op : BitVec 8) (o : VdotR) : Raw :=
  Raw.mk (.l64) op o.gd.p o.gd.neg (WReg.code o.d) (VReg.code o.s1) (VReg.code o.s2) (WReg.win o.d) (((ETy.code o.ty).zeroExtend 12 <<< 0) ||| (o.msk.zeroExtend 12 <<< 4)) (0#64)
/-- The operands of shape VdotR in the fields of an instruction. -/
def decVdotR (r : Raw) : VdotR :=
  VdotR.mk ⟨r.gp, r.gs⟩ (ETy.ofCode (bits r.m12 0 4)) (bits r.m12 4 3) (WReg.ofCode r.d r.x20) (VReg.ofCode r.s1) (VReg.ofCode r.s2)

/-- The words of shape VcvtR (R40 to R42, R63). -/
def encVcvtR (op : BitVec 8) (o : VcvtR) : Raw :=
  Raw.mk (.l64) op o.gd.p o.gd.neg (VReg.code o.d) (VReg.code o.s1) (0#6) (0#20) (((ETy.code o.dt).zeroExtend 12 <<< 0) ||| ((ETy.code o.st).zeroExtend 12 <<< 4) ||| ((Rnd.code o.rnd).zeroExtend 12 <<< 8) ||| bitAt o.sat 11) (0#64)
/-- The operands of shape VcvtR in the fields of an instruction. -/
def decVcvtR (r : Raw) : VcvtR :=
  VcvtR.mk ⟨r.gp, r.gs⟩ (ETy.ofCode (bits r.m12 0 4)) (ETy.ofCode (bits r.m12 4 4)) (Rnd.ofCode (bits r.m12 8 3)) (r.m12.getLsbD 11) (VReg.ofCode r.d) (VReg.ofCode r.s1)

/-- The words of shape M3 (R40 to R42, R63). -/
def encM3 (op : BitVec 8) (o : M3) : Raw :=
  Raw.mk (.l64) op o.gd.p o.gd.neg (pcode o.d) (pcode o.s1) (pcode o.s2) (0#20) (((ETy.code o.ty).zeroExtend 12 <<< 0)) (0#64)
/-- The operands of shape M3 in the fields of an instruction. -/
def decM3 (r : Raw) : M3 :=
  M3.mk ⟨r.gp, r.gs⟩ (ETy.ofCode (bits r.m12 0 4)) (pOf r.d) (pOf r.s1) (pOf r.s2)

/-- The words of shape M2 (R40 to R42, R63). -/
def encM2 (op : BitVec 8) (o : M2) : Raw :=
  Raw.mk (.l64) op o.gd.p o.gd.neg (pcode o.d) (pcode o.s1) (0#6) (0#20) (((ETy.code o.ty).zeroExtend 12 <<< 0)) (0#64)
/-- The operands of shape M2 in the fields of an instruction. -/
def decM2 (r : Raw) : M2 :=
  M2.mk ⟨r.gp, r.gs⟩ (ETy.ofCode (bits r.m12 0 4)) (pOf r.d) (pOf r.s1)

/-- The words of shape MW (R40 to R42, R63). -/
def encMW (op : BitVec 8) (o : MW) : Raw :=
  Raw.mk (.l64) op o.gd.p o.gd.neg (WReg.code o.d) (pcode o.s1) (0#6) (WReg.win o.d) (((ETy.code o.ty).zeroExtend 12 <<< 0)) (0#64)
/-- The operands of shape MW in the fields of an instruction. -/
def decMW (r : Raw) : MW :=
  MW.mk ⟨r.gp, r.gs⟩ (ETy.ofCode (bits r.m12 0 4)) (WReg.ofCode r.d r.x20) (pOf r.s1)

/-- The words of shape MP (R40 to R42, R63). -/
def encMP (op : BitVec 8) (o : MP) : Raw :=
  Raw.mk (.l64) op o.gd.p o.gd.neg (pcode o.d) (pcode o.s1) (0#6) (0#20) (((ETy.code o.ty).zeroExtend 12 <<< 0)) (0#64)
/-- The operands of shape MP in the fields of an instruction. -/
def decMP (r : Raw) : MP :=
  MP.mk ⟨r.gp, r.gs⟩ (ETy.ofCode (bits r.m12 0 4)) (pOf r.d) (pOf r.s1)

/-- The words of shape T2C (R40 to R42, R63). -/
def encT2C (op : BitVec 8) (o : T2C) : Raw :=
  Raw.mk (.l64) op o.gd.p o.gd.neg (WReg.code o.t) (WReg.code o.s1) (0#6) (WReg.win o.t ||| WReg.win o.s1) (((Rnd.code o.rnd).zeroExtend 12 <<< 0) ||| bitAt o.sat 3) (0#64)
/-- The operands of shape T2C in the fields of an instruction. -/
def decT2C (r : Raw) : T2C :=
  T2C.mk ⟨r.gp, r.gs⟩ (Rnd.ofCode (bits r.m12 0 3)) (r.m12.getLsbD 3) (WReg.ofCode r.d r.x20) (WReg.ofCode r.s1 r.x20)

/-- The words of shape VpackR (R40 to R42, R63). -/
def encVpackR (op : BitVec 8) (o : VpackR) : Raw :=
  Raw.mk (.l64) op o.gd.p o.gd.neg (VReg.code o.d) (VReg.code o.s1) (WReg.code o.s2) (WReg.win o.s2) (((Rnd.code o.rnd).zeroExtend 12 <<< 0) ||| bitAt o.sat 3) (0#64)
/-- The operands of shape VpackR in the fields of an instruction. -/
def decVpackR (r : Raw) : VpackR :=
  VpackR.mk ⟨r.gp, r.gs⟩ (Rnd.ofCode (bits r.m12 0 3)) (r.m12.getLsbD 3) (VReg.ofCode r.d) (VReg.ofCode r.s1) (WReg.ofCode r.s2 r.x20)

/-- The words of shape VunpkR (R40 to R42, R63). -/
def encVunpkR (op : BitVec 8) (o : VunpkR) : Raw :=
  Raw.mk (.l64) op o.gd.p o.gd.neg (VReg.code o.d) (VReg.code o.s1) (WReg.code o.s2) (WReg.win o.s2) (0#12) (0#64)
/-- The operands of shape VunpkR in the fields of an instruction. -/
def decVunpkR (r : Raw) : VunpkR :=
  VunpkR.mk ⟨r.gp, r.gs⟩ (VReg.ofCode r.d) (VReg.ofCode r.s1) (WReg.ofCode r.s2 r.x20)

/-- The words of shape CvldR (R40 to R42, R63). -/
def encCvldR (op : BitVec 8) (o : CvldR) : Raw :=
  Raw.mk (.l64) op o.gd.p o.gd.neg (VReg.code o.d) (WReg.code o.s1) (WReg.code o.s2) (WReg.win o.s1 ||| WReg.win o.s2) (0#12) (0#64)
/-- The operands of shape CvldR in the fields of an instruction. -/
def decCvldR (r : Raw) : CvldR :=
  CvldR.mk ⟨r.gp, r.gs⟩ (VReg.ofCode r.d) (WReg.ofCode r.s1 r.x20) (WReg.ofCode r.s2 r.x20)

/-- The words of shape CvstR (R40 to R42, R63). -/
def encCvstR (op : BitVec 8) (o : CvstR) : Raw :=
  Raw.mk (.l64) op o.gd.p o.gd.neg (WReg.code o.t) (WReg.code o.s1) (VReg.code o.s2) (WReg.win o.t ||| WReg.win o.s1) (0#12) (0#64)
/-- The operands of shape CvstR in the fields of an instruction. -/
def decCvstR (r : Raw) : CvstR :=
  CvstR.mk ⟨r.gp, r.gs⟩ (WReg.ofCode r.d r.x20) (WReg.ofCode r.s1 r.x20) (VReg.ofCode r.s2)

/-- The words of shape T2X (R40 to R42, R63). -/
def encT2X (op : BitVec 8) (o : T2X) : Raw :=
  Raw.mk (.l64) op o.gd.p o.gd.neg (WReg.code o.t) (WReg.code o.s1) (0#6) (WReg.win o.t ||| WReg.win o.s1) ((o.strm.zeroExtend 12 <<< 0) ||| ((semCode o.sem).zeroExtend 12 <<< 3)) (0#64)
/-- The operands of shape T2X in the fields of an instruction. -/
def decT2X (r : Raw) : T2X :=
  T2X.mk ⟨r.gp, r.gs⟩ (bits r.m12 0 3) (semOf (bits r.m12 3 7)) (WReg.ofCode r.d r.x20) (WReg.ofCode r.s1 r.x20)

/-- The words of shape ArdR (R40 to R42, R63). -/
def encArdR (op : BitVec 8) (o : ArdR) : Raw :=
  Raw.mk (.l64) op o.gd.p o.gd.neg (VReg.code o.d) (WReg.code o.s1) (0#6) (WReg.win o.s1) (0#12) (0#64)
/-- The operands of shape ArdR in the fields of an instruction. -/
def decArdR (r : Raw) : ArdR :=
  ArdR.mk ⟨r.gp, r.gs⟩ (VReg.ofCode r.d) (WReg.ofCode r.s1 r.x20)

/-- The words of shape CalldOps (R40 to R42, R63). -/
def encCalldOps (op : BitVec 8) (o : CalldOps) : Raw :=
  Raw.mk (.l64) op o.gd.p o.gd.neg (0#6) (WReg.code o.s1) (0#6) (WReg.win o.s1) ((o.rp.zeroExtend 12 <<< 0)) (0#64)
/-- The operands of shape CalldOps in the fields of an instruction. -/
def decCalldOps (r : Raw) : CalldOps :=
  CalldOps.mk ⟨r.gp, r.gs⟩ (bits r.m12 0 12) (WReg.ofCode r.s1 r.x20)

/-- The words of shape CalldrOps (R40 to R42, R63). -/
def encCalldrOps (op : BitVec 8) (o : CalldrOps) : Raw :=
  Raw.mk (.l64) op o.gd.p o.gd.neg (0#6) (WReg.code o.s1) (0#6) (WReg.win o.s1) ((o.rp.zeroExtend 12 <<< 0)) (0#64)
/-- The operands of shape CalldrOps in the fields of an instruction. -/
def decCalldrOps (r : Raw) : CalldrOps :=
  CalldrOps.mk ⟨r.gp, r.gs⟩ (bits r.m12 0 12) (WReg.ofCode r.s1 r.x20)

/-- The words of shape MtsrOps (R40 to R42, R63). -/
def encMtsrOps (op : BitVec 8) (o : MtsrOps) : Raw :=
  Raw.mk (.l64) op o.gd.p o.gd.neg (0#6) (WReg.code o.s1) (0#6) ((WReg.win o.s1) ||| (SysReg.num o.reg |>.zeroExtend 64).truncate 20) (0#12) (0#64)
/-- The operands of shape MtsrOps in the fields of an instruction. -/
def decMtsrOps (r : Raw) : MtsrOps :=
  MtsrOps.mk ⟨r.gp, r.gs⟩ (SysReg.ofNum (bits r.x20 0 12)) (WReg.ofCode r.s1 r.x20)

/-- The words of shape MfsrOps (R40 to R42, R63). -/
def encMfsrOps (op : BitVec 8) (o : MfsrOps) : Raw :=
  Raw.mk (.l64) op o.gd.p o.gd.neg (WReg.code o.d) (0#6) (0#6) ((WReg.win o.d) ||| (SysReg.num o.reg |>.zeroExtend 64).truncate 20) (0#12) (0#64)
/-- The operands of shape MfsrOps in the fields of an instruction. -/
def decMfsrOps (r : Raw) : MfsrOps :=
  MfsrOps.mk ⟨r.gp, r.gs⟩ (WReg.ofCode r.d r.x20) (SysReg.ofNum (bits r.x20 0 12))

/-- The fine shapes of R63: one per operand structure. -/
inductive Shape where
  | sN0
  | sNopOps
  | sR3W
  | sR2W
  | sRIW
  | sI1W
  | sCmpR
  | sCmpI
  | sPlogR
  | sSelR
  | sBitcR
  | sExtrI
  | sB0
  | sB1W
  | sB1P
  | sB2W
  | sS1W
  | sS2W
  | sLdOps
  | sLxOps
  | sStOps
  | sSxOps
  | sFeLd
  | sFeSt
  | sFeSet
  | sAtOps
  | sAcasOps
  | sBoOps
  | sBcrdOps
  | sCpOps
  | sCwOps
  | sCtOps
  | sCsOps
  | sT3W
  | sKSem
  | sKTrap
  | sF3
  | sF4
  | sF2
  | sFcmpR
  | sFcvtR
  | sV3
  | sV4
  | sV2
  | sVcmpR
  | sVselR
  | sVbcR
  | sVinsR
  | sVextR
  | sVrotR
  | sVredR
  | sVdotR
  | sVcvtR
  | sM3
  | sM2
  | sMW
  | sMP
  | sT2C
  | sVpackR
  | sVunpkR
  | sCvldR
  | sCvstR
  | sT2X
  | sArdR
  | sCalldOps
  | sCalldrOps
  | sMtsrOps
  | sMfsrOps
deriving DecidableEq, Repr

/-- The lengths a shape permits (R63, R38). -/
def Shape.lens : Shape → List Len
  | .sN0 => [.l64]
  | .sNopOps => [.l64, .l96, .l128]
  | .sR3W => [.l64]
  | .sR2W => [.l64]
  | .sRIW => [.l64, .l96, .l128]
  | .sI1W => [.l64, .l96, .l128]
  | .sCmpR => [.l64]
  | .sCmpI => [.l64, .l96, .l128]
  | .sPlogR => [.l64]
  | .sSelR => [.l64]
  | .sBitcR => [.l64]
  | .sExtrI => [.l64, .l96, .l128]
  | .sB0 => [.l64, .l96]
  | .sB1W => [.l64, .l96]
  | .sB1P => [.l64, .l96]
  | .sB2W => [.l64, .l96]
  | .sS1W => [.l64]
  | .sS2W => [.l64]
  | .sLdOps => [.l64, .l96]
  | .sLxOps => [.l64]
  | .sStOps => [.l64, .l96]
  | .sSxOps => [.l64]
  | .sFeLd => [.l64, .l96]
  | .sFeSt => [.l64, .l96]
  | .sFeSet => [.l64, .l96]
  | .sAtOps => [.l64]
  | .sAcasOps => [.l128]
  | .sBoOps => [.l64, .l96]
  | .sBcrdOps => [.l64]
  | .sCpOps => [.l64]
  | .sCwOps => [.l64]
  | .sCtOps => [.l64, .l96, .l128]
  | .sCsOps => [.l64, .l96, .l128]
  | .sT3W => [.l64]
  | .sKSem => [.l64]
  | .sKTrap => [.l64]
  | .sF3 => [.l64]
  | .sF4 => [.l128]
  | .sF2 => [.l64]
  | .sFcmpR => [.l64]
  | .sFcvtR => [.l64]
  | .sV3 => [.l64]
  | .sV4 => [.l128]
  | .sV2 => [.l64]
  | .sVcmpR => [.l64]
  | .sVselR => [.l64]
  | .sVbcR => [.l64]
  | .sVinsR => [.l64, .l96, .l128]
  | .sVextR => [.l64, .l96, .l128]
  | .sVrotR => [.l64, .l96, .l128]
  | .sVredR => [.l64]
  | .sVdotR => [.l64]
  | .sVcvtR => [.l64]
  | .sM3 => [.l64]
  | .sM2 => [.l64]
  | .sMW => [.l64]
  | .sMP => [.l64]
  | .sT2C => [.l64]
  | .sVpackR => [.l64]
  | .sVunpkR => [.l64]
  | .sCvldR => [.l64]
  | .sCvstR => [.l64]
  | .sT2X => [.l64]
  | .sArdR => [.l64]
  | .sCalldOps => [.l64]
  | .sCalldrOps => [.l64]
  | .sMtsrOps => [.l64]
  | .sMfsrOps => [.l64]

/-- The class of each register field a shape uses, in the order D, S1, S2, S3 (R43, R63, R187). -/
def Shape.fields : Shape → FieldUse
  | .sN0 => ⟨none, none, none, none⟩
  | .sNopOps => ⟨none, none, none, none⟩
  | .sR3W => ⟨some .w, some .w, some .w, none⟩
  | .sR2W => ⟨some .w, some .w, none, none⟩
  | .sRIW => ⟨some .w, some .w, none, none⟩
  | .sI1W => ⟨some .w, none, none, none⟩
  | .sCmpR => ⟨some .p, some .w, some .w, none⟩
  | .sCmpI => ⟨some .p, some .w, none, none⟩
  | .sPlogR => ⟨some .p, some .p, some .p, none⟩
  | .sSelR => ⟨some .w, some .w, some .w, none⟩
  | .sBitcR => ⟨some .w, some .w, none, none⟩
  | .sExtrI => ⟨some .w, some .w, none, none⟩
  | .sB0 => ⟨none, none, none, none⟩
  | .sB1W => ⟨none, some .w, none, none⟩
  | .sB1P => ⟨none, some .p, none, none⟩
  | .sB2W => ⟨none, some .w, some .w, none⟩
  | .sS1W => ⟨none, some .w, none, none⟩
  | .sS2W => ⟨none, some .w, some .w, none⟩
  | .sLdOps => ⟨some .w, some .w, none, none⟩
  | .sLxOps => ⟨some .w, some .w, some .w, none⟩
  | .sStOps => ⟨none, some .w, some .w, none⟩
  | .sSxOps => ⟨some .w, some .w, some .w, none⟩
  | .sFeLd => ⟨some .w, some .w, none, none⟩
  | .sFeSt => ⟨none, some .w, some .w, none⟩
  | .sFeSet => ⟨none, some .w, none, none⟩
  | .sAtOps => ⟨some .w, some .w, some .w, none⟩
  | .sAcasOps => ⟨some .w, some .w, some .w, some .w⟩
  | .sBoOps => ⟨none, some .w, none, none⟩
  | .sBcrdOps => ⟨some .w, some .w, none, none⟩
  | .sCpOps => ⟨some .w, some .w, none, none⟩
  | .sCwOps => ⟨none, some .w, none, none⟩
  | .sCtOps => ⟨some .w, some .w, none, none⟩
  | .sCsOps => ⟨some .w, none, none, none⟩
  | .sT3W => ⟨some .w, some .w, some .w, none⟩
  | .sKSem => ⟨none, none, none, none⟩
  | .sKTrap => ⟨none, none, none, none⟩
  | .sF3 => ⟨some .w, some .w, some .w, none⟩
  | .sF4 => ⟨some .w, some .w, some .w, some .w⟩
  | .sF2 => ⟨some .w, some .w, none, none⟩
  | .sFcmpR => ⟨some .p, some .w, some .w, none⟩
  | .sFcvtR => ⟨some .w, some .w, none, none⟩
  | .sV3 => ⟨some .v, some .v, some .v, none⟩
  | .sV4 => ⟨some .v, some .v, some .v, some .v⟩
  | .sV2 => ⟨some .v, some .v, none, none⟩
  | .sVcmpR => ⟨some .m, some .v, some .v, none⟩
  | .sVselR => ⟨some .v, some .v, some .v, none⟩
  | .sVbcR => ⟨some .v, some .w, none, none⟩
  | .sVinsR => ⟨some .v, some .w, none, none⟩
  | .sVextR => ⟨some .w, some .v, none, none⟩
  | .sVrotR => ⟨some .v, some .v, none, none⟩
  | .sVredR => ⟨some .w, some .v, none, none⟩
  | .sVdotR => ⟨some .w, some .v, some .v, none⟩
  | .sVcvtR => ⟨some .v, some .v, none, none⟩
  | .sM3 => ⟨some .m, some .m, some .m, none⟩
  | .sM2 => ⟨some .m, some .m, none, none⟩
  | .sMW => ⟨some .w, some .m, none, none⟩
  | .sMP => ⟨some .p, some .m, none, none⟩
  | .sT2C => ⟨some .w, some .w, none, none⟩
  | .sVpackR => ⟨some .v, some .v, some .w, none⟩
  | .sVunpkR => ⟨some .v, some .v, some .w, none⟩
  | .sCvldR => ⟨some .v, some .w, some .w, none⟩
  | .sCvstR => ⟨some .w, some .w, some .v, none⟩
  | .sT2X => ⟨some .w, some .w, none, none⟩
  | .sArdR => ⟨some .v, some .w, none, none⟩
  | .sCalldOps => ⟨none, some .w, none, none⟩
  | .sCalldrOps => ⟨none, some .w, none, none⟩
  | .sMtsrOps => ⟨none, some .w, none, none⟩
  | .sMfsrOps => ⟨some .w, none, none, none⟩

/-- Whether a shape has an immediate (R41, R63). -/
def Shape.hasImm : Shape → Bool
  | .sN0 => false
  | .sNopOps => false
  | .sR3W => false
  | .sR2W => false
  | .sRIW => true
  | .sI1W => true
  | .sCmpR => false
  | .sCmpI => true
  | .sPlogR => false
  | .sSelR => false
  | .sBitcR => false
  | .sExtrI => true
  | .sB0 => true
  | .sB1W => true
  | .sB1P => true
  | .sB2W => true
  | .sS1W => false
  | .sS2W => false
  | .sLdOps => true
  | .sLxOps => false
  | .sStOps => true
  | .sSxOps => false
  | .sFeLd => true
  | .sFeSt => true
  | .sFeSet => true
  | .sAtOps => false
  | .sAcasOps => false
  | .sBoOps => true
  | .sBcrdOps => false
  | .sCpOps => true
  | .sCwOps => true
  | .sCtOps => true
  | .sCsOps => true
  | .sT3W => false
  | .sKSem => true
  | .sKTrap => true
  | .sF3 => false
  | .sF4 => false
  | .sF2 => false
  | .sFcmpR => false
  | .sFcvtR => false
  | .sV3 => false
  | .sV4 => false
  | .sV2 => false
  | .sVcmpR => false
  | .sVselR => false
  | .sVbcR => false
  | .sVinsR => true
  | .sVextR => true
  | .sVrotR => true
  | .sVredR => false
  | .sVdotR => false
  | .sVcvtR => false
  | .sM3 => false
  | .sM2 => false
  | .sMW => false
  | .sMP => false
  | .sT2C => false
  | .sVpackR => false
  | .sVunpkR => false
  | .sCvldR => false
  | .sCvstR => false
  | .sT2X => false
  | .sArdR => false
  | .sCalldOps => false
  | .sCalldrOps => false
  | .sMtsrOps => true
  | .sMfsrOps => true

/-- The opcode map of R55: the shape and the instruction of each assigned opcode; none is a reserved opcode (R56). -/
def opRow (r : Raw) : Option (Shape × Instr) :=
  match r.op.toNat with
  | 0x00 => some (.sNopOps, .nop (decNopOps r))
  | 0x01 => some (.sB0, .br (decB0 r))
  | 0x02 => some (.sB1W, .bz (decB1W r))
  | 0x03 => some (.sB1W, .bnz (decB1W r))
  | 0x04 => some (.sB1P, .bp (decB1P r))
  | 0x05 => some (.sB1P, .bnp (decB1P r))
  | 0x06 => some (.sB2W, .beq (decB2W r))
  | 0x07 => some (.sB2W, .bne (decB2W r))
  | 0x08 => some (.sB2W, .blt (decB2W r))
  | 0x09 => some (.sB2W, .bge (decB2W r))
  | 0x0a => some (.sB2W, .bltu (decB2W r))
  | 0x0b => some (.sB2W, .bgeu (decB2W r))
  | 0x0c => some (.sB1W, .loopr (decB1W r))
  | 0x0d => some (.sS1W, .brx (decS1W r))
  | 0x0e => some (.sB0, .ipf (decB0 r))
  | 0x10 => some (.sR3W, .add (decR3W r))
  | 0x11 => some (.sR3W, .sub (decR3W r))
  | 0x12 => some (.sRIW, .addi (decRIW r))
  | 0x13 => some (.sRIW, .subi (decRIW r))
  | 0x14 => some (.sR3W, .mul (decR3W r))
  | 0x15 => some (.sR3W, .mulh (decR3W r))
  | 0x16 => some (.sR3W, .mulhu (decR3W r))
  | 0x17 => some (.sR3W, .div (decR3W r))
  | 0x18 => some (.sR3W, .divu (decR3W r))
  | 0x19 => some (.sR3W, .rem (decR3W r))
  | 0x1a => some (.sR3W, .remu (decR3W r))
  | 0x1b => some (.sR3W, .and (decR3W r))
  | 0x1c => some (.sR3W, .or (decR3W r))
  | 0x1d => some (.sR3W, .xor (decR3W r))
  | 0x1e => some (.sRIW, .andi (decRIW r))
  | 0x1f => some (.sRIW, .ori (decRIW r))
  | 0x20 => some (.sRIW, .xori (decRIW r))
  | 0x21 => some (.sR3W, .shl (decR3W r))
  | 0x22 => some (.sR3W, .shr (decR3W r))
  | 0x23 => some (.sR3W, .sar (decR3W r))
  | 0x24 => some (.sRIW, .shli (decRIW r))
  | 0x25 => some (.sRIW, .shri (decRIW r))
  | 0x26 => some (.sRIW, .sari (decRIW r))
  | 0x27 => some (.sR2W, .mov (decR2W r))
  | 0x28 => some (.sI1W, .movi (decI1W r))
  | 0x29 => some (.sCmpR, .cmp (decCmpR r))
  | 0x2a => some (.sCmpI, .cmpi (decCmpI r))
  | 0x2b => some (.sPlogR, .plog (decPlogR r))
  | 0x2c => some (.sSelR, .sel (decSelR r))
  | 0x2d => some (.sBitcR, .bitc (decBitcR r))
  | 0x2e => some (.sExtrI, .extr (decExtrI r))
  | 0x2f => some (.sRIW, .insr (decRIW r))
  | 0x30 => some (.sLdOps, .ld (decLdOps r))
  | 0x31 => some (.sLxOps, .ldx (decLxOps r))
  | 0x32 => some (.sStOps, .st (decStOps r))
  | 0x33 => some (.sSxOps, .stx (decSxOps r))
  | 0x34 => some (.sFeLd, .ldfe (decFeLd r))
  | 0x35 => some (.sFeLd, .ldff (decFeLd r))
  | 0x36 => some (.sFeSt, .stf (decFeSt r))
  | 0x37 => some (.sFeSet, .sete (decFeSet r))
  | 0x38 => some (.sAtOps, .aadd (decAtOps r))
  | 0x39 => some (.sAtOps, .afadd (decAtOps r))
  | 0x3a => some (.sAtOps, .amin (decAtOps r))
  | 0x3b => some (.sAtOps, .amax (decAtOps r))
  | 0x3c => some (.sAtOps, .aand (decAtOps r))
  | 0x3d => some (.sAtOps, .aor (decAtOps r))
  | 0x3e => some (.sAtOps, .axor (decAtOps r))
  | 0x3f => some (.sAtOps, .aswp (decAtOps r))
  | 0x40 => some (.sAcasOps, .acas (decAcasOps r))
  | 0x41 => some (.sBoOps, .pfh (decBoOps r))
  | 0x42 => some (.sLdOps, .lds (decLdOps r))
  | 0x43 => some (.sStOps, .sts (decStOps r))
  | 0x44 => some (.sLxOps, .ldsx (decLxOps r))
  | 0x45 => some (.sSxOps, .stsx (decSxOps r))
  | 0x46 => some (.sBoOps, .cflush (decBoOps r))
  | 0x47 => some (.sBoOps, .cinv (decBoOps r))
  | 0x48 => some (.sFeSt, .bcpost (decFeSt r))
  | 0x49 => some (.sBcrdOps, .bcrd (decBcrdOps r))
  | 0x50 => some (.sCpOps, .cpy (decCpOps r))
  | 0x51 => some (.sCpOps, .cpynb (decCpOps r))
  | 0x52 => some (.sCwOps, .cwait (decCwOps r))
  | 0x53 => some (.sCtOps, .ctest (decCtOps r))
  | 0x54 => some (.sCpOps, .coll (decCpOps r))
  | 0x55 => some (.sCpOps, .collnb (decCpOps r))
  | 0x56 => some (.sCsOps, .cstat (decCsOps r))
  | 0x58 => some (.sT3W, .bind (decT3W r))
  | 0x59 => some (.sS1W, .unbind (decS1W r))
  | 0x5a => some (.sS2W, .qput (decS2W r))
  | 0x5b => some (.sS2W, .qget (decS2W r))
  | 0x5c => some (.sKSem, .sempost (decKSem r))
  | 0x5d => some (.sKSem, .semwait (decKSem r))
  | 0x5e => some (.sBoOps, .acq (decBoOps r))
  | 0x5f => some (.sBoOps, .rel (decBoOps r))
  | 0x60 => some (.sF3, .fadd (decF3 r))
  | 0x61 => some (.sF3, .fsub (decF3 r))
  | 0x62 => some (.sF3, .fmul (decF3 r))
  | 0x63 => some (.sF4, .ffma (decF4 r))
  | 0x64 => some (.sF3, .fdiv (decF3 r))
  | 0x65 => some (.sF2, .fsqrt (decF2 r))
  | 0x66 => some (.sF3, .fmin (decF3 r))
  | 0x67 => some (.sF3, .fmax (decF3 r))
  | 0x68 => some (.sFcmpR, .fcmp (decFcmpR r))
  | 0x69 => some (.sFcvtR, .fcvt (decFcvtR r))
  | 0x6a => some (.sF2, .fabs (decF2 r))
  | 0x6b => some (.sF2, .fneg (decF2 r))
  | 0x70 => some (.sV3, .vadd (decV3 r))
  | 0x71 => some (.sV3, .vsub (decV3 r))
  | 0x72 => some (.sV3, .vmul (decV3 r))
  | 0x73 => some (.sV4, .vfma (decV4 r))
  | 0x74 => some (.sV4, .vfms (decV4 r))
  | 0x75 => some (.sV4, .vfnma (decV4 r))
  | 0x76 => some (.sV3, .vdiv (decV3 r))
  | 0x77 => some (.sV2, .vsqrt (decV2 r))
  | 0x78 => some (.sV3, .vmin (decV3 r))
  | 0x79 => some (.sV3, .vmax (decV3 r))
  | 0x7a => some (.sV2, .vabs (decV2 r))
  | 0x7b => some (.sV2, .vneg (decV2 r))
  | 0x7c => some (.sV3, .vand (decV3 r))
  | 0x7d => some (.sV3, .vor (decV3 r))
  | 0x7e => some (.sV3, .vxor (decV3 r))
  | 0x7f => some (.sV2, .vnot (decV2 r))
  | 0x80 => some (.sV3, .vshl (decV3 r))
  | 0x81 => some (.sV3, .vshr (decV3 r))
  | 0x82 => some (.sV3, .vsar (decV3 r))
  | 0x83 => some (.sVcmpR, .vcmp (decVcmpR r))
  | 0x84 => some (.sVselR, .vsel (decVselR r))
  | 0x85 => some (.sV2, .vmov (decV2 r))
  | 0x86 => some (.sVbcR, .vbcast (decVbcR r))
  | 0x87 => some (.sVinsR, .vins (decVinsR r))
  | 0x88 => some (.sVextR, .vext (decVextR r))
  | 0x89 => some (.sV3, .vperm (decV3 r))
  | 0x8a => some (.sV3, .vshuf (decV3 r))
  | 0x8b => some (.sVrotR, .vrot (decVrotR r))
  | 0x8c => some (.sV3, .vzip (decV3 r))
  | 0x8d => some (.sV3, .vunzip (decV3 r))
  | 0x8e => some (.sVcvtR, .vcvt (decVcvtR r))
  | 0x8f => some (.sV2, .vrcp (decV2 r))
  | 0x90 => some (.sV2, .vrsq (decV2 r))
  | 0x91 => some (.sV2, .vexp (decV2 r))
  | 0x92 => some (.sV2, .vlog (decV2 r))
  | 0x93 => some (.sVredR, .vradd (decVredR r))
  | 0x94 => some (.sVredR, .vrmax (decVredR r))
  | 0x95 => some (.sVredR, .vrmin (decVredR r))
  | 0x96 => some (.sVdotR, .vdot (decVdotR r))
  | 0x97 => some (.sM3, .mand (decM3 r))
  | 0x98 => some (.sM3, .mor (decM3 r))
  | 0x99 => some (.sM3, .mxor (decM3 r))
  | 0x9a => some (.sM2, .mnot (decM2 r))
  | 0x9b => some (.sMW, .mpop (decMW r))
  | 0x9c => some (.sMW, .mfirst (decMW r))
  | 0x9d => some (.sMP, .mtop (decMP r))
  | 0xa0 => some (.sT2C, .cvt (decT2C r))
  | 0xa1 => some (.sT2C, .align (decT2C r))
  | 0xa2 => some (.sT2C, .dealign (decT2C r))
  | 0xa3 => some (.sT2C, .bscale (decT2C r))
  | 0xa4 => some (.sS1W, .seed (decS1W r))
  | 0xa5 => some (.sVpackR, .vpack (decVpackR r))
  | 0xa6 => some (.sVunpkR, .vunpk (decVunpkR r))
  | 0xa7 => some (.sCvldR, .cvld (decCvldR r))
  | 0xa8 => some (.sCvstR, .cvst (decCvstR r))
  | 0xb8 => some (.sT2X, .mload (decT2X r))
  | 0xb9 => some (.sT2X, .mma (decT2X r))
  | 0xba => some (.sT2X, .mmaf (decT2X r))
  | 0xbb => some (.sS2W, .aclr (decS2W r))
  | 0xbc => some (.sArdR, .ard (decArdR r))
  | 0xbd => some (.sT2X, .asto (decT2X r))
  | 0xbe => some (.sS1W, .mgrp (decS1W r))
  | 0xbf => some (.sS2W, .amask (decS2W r))
  | 0xc0 => some (.sS1W, .grule (decS1W r))
  | 0xc1 => some (.sT2X, .geval (decT2X r))
  | 0xc2 => some (.sN0, .gclr (decN0 r))
  | 0xc3 => some (.sR2W, .grd (decR2W r))
  | 0xd0 => some (.sS1W, .tspawn (decS1W r))
  | 0xd1 => some (.sN0, .tcommit (decN0 r))
  | 0xd2 => some (.sN0, .tend (decN0 r))
  | 0xd3 => some (.sN0, .tabort (decN0 r))
  | 0xd4 => some (.sS1W, .tsadv (decS1W r))
  | 0xd5 => some (.sR3W, .tscmp (decR3W r))
  | 0xd6 => some (.sS2W, .rinv (decS2W r))
  | 0xe0 => some (.sCalldOps, .calld (decCalldOps r))
  | 0xe1 => some (.sCalldrOps, .calldr (decCalldrOps r))
  | 0xe2 => some (.sN0, .retd (decN0 r))
  | 0xe3 => some (.sS1W, .taild (decS1W r))
  | 0xe4 => some (.sS1W, .cfetch (decS1W r))
  | 0xe5 => some (.sS1W, .vevict (decS1W r))
  | 0xe6 => some (.sR2W, .vprobe (decR2W r))
  | 0xe8 => some (.sMtsrOps, .mtsr (decMtsrOps r))
  | 0xe9 => some (.sMfsrOps, .mfsr (decMfsrOps r))
  | 0xea => some (.sKTrap, .trap (decKTrap r))
  | 0xeb => some (.sN0, .uiret (decN0 r))
  | 0xec => some (.sN0, .tret (decN0 r))
  | 0xed => some (.sS1W, .csave (decS1W r))
  | 0xee => some (.sS1W, .crest (decS1W r))
  | 0xef => some (.sS2W, .ttld (decS2W r))
  | 0xf0 => some (.sS2W, .ttst (decS2W r))
  | 0xf1 => some (.sN0, .waite (decN0 r))
  | 0xf2 => some (.sN0, .bkpt (decN0 r))
  | 0xf3 => some (.sN0, .snap (decN0 r))
  | _ => none

/-- The encoder: the fields of an instruction, from R40 to R63. A device step has no words; it gets the zero word. -/
def encode : Instr → Raw
  | .nop o => encNopOps 0x00 o
  | .reservedOpcode w => Raw.ofWord w
  | .br o => encB0 0x01 o
  | .bz o => encB1W 0x02 o
  | .bnz o => encB1W 0x03 o
  | .bp o => encB1P 0x04 o
  | .bnp o => encB1P 0x05 o
  | .beq o => encB2W 0x06 o
  | .bne o => encB2W 0x07 o
  | .blt o => encB2W 0x08 o
  | .bge o => encB2W 0x09 o
  | .bltu o => encB2W 0x0a o
  | .bgeu o => encB2W 0x0b o
  | .loopr o => encB1W 0x0c o
  | .brx o => encS1W 0x0d o
  | .ipf o => encB0 0x0e o
  | .add o => encR3W 0x10 o
  | .sub o => encR3W 0x11 o
  | .addi o => encRIW 0x12 o
  | .subi o => encRIW 0x13 o
  | .mul o => encR3W 0x14 o
  | .mulh o => encR3W 0x15 o
  | .mulhu o => encR3W 0x16 o
  | .div o => encR3W 0x17 o
  | .divu o => encR3W 0x18 o
  | .rem o => encR3W 0x19 o
  | .remu o => encR3W 0x1a o
  | .and o => encR3W 0x1b o
  | .or o => encR3W 0x1c o
  | .xor o => encR3W 0x1d o
  | .andi o => encRIW 0x1e o
  | .ori o => encRIW 0x1f o
  | .xori o => encRIW 0x20 o
  | .shl o => encR3W 0x21 o
  | .shr o => encR3W 0x22 o
  | .sar o => encR3W 0x23 o
  | .shli o => encRIW 0x24 o
  | .shri o => encRIW 0x25 o
  | .sari o => encRIW 0x26 o
  | .mov o => encR2W 0x27 o
  | .movi o => encI1W 0x28 o
  | .cmp o => encCmpR 0x29 o
  | .cmpi o => encCmpI 0x2a o
  | .plog o => encPlogR 0x2b o
  | .sel o => encSelR 0x2c o
  | .bitc o => encBitcR 0x2d o
  | .extr o => encExtrI 0x2e o
  | .insr o => encRIW 0x2f o
  | .ld o => encLdOps 0x30 o
  | .ldx o => encLxOps 0x31 o
  | .st o => encStOps 0x32 o
  | .stx o => encSxOps 0x33 o
  | .ldfe o => encFeLd 0x34 o
  | .ldff o => encFeLd 0x35 o
  | .stf o => encFeSt 0x36 o
  | .sete o => encFeSet 0x37 o
  | .aadd o => encAtOps 0x38 o
  | .afadd o => encAtOps 0x39 o
  | .amin o => encAtOps 0x3a o
  | .amax o => encAtOps 0x3b o
  | .aand o => encAtOps 0x3c o
  | .aor o => encAtOps 0x3d o
  | .axor o => encAtOps 0x3e o
  | .aswp o => encAtOps 0x3f o
  | .acas o => encAcasOps 0x40 o
  | .pfh o => encBoOps 0x41 o
  | .lds o => encLdOps 0x42 o
  | .sts o => encStOps 0x43 o
  | .ldsx o => encLxOps 0x44 o
  | .stsx o => encSxOps 0x45 o
  | .cflush o => encBoOps 0x46 o
  | .cinv o => encBoOps 0x47 o
  | .bcpost o => encFeSt 0x48 o
  | .bcrd o => encBcrdOps 0x49 o
  | .cpy o => encCpOps 0x50 o
  | .cpynb o => encCpOps 0x51 o
  | .cwait o => encCwOps 0x52 o
  | .ctest o => encCtOps 0x53 o
  | .coll o => encCpOps 0x54 o
  | .collnb o => encCpOps 0x55 o
  | .cstat o => encCsOps 0x56 o
  | .bind o => encT3W 0x58 o
  | .unbind o => encS1W 0x59 o
  | .qput o => encS2W 0x5a o
  | .qget o => encS2W 0x5b o
  | .sempost o => encKSem 0x5c o
  | .semwait o => encKSem 0x5d o
  | .acq o => encBoOps 0x5e o
  | .rel o => encBoOps 0x5f o
  | .fadd o => encF3 0x60 o
  | .fsub o => encF3 0x61 o
  | .fmul o => encF3 0x62 o
  | .ffma o => encF4 0x63 o
  | .fdiv o => encF3 0x64 o
  | .fsqrt o => encF2 0x65 o
  | .fmin o => encF3 0x66 o
  | .fmax o => encF3 0x67 o
  | .fcmp o => encFcmpR 0x68 o
  | .fcvt o => encFcvtR 0x69 o
  | .fabs o => encF2 0x6a o
  | .fneg o => encF2 0x6b o
  | .vadd o => encV3 0x70 o
  | .vsub o => encV3 0x71 o
  | .vmul o => encV3 0x72 o
  | .vfma o => encV4 0x73 o
  | .vfms o => encV4 0x74 o
  | .vfnma o => encV4 0x75 o
  | .vdiv o => encV3 0x76 o
  | .vsqrt o => encV2 0x77 o
  | .vmin o => encV3 0x78 o
  | .vmax o => encV3 0x79 o
  | .vabs o => encV2 0x7a o
  | .vneg o => encV2 0x7b o
  | .vand o => encV3 0x7c o
  | .vor o => encV3 0x7d o
  | .vxor o => encV3 0x7e o
  | .vnot o => encV2 0x7f o
  | .vshl o => encV3 0x80 o
  | .vshr o => encV3 0x81 o
  | .vsar o => encV3 0x82 o
  | .vcmp o => encVcmpR 0x83 o
  | .vsel o => encVselR 0x84 o
  | .vmov o => encV2 0x85 o
  | .vbcast o => encVbcR 0x86 o
  | .vins o => encVinsR 0x87 o
  | .vext o => encVextR 0x88 o
  | .vperm o => encV3 0x89 o
  | .vshuf o => encV3 0x8a o
  | .vrot o => encVrotR 0x8b o
  | .vzip o => encV3 0x8c o
  | .vunzip o => encV3 0x8d o
  | .vcvt o => encVcvtR 0x8e o
  | .vrcp o => encV2 0x8f o
  | .vrsq o => encV2 0x90 o
  | .vexp o => encV2 0x91 o
  | .vlog o => encV2 0x92 o
  | .vradd o => encVredR 0x93 o
  | .vrmax o => encVredR 0x94 o
  | .vrmin o => encVredR 0x95 o
  | .vdot o => encVdotR 0x96 o
  | .mand o => encM3 0x97 o
  | .mor o => encM3 0x98 o
  | .mxor o => encM3 0x99 o
  | .mnot o => encM2 0x9a o
  | .mpop o => encMW 0x9b o
  | .mfirst o => encMW 0x9c o
  | .mtop o => encMP 0x9d o
  | .cvt o => encT2C 0xa0 o
  | .align o => encT2C 0xa1 o
  | .dealign o => encT2C 0xa2 o
  | .bscale o => encT2C 0xa3 o
  | .seed o => encS1W 0xa4 o
  | .vpack o => encVpackR 0xa5 o
  | .vunpk o => encVunpkR 0xa6 o
  | .cvld o => encCvldR 0xa7 o
  | .cvst o => encCvstR 0xa8 o
  | .mload o => encT2X 0xb8 o
  | .mma o => encT2X 0xb9 o
  | .mmaf o => encT2X 0xba o
  | .aclr o => encS2W 0xbb o
  | .ard o => encArdR 0xbc o
  | .asto o => encT2X 0xbd o
  | .mgrp o => encS1W 0xbe o
  | .amask o => encS2W 0xbf o
  | .grule o => encS1W 0xc0 o
  | .geval o => encT2X 0xc1 o
  | .gclr o => encN0 0xc2 o
  | .grd o => encR2W 0xc3 o
  | .tspawn o => encS1W 0xd0 o
  | .tcommit o => encN0 0xd1 o
  | .tend o => encN0 0xd2 o
  | .tabort o => encN0 0xd3 o
  | .tsadv o => encS1W 0xd4 o
  | .tscmp o => encR3W 0xd5 o
  | .rinv o => encS2W 0xd6 o
  | .calld o => encCalldOps 0xe0 o
  | .calldr o => encCalldrOps 0xe1 o
  | .retd o => encN0 0xe2 o
  | .taild o => encS1W 0xe3 o
  | .cfetch o => encS1W 0xe4 o
  | .vevict o => encS1W 0xe5 o
  | .vprobe o => encR2W 0xe6 o
  | .mtsr o => encMtsrOps 0xe8 o
  | .mfsr o => encMfsrOps 0xe9 o
  | .trap o => encKTrap 0xea o
  | .uiret o => encN0 0xeb o
  | .tret o => encN0 0xec o
  | .csave o => encS1W 0xed o
  | .crest o => encS1W 0xee o
  | .ttld o => encS2W 0xef o
  | .ttst o => encS2W 0xf0 o
  | .waite o => encN0 0xf1 o
  | .bkpt o => encN0 0xf2 o
  | .snap o => encN0 0xf3 o
  | .demandFetch _ _ => Raw.ofWord 0#64
  | .instructionLineFill _ _ => Raw.ofWord 0#64
  | .loadDataReturn _ _ => Raw.ofWord 0#64
  | .wmb0Read _ => Raw.ofWord 0#64
  | .wmb1Read _ => Raw.ofWord 0#64
  | .win2Write _ => Raw.ofWord 0#64
  | .installRecordReceive _ _ => Raw.ofWord 0#64
  | .clearingQueueRelease _ => Raw.ofWord 0#64
  | .transferStart _ _ => Raw.ofWord 0#64
  | .transferComplete _ _ _ => Raw.ofWord 0#64
  | .transferFault _ _ _ => Raw.ofWord 0#64
  | .collectiveMatchComplete _ _ => Raw.ofWord 0#64
  | .completionInterrupt _ => Raw.ofWord 0#64
  | .byteCountTrapDelivery _ => Raw.ofWord 0#64
  | .semaphoreOverflowDelivery _ => Raw.ofWord 0#64
  | .portWordArrival _ _ => Raw.ofWord 0#64
  | .linkWordArrival _ _ => Raw.ofWord 0#64
  | .slotUnpark _ _ => Raw.ofWord 0#64
  | .faultEntryReply _ _ => Raw.ofWord 0#64
  | .engineOperationStart _ => Raw.ofWord 0#64
  | .engineSemPost _ => Raw.ofWord 0#64
  | .engineOperationComplete _ => Raw.ofWord 0#64
  | .conversionUnitComplete _ => Raw.ofWord 0#64
  | .dispatcherPlace _ => Raw.ofWord 0#64
  | .bankModeChange _ _ => Raw.ofWord 0#64
  | .redundantMismatch _ => Raw.ofWord 0#64
  | .watchdogExpiry _ => Raw.ofWord 0#64
  | .partitionDrainComplete _ => Raw.ofWord 0#64
  | .preemptionTrap _ => Raw.ofWord 0#64
  | .codeFetchInstall _ _ => Raw.ofWord 0#64
  | .mintPublish _ => Raw.ofWord 0#64
  | .codeFetchFailure _ _ => Raw.ofWord 0#64
  | .invalidationComplete => Raw.ofWord 0#64
  | .l1FlushComplete _ => Raw.ofWord 0#64
  | .sectorPinComplete _ _ => Raw.ofWord 0#64
  | .containmentFence _ => Raw.ofWord 0#64
  | .containmentReset _ => Raw.ofWord 0#64
  | .linkTrainingComplete _ => Raw.ofWord 0#64
  | .aqgalRequestTimeout _ => Raw.ofWord 0#64
  | .syncFlitSend _ => Raw.ofWord 0#64
  | .creditProbe _ => Raw.ofWord 0#64
  | .startStageComplete => Raw.ofWord 0#64
  | .storePerformed _ => Raw.ofWord 0#64
  | .collectiveMemberLost _ _ => Raw.ofWord 0#64
  | .pfqbaseWrite _ => Raw.ofWord 0#64
  | .launchRecordArrival _ _ => Raw.ofWord 0#64
  | .preqWrite _ _ => Raw.ofWord 0#64
  | .partitionResize _ _ => Raw.ofWord 0#64
  | .vlimWrite _ _ => Raw.ofWord 0#64
  | .txcmdInvalidatePage _ => Raw.ofWord 0#64
  | .txcmdInvalidateAsid _ => Raw.ofWord 0#64
  | .txcmdInvalidateAll _ => Raw.ofWord 0#64
  | .l1ctlFlushAsid _ _ => Raw.ofWord 0#64
  | .l1ctlFlushTile _ _ => Raw.ofWord 0#64
  | .srpctlEnable _ _ _ => Raw.ofWord 0#64
  | .srpaddPin _ _ _ => Raw.ofWord 0#64
  | .rslowWrite _ _ => Raw.ofWord 0#64
  | .nanmodeWrite _ _ => Raw.ofWord 0#64
  | .srgenWrite _ _ => Raw.ofWord 0#64
  | .mpdstWrite _ _ _ => Raw.ofWord 0#64
  | .registerWrite _ _ => Raw.ofWord 0#64
  | .ctrectRejoin _ _ => Raw.ofWord 0#64
  | .routerLinkFailure _ => Raw.ofWord 0#64
  | .lmctlRetrain _ _ => Raw.ofWord 0#64
  | .lmctlCounterClear _ _ => Raw.ofWord 0#64
  | .ucieFlitReceive _ _ => Raw.ofWord 0#64
  | .crcWindowEnd _ => Raw.ofWord 0#64
  | .laneRetirement _ _ => Raw.ofWord 0#64
  | .aqgalFlitReceive _ _ => Raw.ofWord 0#64
  | .aqgalPortSetChange _ _ => Raw.ofWord 0#64
  | .launchFlitSequence _ _ => Raw.ofWord 0#64
  | .rocePacketReceive _ _ => Raw.ofWord 0#64
  | .launchSend _ _ => Raw.ofWord 0#64
  | .ptpMessage _ => Raw.ofWord 0#64
  | .undervoltWindowEnd _ _ => Raw.ofWord 0#64
  | .snapctlGo _ => Raw.ofWord 0#64
  | .powerGood => Raw.ofWord 0#64
  | .startStageFailure _ => Raw.ofWord 0#64
  | .attestationChallenge _ => Raw.ofWord 0#64
  | .thermalTrip _ => Raw.ofWord 0#64
  | .powerLoss => Raw.ofWord 0#64
  | .scrubbing _ _ => Raw.ofWord 0#64

/-! The decoding checks of R57. -/

/-- What a failing decoding check raises, with the detail of R57. -/
inductive DecodeTrap where
  | illegal (detail : Nat)
  | role (opcode : Nat)
  | reserved (bit : Nat)
  | opclass (field : Nat)
deriving DecidableEq, Repr

/-- The lowest set bit of a field as an instruction bit number, for a field that starts at bit `base` (R57). -/
def lowBit {w : Nat} (x : BitVec w) (base : Nat) : List Nat :=
  (((List.range w).find? (fun i => x.getLsbD i)).map (· + base)).toList

/-- The lowest bit `base` of a field whose code is not permitted. -/
def codeBad (ok : Bool) (base : Nat) : List Nat := if ok then [] else [base]

/-- The least of the offending bits. -/
def leastBit : List Nat → Option Nat
  | [] => none
  | x :: xs => some (xs.foldl min x)

/-- The used register fields of a shape with the codes they hold: field index, class and code, in the order D, S1, S2,
S3 (R49, R57). -/
def usedFields (u : FieldUse) (r : Raw) : List (Nat × Cls × BitVec 6) :=
  [(0, u.d, r.d), (1, u.s1, r.s1), (2, u.s2, r.s2), (3, u.s3, bits r.ext 0 6)].filterMap
    (fun t => t.2.1.map (fun c => (t.1, c, t.2.2)))

/-- The lowest bit of each register field (R40, R42). -/
def fieldBit : Nat → Nat | 0 => 14 | 1 => 20 | 2 => 26 | _ => 64

/-- The used fields that hold a constant-window operand, code 0x3F (R41). Only fields of class W are counted: in a P, V or M field
the code names nothing and is a wrong class (DESIGN CHOICE, log 120). -/
def constFields (u : FieldUse) (r : Raw) : List Nat :=
  (usedFields u r).filterMap (fun t => if t.2.1 = .w ∧ t.2.2 = 0x3F#6 then some t.1 else none)

/-- Whether the shape reads its D field (the fields marked read in R63). -/
def Shape.readsD : Shape → Bool
  | .sSxOps | .sT3W | .sT2C | .sT2X | .sCvstR => true
  | _ => false

/-- The element types that an instruction of the vector group permits (R52, R190, R191, R194). -/
def etyOk (op : Nat) (c : BitVec 4) : Bool :=
  let n := c.toNat
  if 0x60 ≤ op ∧ op ≤ 0x6B then n ≤ 2
  else if op ∈ [0x73, 0x74, 0x75, 0x76, 0x77, 0x8F, 0x90, 0x91, 0x92] then n ≤ 2
  else if op ∈ [0x80, 0x81, 0x82] then 3 ≤ n && n ≤ 10
  else if op = 0x87 ∨ op = 0x88 then n == 9 || n == 10
  else n ≤ 10

/-- The conditions that FCMP and VCMP permit for an element type (R53, R192). -/
def fcondOk (ty c : BitVec 4) : Bool :=
  if ty.toNat ≤ 2 then c.toNat ≤ 3 || (6 ≤ c.toNat && c.toNat ≤ 9) else c.toNat ≤ 7

/-- The offending bits of M12 (R52 to R54, R188, R190, R192, R212, R240). -/
def m12Bad (sh : Shape) (op : Nat) (m : BitVec 12) : List Nat :=
  let rest (lo : Nat) : List Nat := lowBit (bits m lo (12 - lo)) (52 + lo)
  let ety := codeBad (etyOk op (bits m 0 4)) 52
  match sh with
  | .sCmpR | .sCmpI => codeBad ((bits m 0 4).toNat ≤ 7) 52 ++ rest 4
  | .sPlogR => rest 2
  | .sSelR => rest 3
  | .sBitcR => codeBad (bits m 0 2 ≠ 3#2) 52 ++ rest 2
  | .sExtrI => rest 1
  | .sLdOps | .sLxOps =>
      codeBad ((bits m 0 3).toNat ≤ 4) 52 ++ codeBad (!(m.getLsbD 3 && 2 < (bits m 0 3).toNat)) 55
        ++ codeBad ((bits m 4 2).toNat ≤ (if op = 0x42 ∨ op = 0x44 then 0 else 1)) 56 ++ rest 6
  | .sStOps | .sSxOps =>
      codeBad ((bits m 0 3).toNat ≤ 4) 52 ++ lowBit (bits m 3 1) 55
        ++ codeBad (bits m 4 2 = 0#2 || (bits m 4 2 = 2#2 && op ≠ 0x43 && op ≠ 0x45)) 56 ++ rest 6
  | .sFeLd => codeBad (bits m 0 3 = 3#3) 52 ++ lowBit (bits m 3 1) 55 ++ codeBad ((bits m 4 2).toNat ≤ 1) 56 ++ rest 6
  | .sFeSt | .sFeSet =>
      codeBad (bits m 0 3 = 3#3) 52 ++ lowBit (bits m 3 1) 55
        ++ codeBad (bits m 4 2 = 0#2 || (bits m 4 2 = 2#2 && op ≠ 0x48)) 56 ++ rest 6
  | .sAtOps | .sAcasOps =>
      codeBad (bits m 0 3 = 2#3 || (bits m 0 3 = 3#3 && op ≠ 0x39)) 52 ++ lowBit (bits m 3 1) 55 ++ rest 6
  | .sBcrdOps => codeBad (bits m 0 3 = 3#3) 52 ++ lowBit (bits m 3 1) 55 ++ codeBad (bits m 4 2 = 0#2) 56 ++ rest 6
  | .sBoOps =>
      if op = 0x5E ∨ op = 0x5F then rest 0 -- M12 of ACQ and REL is zero (R240)
      else codeBad (bits m 0 3 = 0#3) 52 ++ lowBit (bits m 3 1) 55 ++ codeBad (bits m 4 2 = 0#2) 56 ++ rest 6
  | .sF3 | .sF4 | .sF2 => ety ++ rest 4
  | .sFcmpR => ety ++ lowBit (bits m 4 4) 56 ++ codeBad (fcondOk (bits m 0 4) (bits m 8 4)) 60
  | .sFcvtR | .sVcvtR =>
      codeBad ((bits m 0 4).toNat ≤ 10) 52 ++ codeBad ((bits m 4 4).toNat ≤ 10) 56 ++ codeBad ((bits m 8 3).toNat ≤ 4) 60
  | .sV3 | .sV4 | .sV2 | .sVbcR | .sVrotR => ety ++ rest 8
  | .sVcmpR => ety ++ codeBad (fcondOk (bits m 0 4) (bits m 8 4)) 60
  | .sVselR | .sVredR | .sVdotR => ety ++ rest 7
  | .sVextR => ety ++ lowBit (bits m 4 3) 56 ++ rest 8
  | .sVinsR | .sM3 | .sM2 | .sMW | .sMP => ety ++ rest 4
  | .sT2C | .sVpackR => codeBad ((bits m 0 3).toNat ≤ 4) 52 ++ rest 4
  | .sT2X =>
      (if m.getLsbD 3 then codeBad ((bits m 4 6).toNat ≤ 31) 61 else lowBit (bits m 4 6) 56) ++ rest 10
  | .sCalldOps | .sCalldrOps => []
  | _ => rest 0

/-- The immediate field as it stands in the instruction: its bits and its lowest bit (R41, R42), also where a written field
holds 0x3F (DEDUCED, log 85). -/
def immField (r : Raw) : BitVec 64 × Nat :=
  match r.len with
  | .l64 => (r.x20.zeroExtend 64, 32)
  | .l96 => ((bits r.ext 0 32).zeroExtend 64, 64)
  | .l128 => (r.ext, 64)

/-- The lane count of an element type code (R188). -/
def laneCount (c : BitVec 4) : Nat :=
  match c.toNat with
  | 0 => 16 | 1 => 32 | 2 => 32 | 3 => 16 | 4 => 32 | 5 => 64 | 6 => 16 | 7 => 32 | 8 => 64 | _ => 8

/-- The offending bits of an immediate outside its limit (R63, R164, R193, R241, R301, R312). -/
def immBad (sh : Shape) (r : Raw) : List Nat :=
  let (f, lo) := immField r
  let above (k : Nat) : List Nat := lowBit (f >>> k) (lo + k)
  match sh with
  | .sRIW =>
      if r.op = 0x24#8 ∨ r.op = 0x25#8 ∨ r.op = 0x26#8 then above 6
      else if r.op = 0x2F#8 then
        above 12 ++ codeBad ((bits f 0 6).toNat + (bits f 6 6).toNat + 1 ≤ 64) (lo + 6 + (if (above 12).isEmpty then 0 else 64))
      else []
  | .sExtrI =>
      above 12 ++ codeBad ((bits f 0 6).toNat + (bits f 6 6).toNat + 1 ≤ 64) (lo + 6 + (if (above 12).isEmpty then 0 else 64))
  | .sVrotR => codeBad ((immOf r).toNat < laneCount (bits r.m12 0 4) || !etyOk 0x8B (bits r.m12 0 4)) lo
  | .sVinsR | .sVextR | .sCpOps | .sCwOps | .sCtOps | .sCsOps => above 3
  | .sKSem => above 5
  | .sKTrap => above 12
  | .sMtsrOps | .sMfsrOps => above 12 ++ codeBad (SysReg.ofNum? (bits r.x20 0 12)).isSome 32
  | _ => []

/-- Whether a W-class code names an access-class register (R47). -/
def isAcc (c : BitVec 6) : Bool := 0x28#6 ≤ c && c < 0x38#6

/-- Whether a field holds an access-class, execute-class or neutral register (R47): `mem` is the load and store groups. -/
inductive RC where | acc | exe | neu
deriving DecidableEq, Repr

def rcOf (mem : Bool) (k : Cls) (c : BitVec 6) : RC :=
  if k ≠ .w then .exe
  else if isAcc c then .acc
  else if c = 0x20#6 ∨ c = 0x3F#6 ∨ (c = 0x38#6 ∧ mem) then .neu
  else .exe

/-- Opcodes 0x30 to 0x49 are the load and store groups of R43 and R47 (R137). -/
def isMemOp (op : Nat) : Bool := 0x30 ≤ op && op ≤ 0x49

def fieldClasses (u : FieldUse) (r : Raw) : List (Nat × RC) :=
  (usedFields u r).map (fun t => (t.1, rcOf (isMemOp r.op.toNat) t.2.1 t.2.2))

/-- The branches that the access half resolves (R162); one with a source of each class has no resolving half. -/
def accessResolved (u : FieldUse) (r : Raw) : Bool :=
  let op := r.op.toNat
  let cs := fieldClasses u r
  (op = 2 || op = 3 || (6 ≤ op && op ≤ 0xD)) && cs.any (fun t => t.2 == .acc) && !cs.any (fun t => t.2 == .exe)

/-- Check 5 of R57: the lowest offending bit, if there is one. -/
def reservedBits (sh : Shape) (r : Raw) : List Nat :=
  let u := sh.fields
  let cf := constFields u r
  codeBad (!(accessResolved u r && r.gp ≠ 0#3)) 10
    ++ (if u.d = none then lowBit r.d 14 else [])
    ++ (if u.s1 = none then lowBit r.s1 20 else [])
    ++ (if u.s2 = none then lowBit r.s2 26 else [])
    ++ (match cf with | _ :: f :: _ => [fieldBit f] | _ => [])
    ++ (if sh.hasImm ∧ r.len = .l64 then
          match cf.filter (fun f => (f ≠ 0 || sh.readsD) && !(r.op = 0x0C#8 && f = 1)) with | f :: _ => [fieldBit f] | [] => []
        else [])
    ++ (if cf = [] ∧ ¬ (sh.hasImm ∧ r.len = .l64) then lowBit r.x20 32 else [])
    ++ (if sh = .sCalldOps ∧ r.s1 = 0x3F#6 then codeBad ((bits r.x20 0 17).toNat ≤ 131066) 32 else [])
    ++ (if sh = .sCpOps then codeBad (¬ (0x35#6 ≤ r.s1 ∧ r.s1 ≤ 0x37#6)) 20 else [])
    ++ (if u.s3 ≠ none then lowBit (bits r.ext 6 58) 70
        else if sh.hasImm then [] else lowBit r.ext 64)
    ++ m12Bad sh r.op.toNat r.m12
    ++ immBad sh r

/-- The loads of R43 and R49, whose V form takes only `lq`. -/
def isLoadV (op : Nat) : Bool := op = 0x30 || op = 0x31 || op = 0x42 || op = 0x44

/-- The first field of a list of fields that satisfies a test. -/
def firstField {α : Type} (l : List (Nat × α)) (p : α → Bool) : Option Nat := (l.find? (fun t => p t.2)).map (·.1)

/-- A field's own code check: P and M take 0 to 7, V takes v0 to v15 and 0x38 (R43), a written W field refuses 0x3F (R45). -/
def fieldCodeBad (sh : Shape) (op : Nat) (t : Nat × Cls × BitVec 6) : Bool :=
  match t.2.1 with
  | .p | .m => 7#6 < t.2.2
  | .v => 15#6 < t.2.2 && t.2.2 ≠ 0x38#6
  | .w => t.2.2 = 0x3F#6 && ((t.1 = 0 && !sh.readsD) || (op = 0x0C && t.1 = 1))

/-- The class rules of single instructions and groups: R137, R163, R181, R187, R212, R231. That of R278 comes after the guard (R284), so the
instruction takes it itself. -/
def specialBad (sh : Shape) (r : Raw) : Option Nat :=
  let op := r.op.toNat
  let rmw (c : BitVec 6) : Bool := 0x38#6 ≤ c || c = 0x20#6 || c = 0x28#6
  if op = 0x2F ∧ rmw r.d then some 0
  else if op = 0x0C ∧ rmw r.s1 then some 1
  else if isMemOp op ∧ r.s1 = 0x38#6 then some 1
  else if (sh = .sLxOps ∨ sh = .sSxOps) ∧ r.s2 = 0x38#6 then some 2
  else if isLoadV op ∧ bits r.m12 0 3 = 4#3 ∧ r.d ≠ 0x38#6 then some 0
  else if sh = .sStOps ∧ bits r.m12 0 3 = 4#3 ∧ r.s2 ≠ 0x38#6 then some 2
  else if sh = .sSxOps ∧ bits r.m12 0 3 = 4#3 ∧ r.d ≠ 0x38#6 then some 0
  else if sh = .sVinsR ∧ r.d = 0x38#6 then some 0
  else if sh = .sVcmpR ∧ (r.s1 = 0x38#6 ∨ r.s2 = 0x38#6) ∧ bits r.m12 4 3 ≠ 0#3 ∧ r.m12.getLsbD 7 = false then some 0
  else if sh = .sT2X ∧ r.d = 0x38#6 then some 0
  else if op = 0x58 then
    ([(0, r.d), (1, r.s1), (2, r.s2)].find? (fun t => !(t.2 = 0x20#6 || isAcc t.2))).map (·.1)
  else none

/-- The uses of R49, R162 and R63 (the first register of a CP shape) that take the operand-class trap, with the field they name. -/
def streamBad (sh : Shape) (r : Raw) : Option Nat :=
  let op := r.op.toNat
  let fc := fieldClasses sh.fields r
  let acc := fc.any (fun t => t.2 == .acc)
  let exe := fc.any (fun t => t.2 == .exe)
  if op = 0x0E ∨ (0x30 ≤ op ∧ op ≤ 0x5F) then
    match firstField fc (· == .exe) with
    | some f => some f
    | none =>
      if isMemOp op ∧ sh.fields.d.isSome ∧ !sh.readsD ∧ !(r.d = 0x38#6 || r.d = 0x20#6 || isAcc r.d) then some 0
      else if sh = .sCpOps ∧ ¬ isAcc r.s1 then some 1
      else none
  else if 0x10 ≤ op ∧ op ≤ 0x2F then
    if acc ∧ exe then
      match fc.filter (fun t => t.2 != .neu) with
      | (_, c) :: rest => firstField rest (· != c)
      | [] => none
    else if op = 0x29 ∨ op = 0x2A ∨ op = 0x2B ∨ op = 0x2C then
      if (fc.filter (fun t => t.1 ≠ 0)).any (fun t => t.2 == .acc) then firstField fc (· == .acc) else none
    else none
  else if 0x60 ≤ op ∧ op ≤ 0xCF then firstField fc (· == .acc)
  else if 0x06 ≤ op ∧ op ≤ 0x0B ∧ acc ∧ exe then some 2
  else none

/-- Check 6 of R57. The order among several violations is the model's reading: codes of single fields, then the rules of
single instructions, then the uses of R49 in their order (DEDUCED, log 3). -/
def classBad (sh : Shape) (r : Raw) : Option Nat :=
  match (usedFields sh.fields r).find? (fieldCodeBad sh r.op.toNat) with
  | some t => some t.1
  | none => (specialBad sh r).orElse (fun _ => streamBad sh r)

/-- The core that owns a copy channel (R16). -/
def chOwner (c : BitVec 3) : Role := if c < 4#3 then .m else if c < 6#3 then .v else .a

/-- Check 4 of R57 (R16, R20, R160): conversion on V, matrix and grammar on A, links on A, a copy channel on its owner.
CPY, CPYNB, COLL and COLLNB, CWAIT, CTEST and CSTAT have a channel. -/
def roleBad (role : Role) (sh : Shape) (r : Raw) : Bool :=
  let op := r.op.toNat
  (0xA0 ≤ op && op ≤ 0xA8 && role != .v) || (0xB8 ≤ op && op ≤ 0xC3 && role != .a)
    || (role != .a && (usedFields sh.fields r).any (fun t => t.2.1 == .w && (t.2.2 == 0x3D#6 || t.2.2 == 0x3E#6)))
    || ((sh == .sCpOps || sh == .sCwOps || sh == .sCtOps || sh == .sCsOps) && (immField r).1 < 8#64
        && chOwner (bits (immField r).1 0 3) != role)

/-- The checks of R57 that follow the length and the placement, for a core of a given role. -/
def decodeRaw (role : Role) (r : Raw) : Except DecodeTrap Instr :=
  match opRow r with
  | none => .error (.illegal 2)
  | some (sh, i) =>
    if ¬ sh.lens.contains r.len then .error (.illegal 1)
    else if roleBad role sh r then .error (.role r.op.toNat)
    else match leastBit (reservedBits sh r) with
      | some b => .error (.reserved b)
      | none =>
        match classBad sh r with
        | some f => .error (.opclass f)
        | none => .ok i

/-- Decoding without the role check: what an instruction's bits mean. -/
def decodeAny (r : Raw) : Except DecodeTrap Instr :=
  match opRow r with
  | none => .error (.illegal 2)
  | some (sh, i) =>
    if ¬ sh.lens.contains r.len then .error (.illegal 1)
    else match leastBit (reservedBits sh r) with
      | some b => .error (.reserved b)
      | none =>
        match classBad sh r with
        | some f => .error (.opclass f)
        | none => .ok i

/-- Whether an instruction takes the role trap on a core of a role: the check of R57 on its own words. -/
def Instr.roleBad (role : Role) (i : Instr) : Bool :=
  let r := encode i
  match opRow r with
  | none => false
  | some (sh, _) => Sys2Proof.roleBad role sh r

/-- Decoding at an address, whose offset in its 32-byte block is `off` (R38, R39, R57 check 2). An instruction's bits are
its first 64 bits `w` and the bits `ext` above them. Check 2 tests for the length code 0b11 first, at
offset 28 too, then the placement, then whether the shape permits the length (DESIGN CHOICE, log 84). A reserved opcode decodes to its own constructor, whose meaning is
the trap of R56. -/
def decode (off : Nat) (w ext : BitVec 64) : Except DecodeTrap Instr :=
  if bits w 0 2 = 3#2 then .error (.illegal 1)
  else
    let r := Raw.ofBits w ext
    if off = 28 ∨ 32 < off + r.len.bytes then .error (.illegal 3)
    else match opRow r with
      | none => .ok (.reservedOpcode w)
      | some _ => decodeAny r

/-- The length in bytes of an instruction as it stands in memory; a code of 0b11 counts as 8 bytes (it traps). -/
def lenOfWord (w : BitVec 64) : Nat := (Len.ofCode (bits w 0 2)).bytes

def Instr.bytes (i : Instr) : Nat := (encode i).len.bytes

/-- The first 64 bits of an instruction, which a trap record holds (R57, R299). -/
def Instr.word (i : Instr) : BitVec 64 := (encode i).word

/-- The instruction the decoder reads from the bits of a table row: bit 0 the least significant bit of the first word,
later words above it (R38 to R42). Its words stand at the start of a block. -/
def decodeTableWord (nbits w : Nat) : Option Instr :=
  let x : BitVec 128 := BitVec.ofNat 128 (w % 2 ^ nbits)
  match decode 0 (bits x 0 64) (bits x 64 64) with
  | .ok i => some i
  | .error _ => none

end Sys2Proof
end

