-- ==== Sys2Proof/Machine/Crypto.lean ====
section
/-! DEFINITION. The standard functions that the manual names: SHA-384 (14_digest_code.md R288, R292), ECDSA on P-384 (R288,
17_reliability_start.md R349), SipHash-2-4 with 128 bits of output (13_tasks_scheduling.md R268), CRC-32C (16_links.md R329)
and AES-256-GCM (R333). Their own texts are taken from outside the manual (PRESUMED, log 17). -/
namespace Sys2Proof.Machine

/-! ## Bytes and words -/

/-- A 64-bit word from bytes, least significant first (R6). -/
def wordLE (bs : List Byte) : Word := BitVec.ofNat 64 (bs.take 8 |>.foldr (fun b acc => b.toNat + 256 * acc) 0)
/-- A number from bytes, most significant first. -/
def natBE (bs : List Byte) : Nat := bs.foldl (fun acc b => 256 * acc + b.toNat) 0
/-- The n bytes of a number, least significant first. -/
def bytesLE (n v : Nat) : List Byte := (List.range n).map fun i => BitVec.ofNat 8 (v / 256 ^ i)
def bytesBE (n v : Nat) : List Byte := (bytesLE n v).reverse
/-- Words from bytes, and bytes from words (R6). -/
def wordsOfBytes (n : Nat) (bs : List Byte) : List Word := (List.range n).map fun i => wordLE (bs.drop (8 * i))
def bytesOfWords (ws : List Word) : List Byte := ws.flatMap fun w => bytesLE 8 w.toNat

/-! ## SHA-384 -/

def shaK : List Word :=
  [0x428A2F98D728AE22, 0x7137449123EF65CD, 0xB5C0FBCFEC4D3B2F, 0xE9B5DBA58189DBBC,
   0x3956C25BF348B538, 0x59F111F1B605D019, 0x923F82A4AF194F9B, 0xAB1C5ED5DA6D8118,
   0xD807AA98A3030242, 0x12835B0145706FBE, 0x243185BE4EE4B28C, 0x550C7DC3D5FFB4E2,
   0x72BE5D74F27B896F, 0x80DEB1FE3B1696B1, 0x9BDC06A725C71235, 0xC19BF174CF692694,
   0xE49B69C19EF14AD2, 0xEFBE4786384F25E3, 0x0FC19DC68B8CD5B5, 0x240CA1CC77AC9C65] ++
  [0x2DE92C6F592B0275, 0x4A7484AA6EA6E483, 0x5CB0A9DCBD41FBD4, 0x76F988DA831153B5,
   0x983E5152EE66DFAB, 0xA831C66D2DB43210, 0xB00327C898FB213F, 0xBF597FC7BEEF0EE4,
   0xC6E00BF33DA88FC2, 0xD5A79147930AA725, 0x06CA6351E003826F, 0x142929670A0E6E70,
   0x27B70A8546D22FFC, 0x2E1B21385C26C926, 0x4D2C6DFC5AC42AED, 0x53380D139D95B3DF,
   0x650A73548BAF63DE, 0x766A0ABB3C77B2A8, 0x81C2C92E47EDAEE6, 0x92722C851482353B] ++
  [0xA2BFE8A14CF10364, 0xA81A664BBC423001, 0xC24B8B70D0F89791, 0xC76C51A30654BE30,
   0xD192E819D6EF5218, 0xD69906245565A910, 0xF40E35855771202A, 0x106AA07032BBD1B8,
   0x19A4C116B8D2D0C8, 0x1E376C085141AB53, 0x2748774CDF8EEB99, 0x34B0BCB5E19B48A8,
   0x391C0CB3C5C95A63, 0x4ED8AA4AE3418ACB, 0x5B9CCA4F7763E373, 0x682E6FF3D6B2B8A3,
   0x748F82EE5DEFB2FC, 0x78A5636F43172F60, 0x84C87814A1F0AB72, 0x8CC702081A6439EC] ++
  [0x90BEFFFA23631E28, 0xA4506CEBDE82BDE9, 0xBEF9A3F7B2C67915, 0xC67178F2E372532B,
   0xCA273ECEEA26619C, 0xD186B8C721C0C207, 0xEADA7DD6CDE0EB1E, 0xF57D4F7FEE6ED178,
   0x06F067AA72176FBA, 0x0A637DC5A2C898A6, 0x113F9804BEF90DAE, 0x1B710B35131C471B,
   0x28DB77F523047D84, 0x32CAAB7B40C72493, 0x3C9EBE0A15C9BEBC, 0x431D67C49C100D4C,
   0x4CC5D4BECB3E42B6, 0x597F299CFC657E2A, 0x5FCB6FAB3AD6FAEC, 0x6C44198C4A475817]
def shaInit : List Word :=
  [0xCBBB9D5DC1059ED8, 0x629A292A367CD507, 0x9159015A3070DD17, 0x152FECD8F70E5939,
   0x67332667FFC00B31, 0x8EB44A8768581511, 0xDB0C2E0D64F98FA7, 0x47B5481DBEFA4FA4]

/-- The message schedule of a block, newest word first. -/
def shaSchedule (block : List Byte) : List Word :=
  let w0 := (List.range 16).foldl (fun acc i => BitVec.ofNat 64 (natBE ((block.drop (8 * i)).take 8)) :: acc) []
  (List.range 64).foldl (fun acc _ =>
    let a := acc.getD 14 0
    let b := acc.getD 1 0
    let s0 := a.rotateRight 1 ^^^ a.rotateRight 8 ^^^ (a >>> 7)
    let s1 := b.rotateRight 19 ^^^ b.rotateRight 61 ^^^ (b >>> 6)
    (s1 + acc.getD 6 0 + s0 + acc.getD 15 0) :: acc) w0

def shaRound (st : List Word) (k w : Word) : List Word :=
  match st with
  | [a, b, c, d, e, f, g, h] =>
    let s1 := e.rotateRight 14 ^^^ e.rotateRight 18 ^^^ e.rotateRight 41
    let ch := (e &&& f) ^^^ (~~~e &&& g)
    let t1 := h + s1 + ch + k + w
    let s0 := a.rotateRight 28 ^^^ a.rotateRight 34 ^^^ a.rotateRight 39
    let mj := (a &&& b) ^^^ (a &&& c) ^^^ (b &&& c)
    [t1 + s0 + mj, a, b, c, d + t1, e, f, g]
  | st => st

def shaBlock (st : List Word) (block : List Byte) : List Word :=
  let ws := (shaSchedule block).reverse
  let st' := (shaK.zip ws).foldl (fun acc (k, w) => shaRound acc k w) st
  (st.zip st').map fun (x, y) => x + y

/-- A message with its padding. -/
def shaPad (bs : List Byte) : List Byte :=
  let z := (239 - bs.length % 128) % 128
  bs ++ (0x80#8 :: List.replicate z 0#8) ++ bytesBE 16 (8 * bs.length)

def shaBlocks : Nat → List Byte → List Word → List Word
  | 0, _, st => st
  | n + 1, bs, st => shaBlocks n (bs.drop 128) (shaBlock st (bs.take 128))

/-- SHA-384 of a string of bytes: 48 bytes. -/
def sha384 (bs : List Byte) : List Byte :=
  let p := shaPad bs
  ((shaBlocks (p.length / 128) p shaInit).take 6).flatMap fun w => bytesBE 8 w.toNat

/-! ## ECDSA on P-384 -/

def p384 : Nat := 2 ^ 384 - 2 ^ 128 - 2 ^ 96 + 2 ^ 32 - 1
def p384b : Nat := 0xB3312FA7E23EE7E4988E056BE3F82D19181D9C6EFE8141120314088F5013875AC656398D8A2ED19D2A85C8EDD3EC2AEF
def p384n : Nat := 0xFFFFFFFFFFFFFFFFFFFFFFFFFFFFFFFFFFFFFFFFFFFFFFFFC7634D81F4372DDF581A0DB248B0A77AECEC196ACCC52973
def p384g : Nat × Nat :=
  (0xAA87CA22BE8B05378EB1C71EF320AD746E1D3B628BA79B9859F741E082542A385502F25DBF55296C3A545E3872760AB7,
   0x3617DE4A96262C6F5D9E98BF9292DC29F8F41DBD289A147CE9DA3113B5F0B8C00A60B1CE1D7E819D7A431D7C90EA0E5F)

/-- A power modulo m, by the bits of the exponent from the top. -/
def powMod (m a e : Nat) : Nat :=
  (List.range 384).foldl (fun acc i =>
    let acc := acc * acc % m
    if e / 2 ^ (383 - i) % 2 = 1 then acc * a % m else acc) 1
def invMod (m a : Nat) : Nat := powMod m (a % m) (m - 2)

/-- The sum of two points of the curve; none is the point at infinity. -/
def ecAdd (x y : Option (Nat × Nat)) : Option (Nat × Nat) :=
  match x, y with
  | none, y => y
  | x, none => x
  | some (x1, y1), some (x2, y2) =>
    let line : Option Nat :=
      if x1 = x2 then
        (if (y1 + y2) % p384 = 0 then none else some ((3 * x1 * x1 + p384 - 3) % p384 * invMod p384 (2 * y1) % p384))
      else some ((y2 + p384 - y1) % p384 * invMod p384 (x2 + p384 - x1) % p384)
    match line with
    | none => none
    | some l =>
      let x3 := (l * l + 2 * p384 - x1 - x2) % p384
      some (x3, (l * (x1 + p384 - x3) + p384 - y1) % p384)

def ecMul (k : Nat) (x : Option (Nat × Nat)) : Option (Nat × Nat) :=
  (List.range 384).foldl (fun acc i =>
    let acc := ecAdd acc acc
    if k / 2 ^ (383 - i) % 2 = 1 then ecAdd acc x else acc) none

/-- A signature (r, s) of a message under the key (qx, qy). -/
def ecdsaOk (qx qy : Nat) (msg : List Byte) (r s : Nat) : Bool :=
  if qx < p384 ∧ qy < p384 ∧ (qy * qy) % p384 = (qx * qx * qx + (p384 - 3) * qx + p384b) % p384 ∧ 0 < r ∧ r < p384n ∧ 0 < s ∧ s < p384n then
    let z := natBE (sha384 msg)
    let w := invMod p384n s
    match ecAdd (ecMul (z * w % p384n) (some p384g)) (ecMul (r * w % p384n) (some (qx, qy))) with
    | some (x, _) => x % p384n == r
    | none => false
  else false

/-! ## SipHash-2-4 with 128 bits of output -/

def sipRound (v : Word × Word × Word × Word) : Word × Word × Word × Word :=
  let (v0, v1, v2, v3) := v
  let v0 := v0 + v1
  let v1 := v1.rotateLeft 13 ^^^ v0
  let v0 := v0.rotateLeft 32
  let v2 := v2 + v3
  let v3 := v3.rotateLeft 16 ^^^ v2
  let v0 := v0 + v3
  let v3 := v3.rotateLeft 21 ^^^ v0
  let v2 := v2 + v1
  let v1 := v1.rotateLeft 17 ^^^ v2
  let v2 := v2.rotateLeft 32
  (v0, v1, v2, v3)

def sipWord (v : Word × Word × Word × Word) (m : Word) : Word × Word × Word × Word :=
  let (v0, v1, v2, v3) := v
  let (v0, v1, v2, v3) := sipRound (sipRound (v0, v1, v2, v3 ^^^ m))
  (v0 ^^^ m, v1, v2, v3)

def sipRounds : Nat → Word × Word × Word × Word → Word × Word × Word × Word
  | 0, v => v
  | n + 1, v => sipRounds n (sipRound v)

def sipMix (v : Word × Word × Word × Word) : Word :=
  let (v0, v1, v2, v3) := v
  v0 ^^^ v1 ^^^ v2 ^^^ v3

/-- The hash of a string of bytes under k0 and k1: the first eight bytes of the output are its low half. -/
def sipHash128 (k0 k1 : Word) (bs : List Byte) : BitVec 128 :=
  let v : Word × Word × Word × Word :=
    (k0 ^^^ 0x736F6D6570736575#64, k1 ^^^ 0x646F72616E646F6D#64 ^^^ 0xEE#64, k0 ^^^ 0x6C7967656E657261#64, k1 ^^^ 0x7465646279746573#64)
  let v := (wordsOfBytes (bs.length / 8) bs).foldl sipWord v
  let last := wordLE (bs.drop (8 * (bs.length / 8))) ||| BitVec.ofNat 64 (2 ^ 56 * (bs.length % 256))
  let (v0, v1, v2, v3) := sipWord v last
  let v := sipRounds 4 (v0, v1, v2 ^^^ 0xEE#64, v3)
  let lo := sipMix v
  let (v0, v1, v2, v3) := v
  let hi := sipMix (sipRounds 4 (v0, v1 ^^^ 0xDD#64, v2, v3))
  hi ++ lo

/-! ## CRC-32C -/

def crcByte (c : BitVec 32) (b : Byte) : BitVec 32 :=
  (List.range 8).foldl (fun acc _ => if acc.getLsbD 0 then (acc >>> 1) ^^^ 0x82F63B78#32 else acc >>> 1)
    (c ^^^ b.zeroExtend 32)
def crc32c (bs : List Byte) : BitVec 32 := ~~~(bs.foldl crcByte 0xFFFFFFFF#32)

/-! ## AES-256-GCM -/

/-- A product in the field of AES. -/
def gfMul (a b : Byte) : Byte :=
  (List.range 8).foldl (fun acc i =>
    let acc := (acc <<< 1) ^^^ (if acc.getLsbD 7 then 0x1B#8 else 0)
    if b.getLsbD (7 - i) then acc ^^^ a else acc) 0
def gfInv (a : Byte) : Byte :=
  (List.range 8).foldl (fun acc i =>
    let acc := gfMul acc acc
    if i = 7 then acc else gfMul acc a) 1
def subByte (a : Byte) : Byte :=
  let x := gfInv a
  x ^^^ x.rotateLeft 1 ^^^ x.rotateLeft 2 ^^^ x.rotateLeft 3 ^^^ x.rotateLeft 4 ^^^ 0x63#8

/-- The key schedule, newest word first; a word is four bytes. -/
def aesKeys (key : List Byte) : List (List Byte) :=
  let w0 := (List.range 8).foldl (fun acc i => (key.drop (4 * i)).take 4 :: acc) []
  ((List.range 52).foldl (fun (acc, rc) j =>
    let i := j + 8
    let t : List Byte := acc.headD []
    let (t, rc') :=
      if i % 8 = 0 then
        (match t with
         | [a, b, c, d] => ([subByte b ^^^ rc, subByte c, subByte d, subByte a], gfMul rc 2)
         | t => (t, rc))
      else if i % 8 = 4 then (t.map subByte, rc) else (t, rc)
    (((acc.getD 7 []).zip t).map (fun (x, y) => x ^^^ y) :: acc, rc')) (w0, (1#8 : Byte))).1

def xorBytes (a b : List Byte) : List Byte := (a.zip b).map fun (x, y) => x ^^^ y
def shiftRows (s : List Byte) : List Byte := (List.range 16).map fun i => s.getD ((i + 4 * (i % 4)) % 16) 0
def mixColumn (c : List Byte) : List Byte :=
  (List.range 4).map fun i => gfMul 2 (c.getD i 0) ^^^ gfMul 3 (c.getD ((i + 1) % 4) 0) ^^^ c.getD ((i + 2) % 4) 0 ^^^ c.getD ((i + 3) % 4) 0
def mixColumns (s : List Byte) : List Byte := (List.range 4).flatMap fun j => mixColumn ((s.drop (4 * j)).take 4)

/-- One block under a 32-byte key. -/
def aes256 (key block : List Byte) : List Byte :=
  let ks := ((aesKeys key).reverse).flatten
  let rk (r : Nat) : List Byte := (ks.drop (16 * r)).take 16
  let s := (List.range 13).foldl (fun s r => xorBytes (mixColumns (shiftRows (s.map subByte))) (rk (r + 1))) (xorBytes block (rk 0))
  xorBytes (shiftRows (s.map subByte)) (rk 14)

/-- A product in the field of GHASH; the first bit of a block is its most significant one. -/
def ghMul (x y : BitVec 128) : BitVec 128 :=
  ((List.range 128).foldl (fun (z, v) i =>
    (if x.getMsbD i then z ^^^ v else z, (v >>> 1) ^^^ (if v.getLsbD 0 then 0xE1000000000000000000000000000000#128 else 0)))
    ((0#128 : BitVec 128), y)).1
def gcmBlocks (bs : List Byte) : List (BitVec 128) :=
  (List.range ((bs.length + 15) / 16)).map fun i =>
    let b := (bs.drop (16 * i)).take 16
    BitVec.ofNat 128 (natBE (b ++ List.replicate (16 - b.length) 0#8))

/-- A block of the counter stream. -/
def gcmCtr (key nonce : List Byte) (n : Nat) : List Byte := aes256 key (nonce ++ bytesBE 4 n)
/-- A text under the counter stream; enciphering and deciphering are one. -/
def gcmStream (key nonce bs : List Byte) : List Byte :=
  xorBytes bs ((List.range ((bs.length + 15) / 16)).flatMap fun i => gcmCtr key nonce (i + 2))
/-- The tag of a cipher text and its additional data. -/
def gcmTag (key nonce aad cipher : List Byte) : List Byte :=
  let h := BitVec.ofNat 128 (natBE (aes256 key (List.replicate 16 0#8)))
  let len := BitVec.ofNat 128 (2 ^ 64 * (8 * aad.length) + 8 * cipher.length)
  let g := (gcmBlocks aad ++ gcmBlocks cipher ++ [len]).foldl (fun acc b => ghMul (acc ^^^ b) h) 0#128
  xorBytes (bytesBE 16 g.toNat) (gcmCtr key nonce 1)
/-- Decrypt and authenticate: nothing if the tag fails. -/
def gcmOpen (key nonce aad cipher tag : List Byte) : Option (List Byte) :=
  if gcmTag key nonce aad cipher = tag then some (gcmStream key nonce cipher) else none
/-- Encrypt: the cipher text and its tag. -/
def gcmSeal (key nonce aad bs : List Byte) : List Byte × List Byte :=
  let c := gcmStream key nonce bs
  (c, gcmTag key nonce aad c)

end Sys2Proof.Machine
end

