-- ==== Sys2Proof/Config.lean ====
section
/-! DEFINITION. What an implementation fixes and the manual leaves open: free values, opaque constants that nothing can
evaluate. A statement about them holds for every value. -/
namespace Sys2Proof.Config

/-- A free choice among several outcomes that the manual allows (00_scope.md R3), applied to the counter `State.free`:
replacement (R134), the order of combination (R81), which byte of an overlapping copy is read (R113). -/
opaque choice : Nat → Nat

/-- A free 64-bit value, applied to the counter `State.free` and an index. -/
opaque freeWord : Nat → Nat → BitVec 64

/-- The tile of its die whose router serves a slice, which the manual does not give (05_memory_path.md R89, 07_tile_array.md R129). -/
opaque sliceAt : Nat → Nat

/-- This package's number in the domain (01_operand_journey.md R18). -/
opaque selfPackage : BitVec 9

/-- The bytes of the translation that the mint builds from a Selser image of records (14_digest_code.md R291). -/
opaque mintImage : List (BitVec 8) → List (BitVec 8)

/-- FEATREQ that the mint writes for a translation that it builds from records (R288). -/
opaque mintFeatures : List (BitVec 8) → BitVec 32

/-- The version of the mint's translator (R288). -/
opaque mintVersion : BitVec 32

/-- The mint's signature of a block (R288): r and s. -/
opaque mintSign : List (BitVec 8) → Nat × Nat

/-- Dwedar's measurement of a VF's admission entry and queue pairs (17_reliability_start.md R349). -/
opaque attestMeasure : Nat → List (BitVec 64) → BitVec 384

/-- The signature of an attestation report under the device identity key (R349): r and s. -/
opaque attestSign : List (BitVec 8) → Nat × Nat

end Sys2Proof.Config
end

