-- ==== Sys2Proof/Machine/Mem.lean ====
section
/-! DEFINITION. Memory as plain data: a canonical list of bytes, the full/empty bits, and maps with number keys
(spec/05_memory_path.md R85, R88; 01_operand_journey.md R13).

An unlisted byte reads as 0 and an unlisted word is empty (DESIGN CHOICE, log 1). A memory key is the physical address of
R85, with the package number plus one in bits 48 up where the byte lies in another package (R93). -/
namespace Sys2Proof.Machine

/-- Bytes of memory in canonical form: addresses strictly rising, no byte equal to 0. -/
abbrev Memory := List Host.Cell

/-- What a byte that nothing has written reads as (log 1). -/
def Memory.background : Byte := 0#8

/-- The byte at an address. -/
def Memory.byte : Memory → Nat → Byte
  | [], _ => Memory.background
  | (a, b) :: m, k => if k = a then b else if k < a then Memory.background else Memory.byte m k

/-- Insert a byte that is not the background. -/
def Memory.insert : Memory → Nat → Byte → Memory
  | [], k, v => [(k, v)]
  | (a, b) :: m, k, v =>
    if k = a then (k, v) :: m else if k < a then (k, v) :: (a, b) :: m else (a, b) :: Memory.insert m k v

/-- Remove the entry of an address. -/
def Memory.remove : Memory → Nat → Memory
  | [], _ => []
  | (a, b) :: m, k => if k = a then m else if k < a then (a, b) :: m else (a, b) :: Memory.remove m k

/-- Write one byte, keeping the canonical form. -/
def Memory.setByte (m : Memory) (k : Nat) (v : Byte) : Memory :=
  if v = Memory.background then m.remove k else m.insert k v

/-- Every entry lies above a bound, addresses rise and no entry is the background. -/
def Memory.wfFrom : Nat → Memory → Bool
  | _, [] => true
  | lo, (a, b) :: m => decide (lo ≤ a) && decide (b ≠ Memory.background) && Memory.wfFrom (a + 1) m

/-- The canonical form. -/
def Memory.wf (m : Memory) : Bool := Memory.wfFrom 0 m

/-- Write the low `n` bytes of a value, least significant first (R6). -/
def Memory.write (m : Memory) (k : Nat) (n : Nat) (v : Nat) : Memory :=
  match n with
  | 0 => m
  | n + 1 => Memory.write (m.setByte k (BitVec.ofNat 8 v)) (k + 1) n (v / 256)

/-- `n` bytes as a number, least significant first (R6). -/
def Memory.readNat (m : Memory) (k : Nat) : Nat → Nat
  | 0 => 0
  | n + 1 => (m.byte k).toNat + 256 * Memory.readNat m (k + 1) n

/-- A 64-bit word (R6). -/
def Memory.word (m : Memory) (k : Nat) : Word := BitVec.ofNat 64 (m.readNat k 8)
def Memory.setWord (m : Memory) (k : Nat) (v : Word) : Memory := m.write k 8 v.toNat

/-- The aligned words whose full/empty bit is full, in rising order (R13). -/
abbrev FullSet := List Nat

def FullSet.isFull (f : FullSet) (k : Nat) : Bool := f.contains (k / 8)
def FullSet.setFull (f : FullSet) (k : Nat) : FullSet :=
  if f.contains (k / 8) then f else (f.takeWhile (· < k / 8)) ++ (k / 8) :: (f.dropWhile (· < k / 8))
def FullSet.setEmpty (f : FullSet) (k : Nat) : FullSet := f.filter (· ≠ k / 8)

/-- A map with number keys, in rising order of key; an unlisted key has a default. -/
abbrev SMap (α : Type) := List (Nat × α)

def SMap.get? {α : Type} : SMap α → Nat → Option α
  | [], _ => none
  | (a, x) :: m, k => if k = a then some x else SMap.get? m k

def SMap.get {α : Type} (m : SMap α) (k : Nat) (d : α) : α := (SMap.get? m k).getD d

def SMap.set {α : Type} : SMap α → Nat → α → SMap α
  | [], k, v => [(k, v)]
  | (a, x) :: m, k, v =>
    if k = a then (k, v) :: m else if k < a then (k, v) :: (a, x) :: m else (a, x) :: SMap.set m k v

def SMap.erase {α : Type} (m : SMap α) (k : Nat) : SMap α := m.filter (fun t => t.1 ≠ k)

end Sys2Proof.Machine
end

