-- ==== Sys2Proof/Machine/State.lean ====
section
/-! DEFINITION. The state of one XA7 package, all of it plain data (INVENTORY.md, State).

Numbering (01_operand_journey.md R18): a die is 0 to 3; a tile of the package is 192 * die + tile; a core is 3 * tile + role
(0 M, 1 V, 2 A); a slot is 16 * core + slot; a cluster is 12 * die + cluster. -/
namespace Sys2Proof.Machine

/-! ## Queues and registers of a slot (02_idioms.md R24 to R26, 08_core.md R151 to R159) -/

/-- A translated location of memory: the memory key of the first byte, the virtual address and ASID it was named by, the
leaf's SCOPE, C, W and WATCH bits, and whether the leaf is at level 2 (R93). -/
structure Loc where
  key   : Nat
  va    : Nat
  asid  : BitVec 16
  large : Bool
  scope : BitVec 3
  c     : Bool
  w     : Bool
  watch : Bool
deriving DecidableEq, Repr

/-- Why a half is parked (R151); each reason has one of the causes 1 to 7. -/
inductive Wait where
  | none
  | load (pos : Nat)            -- cause 1: a load with an a destination
  | xlat                        -- cause 1: such a load whose translation a slice still misses
  | storeData                   -- cause 1: an overlapping earlier store lacks data
  | copyRoom (ch : Nat)         -- cause 1: CPY on a full FIFO
  | copyId (ch : Nat) (id : Nat) -- cause 1: CWAIT
  | fifoPush (tile bank n : Nat) -- cause 1: a push to a full FIFO bank
  | conversion                  -- cause 1: a conversion-unit operation
  | lqEmpty (n : Nat)           -- cause 2
  | branchEmpty                 -- cause 2
  | portEmpty (n : Nat)         -- cause 2
  | linkEmpty (west : Bool)     -- cause 2
  | mailbox                     -- cause 2: WMB0
  | waite                       -- cause 2
  | fifoPop (tile bank n : Nat) -- cause 2
  | fullEmpty (key : Nat) (full : Bool) -- cause 3: until the word has that state
  | fullKeep (l : Loc)          -- cause 3: LDFF, which takes the value that fills the word (R142)
  | semaphore (n : Nat)         -- cause 3
  | faultWord (key : Nat) (code : Bool) -- cause 3: the reply word of an entry of kind 1, or of a code fetch's of kind 3
  | faultPost                   -- cause 3: the post of a fault-queue entry
  | engine                      -- cause 4
  | code (fetch : Nat)          -- cause 5
  | lqRoom (n : Nat)            -- cause 6
  | sqRoom (n : Nat)            -- cause 6
  | branchRoom                  -- cause 6
  | portRoom (n : Nat)          -- cause 6
  | linkRoom (west : Bool)      -- cause 6
  | queueRoom (q : Nat)         -- cause 6: TSPAWN on a full queue (R253)
  | meeting                     -- cause 7
deriving DecidableEq, Repr

/-- One entry of lq: the program-order index of its load, the word when it has arrived (R24), and the NANMODE of a word
that a FIFO bank gave (R74). -/
structure LqEntry where
  pos  : Nat
  word : Option Word
deriving DecidableEq, Repr

/-- One word of sq with the program-order index of the instruction that pushed it (R26). -/
structure SqEntry where
  pos  : Nat
  word : Word
deriving DecidableEq, Repr

/-- The entry types of a branch queue (R50, R308). -/
inductive BqType where | outcome | guard | release | acquire
deriving DecidableEq, Repr

/-- One entry of a branch queue: VALUE, TYPE and OFFSET of R308, with the index of the instruction that pushed it. -/
structure BqEntry where
  pos    : Nat
  type   : BqType
  value  : Bool
  offset : Word
deriving DecidableEq, Repr

/-- A word of a message port or a neighbour link, with its sender's TSR and NANMODE (R36, R74, R158). -/
structure PortWord where
  word : Word
  ts   : Word
  nm   : Bool
deriving DecidableEq, Repr

/-- A port word in flight: the sender, the port register it was sent through, the sender's VF and its destination (R157). -/
structure Flight where
  sender : Nat
  port   : Nat
  vf     : Nat
  dest   : Nat
  dport  : Nat
  word   : PortWord
deriving DecidableEq, Repr

/-- The registers of the access half (R153): position in program order, program counter, a0 to a7, and the three banks
that a8 to a15 may name: the user bank, the shadow registers of R31 and the supervisor shadow bank of R299. `outs` counts the
outgoing operations that a redundant task's copy has issued in this half, `outsUi` those of its completion handlers (R272). -/
structure ARegs where
  pos    : Nat
  pc     : Word
  bad    : Bool                 -- it is a branch target that R183 rejects
  lo     : Vector Word 8
  user   : Vector Word 8
  shadow : Vector Word 8
  sup    : Vector Word 8
  outs   : Nat
  outsUi : Nat
deriving DecidableEq, Repr

/-- The registers of the execute half (R153, R154): the register stack, g, p, v, m, the rotation base, SRGEN, and the
count of sq words pushed since binding. `tok` is the index of an acquire whose other tokens the half has pushed (R50); `outs` and
`outsUi` count as in the access half. -/
structure XRegs where
  pos      : Nat
  pc       : Word
  bad      : Bool
  stack    : Vector Word 128
  g        : Vector Word 8
  p        : BitVec 8
  v        : Vector VWord 16
  m        : Vector Word 8
  rb       : BitVec 4
  srgen    : BitVec 32
  sqPushed : Nat
  tok      : Option Nat
  outs     : Nat
  outsUi   : Nat
deriving DecidableEq, Repr

/-- What an earlier instruction's trap restores of a half that has passed it unissued (R295, R296): the half's registers
and the entries it has taken from lq and from its incoming branch queue since. -/
structure Ckpt where
  half   : Half
  pos    : Nat
  a      : ARegs
  x      : XRegs
  lqGone : List LqEntry
  bqGone : List BqEntry
deriving DecidableEq, Repr

/-- Where a loaded value goes (R49, R137, R140). -/
inductive LoadDest where
  | lq
  | a (n : BitVec 4)
  | discard
deriving DecidableEq, Repr

/-- What an access names: translated memory, a scratchpad bank of a tile, a FIFO bank of a tile, a physical location (the
walker's form of R96), or a register of the register space and the address by which it is reached (R86). -/
inductive Target where
  | mem (l : Loc)
  | scratch (tile bank off : Nat)
  | fifo (tile bank : Nat) (va : Word)
  | phys (key : Nat)
  | reg (pa va : Nat)
deriving DecidableEq, Repr

/-- The valid entries of a binding table (R230): number, base, length and word. -/
abbrev Binds := List (Nat × Nat × Nat × Nat)

/-- A load that has issued and whose data has not returned (R19, R24, R140); `acq` is an acquire that follows it, with the
binding table as it found it (R231, R235). `insn` is the instruction's first 64 bits, for the trap that a fence raises. -/
structure PLoad where
  pos  : Nat
  dest : LoadDest
  tgt  : Target
  size : Size
  sx   : Bool
  acq  : Bool
  tsr  : Word
  binds : Binds
  insn : Word
deriving DecidableEq, Repr

/-- The operations of home words that atomics make (R143). -/
inductive AtomOp where | add | fadd | min | max | and | or | xor | swap | cas
deriving DecidableEq, Repr

/-- What a store-like access does when it is performed (R141 to R143): `data` operands are filled from sq in order. -/
inductive StoreOp where
  | st
  | stf
  | sete
  | atom (op : AtomOp)
  | relFence                    -- REL in a body or behind stores (R240)
  | bcPost                      -- BCPOST with its count from sq (R26, R144)
deriving DecidableEq, Repr

/-- A data word of a store: known at issue, still to come from sq, or taken from sq (R26). -/
inductive DataWord where
  | val (w : Word)
  | owed
  | got (w : Word)
deriving DecidableEq, Repr

/-- A store or home-word operation that has issued and has not been performed (R26): its data words, its release and
acquire parts with the binding table as they found it (R231), and for an atomic the destination of the prior value. `relWas`
is the pending release that it uses, and for REL `RELPEND` before it, `insn` its first 64 bits, `key` its number among what a redundant task's copy
sends out (R272). -/
structure PStore where
  pos   : Nat
  op    : StoreOp
  tgt   : Target
  size  : Size
  data  : List DataWord
  rel   : Bool
  acq   : Bool
  dest  : LoadDest
  tsr   : Word
  nm    : Bool
  body  : Bool                  -- held in escrow until commit (R132)
  binds : Binds
  relWas : Option Word
  insn  : Word
  key   : Option Nat
deriving DecidableEq, Repr

/-- A completion record that is due to a slot's completion handler (R31, R117). -/
structure Completion where
  ch     : Nat
  id     : BitVec 32
  ts     : Word
  status : Word
deriving DecidableEq, Repr

/-- A page of a scout batch: signed distance from the first page and the miss kind (R302, R304). -/
structure ScoutPage where
  delta : Int
  kind  : BitVec 3
deriving DecidableEq, Repr

/-- Scout mode (R302): the faulting instruction's fault, the checkpoint of the whole slot's registers, the batch, the
unavailable registers, the dropped stores and the count of instructions issued. -/
structure Scout where
  pos    : Nat
  code   : BitVec 4
  level  : BitVec 2
  va     : Nat
  kind   : BitVec 3
  tsr    : Word
  insn   : Word                 -- its first 64 bits
  ac     : ARegs
  xc     : XRegs
  lq     : List LqEntry
  sq     : List SqEntry
  bqa    : List BqEntry
  bqx    : List BqEntry
  pages  : List ScoutPage
  aNa    : BitVec 16            -- unavailable a registers
  wNa    : BitVec 128           -- unavailable stack entries
  gNa    : BitVec 8
  pNa    : BitVec 8
  vNa    : BitVec 16
  mNa    : BitVec 8
  lqNa   : List Bool            -- unavailable lq entries, oldest first
  dropped : List (Nat × Nat)    -- dropped stores: address and size
  issued : Nat
  atA    : Nat                  -- the indexes of the instructions that the two halves counted last
  atX    : Nat
deriving DecidableEq, Repr

/-- A fault-queue entry that is still to be posted (R303): its words 1 to 7, the VF whose queue it goes to, or none for the
paging fault queue, the address space, and the entry that it has reserved. -/
structure Posting where
  words : List Word
  vf    : Option Nat
  asid  : BitVec 16
  entry : Option Loc
deriving DecidableEq, Repr

/-- A post that a slot holds; the slot then waits on the reply word, that of an entry of kind 3 or of kind 1. -/
structure Post where
  posting : Posting
  code    : Bool
deriving DecidableEq, Repr

/-- The trap registers of a slot (R299). -/
structure TrapRegs where
  tcause : Word
  tinsn  : Word
  tpc    : Word
  tva    : Word
  tstat  : Bool
deriving DecidableEq, Repr

/-- The system registers of a slot (R301), those of R311 that are not held elsewhere. -/
structure SysRegs where
  tsr    : Word
  uivec  : Word
  semts  : Word
  wdcnt  : BitVec 32
  cwin   : Vector Word 8
  mpdst  : Vector Word 4
  wbase  : BitVec 32
  rslow  : BitVec 32
  rsidx  : BitVec 7
  rots   : BitVec 2
  cfp    : Word
  cfda   : Word
  cfh    : Word
  qpend  : Word
  qpbuf  : Vector Word 8
  relpend : Word
deriving DecidableEq, Repr

/-- One thread slot (R147 to R153). -/
structure Slot where
  bound   : Bool
  task    : Nat
  ar      : ARegs
  xr      : XRegs
  sys     : SysRegs
  trap    : TrapRegs
  super   : Bool
  inUi    : Bool
  uiHold  : Bool                -- events held in a supervisor handler wait for UIRET too (R297)
  ctxa    : Word                -- PCA and PCX, where TRET resumes (R313)
  ctxx    : Word
  uipca   : Word                -- interrupted positions (R31, R308)
  uipcx   : Word
  lq      : List LqEntry
  sq      : List SqEntry
  sqTaken : Nat
  bqa     : List BqEntry        -- access-to-execute queue
  bqx     : List BqEntry        -- execute-to-access queue
  awai    : Wait
  xwai    : Wait
  ckpts   : List Ckpt
  loads   : List PLoad
  stores  : List PStore
  ports   : Vector (List PortWord) 4
  done    : List Completion     -- completions held for the handler (R31)
  bcDue   : List (Word × BitVec 32) -- byte-count traps due: word address and detail (R116)
  bcKeys  : List Nat            -- byte-counting words posted since binding (R116)
  semDue  : Option (BitVec 5)   -- semaphore-overflow trap due (R241)
  scDue   : Option Word         -- scratch fault due, with its address: a fenced rectangle has answered an access in flight (R341)
  scout   : Option Scout
  post    : Option Post
  held    : Option (Word × Word) -- the call instruction that a code fault has parked (R275)
  fentry  : List Word           -- words 1 to 7 of the fault-queue entry on which it waits (R303)
  finsn   : Word                -- the first 64 bits of the instruction that faulted
  ffGot   : Option (Nat × Word) -- the value that filled the word on which an LDFF waited, with its index (R142)
  eff     : Nat                 -- the latest index whose outside effect came while an earlier scratchpad store was on its way (R129)
  fva     : Word                -- the address of the fault for which it waits, whole (R299)
  tookA   : Bool                -- the instruction at which a half stands has taken its turn and parked after it (R151)
  tookX   : Bool
  refused : Nat                 -- how often a bank has refused the access half's instruction (R136)
  kmark   : Nat                 -- how many entries `State.kpast` had when its task was bound (R159)
deriving DecidableEq, Repr

/-! ## Core: fetch, constants, walker (R147 to R149, R159, R184, R96 to R98) -/

/-- One 128-byte line of the instruction cache, with the stamp of its last use (R184). -/
structure ILine where
  asid  : BitVec 16
  vline : Nat
  key   : Nat
  data  : BitVec 1024
  used  : Nat
deriving DecidableEq, Repr

/-- A fill of an instruction-cache line in flight (R184, R369): whether a demand waits for it. -/
structure IFill where
  vf     : Nat
  asid   : BitVec 16
  vline  : Nat
  key    : Nat
  demand : Bool
deriving DecidableEq, Repr

/-- A line of the constant cache, tagged by ASID and virtual address (R159). -/
structure KLine where
  asid  : BitVec 16
  vline : Nat
  data  : BitVec 1024
  poison : BitVec 4
deriving DecidableEq, Repr

/-- A core: NANMODE (R73), rotation pointers (R149), caches, TVEC (R299), PREQ (R307) and the walker's mailbox and
registers (R97). -/
structure Core where
  nanmode : Bool
  rotA    : Nat
  rotX    : Nat
  lastA   : List Nat            -- the slots whose access halves took the last 7 turns, the latest first (R148, R149)
  lastX   : List Nat
  icache  : List ILine
  ifills  : List IFill
  kcache  : List KLine
  tvec    : Word
  preq    : BitVec 15
  mailbox : List (Word × Word)
  wmb0    : Option Word
  wmb1    : Option Word
  win0    : Word
  win1    : Word
deriving DecidableEq, Repr

/-! ## Caches and translation (R89 to R106, R134) -/

/-- A line of a first-level cache or of a slice: tag, recorded physical address, bytes, dirty mask, write permission,
SCOPE, WATCH and size of its page, and a poison mark for each 32-byte sector (R87). `bank` is the CACHE bank of a first-level
line (R134), or the way of a slice's. -/
structure Line where
  asid   : BitVec 16
  vline  : Nat
  key    : Nat
  data   : BitVec 1024
  dirty  : BitVec 128
  w      : Bool
  scope  : BitVec 3
  watch  : Bool
  large  : Bool                 -- of a level-2 leaf: the page is 512 MiB (R104)
  poison : BitVec 4
  bank   : Nat
deriving DecidableEq, Repr

/-- An entry of a slice's translation cache: the leaf, where it was read and its level (R97, R99). -/
structure TEntry where
  slice : Nat
  asid  : BitVec 16
  vpage : Nat                   -- va / 2^16 of a level-3 leaf, va / 2^29 of a level-2 leaf
  large : Bool
  pte   : Word
  ea    : Nat
  owned : Bool                  -- the claim of R102 has been made, or none is due
deriving DecidableEq, Repr

/-- Who makes an access (R14): a slot, a channel of a copy engine, or the dispatcher of a die. -/
inductive Requester where
  | slot (n : Nat)
  | code (n : Nat)              -- a demand fetch of slot n (R369)
  | const (n : Nat)             -- a constant read of slot n (R45)
  | chan (tile ch id : Nat)     -- transfer `id` of a channel
  | disp (die : Nat)
  | pfh (n va : Nat)            -- a prefetch of slot n (R145)
  | ipf (n va : Nat)            -- an instruction prefetch of slot n (R186)
  | cfetch (n va : Nat) (ws : List Word) -- CFETCH's read of a digest by slot n, and the words that it has (R281)
  | walker (core : Nat)         -- a load of the core's walker
  | slice (die i : Nat)         -- a slice that makes a claim or sets A and D (R99, R102)
  | nobody                      -- who asked has gone
deriving DecidableEq, Repr

/-- A miss that a slice holds (R97): its message, the core whose walker serves it, whether it has been posted, and the
requesters that wait for it. -/
structure Miss where
  slice   : Nat
  va      : Nat
  asid    : BitVec 16
  kind    : BitVec 3
  need    : BitVec 5            -- what the access needs, R, W and X, no A, D or claim, and whether it writes (R99, R100)
  conf    : Bool
  user    : Bool
  tag     : BitVec 16
  core    : Nat
  posted  : Bool
  stale   : Bool                -- an invalidation that matches it has completed since (R104)
  waiters : List Requester
deriving DecidableEq, Repr

/-- A fault that a slice has reported to a requester (R99). -/
structure Report where
  req   : Requester
  vpage : Nat
  code  : BitVec 4
  level : BitVec 2
deriving DecidableEq, Repr

/-- A slice's repair registers and pinned sectors (R106). -/
structure Repair where
  en    : Bool
  full  : Bool
  sect  : BitVec 43
  go    : Bool
  pins  : List Nat              -- sector numbers, key / 32
deriving DecidableEq, Repr

/-! ## Copy engine (06_copy_engines.md R107 to R123) -/

/-- A request in a channel's FIFO or in an execution place (R107, R110, R111). `written` counts the bytes already written
(R119); `ended` is its status when it has finished and waits for earlier identifiers to complete; `seq` is the ordinal of a
collective among those of its GROUP that the channel has started (R122). -/
structure Transfer where
  id      : BitVec 32
  w0      : Word
  w1      : Word
  w2      : Word
  w3      : Word
  ts      : Word
  slot    : Nat
  pos     : Nat                 -- the index of its push in the slot's program order
  task    : Nat
  vf      : Nat
  asid    : BitVec 16
  group   : BitVec 16
  nm      : Bool
  held    : Bool
  body    : Bool                -- it was pushed in a body that held it (R118, R264)
  coll    : Bool
  started : Bool
  written : Nat
  desc    : List Word           -- the group descriptor, read at the start (R120)
  seq     : Nat
  ended   : Option Word
  fault   : Option Nat          -- the reply word of its fault-queue entry (R119)
  fcode   : BitVec 4            -- the fault's code and what it met: source, destination, signal word or descriptor
  fwhere  : Nat
  carry   : List (BitVec 8)     -- bytes that it has read, or that it is to write if `ready`
  ready   : Bool
  bufs    : List (BitVec 16 × Nat × Nat) -- the buffers of every member of its collective: ASID, address, length (R248)
  twin    : Option (Nat × Nat × Nat) -- for a copy of a redundant task's: the other copy's tile and task, and the number of the
                                -- push among its outgoing operations (R272)
deriving DecidableEq, Repr

/-- A collective that a channel ended with status 11 or 12, for the members that start it later (R122). -/
structure Gone where
  tile  : Nat
  ch    : Nat
  group : Nat
  seq   : Nat
  code  : Nat
deriving DecidableEq, Repr

/-- A channel (R111, R112): NEXT, CDONE, the FIFO, the execution places, PAUSED and LASTERR, and for each GROUP the
number of collectives started. -/
structure Channel where
  next    : BitVec 32
  cdone   : BitVec 32
  fifo    : List Transfer
  exec    : List Transfer
  paused  : Bool
  lasterr : BitVec 4
  groups  : SMap Nat
  heldPost : List Posting       -- fault-queue entries that the channel still holds (R303)
deriving DecidableEq, Repr

/-! ## Engines and conversion unit (11_matrix_grammar.md R209 to R229, 10_vector_conversion.md R199) -/

/-- The mode of a macro group (R209, R211). -/
inductive GMode where | none | intS | intU | flt
deriving DecidableEq, Repr

/-- A rule-table entry (R209, R227). -/
structure RuleEntry where
  start : Nat
  len   : Nat
  depth : Nat
deriving DecidableEq, Repr

/-- The engine operations that wait, start and complete (R215). -/
inductive EngKind where
  | mload | mma | mmaf | asto | geval | grule | gclr | grd | mgrp | aclr | ard
deriving DecidableEq, Repr

/-- A tensor that an instruction names, as it is read at issue (R82 to R84): the entry's words, the tile that LOC names and
the SCRATCH banks of the accessor's grant there. -/
structure TRef where
  words : List Word
  tile  : Nat
  banks : List Nat
deriving DecidableEq, Repr

/-- An addition into an accumulator entry (R215): an integer sum, a K-slice that is NaN, a K-slice P * 2^x, or a row of GEVAL. -/
inductive AccAdd where
  | int (v : Int)
  | nan
  | slice (p x : Int) (nm : Bool)
  | row (y : Nat) (nm : Bool)
deriving DecidableEq, Repr

/-- An issued engine operation (R212, R215, R217): the slot and its task, the instruction and the address after it, the
captured registers, tensor and block-scale tensor, stream, semaphore, TSR, NANMODE and mask; the queue and port words that a
trap at its start gives back (R219), and how far it has gone. `num` numbers the engine's operations; `mark` and `accMark` say
where in the record of earlier values its own time begins. -/
structure EngOp where
  kind    : EngKind
  slot    : Nat
  task    : Nat
  vf      : Nat
  group   : BitVec 16
  insn    : Word
  next    : Word
  desc    : Word                -- the accumulator descriptor, or the operand of GRULE, MGRP, ACLR, ARD, GRD
  arg     : Word                -- ACLR's second operand
  tensor  : List TRef
  strm    : BitVec 3
  sem     : Option (BitVec 5)
  tsr     : Word
  nm      : Bool
  rows    : BitVec 16
  collo   : BitVec 11
  colhi   : BitVec 11
  wdest   : Option WReg         -- the destination of GRD
  vdest   : Option VReg         -- the destination of ARD
  lqTook  : List LqEntry
  portTook : List (WReg × List PortWord)
  started : Bool
  read    : Bool                -- it has read its operands; what it adds to the accumulators is held in `Engine.adds`
  semDone : Bool
  num     : Nat
  mark    : Nat
  accMark : Nat
deriving DecidableEq, Repr

/-- The engines of a tile (R209, R211). -/
structure Engine where
  g       : Nat
  cells   : SMap (BitVec 8)     -- 4096 * macro + 64 * kk + n
  exps    : SMap (Int × Bool)   -- 64 * macro + n: shared exponent and NAN
  modes   : SMap GMode          -- by group
  acc     : SMap (BitVec 32)    -- 1536 * row + column
  rows    : BitVec 16
  collo   : BitVec 11
  colhi   : BitVec 11
  rules   : SMap RuleEntry
  base    : Nat
  gvalid  : Bool
  gfault  : BitVec 3
  gidx    : BitVec 12
  nrule   : Nat
  nout    : Nat
  ncol    : Nat
  nsym    : Nat
  vals    : SMap (BitVec 32)    -- the rule-value file
  owner   : Option (Nat × BitVec 16)
  ops     : List EngOp          -- in issue order
  count   : Nat                 -- operations issued so far
  adds    : List (Nat × Nat × AccAdd) -- additions still to be made: operation, entry and addend (R215)
  accPast : List (Nat × BitVec 32) -- what entries held before additions made while an ASTO runs (R215)
deriving DecidableEq, Repr

/-- The operations of the conversion unit (R199). -/
inductive ConvKind where | cvt | align | dealign | bscale | cvld | cvst
deriving DecidableEq, Repr

/-- An issued conversion-unit operation: captured tensors and register values (R199, R200) and the generator of its slot
(R77). -/
structure ConvOp where
  kind  : ConvKind
  slot  : Nat
  task  : Nat
  rnd   : Rnd
  sat   : Bool
  t     : List TRef             -- the destination and its block-scale tensor (the source of CVLD)
  src   : List TRef
  index : Word
  vec   : VWord
  vdest : Option VReg
  nm    : Bool
  srgen : BitVec 32
  got   : Option (BitVec 32 × VWord) -- it has read and written: the generator state, and CVLD's value, for its slot
deriving DecidableEq, Repr

/-! ## Tile (07_tile_array.md R124 to R136, 02_idioms.md R32) -/

/-- A word of a FIFO bank with the NANMODE of its pusher (R131). -/
structure FifoWord where
  word : Word
  nm   : Bool
deriving DecidableEq, Repr

/-- A grant (R125): VF, GROUP, VALID and the bank mask. `modes` is the mode each bank is to reach. -/
structure Grant where
  valid : Bool
  vf    : BitVec 10
  group : BitVec 16
  mask  : BitVec 40
deriving DecidableEq, Repr

/-- A tile semaphore (R241). -/
structure Sem where
  count : Nat
  ts    : Word
deriving DecidableEq, Repr

/-- A half of a slot that waits on a FIFO bank to push or to pop `count` words (R131). -/
structure FifoWaiter where
  bank  : Nat
  slot  : Nat
  half  : Half
  push  : Bool
  count : Nat
deriving DecidableEq, Repr

/-- One tile: bank modes in force and those that banks are changing to (R124, R127), grants (R125), SCRATCH contents,
FIFO banks, first-level cache, semaphores with their waiters, inbound link registers, the links' words in flight, the copy
channels, the engines, the conversion unit, L1CTL (R135), the router's table (R342), and whether the tile is fenced or
dead (R340, R343). -/
structure Tile where
  modes    : Vector (BitVec 2) 40
  toMode   : List (Nat × BitVec 2)
  grants   : Vector Grant 8
  scratch  : Memory             -- 8192 * bank + offset
  fifos    : SMap (List FifoWord)
  fifoWait : List FifoWaiter    -- in parking order (R131)
  l1       : List Line
  sems     : Vector Sem 32
  semWait  : List (Nat × Nat)   -- semaphore and slot, in parking order (R241)
  lkw      : List PortWord
  lke      : List PortWord
  lkwFly   : List PortWord
  lkeFly   : List PortWord
  chans    : Vector Channel 8
  eng      : Engine
  conv     : List ConvOp
  convMark : Nat                -- where in `State.past` the time of the unit's oldest operation begins
  l1ctl    : Word
  rtent    : SMap (BitVec 3)
  dead     : Bool
deriving DecidableEq, Repr

/-! ## Tasks, queues, dispatchers (13_tasks_scheduling.md R250 to R272) -/

/-- A store of a body held in escrow (R132), in program order: its 128-byte line is one entry. A release of a body waits
here too (R240). `gate` says that it is compared with the other copy's on its own when it is applied (R272). -/
structure EscrowStore where
  op   : StoreOp
  loc  : Loc
  size : Size
  data : List DataWord
  rel  : Bool
  slot : Nat
  pos  : Nat
  binds : Binds
  tsr  : Word
  key  : Option Nat
  gate : Bool
deriving DecidableEq, Repr

/-- An outgoing operation that a redundant task's copy has reached (R272): the slot, its TSR at issue (R22), and the operation as
words, of which those that are still to come from sq are absent. -/
structure Outgoing where
  slot  : Nat
  tsr   : Word
  words : List (Option Word)
deriving DecidableEq, Repr

/-- A record in a partition queue (R253): its 32 words, the instances still to be placed, the spawner whose commit it
awaits (R263) and the mismatches it has had (R272). -/
structure QRec where
  words   : List Word
  insts   : List Nat
  exh     : List Nat            -- the instances that have been re-queued with EXH set (R132)
  spawner : Option Nat
  misses  : Nat
deriving DecidableEq, Repr

/-- One task (R251, R258, R263 to R272). -/
structure Task where
  words     : List Word         -- its launch record
  inst      : Nat
  vf        : Nat
  asid      : BitVec 16
  die       : Nat
  tile      : Nat
  slots     : List Nat          -- bound slots
  ended     : List Nat          -- slots of a tile task whose function has ended
  committed : Bool
  clearing  : Bool              -- waits in the clearing queue (R266)
  escrow    : List EscrowStore
  reads     : List (Nat × BitVec 16 × Nat) -- lines recorded against it: slice, asid, line (R266)
  spawner   : Option Nat
  watched   : Bool              -- a store has touched an argument page since the hash (R270)
  hash      : Option (BitVec 128)
  twin      : Option Nat
  misses    : Nat
  out       : SMap Outgoing     -- by number: the outgoing operations that a redundant copy has reached (R272)
  used      : SMap Unit         -- the numbers of those that are done with
  gifts     : SMap (List Word)  -- by number: results of those that the other copy performed
  saved     : Bool              -- its context is saved (R314)
  tensors   : SMap (List Word)  -- the tensor table (R82, R315)
deriving DecidableEq, Repr

/-- A gang that reserves slots (R262). -/
structure Gang where
  qid   : Nat
  seq   : Word
  slots : List Nat
  banks : List (Nat × Nat)      -- tile and number of banks reserved
deriving DecidableEq, Repr

/-- An entry of a reuse table, with the stamp of its last hit (R268). -/
structure Reuse where
  words : List Word
  used  : Nat
deriving DecidableEq, Repr

/-- A DONE update that the dispatcher holds until the paging service replies (R265). -/
structure DoneHold where
  addr  : Word
  n     : Nat                   -- 1 or the arrivals of a byte-counting word
  ts    : Word
  vf    : Nat
  asid  : BitVec 16
  tile  : Nat
  reply : Option Nat
deriving DecidableEq, Repr

/-- A post that a dispatcher holds (R303). -/
structure DispPost where
  posting : Posting
  done   : Option DoneHold      -- the held update that waits on its reply
deriving DecidableEq, Repr

/-! ## Code named by digest (14_digest_code.md R274 to R294) -/

/-- An entry of a vault (R274, R289): the key, the short tag, the install serial, and what the translation's header holds.
`code` is the virtual address of its native code, `base` that of its header. -/
structure VaultEntry where
  slot    : Nat
  vf      : Nat
  digest  : List Word
  serial  : BitVec 32
  base    : Nat
  code    : Nat
  entry   : Nat
  codelen : Nat
  frame   : BitVec 2            -- the code of R277
  rot     : BitVec 2
  rpmap   : List Nat
  win     : BitVec 8
  winoff  : List Nat
  used    : Nat
  units   : Nat                 -- 1 KiB units it occupies
  bytes   : List (BitVec 8)     -- its native code, as it was installed
deriving DecidableEq, Repr

/-- Why a slot waits for a fetch (R274, R284). -/
inductive FetchFor where | call | ret | demand | root
deriving DecidableEq, Repr

/-- A slot that waits for a fetch, and the address of the digest (R274, R304). -/
structure FetchWaiter where
  slot : Nat
  why  : FetchFor
  da   : Word
deriving DecidableEq, Repr

/-- A code fetch in progress (R285): for a digest, or for the translation that holds a demanded address (R274); the slots
that replay when it is served; whether the mint is at work on it. -/
structure Fetch where
  id      : Nat
  vf      : Nat
  asid    : BitVec 16
  digest  : List Word
  addr    : Option Nat
  die     : Nat
  waiters : List FetchWaiter
  minting : Bool
deriving DecidableEq, Repr

/-- A vault (R274, R275): its entries, the counter of install serials, VLIM and the fetches in progress. -/
structure Vault where
  entries : List VaultEntry
  serial  : BitVec 32
  vlim    : BitVec 7
  fetches : List Fetch
deriving DecidableEq, Repr

/-- Where a code object lies (R285): a die's code heap, a scale-up neighbour, or the translation file system. -/
inductive Place where
  | heap (die : Nat)
  | neighbour (pkg : BitVec 9)
  | storage
deriving DecidableEq, Repr

/-- What a code object is (R288, R290, R292). -/
inductive CodeKind where | translation | fat | selser
deriving DecidableEq, Repr

/-- A published code object: the placement that Dwedar records (R274, R287). In a heap its bytes lie in memory at `key`, and
`va` is its virtual address; elsewhere they are `bytes`. A translation begins with its signature block (R288). -/
structure CodeObj where
  place  : Place
  kind   : CodeKind
  digest : List Word
  key    : Nat
  va     : Nat
  len    : Nat
  bytes  : List (BitVec 8)
  meas   : BitVec 384           -- of the Dwedar image that wrote it (R294)
deriving DecidableEq, Repr

/-! ## Dies, clusters, links, package (05, 13, 16, 17) -/

/-- A containment rectangle (R340): the register's fields; `resetDone` says that step 3 of R341 has ended, `pending` that a
write of REJOIN waits for it. -/
structure CtRect where
  x0 : BitVec 4
  y0 : BitVec 4
  x1 : BitVec 4
  y1 : BitVec 4
  valid : Bool
  fenced : Bool
  resetDone : Bool
  rejoin : Bool
  pending : Bool
deriving DecidableEq, Repr

/-- One end of a UCIe module (R320): the die that receives has its own copy. `retired` lists the retired lanes. -/
structure LinkEnd where
  trate   : BitVec 3
  target  : BitVec 3            -- the rate that training brings up
  retrain : Bool
  err     : Bool
  rate    : BitVec 3
  half    : Bool
  spare   : BitVec 3
  state   : BitVec 2
  crc     : BitVec 32
  win     : BitVec 16
  rpl     : BitVec 32
  last    : BitVec 7
  nret    : BitVec 7
  retired : List Nat
deriving DecidableEq, Repr

/-- A die: the caches and translation of its slices, its dispatcher, its reuse table, its frames of fencing and its link
registers. Dies 0 to 3 are C-dies, 4 and 5 the X-dies. -/
structure Die where
  lines    : List Line          -- lines of the slices (R89)
  tlb      : List TEntry        -- translation caches of the slices
  misses   : List Miss
  reports  : List Report
  installs : List (Nat × Word × Word × Word) -- install records on their way: slice, WIN0 to WIN2 (R97)
  nextTag  : BitVec 16
  walkWaits : List (BitVec 16 × Nat × Nat) -- walks of the device's own that wait: ASID, page and migration word (R98)
  repair   : SMap Repair        -- by slice
  lastTile : SMap Nat           -- by partition: the tile where the dispatcher last placed (R259)
  deficit  : SMap Nat           -- DEF by queue (R260)
  visited  : List Nat           -- VISITED by queue
  ptr      : SMap Nat           -- PTR by 4 * partition + priority
  gangs    : List Gang
  posts    : List DispPost
  holds    : List DoneHold
  reuse    : SMap Reuse
  reuseClock : Nat
  rustbase : Word
  ruidx    : BitVec 14
  lmthr    : BitVec 16
  lmdeg    : BitVec 48
  ctrects  : Vector CtRect 16
  tileFence : List Nat          -- fenced tiles that lie in no rectangle (R340)
  tileReset : List Nat          -- those of them whose reset has ended
  links    : SMap LinkEnd       -- by module
  mend     : Option (List Nat)  -- Dwedar repairs the die: the partitions that it has disabled (R343)
  routes   : Option (List Nat)  -- the mesh routes that Dwedar has put into the tables: the dead routers that they avoid (R342, R343)
deriving DecidableEq, Repr

/-- A partition's registers (R255, R310). -/
structure Part where
  vf     : BitVec 10
  en     : Bool
  err    : Bool
  active : Bool
  done   : Bool
  expiries : BitVec 16
deriving DecidableEq, Repr

/-- A partition rectangle (R255). -/
structure PRect where
  x0 : BitVec 4
  y0 : BitVec 4
  x1 : BitVec 4
  y1 : BitVec 4
  valid : Bool
deriving DecidableEq, Repr

/-- A queue: its PQCFG fields, its records and the number admitted to its ring (R253, R256). -/
structure PQueue where
  part   : BitVec 6
  prio   : BitVec 2
  weight : BitVec 8
  ord    : Bool
  en     : Bool
  recs   : List QRec
  count  : Nat
  lastDie : Nat
deriving DecidableEq, Repr

/-- An Aqgal port (R328, R329): AQCTL, AQSTAT, the next SEQ expected and sent, the unacknowledged flits, and the words of a
launch sequence received so far (R331). -/
structure AqPort where
  en     : Bool
  state  : BitVec 2
  crc    : BitVec 24
  rpl    : BitVec 24
  rxSeq  : BitVec 12
  txSeq  : BitVec 12
  unacked : List (List Word)
  wire   : List (List Word)     -- the flits that have been sent, again ones among them
  nak    : Bool
  launch : List Word
deriving DecidableEq, Repr

/-- A remote request that waits for its response (R330): its tag, who waits, the address it names and its port, which is 64 while it
has none to go out by. -/
structure RemoteReq where
  tag  : Nat
  req  : Requester
  va   : Nat
  key  : Nat
  port : Nat
  flit : List (BitVec 64)       -- the payload of its flit
  answered : Bool
deriving DecidableEq, Repr

/-- What a queue pair has still to do for its peer: place bytes of an RDMA WRITE or of a response to its own READ, tell software of
the immediate of a WRITE, or send the bytes of an RDMA READ (R332). -/
inductive QWork where
  | write (va : Nat) (bs : List (BitVec 8))
  | note (imm : List (BitVec 8))
  | read (va len : Nat) (first : Bool)
deriving DecidableEq, Repr

/-- What the software of its VF has given a queue pair to do (R332): a SEND of bytes of memory, an RDMA WRITE of bytes to an address
of the peer's, each with an immediate or none, or an RDMA READ; `first` while nothing of it has been sent. -/
inductive QSend where
  | send (va len : Nat) (imm : List (BitVec 8)) (first : Bool)
  | write (va len rva : Nat) (imm : List (BitVec 8)) (first : Bool)
  | read (va len rva : Nat)
deriving DecidableEq, Repr

/-- A message that waits for software: the immediate that came with it, if any, and its bytes. -/
structure QMessage where
  imm   : List (BitVec 8)
  bytes : List (BitVec 8)
deriving DecidableEq, Repr

/-- A queue pair (R332 to R335): its VF, key, salt and packet counts, tag failures in a row, error state, launch mark,
credits and the 64 µs probes sent; the SEND in progress, where an RDMA WRITE in progress goes on, the work to do for the peer and
for software, where the responses to its READs go (address and bytes still to come), the messages received and the packets sent. -/
structure QPair where
  vf      : Nat
  key     : BitVec 256
  salt    : BitVec 32
  rxCount : Nat
  txCount : Nat
  fails   : Nat
  error   : Bool
  launch  : Bool
  credit  : Nat
  buffer  : Nat                 -- free receive buffer in bytes
  probes  : Nat
  port    : Nat
  msg     : List (BitVec 8)
  wva     : Nat
  work    : List QWork
  out     : List QSend
  reads   : List (Nat × Nat)
  inbox   : List QMessage
  sent    : List (List (BitVec 8))
deriving DecidableEq, Repr

/-- The voltage state of an array under the power controller (R345). -/
structure Volt where
  below    : Bool               -- below nominal
  prevBelow : Bool              -- the previous window was below nominal
  windows  : Nat                -- consecutive windows at nominal
  pft      : Nat
  predicted : Bool
  retired  : Bool
  hold     : Nat                -- windows until the array may be lowered again
deriving DecidableEq, Repr

/-- An event of the black-box record (R346). -/
structure BBEvent where
  time   : Word
  w1     : Word
  w2     : Word
  w3     : Word
deriving DecidableEq, Repr

/-- Error counters (R344). -/
structure ErrCnt where
  corr   : BitVec 32
  uncorr : BitVec 16
  rmis   : BitVec 16
deriving DecidableEq, Repr

/-- Package registers (R86): memory control (R103, R230, R276, R303), tasks (R254), code (R286), black box and snapshots
(R346, R347), device time and Aqgal (R329, R336). -/
structure Pkg where
  ident   : BitVec 32           -- the identity registers: the chip model (R2)
  astbase : Word
  txcmd   : Word
  txasid  : BitVec 16
  txva    : Word
  ownbase : Vector Word 4
  migbase : Vector Word 4
  frmbase : Vector Word 4
  btbase  : Word
  pfqbase : Word
  admbase : Word
  pqbase  : Word
  chva    : Word
  featen  : BitVec 4
  xvmin   : BitVec 32
  vklbase : Word
  cnbr    : Vector Word 8
  snapGo  : Bool
  snapOnct : Bool
  snapDone : Bool               -- the last trigger's readout has not been cleared
  bbidx   : BitVec 12
  aqtmo   : BitVec 32
  dtime   : Word
  dtmaster : Bool
  dtlock  : Bool
  dtsrc   : BitVec 2
  dtoffs  : BitVec 32
  dtgood  : Nat                 -- consecutive corrections of at most 20 ns (R336)
  etauth  : Vector (BitVec 32) 2
  etstall : Vector (BitVec 32) 2
deriving DecidableEq, Repr

/-- The agent that issues now: a half of a slot. -/
structure Cur where
  slot : Nat
  half : Half
deriving DecidableEq, Repr

/-- Where an error of an array lies (R87, R338): a sector of DRAM, a 64-bit word of a tile's SCRATCH banks, the oldest word of a
FIFO bank, a sector of a line of a tile's CACHE banks, a store that a task's ESCROW banks hold, a sector of a slice's line, or the
native code of a vault's entry; or the next sector that crosses a UCIe module (R322). -/
inductive ErrAt where
  | dram (sector : Nat)
  | scratch (tile word : Nat)
  | fifo (tile bank : Nat)
  | l1 (tile : Nat) (asid : BitVec 16) (vline sector : Nat)
  | escrow (task slot pos : Nat)
  | slice (die : Nat) (asid : BitVec 16) (vline sector : Nat)
  | vault (cluster slot : Nat)
  | flit (module : Nat)
deriving DecidableEq, Repr

/-- An error that an array holds and nothing has found yet; `bad` is one that cannot be corrected. -/
structure ArrayErr where
  place : ErrAt
  bad   : Bool
deriving DecidableEq, Repr

/-- A reservation of a queue that has not been completed (R244 to R246): the key of the descriptor, whether it is QGET's, its number and
the task that holds it. -/
structure Reservation where
  desc : Nat
  get  : Bool
  num  : BitVec 32
  task : Nat
deriving DecidableEq, Repr

/-- What moves next. -/
inductive Turn where
  | issue (slot : Nat) (half : Half)
  | forfeit (slot : Nat)        -- a bank refuses the access half's instruction, which forfeits its turn (R136)
  | event (i : Instr)
  | write (pa : Nat) (v : Word) -- a write of register space that has issued
  | strike (e : ArrayErr)       -- an array takes an error (R87, R338)
  | fence (rect tile : Nat)     -- a tile has consumed poison, and its rectangle is fenced (R339, R341)
  | mend (die : Nat)            -- Dwedar goes on with the repair of a die (R343)
  | vacate (task : Nat)         -- a body on a tile that has left its partition is discarded (R257)
  | engineRead (tile : Nat)     -- an engine operation reads its operands (R216)
  | convRead (tile : Nat)       -- the conversion unit does its work, before it is complete (R201)
  | qpair (q : Nat)             -- a queue pair goes on with its work (R332, R334)
  | qsend (q : Nat)             -- a queue pair goes on with what software has given it
  | qpost (q : Nat) (x : QSend) -- a VF's software gives a queue pair something to do (R332)
  | publish (p : Place) (k : CodeKind) (dig : List Word) (bs : List (BitVec 8)) -- a code object is published (R287)
  | withdraw (k : Nat)          -- a code object is withdrawn (R359)
  | newQpair (q : Nat) (x : QPair) -- Dwedar creates a queue pair or gives it a key (R332, R333)
  | pft (array n : Nat)         -- Dwedar sets the threshold of an array (R345)
deriving DecidableEq, Repr

/-- The state of the package. `cur`, `turns` and `free` are the model's own: which half issues, what moves next, and the
counter of free values. -/
structure State where
  power   : Bool
  stage   : Nat                 -- the start stage in progress, 0 before power-good, 7 when start has ended (R348)
  halted  : Bool                -- start has halted at a stage that failed
  cur     : Cur
  turns   : List Turn
  free    : Nat
  clock   : Nat                 -- stamp of the latest use of a cache line or vault entry
  mem     : Memory
  full    : FullSet
  poison  : List Nat            -- poisoned sectors, key / 32 (R87)
  latent  : List ArrayErr       -- errors that nothing has found yet (R87, R338)
  past    : List (Nat × BitVec 8) -- what SCRATCH bytes, 2^19 * tile + offset, held before writes made while an engine or a
                                -- conversion unit works (R201, R216)
  seen    : Option (List (Nat × Nat)) -- the bytes that the engine operation at work has read, each once (R216); none between steps
  kpast   : List (BitVec 16 × Nat × BitVec 8) -- what bytes of virtual memory held before stores, newest first, by ASID and
                                -- address (R159)
  gone    : List Gone           -- collectives that have failed (R122)
  pkg     : Pkg
  slots   : SMap Slot
  cores   : SMap Core
  tiles   : SMap Tile
  vaults  : SMap Vault          -- by cluster of the package
  dies    : SMap Die
  flights : List Flight         -- port words between tiles (R157)
  rings   : List Reservation    -- reservations of queues whose slots are still to be filled or emptied (R245)
  objects : List CodeObj        -- published code (R274, R287, R294)
  nextFetch : Nat
  tasks   : SMap Task
  nextTask : Nat
  seq     : Word                -- SEQ counter (R253)
  queues  : SMap PQueue
  parts   : SMap Part
  prects  : SMap PRect          -- by 4 * partition + die
  domains : List (Word × Nat × Nat × Nat) -- SEQ, level, group of instances, the domain it is fixed to (R251)
  ports   : SMap AqPort
  remotes : List RemoteReq
  remoteWait : Bool             -- the port set has changed; new remote requests wait (R330)
  qpairs  : SMap QPair
  volts   : SMap Volt
  blackbox : List BBEvent       -- newest first
  errs    : SMap ErrCnt         -- by VF; 1024 is the physical function
  repairs : List Nat            -- Dwedar's repair list: the sectors that it has had pinned (R106, R348)
  svcInt  : List Nat            -- interrupts raised to the service cores of X-die 0 or 1 (R325)
  reports : List (List (BitVec 8)) -- attestation reports sent (R349)
  dwedar  : BitVec 384          -- Dwedar's measurement (R294, R349)
deriving DecidableEq, Repr

/-! ## Reset -/

/-- A register file at reset. -/
def zeros (n : Nat) : Vector Word n := Vector.replicate n 0#64

def ARegs.reset : ARegs :=
  { pos := 0, pc := 0, bad := false, lo := zeros 8, user := zeros 8, shadow := zeros 8, sup := zeros 8, outs := 0, outsUi := 0 }

/-- SRGEN resets to 1 (R77). -/
def XRegs.reset : XRegs :=
  { pos := 0, pc := 0, bad := false, stack := zeros 128, g := zeros 8, p := 0, v := Vector.replicate 16 0#512, m := zeros 8,
    rb := 0,
    srgen := 1, sqPushed := 0, tok := none, outs := 0, outsUi := 0 }

/-- CFP resets to 64 (R276). -/
def SysRegs.reset : SysRegs :=
  { tsr := 0, uivec := 0, semts := 0, wdcnt := 0, cwin := zeros 8, mpdst := zeros 4, wbase := 0, rslow := 0, rsidx := 0,
    rots := 0, cfp := 64, cfda := 0, cfh := 0, qpend := 0, qpbuf := zeros 8, relpend := 0 }

def Slot.reset : Slot :=
  { bound := false, task := 0, ar := ARegs.reset, xr := XRegs.reset, sys := SysRegs.reset,
    trap := { tcause := 0, tinsn := 0, tpc := 0, tva := 0, tstat := false }, super := false, inUi := false, uiHold := false, ctxa := 0, ctxx := 0, uipca := 0,
    uipcx := 0, lq := [], sq := [], sqTaken := 0, bqa := [], bqx := [], awai := .none, xwai := .none,
    ckpts := [], loads := [], stores := [], ports := Vector.replicate 4 [], done := [], bcDue := [], bcKeys := [],
    semDue := none, scDue := none, scout := none, post := none, held := none, fentry := [], finsn := 0, ffGot := none, eff := 0, fva := 0, tookA := false, tookX := false, refused := 0, kmark := 0 }

def Core.reset : Core :=
  { nanmode := false, rotA := 0, rotX := 0, lastA := [], lastX := [], icache := [], ifills := [], kcache := [], tvec := 0, preq := 0, mailbox := [],
    wmb0 := none, wmb1 := none, win0 := 0, win1 := 0 }

/-- Engine state at reset (R211): G is 1, every row and column is on. -/
def Engine.reset : Engine :=
  { g := 1, cells := [], exps := [], modes := [], acc := [], rows := 0xFFFF, collo := 0, colhi := 0x5FF, rules := [],
    base := 0, gvalid := false, gfault := 0, gidx := 0, nrule := 0, nout := 0, ncol := 0, nsym := 0, vals := [],
    owner := none, ops := [], count := 0, adds := [], accPast := [] }

def Channel.reset : Channel :=
  { next := 0, cdone := 0, fifo := [], exec := [], paused := false, lasterr := 0, groups := [], heldPost := [] }

/-- After reset every bank is in CACHE mode (R124). -/
def Tile.reset : Tile :=
  { modes := Vector.replicate 40 0#2, toMode := [],
    grants := Vector.replicate 8 { valid := false, vf := 0, group := 0, mask := 0 },
    scratch := [], fifos := [], fifoWait := [], l1 := [], sems := Vector.replicate 32 { count := 0, ts := 0 },
    semWait := [], lkw := [], lke := [], lkwFly := [], lkeFly := [], chans := Vector.replicate 8 Channel.reset,
    eng := Engine.reset, conv := [], convMark := 0, l1ctl := 0, rtent := [], dead := false }

/-- The counter of install serials is 1 after reset (R274); VLIM.N is 64 (R275). -/
def Vault.reset : Vault := { entries := [], serial := 1, vlim := 64, fetches := [] }

def CtRect.reset : CtRect :=
  { x0 := 0, y0 := 0, x1 := 0, y1 := 0, valid := false, fenced := false, resetDone := false, rejoin := false, pending := false }

/-- SPARE resets to 4 (R320). -/
def LinkEnd.reset : LinkEnd :=
  { trate := 0, target := 0, retrain := false, err := false, rate := 0, half := false, spare := 4, state := 0, crc := 0, win := 0,
    rpl := 0, last := 0, nret := 0, retired := [] }

/-- CRCLIM resets to 1,024 (R320). -/
def Die.reset : Die :=
  { lines := [], tlb := [], misses := [], reports := [], installs := [], nextTag := 0, walkWaits := [], repair := [], lastTile := [],
    deficit := [], visited := [], ptr := [], gangs := [], posts := [], holds := [], reuse := [], reuseClock := 0,
    rustbase := 0, ruidx := 0, lmthr := 1024, lmdeg := 0, ctrects := Vector.replicate 16 CtRect.reset, tileFence := [],
    tileReset := [], links := [], mend := none, routes := none }

def Repair.reset : Repair := { en := false, full := false, sect := 0, go := false, pins := [] }
def Part.reset : Part := { vf := 0, en := false, err := false, active := false, done := false, expiries := 0 }
def PRect.reset : PRect := { x0 := 0, y0 := 0, x1 := 0, y1 := 0, valid := false }
def PQueue.reset : PQueue :=
  { part := 0, prio := 0, weight := 0, ord := false, en := false, recs := [], count := 0, lastDie := 0 }
def AqPort.reset : AqPort :=
  { en := false, state := 0, crc := 0, rpl := 0, rxSeq := 0, txSeq := 0, unacked := [], wire := [], nak := false,
    launch := [] }
def QPair.reset : QPair :=
  { vf := 0, key := 0, salt := 0, rxCount := 0, txCount := 0, fails := 0, error := false, launch := false, credit := 0,
    buffer := 0, probes := 0, port := 0, msg := [], wva := 0, work := [], out := [], reads := [], inbox := [], sent := [] }
def Volt.reset : Volt :=
  { below := false, prevBelow := false, windows := 0, pft := 0, predicted := false, retired := false, hold := 0 }
def ErrCnt.reset : ErrCnt := { corr := 0, uncorr := 0, rmis := 0 }

/-- FEATEN resets to all four features (R286), AQTMO to 0x0100_0000 (R329). -/
def Pkg.reset : Pkg :=
  { ident := 0x58410701, astbase := 0, txcmd := 0, txasid := 0, txva := 0, ownbase := zeros 4, migbase := zeros 4, frmbase := zeros 4,
    btbase := 0, pfqbase := 0, admbase := 0, pqbase := 0, chva := 0, featen := 0xF, xvmin := 0, vklbase := 0,
    cnbr := zeros 8, snapGo := false, snapOnct := false, snapDone := false, bbidx := 0, aqtmo := 0x0100_0000, dtime := 0,
    dtmaster := false, dtlock := false, dtsrc := 0, dtoffs := 0, dtgood := 0, etauth := Vector.replicate 2 0#32,
    etstall := Vector.replicate 2 0#32 }

/-- The package right after reset: power is present, staged start has not begun (R348), no slot is bound and memory lists
nothing. An unlisted slot, core, tile, die, vault, queue, partition, rectangle or port is at its own reset. -/
def State.reset : State :=
  { power := true, stage := 0, halted := false, cur := { slot := 0, half := .access }, turns := [], free := 0, clock := 0,
    mem := [], full := [], poison := [], latent := [], past := [], seen := none, kpast := [], gone := [], pkg := Pkg.reset, slots := [], cores := [], tiles := [], vaults := [], dies := [],
    flights := [], rings := [], objects := [], nextFetch := 0, tasks := [], nextTask := 1, seq := 0, queues := [], parts := [],
    prects := [], domains := [], ports := [], remotes := [], remoteWait := false, qpairs := [], volts := [],
    blackbox := [], errs := [], repairs := [], svcInt := [], reports := [], dwedar := 0 }

/-! ## Stops -/

/-- What stops the machine with a fault. -/
inductive Fault where
  /-- Raised by `step` when the package has no power (R346): nothing runs. Safe: the machine does nothing. -/
  | noPower
deriving DecidableEq, Repr

/-- Why an instruction has no meaning. -/
inductive Refusal where
  /-- Raised by an arm of `exec` whose instruction is not modelled. Safe: the run stops. -/
  | notModelled (mnemonic : String)
deriving DecidableEq, Repr

end Sys2Proof.Machine
end

