-- ==== Sys2Proof/Machine/Base.lean ====
section
/-! DEFINITION. Numbers of the units of a package (01_operand_journey.md R18), access to the state, and the shape of a
step's meaning. -/
namespace Sys2Proof.Machine

/-! ## Numbers (R18) -/

def coreOfSlot (n : Nat) : Nat := n / 16
def laneOfSlot (n : Nat) : Nat := n % 16
def tileOfSlot (n : Nat) : Nat := n / 48
def dieOfTile (t : Nat) : Nat := t / 192
def dieOfSlot (n : Nat) : Nat := dieOfTile (tileOfSlot n)
def tileOfCore (c : Nat) : Nat := c / 3
/-- The tile's number on its own die. -/
def tileOnDie (t : Nat) : Nat := t % 192
def tileX (t : Nat) : Nat := t % 192 % 16
def tileY (t : Nat) : Nat := t % 192 / 16
def clusterOfTile (t : Nat) : Nat := 12 * dieOfTile t + (4 * (tileY t / 4) + tileX t / 4)
/-- The tile's number within its cluster, the one of a scratchpad address (R17). -/
def tileInCluster (t : Nat) : Nat := 4 * (tileY t % 4) + tileX t % 4
/-- The tile of a cluster with a number within the cluster. -/
def tileOfCluster (c k : Nat) : Nat :=
  192 * (c / 12) + 16 * (4 * (c % 12 / 4) + k / 4) + (4 * (c % 12 % 4) + k % 4)
def roleOfCore (c : Nat) : Role := if c % 3 = 0 then .m else if c % 3 = 1 then .v else .a
def roleNum : Role → Nat | .m => 0 | .v => 1 | .a => 2
/-- The walker is slot 15 of its core (R147). -/
def isWalker (n : Nat) : Bool := n % 16 == 15

/-! ## Access to the state -/

namespace State
def slot (s : State) (n : Nat) : Slot := s.slots.get n Slot.reset
def core (s : State) (c : Nat) : Core := s.cores.get c Core.reset
def tile (s : State) (t : Nat) : Tile := s.tiles.get t Tile.reset
def die (s : State) (d : Nat) : Die := s.dies.get d Die.reset
def vault (s : State) (c : Nat) : Vault := s.vaults.get c Vault.reset
def queue (s : State) (q : Nat) : PQueue := s.queues.get q PQueue.reset
def part (s : State) (p : Nat) : Part := s.parts.get p Part.reset
def prect (s : State) (n : Nat) : PRect := s.prects.get n PRect.reset
def task? (s : State) (t : Nat) : Option Task := s.tasks.get? t

def setSlot (s : State) (n : Nat) (x : Slot) : State := { s with slots := s.slots.set n x }
def modSlot (n : Nat) (f : Slot → Slot) (s : State) : State := s.setSlot n (f (s.slot n))
def modCore (c : Nat) (f : Core → Core) (s : State) : State := { s with cores := s.cores.set c (f (s.core c)) }
def modTile (t : Nat) (f : Tile → Tile) (s : State) : State := { s with tiles := s.tiles.set t (f (s.tile t)) }
def modDie (d : Nat) (f : Die → Die) (s : State) : State := { s with dies := s.dies.set d (f (s.die d)) }
def modVault (c : Nat) (f : Vault → Vault) (s : State) : State := { s with vaults := s.vaults.set c (f (s.vault c)) }
def modQueue (q : Nat) (f : PQueue → PQueue) (s : State) : State := { s with queues := s.queues.set q (f (s.queue q)) }
def modPart (p : Nat) (f : Part → Part) (s : State) : State := { s with parts := s.parts.set p (f (s.part p)) }
def modPkg (f : Pkg → Pkg) (s : State) : State := { s with pkg := f s.pkg }
def modTask (t : Nat) (f : Task → Task) (s : State) : State :=
  match s.tasks.get? t with
  | none => s
  | some x => { s with tasks := s.tasks.set t (f x) }

/-- The slot that issues, its core and its tile. -/
def me (s : State) : Slot := s.slot s.cur.slot
def myCore (s : State) : Nat := coreOfSlot s.cur.slot
def myTile (s : State) : Nat := tileOfSlot s.cur.slot
def myDie (s : State) : Nat := dieOfSlot s.cur.slot
def myRole (s : State) : Role := roleOfCore (coreOfSlot s.cur.slot)
def modMe (f : Slot → Slot) (s : State) : State := s.modSlot s.cur.slot f

/-- The task that a slot is bound to. -/
def taskOf (s : State) (n : Nat) : Option Task := if (s.slot n).bound then s.task? (s.slot n).task else none
/-- The address-space identifier that a slot's accesses carry (R14, R258). -/
def asidOf (s : State) (n : Nat) : BitVec 16 := ((s.taskOf n).map (·.asid)).getD 0
def vfOf (s : State) (n : Nat) : Nat := ((s.taskOf n).map (·.vf)).getD 0
/-- Take one free choice (00_scope.md R3). -/
def nextFree (s : State) : Nat × State := (Config.choice s.free, { s with free := s.free + 1 })
end State

/-! ## The two halves of a slot (R147) -/

def otherHalf : Half → Half | .access => .execute | .execute => .access

namespace Slot
def posOf (sl : Slot) : Half → Nat | .access => sl.ar.pos | .execute => sl.xr.pos
def pcOf (sl : Slot) : Half → Word | .access => sl.ar.pc | .execute => sl.xr.pc
def waitOf (sl : Slot) : Half → Wait | .access => sl.awai | .execute => sl.xwai
def setPc (sl : Slot) (h : Half) (pc : Word) : Slot :=
  match h with
  | .access => { sl with ar := { sl.ar with pc := pc, bad := false } }
  | .execute => { sl with xr := { sl.xr with pc := pc, bad := false } }
/-- Mark a half's address as a branch target that fails R183. -/
def setBad (sl : Slot) (h : Half) (b : Bool) : Slot :=
  match h with
  | .access => { sl with ar := { sl.ar with bad := b } }
  | .execute => { sl with xr := { sl.xr with bad := b } }
def badOf (sl : Slot) : Half → Bool | .access => sl.ar.bad | .execute => sl.xr.bad
def setPos (sl : Slot) (h : Half) (p : Nat) : Slot :=
  match h with
  | .access => { sl with ar := { sl.ar with pos := p } }
  | .execute => { sl with xr := { sl.xr with pos := p } }
def setWait (sl : Slot) (h : Half) (w : Wait) : Slot :=
  match h with
  | .access => { sl with awai := w }
  | .execute => { sl with xwai := w }

/-- The bank that a8 to a15 name now: the supervisor shadow bank while SUPER is 1 (R299), else the shadow registers in a
completion handler (R31), else the user bank. -/
def aHigh (sl : Slot) : Vector Word 8 := if sl.super then sl.ar.sup else if sl.inUi then sl.ar.shadow else sl.ar.user
def setAHigh (sl : Slot) (v : Vector Word 8) : Slot :=
  if sl.super then { sl with ar := { sl.ar with sup := v } }
  else if sl.inUi then { sl with ar := { sl.ar with shadow := v } }
  else { sl with ar := { sl.ar with user := v } }
end Slot

/-- The code of a parking cause (R151). -/
def Wait.cause : Wait → Nat
  | .none => 0
  | .load _ | .xlat | .storeData | .copyRoom _ | .copyId _ _ | .fifoPush _ _ _ | .conversion => 1
  | .lqEmpty _ | .branchEmpty | .portEmpty _ | .linkEmpty _ | .mailbox | .waite | .fifoPop _ _ _ => 2
  | .fullEmpty _ _ | .fullKeep _ | .semaphore _ | .faultWord _ _ | .faultPost => 3
  | .engine => 4
  | .code _ => 5
  | .lqRoom _ | .sqRoom _ | .branchRoom | .portRoom _ | .linkRoom _ | .queueRoom _ => 6
  | .meeting => 7

/-! ## The meaning of a step

A meaning runs over the state and either goes on with a value or ends the step there (parked, held back, trapped): both
leave a next state. -/

abbrev M (α : Type) := EStateM Unit State α

/-- The step that a meaning makes. -/
def M.step (m : M Unit) (s : State) : Host.Outcome State Fault Refusal :=
  match m s with
  | .ok _ t => .next t
  | .error _ t => .next t

/-- The state a meaning leaves. -/
def M.state {α : Type} (m : M α) (s : State) : State :=
  match m s with
  | .ok _ t => t
  | .error _ t => t

/-- Change the state. -/
@[reducible] def act (f : State → State) : M Unit := modify f
/-- End the step here. -/
@[reducible] def halt {α : Type} : M α := throw ()
/-- Change the state and end the step. -/
def haltWith {α : Type} (f : State → State) : M α := do modify f; throw ()
/-- Change the slot that issues. -/
def actMe (f : Slot → Slot) : M Unit := modify (State.modMe f)
def getMe : M Slot := do return (← get).me
def getHalf : M Half := do return (← get).cur.half

/-- Park the half that issues: its instruction has had no effect, and it is tried again when the cause is served (R151). -/
def park {α : Type} (w : Wait) : M α := haltWith fun s => s.modMe fun sl => sl.setWait s.cur.half w

/-- End the step unless a condition holds: the instruction is tried again. -/
def holdUnless (b : Bool) : M Unit := if b then pure () else halt

/-! ## Lists -/

/-- Drop every element that satisfies a test. -/
@[reducible] def dropAll {α : Type} (l : List α) (p : α → Bool) : List α := l.filter (fun x => !p x)

/-- Change the first element that satisfies a test. -/
def modFirst {α : Type} (l : List α) (p : α → Bool) (f : α → α) : List α :=
  match l with
  | [] => []
  | x :: xs => if p x then f x :: xs else x :: modFirst xs p f

/-- Change every element of a vector. -/
def mapVec {α β : Type} {n : Nat} (f : α → β) (v : Vector α n) : Vector β n :=
  ⟨(v.toList.map f).toArray, by simp⟩

/-- The first n elements of a list, with a default for those that it lacks. -/
def vecOf {α : Type} (n : Nat) (l : List α) (d : α) : Vector α n := ⟨((List.range n).map fun j => l.getD j d).toArray, by simp⟩

/-- Replace element `k`. -/
def setNth {α : Type} (l : List α) (k : Nat) (x : α) : List α := l.set k x

/-- A counter of w bits that saturates. -/
def satAdd {w : Nat} (x : BitVec w) (n : Nat) : BitVec w := BitVec.ofNat w (min (x.toNat + n) (2 ^ w - 1))

/-! ## The black-box record (17_reliability_start.md R346) -/

/-- Device time goes on by a free amount and never falls (16_links.md R336). -/
def tickTime (s : State) : State :=
  let (k, s) := s.nextFree
  s.modPkg fun p => { p with dtime := BitVec.ofNat 64 (min (p.dtime.toNat + k) (2 ^ 64 - 1)) }

/-- Add an event of a kind at a die and a tile; the last 4,096 are kept. A die or a tile that the event does not have, and the
detail words, whose contents the manual does not give, are free. -/
def logEvent (kind : Nat) (die tile : Option Nat) (s : State) : State :=
  let s := tickTime s
  let n := s.free
  let (d, s) := s.nextFree
  let (t, s) := s.nextFree
  let w1 : Word := BitVec.ofNat 64 (kind + 256 * (die.getD d % 4) + 1024 * (tile.getD t % 256))
  { s with blackbox :=
      ({ time := s.pkg.dtime, w1 := w1, w2 := Config.freeWord n 2, w3 := Config.freeWord n 3 } :: s.blackbox).take 4096 }

end Sys2Proof.Machine
end

