-- ==== Sys2Proof/Machine/RegMap.lean ====
section
/-! DEFINITION. The map of register space (05_memory_path.md R86). Its printed example addresses do not agree with the
fields of the rule; the fields are followed (DEDUCED, log 16). -/
namespace Sys2Proof.Machine

/-- A register of register space. -/
inductive RegId where
  | astbase | txcmd | txasid | txva
  | ownbase (d : Nat) | migbase (d : Nat) | frmbase (d : Nat)
  | btbase | pfqbase | admbase | pqbase
  | pctl (n : Nat) | prect (n : Nat) | pqcfg (n : Nat) | pqstat (n : Nat) | pwd (n : Nat)
  | chva | featen | xvmin | vklbase | cnbr (n : Nat)
  | errcnt (v : Nat)
  | snapctl | bbidx | bbdata (k : Nat)
  | aqtmo | dtime | dtctl | dtstat | etstat (p : Nat) | aqctl (n : Nat) | aqstat (n : Nat)
  | rustbase (d : Nat) | ruidx (d : Nat) | rudata (d k : Nat)
  | lmthr (d : Nat) | lmdeg (d : Nat) | ctrect (d k : Nat)
  | lmctl (d m : Nat) | lmstat (d m : Nat) | lmcrc (d m : Nat) | lmrpl (d m : Nat) | lmret (d m : Nat)
  | bmode (t k : Nat) | bgkey (t g : Nat) | bgmask (t g : Nat) | l1ctl (t : Nat) | rtent (t u : Nat)
  | preq (core : Nat) | slotstat (slot : Nat)
  | srpctl (d i : Nat) | srpadd (d i : Nat)
  | vlim (cluster : Nat)
deriving DecidableEq, Repr

/-- The two dies that a UCIe module joins (16_links.md R318); 4 and 5 are the X-dies. -/
def moduleEnds (m : Nat) : Nat × Nat :=
  if m < 8 then (0, 1) else if m < 16 then (1, 3) else if m < 24 then (3, 2) else if m < 32 then (2, 0)
  else if m < 36 then (0, 4) else if m < 40 then (1, 4) else if m < 44 then (2, 5) else (3, 5)
def moduleOn (d m : Nat) : Bool := decide (m < 48) && ((moduleEnds m).1 == d || (moduleEnds m).2 == d)

/-- An index in an array of registers that begins at an offset. -/
def regIndex (off base count : Nat) : Option Nat :=
  if base ≤ off ∧ (off - base) / 8 < count then some ((off - base) / 8) else none

/-- The package registers. -/
def packageReg (block off : Nat) : Option RegId :=
  let at' (base count : Nat) (f : Nat → RegId) : Option RegId := (regIndex off base count).map f
  match block with
  | 0 => (at' 0x000 1 fun _ => .astbase).or ((at' 0x008 1 fun _ => .txcmd).or ((at' 0x010 1 fun _ => .txasid).or
      ((at' 0x018 1 fun _ => .txva).or ((at' 0x020 4 .ownbase).or ((at' 0x040 4 .migbase).or ((at' 0x060 4 .frmbase).or
      ((at' 0x080 1 fun _ => .btbase).or (at' 0x088 1 fun _ => .pfqbase))))))))
  | 1 => (at' 0x000 1 fun _ => .admbase).or ((at' 0x008 1 fun _ => .pqbase).or ((at' 0x1000 64 .pctl).or
      ((at' 0x2000 256 .prect).or ((at' 0x4000 1024 .pqcfg).or ((at' 0x6000 1024 .pqstat).or (at' 0x8000 64 .pwd))))))
  | 2 => (at' 0x000 1 fun _ => .chva).or ((at' 0x008 1 fun _ => .featen).or ((at' 0x010 1 fun _ => .xvmin).or
      ((at' 0x018 1 fun _ => .vklbase).or (at' 0x020 8 .cnbr))))
  | 3 => at' 0x000 1025 .errcnt
  | 4 => (at' 0x000 1 fun _ => .snapctl).or ((at' 0x008 1 fun _ => .bbidx).or (at' 0x010 4 .bbdata))
  | 5 => (at' 0x000 1 fun _ => .aqtmo).or ((at' 0x008 1 fun _ => .dtime).or ((at' 0x010 1 fun _ => .dtctl).or
      ((at' 0x018 1 fun _ => .dtstat).or ((at' 0x020 2 .etstat).or ((at' 0x100 64 .aqctl).or (at' 0x300 64 .aqstat))))))
  | _ => none

/-- The registers of a tile. -/
def tileReg (t off : Nat) : Option RegId :=
  let at' (base count : Nat) (f : Nat → RegId) : Option RegId := (regIndex off base count).map f
  (at' 0x000 2 (.bmode t)).or ((at' 0x010 8 (.bgkey t)).or ((at' 0x050 8 (.bgmask t)).or ((at' 0x090 1 fun _ => .l1ctl t).or
    ((at' 0x400 192 (.rtent t)).or ((List.range 3).findSome? fun k =>
      (at' (0x1000 * (k + 1)) 1 fun _ => .preq (3 * t + k)).or
        (at' (0x1000 * (k + 1) + 0x100) 16 fun s => .slotstat (16 * (3 * t + k) + s)))))))

/-- The registers of a die. -/
def dieReg (d block off : Nat) : Option RegId :=
  let at' (base count : Nat) (f : Nat → RegId) : Option RegId := (regIndex off base count).map f
  let c := decide (d < 4)
  let sub := off / 2 ^ 20
  let low := off % 2 ^ 20
  match block with
  | 0x00 => ((at' 0x050 1 fun _ => .lmthr d).or (at' 0x058 1 fun _ => .lmdeg d)).or
      (if c then (at' 0x000 1 fun _ => .rustbase d).or ((at' 0x008 1 fun _ => .ruidx d).or ((at' 0x010 8 (.rudata d)).or
        (at' 0x100 16 (.ctrect d)))) else none)
  | 0x01 =>
    let m := off / 0x40
    if moduleOn d m then
      match off % 0x40 / 8 with
      | 0 => some (.lmctl d m) | 1 => some (.lmstat d m) | 2 => some (.lmcrc d m) | 3 => some (.lmrpl d m)
      | 4 => some (.lmret d m) | _ => none
    else none
  | 0x10 => if c && decide (sub < 192) then tileReg (192 * d + sub) low else none
  | 0x20 => if c && decide (sub < 48) then
      (if low = 0 then some (.srpctl d sub) else if low = 8 then some (.srpadd d sub) else none) else none
  | 0x30 => if c && decide (sub < 12) && low == 0 then some (.vlim (12 * d + sub)) else none
  | _ => none

/-- The register at a physical address of register space. -/
def regAt (pa : Nat) : Option RegId :=
  if pa / 2 ^ 40 % 256 ≠ 0xFF ∨ pa % 8 ≠ 0 then none
  else
    let unit := pa / 2 ^ 36 % 16
    let block := pa / 2 ^ 28 % 256
    let off := pa % 2 ^ 28
    if unit = 8 then packageReg block off else if unit < 6 then dieReg unit block off else none

end Sys2Proof.Machine
end

