-- ==== Sys2Proof/Machine/Paths.lean ====
section
/-! DEFINITION. The paths between the dies of a package (05_memory_path.md R85, R93, 16_links.md R318, R321, R326). -/
namespace Sys2Proof.Machine

/-- A key names another package (R93). -/
def isRemote (key : Nat) : Bool := 2 ^ 48 ≤ key
/-- The home die of a byte (R85). -/
def homeDie (key : Nat) : Nat := key / 2 ^ 38 % 4
def linkEnd (s : State) (d m : Nat) : LinkEnd := (s.die d).links.get m LinkEnd.reset

/-- PA[22:7] xor PA[38:23] of the line of a key, by which links share traffic (R326, R330). -/
def lineHash (key : Nat) : Nat := (key / 2 ^ 7 % 2 ^ 16) ^^^ (key / 2 ^ 23 % 2 ^ 16)
/-- The member of a list that a number selects. -/
def pick (k : Nat) (xs : List Nat) : Option Nat := xs[k % xs.length]?
/-- The modules of a pair of dies that carry traffic, in ascending order: one that trains or has failed carries none. -/
def modulesUp (s : State) (a b : Nat) : List Nat :=
  (List.range 48).filter fun m => (moduleEnds m == (a, b) || moduleEnds m == (b, a)) && (linkEnd s a m).state == 2#2
/-- The modules by which traffic that a number selects goes from one die to another: one of the pair's own, or the two hops
through another die while none is up (R326). The number is the hash of a line or the number of the destination tile. Flits that
wait because the members of a pair have changed are not apart from others that are on their way, which may take any time. -/
def linkPath (s : State) (a b h : Nat) : Option (List Nat) :=
  if a = b then some []
  else
    match pick h (modulesUp s a b) with
    | some m => some [m]
    | none => (List.range 6).findSome? fun c =>
        match pick h (modulesUp s a c), pick h (modulesUp s c b) with
        | some m, some m' => some [m, m']
        | _, _ => none

end Sys2Proof.Machine
end

