-- ==== Sys2Proof/Machine/Cache.lean ====
section
/-! DEFINITION. Lines of the first-level caches and of the slices, and memory behind them (05_memory_path.md R87 to R91,
07_tile_array.md R134, 12_consistency.md R234, R235, 13_tasks_scheduling.md R270). -/
namespace Sys2Proof.Machine

/-! ## Bytes of a line -/

/-- The low `n` bytes. -/
def byteMask (n : Nat) : VWord := BitVec.ofNat 512 (2 ^ (8 * n) - 1)
/-- `n` bytes of a line from an offset, lowest address first (R6). -/
def lineGet (data : BitVec 1024) (off n : Nat) : VWord := (data.extractLsb' (8 * off) 512) &&& byteMask n
/-- Replace `n` bytes of a line. -/
def linePut (data : BitVec 1024) (off n : Nat) (v : VWord) : BitVec 1024 :=
  let m := (byteMask n).zeroExtend 1024 <<< (8 * off)
  (data &&& ~~~m) ||| (((v.zeroExtend 1024) <<< (8 * off)) &&& m)
/-- Mark `n` bytes of a dirty mask. -/
def dirtyPut (d : BitVec 128) (off n : Nat) : BitVec 128 := d ||| (BitVec.ofNat 128 (2 ^ n - 1) <<< off)
/-- Take the bytes that a mask marks from `y`, the others from `x`. -/
def mergeLine (x y : BitVec 1024) (mask : BitVec 128) : BitVec 1024 :=
  (List.range 128).foldl (fun acc i => if mask.getLsbD i then linePut acc i 1 (lineGet y i 1) else acc) x

/-- The slice that a virtual address selects on the requester's die (R89). -/
def sliceOf (va : Nat) : Nat :=
  let x : BitVec 55 := BitVec.ofNat 55 va
  ((x.extractLsb' 7 16) ^^^ (x.extractLsb' 23 16) ^^^ (x.extractLsb' 39 16)).toNat % 48

def vlineOf (va : Nat) : Nat := va / 128
def lineKey (key : Nat) : Nat := key - key % 128
def Loc.off (l : Loc) : Nat := l.va % 128
def Loc.vline (l : Loc) : Nat := l.va / 128
/-- The location `n` bytes further on in the same page. -/
def Loc.add (l : Loc) (n : Nat) : Loc := { l with key := l.key + n, va := l.va + n }

/-- The location of the first byte of a line. -/
def Line.loc (l : Line) : Loc :=
  { key := l.key, va := 128 * l.vline, asid := l.asid, large := l.large, scope := l.scope, c := true, w := l.w, watch := l.watch }
def Line.has (asid : BitVec 16) (vline : Nat) (l : Line) : Bool := l.asid == asid && l.vline == vline
def findLine (ls : List Line) (asid : BitVec 16) (vline : Nat) : Option Line := ls.find? (Line.has asid vline)
/-- Replace the line with the same tag, or add it. -/
def putLine (ls : List Line) (x : Line) : List Line := x :: dropAll ls (Line.has x.asid x.vline)

def Die.putLine (d : Die) (x : Line) : Die := { d with lines := Sys2Proof.Machine.putLine d.lines x }
def Tile.putL1 (t : Tile) (x : Line) : Tile := { t with l1 := Sys2Proof.Machine.putLine t.l1 x }
/-- The sectors all of whose bytes a mask marks. -/
def wholeSectors (mask : BitVec 128) : BitVec 4 :=
  BitVec.ofNat 4 ((List.range 4).foldl (fun acc i => if mask.extractLsb' (32 * i) 32 = 0xFFFFFFFF#32 then acc + 2 ^ i else acc) 0)
/-- Replace `n` bytes of a line and mark them dirty; a sector that is written whole loses its poison. -/
def Line.put (l : Line) (off n : Nat) (v : VWord) : Line :=
  { l with data := linePut l.data off n v, dirty := dirtyPut l.dirty off n,
           poison := l.poison &&& ~~~(wholeSectors (dirtyPut 0 off n)) }
/-- Take the bytes that a mask marks, with their poison. -/
def Line.merge (l : Line) (data : BitVec 1024) (mask : BitVec 128) (poison : BitVec 4) : Line :=
  { l with data := mergeLine l.data data mask, dirty := l.dirty ||| mask,
           poison := (l.poison &&& ~~~(wholeSectors mask)) ||| poison }
/-- Change the line of a slice with a tag. -/
def Die.modLine (d : Die) (asid : BitVec 16) (vline : Nat) (f : Line → Line) : Die :=
  { d with lines := modFirst d.lines (Line.has asid vline) f }

/-! ## Errors of the arrays (R87, R338, R344) -/

/-- The VF that owns an address space (R95). -/
def ownerVf (s : State) (asid : BitVec 16) : Nat :=
  ((s.mem.word ((s.pkg.astbase &&& 0xFFFFFFF00000#64).toNat + 16 * asid.toNat)).extractLsb' 48 10).toNat
/-- An error that an access of a VF corrected (R344). -/
def countCorr (vf n : Nat) (s : State) : State :=
  let c := s.errs.get vf ErrCnt.reset
  { s with errs := s.errs.set vf { c with corr := satAdd c.corr n } }
/-- An uncorrectable error that a VF's access met (R344). -/
def countUncorr (vf : Nat) (s : State) : State :=
  let c := s.errs.get vf ErrCnt.reset
  { s with errs := s.errs.set vf { c with uncorr := satAdd c.uncorr 1 } }

def ErrAt.inDram (key : Nat) : ErrAt → Bool | .dram q => q / 4 == key / 128 | _ => false
def ErrAt.inSlice (d : Nat) (asid : BitVec 16) (vline : Nat) : ErrAt → Bool
  | .slice d' a v _ => d' == d && a == asid && v == vline
  | _ => false
/-- A word of the `n` bytes from an offset of a tile's SCRATCH banks. -/
def ErrAt.inScratch (t off n : Nat) : ErrAt → Bool
  | .scratch t' w => t' == t && decide (8 * w < off + n) && decide (off < 8 * w + 8)
  | _ => false
/-- A line of a tile's CACHE banks. -/
def ErrAt.inL1 (t : Nat) (asid : BitVec 16) (vline : Nat) : ErrAt → Bool
  | .l1 t' a v _ => t' == t && a == asid && v == vline
  | _ => false
/-- A store that a task holds in escrow. -/
def ErrAt.inEscrow (id n pos : Nat) : ErrAt → Bool | .escrow i m p => i == id && m == n && p == pos | _ => false
def ErrAt.inVault (c k : Nat) : ErrAt → Bool | .vault c' k' => c' == c && k' == k | _ => false
def ErrAt.inFifo (t b : Nat) : ErrAt → Bool | .fifo t' b' => t' == t && b' == b | _ => false

/-- What cannot be corrected stays with the data as poison; a word that is no sector of a line keeps its error until it is written
again or is gone. -/
def poisonAt (e : ArrayErr) (s : State) : State :=
  match e.place with
  | .dram q => if s.poison.contains q then s else { s with poison := s.poison ++ [q] }
  | .slice d a v k => s.modDie d fun x => x.modLine a v fun l => { l with poison := l.poison ||| (1#4 <<< (k % 4)) }
  | .l1 t a v k => s.modTile t fun x => { x with l1 := modFirst x.l1 (Line.has a v) fun l => { l with poison := l.poison ||| (1#4 <<< (k % 4)) } }
  | .scratch _ _ | .fifo _ _ | .escrow _ _ _ | .vault _ _ | .flit _ => { s with latent := e :: s.latent }
/-- An access of a VF finds the errors at the places that a test names: those that can be corrected are corrected and counted,
and the others poison their data. -/
def sense (vf : Nat) (at' : ErrAt → Bool) (s : State) : State :=
  if s.latent.isEmpty then s
  else
    let found := s.latent.filter fun e => at' e.place
    let good := found.filter fun e => !e.bad
    let s := { s with latent := dropAll s.latent fun e => at' e.place }
    (found.filter (·.bad)).foldl (fun acc e => poisonAt e acc) (if good.isEmpty then s else countCorr vf good.length s)
/-- What the walker, a write-back or scrubbing finds is attributed to no VF (R344). -/
def unattributed : Nat := 1024
/-- A read of the walker finds the errors of the line at a key. -/
def senseWalker (key : Nat) (s : State) : State := sense unattributed (ErrAt.inDram key) s
/-- Some word of a tile at the places that a test names holds an error that cannot be corrected. -/
def spoiled (s : State) (at' : ErrAt → Bool) : Bool := s.latent.any fun e => e.bad && at' e.place

/-- A sector of the line at a key crosses the modules between a die and the line's home: a corruption that has escaped a link's CRC
is found by the sector's check, corrected, or told by the answer (R322). -/
def crossing (vf d key : Nat) (s : State) : Bool × State :=
  if s.latent.isEmpty || isRemote key then (false, s)
  else
    let ms := (linkPath s d (homeDie key) (lineHash key)).getD []
    let here (e : ArrayErr) : Bool := match e.place with | .flit m => ms.contains m | _ => false
    match s.latent.find? here with
    | none => (false, s)
    | some e =>
      let s := { s with latent := s.latent.erase e }
      if e.bad then (true, s) else (false, countCorr vf 1 s)

/-! ## Memory behind the caches -/

/-- A poison mark for each sector of a line (R87). -/
def poisonOf (s : State) (key : Nat) : BitVec 4 :=
  BitVec.ofNat 4 ((List.range 4).foldl (fun acc i => if s.poison.contains (lineKey key / 32 + i) then acc + 2 ^ i else acc) 0)
def memLine (s : State) (key : Nat) : BitVec 1024 := BitVec.ofNat 1024 (s.mem.readNat (lineKey key) 128)

/-- Sectors of DRAM are written whole: they hold no error and no poison any more. -/
def cleanSectors (p : Nat → Bool) (s : State) : State :=
  { s with poison := dropAll s.poison p,
           latent := dropAll s.latent fun e => match e.place with | .dram q => p q | _ => false }
/-- A write at the memory controller; a sector that is written whole loses its poison. -/
def memPut (key n : Nat) (v : VWord) (s : State) : State :=
  cleanSectors (fun q => key ≤ 32 * q && 32 * q + 32 ≤ key + n) { s with mem := s.mem.write key n (v &&& byteMask n).toNat }
def memGet (s : State) (key n : Nat) : VWord := BitVec.ofNat 512 (s.mem.readNat key n)
def memWord (s : State) (key : Nat) : Word := s.mem.word key
def memSetWord (key : Nat) (v : Word) (s : State) : State := { s with mem := s.mem.setWord key v }

/-- Write the dirty bytes of a line to the memory controller with their poison (R88, R338). -/
def memMerge (key : Nat) (data : BitVec 1024) (dirty : BitVec 128) (poison : BitVec 4) (s : State) : State :=
  let k := lineKey key
  let m := (List.range 128).foldl
    (fun m i => if dirty.getLsbD i then Memory.setByte m (k + i) (data.extractLsb' (8 * i) 8) else m) s.mem
  let whole := wholeSectors dirty
  let s := cleanSectors (fun q => q / 4 == k / 128 && whole.getLsbD (q % 4)) { s with mem := m }
  let ps := (List.range 4).filterMap
    (fun i => if poison.getLsbD i && !s.poison.contains (k / 32 + i) then some (k / 32 + i) else none)
  { s with poison := ps ++ s.poison }

/-- The current bytes of a line at its home: the home slice's copy, or memory (R90). -/
def homeLine (s : State) (asid : BitVec 16) (vline key : Nat) : BitVec 1024 × BitVec 4 :=
  match if isRemote key then none else findLine (s.die (homeDie key)).lines asid vline with
  | some l => (l.data, l.poison)
  | none => (memLine s key, poisonOf s key)

/-- An access finds the errors of a line at its home. -/
def senseHome (asid : BitVec 16) (vline key : Nat) (s : State) : State :=
  if s.latent.isEmpty then s
  else sense (ownerVf s asid)
    (if (if isRemote key then none else findLine (s.die (homeDie key)).lines asid vline).isSome
      then ErrAt.inSlice (homeDie key) asid vline else ErrAt.inDram key) s

/-- Write bytes of a line at its home: into the home slice's copy if it holds one, else to memory. -/
def homeMerge (asid : BitVec 16) (vline key : Nat) (data : BitVec 1024) (dirty : BitVec 128) (poison : BitVec 4)
    (s : State) : State :=
  match if isRemote key then none else findLine (s.die (homeDie key)).lines asid vline with
  | some _ => s.modDie (homeDie key) fun d => d.modLine asid vline fun l => l.merge data dirty poison
  | none => if dirty = 0#128 then s else memMerge key data dirty poison s

/-- Write the dirty bytes of a line that leaves a slice back to the physical address recorded with it (R104): through the
home slice's copy where that is of the same address, else to memory. -/
def writeBack (l : Line) (s : State) : State :=
  match if isRemote l.key then none else findLine (s.die (homeDie l.key)).lines l.asid l.vline with
  | some y =>
    if y.key = l.key then s.modDie (homeDie l.key) fun d => d.modLine l.asid l.vline fun y => y.merge l.data l.dirty l.poison
    else memMerge l.key l.data l.dirty l.poison s
  | none => memMerge l.key l.data l.dirty l.poison s

/-- Write back a line of a slice and drop it (R88, R104). The write-back finds the errors of the line, and their poison goes with it
(R338, R344). -/
def dropSliceLine (d : Nat) (asid : BitVec 16) (vline : Nat) (s : State) : State :=
  match findLine (s.die d).lines asid vline with
  | none => s
  | some l =>
    let s := if l.dirty = 0#128 then s else sense unattributed (ErrAt.inSlice d asid vline) s
    let l := (findLine (s.die d).lines asid vline).getD l
    let (hit, s) := if l.dirty = 0#128 then (false, s) else crossing unattributed d l.key s
    let (k, s) := if hit then s.nextFree else (0, s)
    let l := if hit then { l with poison := l.poison ||| (1#4 <<< (k % 4)) } else l
    let s := s.modDie d fun x => { x with lines := dropAll x.lines (Line.has asid vline) }
    if l.dirty = 0#128 then s else writeBack l s

/-- A slice may evict a line at any fill; the choice is free. -/
def evictSome (d : Nat) (s : State) : State :=
  let (c, s) := s.nextFree
  match (s.die d).lines[c % ((s.die d).lines.length + 1)]? with
  | some l => dropSliceLine d l.asid l.vline s
  | none => s

/-- The ways that a slice has for lines: way 15 may be given to repair (R106). -/
def sliceWays (s : State) (d i : Nat) : Nat := if ((s.die d).repair.get i Repair.reset).en then 15 else 16

/-- A line that enters slice `i` takes a free way. A slice is 1 MiB of 16 ways (R5): a way that holds 512 lines evicts one of
them. Which lines share a set is not stated and is left free (DESIGN CHOICE, log 86). -/
def takeWay (d i : Nat) (s : State) : Nat × State :=
  let (k, s) := s.nextFree
  let way := k % sliceWays s d i
  if (s.die d).lines.length < 512 then (way, s)
  else
    let held := (s.die d).lines.filter fun l => sliceOf (128 * l.vline) == i && l.bank == way
    if held.length < 512 then (way, s)
    else
      let (c, s) := s.nextFree
      (way, match held[c % held.length]? with
        | some l => dropSliceLine d l.asid l.vline s
        | none => s)

/-- Make a slice of die `d` hold a line, filled from its home (R89, R91). -/
def fillSlice (d : Nat) (l : Loc) (s : State) : State :=
  match findLine (s.die d).lines l.asid l.vline with
  | some _ => s
  | none =>
    let (way, s) := takeWay d (sliceOf (128 * l.vline)) (evictSome d s)
    let s := senseHome l.asid l.vline l.key s
    let (data, poison) := homeLine s l.asid l.vline l.key
    let (hit, s) := crossing (ownerVf s l.asid) d l.key s
    let (k, s) := if hit then s.nextFree else (0, s)
    s.modDie d fun x => x.putLine
      { asid := l.asid, vline := l.vline, key := lineKey l.key, data := data, dirty := 0, w := l.w, scope := l.scope,
        watch := l.watch, large := l.large, poison := if hit then poison ||| (1#4 <<< (k % 4)) else poison, bank := way }

/-- Bytes of a first-level line that is written back go into the slice under its virtual tag (R134). -/
def sliceMerge (d : Nat) (l : Line) (s : State) : State :=
  if l.dirty = 0#128 then s
  else
    let s := fillSlice d l.loc s
    s.modDie d fun x => x.modLine l.asid l.vline fun y => y.merge l.data l.dirty l.poison

/-- A write-back finds the errors of a first-level line (R344). -/
def senseBack (t : Nat) (asid : BitVec 16) (vline : Nat) (s : State) : State :=
  if s.latent.isEmpty then s
  else match findLine (s.tile t).l1 asid vline with
    | some l => if l.dirty = 0#128 then s else sense unattributed (ErrAt.inL1 t asid vline) s
    | none => s
/-- Write back the dirty bytes of a first-level line and keep it clean (R146). -/
def cleanL1 (t : Nat) (asid : BitVec 16) (vline : Nat) (s : State) : State :=
  let s := senseBack t asid vline s
  match findLine (s.tile t).l1 asid vline with
  | none => s
  | some l =>
    (sliceMerge (dieOfTile t) l s).modTile t fun x => x.putL1 { l with dirty := 0 }

/-- Write back a first-level line and drop it (R146). -/
def dropL1 (t : Nat) (asid : BitVec 16) (vline : Nat) (s : State) : State :=
  let s := senseBack t asid vline s
  match findLine (s.tile t).l1 asid vline with
  | none => s
  | some l => (sliceMerge (dieOfTile t) l s).modTile t fun x => { x with l1 := dropAll x.l1 (Line.has asid vline) }

/-- The banks that are ways of a tile's first-level cache (R134). -/
def cacheBanks (t : Tile) : List Nat := (List.range 40).filter fun b => t.modes.toArray.getD b 0#2 == 0#2

/-- An access finds the errors of a slice's line. -/
def senseSlice (d : Nat) (asid : BitVec 16) (vline : Nat) (s : State) : State :=
  if s.latent.isEmpty then s else sense (ownerVf s asid) (ErrAt.inSlice d asid vline) s

/-- Fill a first-level line from the slice (R134): the way it takes is free. -/
def fillL1 (t : Nat) (l : Loc) (s : State) : State :=
  match findLine (s.tile t).l1 l.asid l.vline with
  | some _ => s
  | none =>
    let s := senseSlice (dieOfTile t) l.asid l.vline (fillSlice (dieOfTile t) l s)
    let (c, s) := s.nextFree
    let banks := cacheBanks (s.tile t)
    match banks[c % banks.length]?, findLine (s.die (dieOfTile t)).lines l.asid l.vline with
    | some b, some src =>
      let s := match (s.tile t).l1.find? (fun y => y.bank == b && y.vline % 64 == l.vline % 64) with
        | some y => dropL1 t y.asid y.vline s
        | none => s
      s.modTile t fun x => x.putL1
        { src with dirty := 0, w := l.w && !l.watch, scope := l.scope, watch := l.watch, large := l.large, bank := b }
    | _, _ => s

/-! ## Loads -/

/-- Whether a sector that holds some of `n` bytes is poisoned. -/
def poisonHit (poison : BitVec 4) (off n : Nat) : Bool :=
  (List.range 4).any fun i => poison.getLsbD i && decide (32 * i < off + n) && decide (off < 32 * i + 32)

/-- A load by a core of tile `t` through the first-level cache and the slice (R134, R91); `bypass` is a read of an ordered
body, which goes to the slice, after the tile's copy of the line has been written back and dropped (R237, R266). The answer is
the bytes and whether a poisoned sector was delivered. Outside the domain of a page of SCOPE 0 to 3, where the device chooses
the store that each byte comes from (R101), the caches' state decides (DESIGN CHOICE, log 87). -/
def loadBytes (t : Nat) (l : Loc) (n : Nat) (bypass : Bool) (s : State) : VWord × Bool × State :=
  if !l.c then
    let s := if s.latent.isEmpty then s else sense (ownerVf s l.asid) (ErrAt.inDram l.key) s
    let (hit, s) := crossing (ownerVf s l.asid) (dieOfTile t) l.key s
    (memGet s l.key n, hit || poisonHit (poisonOf s l.key) (l.key % 128) n, s)
  else
    let s := if bypass then
        senseSlice (dieOfTile t) l.asid l.vline
          (fillSlice (dieOfTile t) l (dropL1 t l.asid l.vline s))
      else
        let s := fillL1 t l s
        if s.latent.isEmpty then s else sense (ownerVf s l.asid) (ErrAt.inL1 t l.asid l.vline) s
    let line := if bypass then findLine (s.die (dieOfTile t)).lines l.asid l.vline
                else (findLine (s.tile t).l1 l.asid l.vline).orElse
                  fun _ => findLine (s.die (dieOfTile t)).lines l.asid l.vline
    match line with
    | some x => (lineGet x.data l.off n, poisonHit x.poison l.off n, s)
    | none => (memGet s l.key n, false, s)

/-- A read at the home slice (R90). -/
def homeGet (s : State) (l : Loc) (n : Nat) : VWord :=
  if l.c then lineGet (homeLine s l.asid l.vline l.key).1 l.off n else memGet s l.key n
def homePoison (s : State) (l : Loc) (n : Nat) : Bool :=
  if l.c then poisonHit (homeLine s l.asid l.vline l.key).2 l.off n else poisonHit (poisonOf s l.key) (l.key % 128) n
def homeGetWord (s : State) (l : Loc) : Word := (homeGet s l 8).truncate 64

/-! ## Stores -/

/-- Whether a range of bytes touches a 64 KiB page. -/
def rangeTouches (base len : Word) (page : Nat) : Bool :=
  decide (0 < len.toNat) && decide (base.toNat / 65536 ≤ page) && decide (page ≤ (base.toNat + len.toNat - 1) / 65536)

/-- Invalidate every reuse entry of an ASID whose ranges touch a page, and mark the pure tasks whose argument ranges do
(R270). -/
def watchWrite (asid : BitVec 16) (page : Nat) (s : State) : State :=
  let hit (ws : List Word) : Bool :=
    (ws.getD 0 0).getLsbD 0 && decide ((ws.getD 0 0).extractLsb' 48 16 = asid)
      && (rangeTouches (ws.getD 3 0) (ws.getD 4 0) page || rangeTouches (ws.getD 5 0) (ws.getD 6 0) page)
  let s := (List.range 4).foldl (fun s d => s.modDie d fun x => { x with reuse := x.reuse.map fun (k, e) =>
    (k, if hit e.words then { e with words := setNth e.words 0 ((e.words.getD 0 0) &&& ~~~1#64) } else e) }) s
  { s with tasks := s.tasks.map fun (k, t) =>
      let arg := fun i => t.words.getD (26 + i) 0
      (k, if t.asid = asid && (rangeTouches (arg 0) (arg 1) page || rangeTouches (arg 2) (arg 3) page)
          then { t with watched := true } else t) }

/-- The effects of R270 before a write to a watched page. -/
def watchIf (l : Loc) (s : State) : State := if l.watch then watchWrite l.asid (l.va / 65536) s else s

/-- Write bytes into the slice of die `d` (R134). -/
def slicePut (d : Nat) (l : Loc) (n : Nat) (v : VWord) (s : State) : State :=
  let s := fillSlice d l s
  s.modDie d fun x => x.modLine l.asid l.vline fun y => y.put l.off n v

/-- What a tile finds at a location now, without a change of the caches. -/
def peekBytes (s : State) (t : Nat) (l : Loc) (n : Nat) : VWord :=
  if !l.c then memGet s l.key n
  else match (findLine (s.tile t).l1 l.asid l.vline).orElse fun _ => findLine (s.die (dieOfTile t)).lines l.asid l.vline with
    | some x => lineGet x.data l.off n
    | none => lineGet (homeLine s l.asid l.vline l.key).1 l.off n
/-- Bytes that are about to be written, for the constant reads that may still return them (R159). -/
def keepOld (l : Loc) (n : Nat) (old : VWord) (s : State) : State :=
  if s.tasks.any fun (_, t) => t.asid == l.asid then
    { s with kpast := ((List.range n).map fun i => (l.asid, l.va + i, old.extractLsb' (8 * i) 8)) ++ s.kpast }
  else s

/-- An ordinary store of `n` bytes by a core of tile `t` (R134, R91). -/
def storeBytes (t : Nat) (l : Loc) (n : Nat) (v : VWord) (s : State) : State :=
  let s := keepOld l n (peekBytes s t l n) (watchIf l s)
  if !l.c then
    -- the sector that crosses to another die may be corrupted on the way (R322)
    let (hit, s) := crossing (ownerVf s l.asid) (dieOfTile t) l.key (memPut l.key n v s)
    if hit then poisonAt { place := .dram (l.key / 32), bad := true } s else s
  else
    match findLine (s.tile t).l1 l.asid l.vline with
    | some x =>
      if x.w then s.modTile t fun y => y.putL1 (x.put l.off n v)
      else slicePut (dieOfTile t) l n v (dropL1 t l.asid l.vline s)
    | none => slicePut (dieOfTile t) l n v s

/-- A write at the home slice (R90). -/
def homePut (l : Loc) (n : Nat) (v : VWord) (s : State) : State :=
  let s := keepOld l n (homeGet s l n) (watchIf l s)
  if !l.c then memPut l.key n v s
  else homeMerge l.asid l.vline l.key (linePut 0 l.off n v) (dirtyPut 0 l.off n) 0 s
def homePutWord (l : Loc) (v : Word) (s : State) : State := homePut l 8 (v.zeroExtend 512) s

/-- Before a home-word operation is performed, the issuing tile's and die's copies of its line are written back and dropped
(R234). -/
def toHome (t : Nat) (l : Loc) (s : State) : State :=
  if !l.c then (if s.latent.isEmpty then s else sense (ownerVf s l.asid) (ErrAt.inDram l.key) s)
  else
    let s := senseHome l.asid l.vline l.key (dropL1 t l.asid l.vline s)
    if dieOfTile t = homeDie l.key && !isRemote l.key then s else dropSliceLine (dieOfTile t) l.asid l.vline s

/-- Full and empty of the word that holds a byte (R88). -/
def feFull (s : State) (key : Nat) : Bool := s.full.isFull key
/-- Every LDFF that waits on a word takes the value that has filled it (R142). -/
def latchFull (key : Nat) (s : State) : State :=
  { s with slots := s.slots.map fun (n, sl) => (n, match sl.awai with
      | .fullKeep l =>
        if l.key / 8 = key / 8 then { sl with awai := .none, ffGot := some (sl.ar.pos, homeGetWord s l) } else sl
      | _ => sl) }
/-- Set a word full, once its value is in place, or empty (R88, R142). -/
def setFE (key : Nat) (b : Bool) (s : State) : State :=
  if b then latchFull key { s with full := s.full.setFull key } else { s with full := s.full.setEmpty key }

/-- Remove every copy of a line held in first-level caches and slices, after writing it back, before a copy or collective
writes it at its home (R235). -/
def dropCopies (asid : BitVec 16) (vline : Nat) (s : State) : State :=
  let s := s.tiles.foldl (fun acc t => dropL1 t.1 asid vline acc) s
  s.dies.foldl (fun acc d => match findLine (acc.die d.1).lines asid vline with
    | some l => if d.1 = homeDie l.key && !isRemote l.key then acc else dropSliceLine d.1 asid vline acc
    | none => acc) s

/-! ## Release and acquire (R230, R235) -/

/-- The valid entries of a VF's binding table (R230), none while `BTBASE.EN` is 0. Only listed bytes can make an entry
valid. -/
def bindings (s : State) (vf : Nat) : Binds :=
  let base := (s.pkg.btbase &&& 0xFFFFFFFE0000#64).toNat + 131072 * vf
  if !s.pkg.btbase.getLsbD 0 then []
  else s.mem.filterMap fun (a, b) =>
    if base ≤ a && decide (a < base + 131072) && (a - base) % 32 == 0 && b.getLsbD 0 then
      some ((a - base) / 32, 128 * ((memWord s a).extractLsb' 7 48).toNat, ((memWord s (a + 8)).extractLsb' 0 37).toNat,
        8 * ((memWord s (a + 16)).extractLsb' 3 52).toNat)
    else none

/-- Whether a line holds a byte that is bound to a word. -/
def boundLine (bs : Binds) (w vline : Nat) : Bool :=
  bs.any fun (_, base, len, word) => word == w && decide (base < 128 * vline + 128) && decide (128 * vline < base + len)
/-- Whether a byte is bound to a word. -/
def boundByte (bs : Binds) (w va : Nat) : Bool :=
  bs.any fun (_, base, len, word) => word == w && decide (base ≤ va) && decide (va < base + len)

/-- The lines that a release or an acquire of `w` concerns, of those whose scope is at least `lo`. -/
def boundLines (ls : List Line) (asid : BitVec 16) (bs : Binds) (w lo : Nat) : List Line :=
  ls.filter fun l => l.asid == asid && decide (lo ≤ l.scope.toNat) && boundLine bs w l.vline

/-- Step 2 of a release on the word at `w` by a slot of tile `t`, under the bindings that it found (R231, R235). -/
def releaseWord (bs : Binds) (t : Nat) (asid : BitVec 16) (w : Nat) (s : State) : State :=
  let d := dieOfTile t
  let s := (boundLines (s.tile t).l1 asid bs w 3).foldl (fun acc l => cleanL1 t l.asid l.vline acc) s
  (boundLines (s.die d).lines asid bs w 5).foldl (fun acc l =>
    if d = homeDie l.key && !isRemote l.key then acc else dropSliceLine d l.asid l.vline acc) s

/-- What an acquire of the word at `w` discards for tile `t` and its die, under the bindings that it found (R231, R235). -/
def acquireWord (bs : Binds) (t : Nat) (asid : BitVec 16) (w : Nat) (s : State) : State :=
  let d := dieOfTile t
  let s := (boundLines (s.tile t).l1 asid bs w 3).foldl (fun acc l => dropL1 t l.asid l.vline acc) s
  (boundLines (s.die d).lines asid bs w 5).foldl (fun acc l => dropSliceLine d l.asid l.vline acc) s

end Sys2Proof.Machine
end

