-- ==== Sys2Proof/Machine/Mesh.lean ====
section
/-! DEFINITION. Fenced and dead tiles, and the routes of a die's mesh (07_tile_array.md R129, 17_reliability_start.md R340 to
R343). -/
namespace Sys2Proof.Machine

/-! ## Fences (R340, R341, R343) -/

/-- A containment rectangle holds a tile (R340). -/
def CtRect.covers (r : CtRect) (t : Nat) : Bool :=
  r.valid && decide (r.x0.toNat ≤ tileX t) && decide (tileX t ≤ r.x1.toNat) && decide (r.y0.toNat ≤ tileY t)
    && decide (tileY t ≤ r.y1.toNat)
/-- The number of the rectangle that holds a tile: 16 * die + k for `CTRECTk`, 64 + tile for a tile in no rectangle. -/
def rectOf (s : State) (t : Nat) : Nat :=
  let d := dieOfTile t
  match ((List.range 16).zip (s.die d).ctrects.toList).find? (fun (_, r) => r.covers t) with
  | some (k, _) => 16 * d + k
  | none => 64 + t
/-- The tile lies in a fenced containment rectangle, or it is dead: traffic to it is answered as R341 says (R341, R343). -/
def tileFenced (s : State) (t : Nat) : Bool :=
  let d := s.die (dieOfTile t)
  (s.tile t).dead || d.tileFence.contains t || d.ctrects.toList.any fun r => r.fenced && r.covers t

/-! ## West-first routes (R342, R343) -/

/-- The router next to one by a port: 0 north, 1 east, 2 south, 3 west. -/
def nextRouter (t : Nat) (port : BitVec 3) : Option Nat :=
  match port.toNat with
  | 0 => if tileY t = 0 then none else some (t - 16)
  | 1 => if tileX t = 15 then none else some (t + 1)
  | 2 => if tileY t = 11 then none else some (t + 16)
  | 3 => if tileX t = 0 then none else some (t - 1)
  | _ => none

/-- The rows of a column in which a router is alive; `dead` lists tiles of the die. -/
def aliveCol (dead : List Nat) (x : Nat) : BitVec 12 :=
  BitVec.ofNat 12 ((List.range 12).foldl (fun acc y => if dead.contains (16 * y + x) then acc else acc + 2 ^ y) 0)
/-- The rows of a column, among those in `a`, that lie at most k vertical hops from a row of `e`. -/
def spread (a e : BitVec 12) : Nat → BitVec 12
  | 0 => e &&& a
  | k + 1 => let r := spread a e k; (r ||| (r <<< 1) ||| (r >>> 1)) &&& a
/-- The rows of column x from which tile u of the die can be reached without a westward hop; k counts columns up to u's. -/
def eastReach (dead : List Nat) (u x : Nat) : Nat → BitVec 12
  | 0 => spread (aliveCol dead x) (1#12 <<< (u / 16)) 12
  | k + 1 => spread (aliveCol dead x) (eastReach dead u (x + 1) k) 12
/-- The rows of column x in which a route to tile u leaves the column, or has arrived. -/
def exitRows (dead : List Nat) (u x : Nat) : BitVec 12 :=
  if u % 16 ≤ x then 1#12 <<< (u / 16) else eastReach dead u (x + 1) (u % 16 - x - 1)
/-- Entry u of the table of router r of a die, as Dwedar computes it: a west-first route that avoids the dead routers (R342, R343).
Which of several it takes is not stated: east as soon as it may, else towards the nearest row that leads on, and west only where no other
hop does (DEDUCED, log 72). -/
def westFirst (dead : List Nat) (r u : Nat) : BitVec 3 :=
  let x := r % 16
  let y := r / 16
  let a := aliveCol dead x
  let e := exitRows dead u x
  if r = u then 4
  else if u % 16 < x ∨ !(spread a e 12).getLsbD y then 3
  else if e.getLsbD y && decide (x < u % 16) then 1
  else
    match (List.range 13).find? fun k => (spread a e k).getLsbD y with
    | some (k + 1) => if decide (0 < y) && (spread a e k).getLsbD (y - 1) then 0 else 2
    | _ => if y < u / 16 then 2 else 0

/-- Entry u of a router's table: what has been written there, or what Dwedar has put in for the die. -/
def routeEntry (s : State) (t u : Nat) : BitVec 3 :=
  match (s.tile t).rtent.get? u with
  | some p => p
  | none => match (s.die (dieOfTile t)).routes with
    | some dead => westFirst dead (tileOnDie t) u
    | none => 0
/-- The dead routers of a die, by their number on it. -/
def deadOn (s : State) (d : Nat) : List Nat := (s.tiles.filter fun (t, x) => x.dead && dieOfTile t == d).map fun (t, _) => tileOnDie t
/-- The route from a router to tile u meets a dead one within k hops. -/
def routeDead (s : State) (u : Nat) : Nat → Nat → Bool
  | 0, t => (s.tile t).dead
  | k + 1, t => (s.tile t).dead || (tileOnDie t != u && match nextRouter t (routeEntry s t u) with
      | some n => routeDead s u k n
      | none => false)
/-- Traffic from one tile to another of its die goes through a dead router: it receives a negative acknowledgement (R343). -/
def meshCut (s : State) (a t : Nat) : Bool :=
  dieOfTile a == dieOfTile t && a != t && !(deadOn s (dieOfTile a)).isEmpty && routeDead s (tileOnDie t) 192 a
/-- Traffic of tile `a` to tile `t` is answered with a negative acknowledgement (R341, R343). -/
def tileLost (s : State) (a t : Nat) : Bool := tileFenced s t || meshCut s a t

/-! ## Slices (R129, R341) -/

/-- The tile whose router serves slice `i` of a die. The manual does not place the slices on the mesh: it is free (log 47). -/
def sliceTile (d i : Nat) : Nat := 192 * d + Config.sliceAt i % 192
/-- No tile of a die is dead or fenced, so that no slice of it is lost, wherever it lies. -/
def calm (s : State) (d : Nat) : Bool :=
  (deadOn s d).isEmpty && (s.die d).tileFence.isEmpty && (s.die d).ctrects.toList.all fun r => !r.fenced
/-- The slice that serves an address for a tile lies in a fenced rectangle, or behind a dead router (R129, R343). -/
def sliceCut (s : State) (t va : Nat) : Bool :=
  !calm s (dieOfTile t) && tileLost s t (sliceTile (dieOfTile t) (sliceOf va))
/-- The home slice of an address, on another die than the requester's, lies in a fenced rectangle. -/
def homeSliceCut (s : State) (d : Nat) (l : Loc) : Bool :=
  !isRemote l.key && homeDie l.key != d && !calm s (homeDie l.key) && tileFenced s (sliceTile (homeDie l.key) (sliceOf l.va))

/-- The tile of a register that a tile holds. -/
def RegId.tile : RegId → Option Nat
  | .bmode t _ | .bgkey t _ | .bgmask t _ | .l1ctl t | .rtent t _ => some t
  | .preq c => some (tileOfCore c)
  | .slotstat n => some (tileOfSlot n)
  | _ => none
/-- An access by tile `t` of a register finds the register's tile fenced (R129). -/
def regCut (s : State) (t pa : Nat) : Bool := (((regAt pa).bind RegId.tile).map (tileLost s t)).getD false

end Sys2Proof.Machine
end

