-- ==== Sys2Proof/Machine/Vaults.lean ====
section
/-! DEFINITION. Vault entries: the current function, pins and eviction (14_digest_code.md R274 to R276, 09_scalar_instructions.md
R184). -/
namespace Sys2Proof.Machine

def cfhSlot (w : Word) : Nat := (w.extractLsb' 0 6).toNat
def cfhSerial (w : Word) : BitVec 32 := w.extractLsb' 32 32
def cfhWord (slot : Nat) (serial : BitVec 32) : Word := BitVec.ofNat 64 (slot % 64) ||| (serial.zeroExtend 64 <<< 32)
def clusterOfSlot (n : Nat) : Nat := clusterOfTile (tileOfSlot n)

/-- An entry is the one that a handle names, for a VF. -/
def VaultEntry.named (e : VaultEntry) (vf : Nat) (slot : Nat) (serial : BitVec 32) : Bool :=
  e.vf == vf && e.slot == slot && e.serial == serial
/-- The entry of the slot's current function. -/
def currentEntry (s : State) (n : Nat) : Option VaultEntry :=
  (s.vault (clusterOfSlot n)).entries.find? fun e =>
    e.named (s.vfOf n) (cfhSlot (s.slot n).sys.cfh) (cfhSerial (s.slot n).sys.cfh)

/-- A slot has taken a code fault at a call: it waits for the fetch, or for the reply to the fault's entry (R286), or is about to run
the call again, which it has kept. -/
def callWaits (s : State) (n : Nat) : Bool :=
  (s.slot n).held.isSome || (s.vault (clusterOfSlot n)).fetches.any fun f => f.waiters.any fun w => w.slot == n && w.why == .call

/-- An entry is pinned while it is the current function of a bound slot of the cluster; a slot whose call waits for its
code does not pin its own (R275). -/
def pinned (s : State) (c : Nat) (e : VaultEntry) : Bool :=
  s.slots.any fun (n, sl) =>
    sl.bound && clusterOfSlot n == c && e.named (s.vfOf n) (cfhSlot sl.sys.cfh) (cfhSerial sl.sys.cfh) && !callWaits s n

/-- A line holds some of an entry's native code. -/
def codeLine (e : VaultEntry) (vline : Nat) : Bool :=
  decide (e.code < 128 * vline + 128) && decide (128 * vline < e.code + e.codelen)
/-- Drop an entry, with its lines in the instruction caches of the cluster's cores (R184, R275). -/
def evictEntry (c : Nat) (e : VaultEntry) (s : State) : State :=
  let s := s.modVault c fun v => { v with entries := dropAll v.entries (fun x => x.slot == e.slot) }
  let s := { s with latent := dropAll s.latent fun x => ErrAt.inVault c e.slot x.place }
  { s with cores := s.cores.map fun (k, x) =>
      (k, if clusterOfTile (tileOfCore k) = c then
            { x with icache := dropAll x.icache (fun l => codeLine e l.vline), ifills := dropAll x.ifills (fun l => codeLine e l.vline) }
          else x) }

/-- Entries in slots at or above `VLIM.N` go as soon as they are unpinned (R275). -/
def trimVault (c : Nat) (s : State) : State :=
  (s.vault c).entries.foldl (fun acc e =>
    if (acc.vault c).vlim.toNat ≤ e.slot && !pinned acc c e then evictEntry c e acc else acc) s

/-- 512 KiB in units of 1 KiB. -/
def vaultUnits : Nat := 512

/-- The unpinned entry that was used least recently. -/
def oldestUnpinned (s : State) (c : Nat) : Option VaultEntry :=
  ((s.vault c).entries.filter fun e => !pinned s c e).foldl (fun acc e => match acc with
    | none => some e
    | some x => if e.used < x.used then some e else some x) none

/-- Evict until a slot number below `VLIM.N` and `units` are free: the lowest free number, or nothing while every
candidate is pinned (R275). -/
def makeRoom (c units : Nat) : Nat → State → Option Nat × State
  | 0, s => (none, s)
  | n + 1, s =>
    let v := s.vault c
    let used : Nat := v.entries.foldl (fun acc e => acc + e.units) 0
    match (List.range v.vlim.toNat).find? fun k => !v.entries.any fun e => e.slot == k with
    | some k =>
      if used + units ≤ vaultUnits then (some k, s)
      else match oldestUnpinned s c with
        | some e => makeRoom c units n (evictEntry c e s)
        | none => (none, s)
    | none =>
      match oldestUnpinned s c with
      | some e => makeRoom c units n (evictEntry c e s)
      | none => (none, s)

end Sys2Proof.Machine
end

