-- ==== Sys2Proof/Machine/TaskCore.lean ====
section
/-! DEFINITION. What ends, discards and re-queues a task, and the release of its slots and grants (02_idioms.md R37,
06_copy_engines.md R111, R118, 07_tile_array.md R126, R127, 13_tasks_scheduling.md R250, R263, R266). -/
namespace Sys2Proof.Machine

/-! ## Fields of a launch record (R250) -/

def recWord (ws : List Word) (k : Nat) : Word := ws.getD k 0
def recKind (ws : List Word) : Nat := ((recWord ws 0).extractLsb' 0 2).toNat
def recPure (ws : List Word) : Bool := (recWord ws 0).getLsbD 2
def recOrd (ws : List Word) : Bool := (recWord ws 0).getLsbD 3
def recRed (ws : List Word) : Bool := (recWord ws 0).getLsbD 4
def recGang (ws : List Word) : Bool := (recWord ws 0).getLsbD 5
def recNm (ws : List Word) : Bool := (recWord ws 0).getLsbD 6
def recExh (ws : List Word) : Bool := (recWord ws 0).getLsbD 7
def recQid (ws : List Word) : Nat := ((recWord ws 0).extractLsb' 8 10).toNat
def recGroup (ws : List Word) : BitVec 16 := (recWord ws 0).extractLsb' 20 16
def recNS (ws : List Word) : Nat := ((recWord ws 0).extractLsb' 36 6).toNat
def recNF (ws : List Word) : Nat := ((recWord ws 0).extractLsb' 42 6).toNat
def recNE (ws : List Word) : Nat := ((recWord ws 0).extractLsb' 48 6).toNat
def recBanks (ws : List Word) : Nat := recNS ws + recNF ws + recNE ws
def recTs (ws : List Word) : Word := recWord ws 1
def recCyclim (ws : List Word) : BitVec 32 := (recWord ws 2).extractLsb' 0 32
def recExt (ws : List Word) (k : Nat) : Nat :=
  match k with
  | 0 => ((recWord ws 3).extractLsb' 0 4).toNat
  | 1 => ((recWord ws 3).extractLsb' 4 4).toNat
  | 2 => ((recWord ws 3).extractLsb' 8 4).toNat
  | 3 => ((recWord ws 3).extractLsb' 12 4).toNat
  | _ => ((recWord ws 3).extractLsb' 16 2).toNat
def recSeq (ws : List Word) : Word := recWord ws 4
def recDone (ws : List Word) : Word := recWord ws 5
def recArg (ws : List Word) (k : Nat) : Word := recWord ws (26 + k)
/-- The number of instances of a launch (R251). -/
def recInstances (ws : List Word) : Nat :=
  (recExt ws 0 + 1) * (recExt ws 2 + 1) * (recExt ws 3 + 1) * (recExt ws 4 + 1)

/-- The rank order of R251: by timestamp, sequence number and instance index. -/
def rankBefore (a : List Word) (i : Nat) (b : List Word) (j : Nat) : Bool :=
  let x := ((recTs a).toNat, (recSeq a).toNat, i)
  let y := ((recTs b).toNat, (recSeq b).toNat, j)
  decide (x.1 < y.1) || (decide (x.1 = y.1) && (decide (x.2.1 < y.2.1) || (decide (x.2.1 = y.2.1) && decide (x.2.2 < y.2.2))))
def Task.before (a b : Task) : Bool := rankBefore a.words a.inst b.words b.inst

/-! ## Copy channels (R111, R117, R118) -/

/-- The status word of a completion record (R117). -/
def statusWord (code whr done : Nat) : Word := BitVec.ofNat 64 (code + 16 * whr + 256 * (done % 2 ^ 32))
def chanOf (s : State) (t c : Nat) : Channel := (s.tile t).chans.toArray.getD c Channel.reset
def Tile.modChan (c : Nat) (f : Channel → Channel) (t : Tile) : Tile :=
  { t with chans := t.chans.set! c (f (t.chans.toArray.getD c Channel.reset)) }

/-- CI of word 2 (R107). -/
def Transfer.ci (x : Transfer) : Bool := x.w2.getLsbD 39
/-- The completion record of a transfer goes to its slot if it asked for an interrupt, the slot is still bound to the task
and the transfer was not discarded (R117, R118). -/
def deliverRecord (c : Nat) (x : Transfer) (s : State) : State :=
  let st := x.ended.getD 0
  if x.ci && st.extractLsb' 0 4 != 9#4 && (s.slot x.slot).bound && (s.slot x.slot).task == x.task then
    s.modSlot x.slot fun sl => { sl with done := sl.done ++ [{ ch := c, id := x.id, ts := x.ts, status := st }] }
  else s

/-- `CDONEc` advances past every contiguous transfer that has ended, with its record, unless the channel is paused on an
earlier one (R111, R119). The work list bounds it: a channel has at most sixteen transfers. -/
def chanAdvance (t c : Nat) : Nat → State → State
  | 0, s => s
  | n + 1, s =>
    let ch := chanOf s t c
    match ch.exec.find? (fun x => x.id == ch.cdone && x.ended.isSome) with
    | none => s
    | some x =>
      let code := (x.ended.getD 0).extractLsb' 0 4
      let s := s.modTile t (Tile.modChan c fun y => { y with
        exec := dropAll y.exec (fun z => z.id == x.id), cdone := y.cdone + 1,
        lasterr := if code = 0#4 then y.lasterr else code })
      chanAdvance t c n (deliverRecord c x s)

/-- A channel is paused while a transfer of it waits on a fault (R119). -/
def Channel.pause (y : Channel) : Channel := { y with paused := y.exec.any fun z => z.fault.isSome }
/-- End a transfer with a status, be it one that waits on a fault; `CDONEc` advances if it may (R111, R119). -/
def endTransfer (t c : Nat) (id : BitVec 32) (status : Word) (s : State) : State :=
  let s := s.modTile t (Tile.modChan c fun y =>
    Channel.pause { y with exec := modFirst y.exec (fun z => z.id == id) fun z => { z with ended := some status, held := false, fault := none } })
  chanAdvance t c 17 s

/-- Every held transfer of a task completes at once with status 9 (R118). A held transfer that still waits in the FIFO
takes its place first. -/
def dropHeld (task t c : Nat) (s : State) : State :=
  let s := s.modTile t (Tile.modChan c fun y => { y with
    fifo := y.fifo.map (fun z => if z.held && z.task == task then { z with ended := some (statusWord 9 0 0), held := false } else z),
    exec := y.exec.map (fun z => if z.held && z.task == task then { z with ended := some (statusWord 9 0 0), held := false } else z) })
  chanAdvance t c 17 s

/-! ## Grants (R125 to R127) -/

/-- Whether a task counts as bound for a grant: bound or saved, and it asked for banks (R126). -/
def Task.holdsGrant (x : Task) (t vf : Nat) (group : BitVec 16) : Bool :=
  x.tile == t && x.vf == vf && recGroup x.words == group && recBanks x.words != 0
/-- The valid grant of a (VF, GROUP) on a tile (R126). -/
def grantOf (tl : Tile) (vf : Nat) (group : BitVec 16) : Option (Nat × Grant) :=
  ((List.range 8).zip tl.grants.toList).find? fun (_, g) => g.valid && g.vf.toNat == vf && g.group == group
/-- The banks of a mask in ascending order. -/
def maskBanks (mask : BitVec 40) : List Nat := (List.range 40).filter fun b => mask.getLsbD b
def bankMode (tl : Tile) (b : Nat) : BitVec 2 := tl.modes.toArray.getD b 0

/-- A grant with no bound task of its group is released, and its banks begin their return to CACHE (R126, R127). VALID clears, and
VF, GROUP and the mask stay as they were (DESIGN CHOICE, log 125). -/
def releaseGrant (t vf : Nat) (group : BitVec 16) (s : State) : State :=
  if s.tasks.any (fun (_, x) => x.holdsGrant t vf group) then s
  else
    match grantOf (s.tile t) vf group with
    | none => s
    | some (k, g) => s.modTile t fun tl => { tl with
        grants := tl.grants.set! k { g with valid := false },
        toMode := dropAll tl.toMode (fun x => g.mask.getLsbD x.1) ++ (maskBanks g.mask).map fun b => (b, 0#2) }

/-! ## Slots -/

/-- The requester is the slot: an access, a demand fetch or a constant read of it. -/
def Requester.ofSlot (n : Nat) (r : Requester) : Bool := r == .slot n || r == .code n || r == .const n
/-- A slot abandons what its halves have asked the slices for: each asks anew when it comes there again (R302, R369). -/
def forgetAsks (n : Nat) (s : State) : State :=
  s.modDie (dieOfSlot n) fun d => { d with
    reports := dropAll d.reports (fun r => r.req.ofSlot n),
    misses := d.misses.map fun m => { m with waiters := dropAll m.waiters (Requester.ofSlot n) } }
/-- A slot no longer waits its turn for a semaphore or a FIFO bank, or for a translation. -/
def leaveQueues (n : Nat) (s : State) : State :=
  let s := forgetAsks n s
  let s := s.modTile (tileOfSlot n) fun t => { t with semWait := dropAll t.semWait (fun w => w.2 == n) }
  { s with tiles := s.tiles.map fun (k, t) => (k, { t with fifoWait := dropAll t.fifoWait (fun w => w.slot == n) }) }

/-- A slot is unbound: its receiving buffers are emptied and it waits for nothing (R153, R157). -/
def releaseSlot (n : Nat) (s : State) : State :=
  -- a post that the slot holds is neither made nor dropped (R303): the dispatcher goes on holding it
  let s : State := match (s.slot n).post with
    | some p => s.modDie (dieOfSlot n) fun x => { x with posts := x.posts ++ [{ posting := p.posting, done := none }] }
    | none => s
  let s := s.modSlot n fun sl => { sl with
    bound := false, super := false, inUi := false, uiHold := false, awai := .none, xwai := .none,
    ports := Vector.replicate 4 [], loads := [], stores := [], ckpts := [], done := [], bcDue := [], bcKeys := [], semDue := none, scDue := none,
    scout := none, post := none, held := none, ffGot := none }
  let s : State := { s with remotes := s.remotes.map fun r => if r.req.ofSlot n then { r with req := .nobody } else r }
  let s := s.modVault (clusterOfTile (tileOfSlot n)) fun v => { v with
    fetches := v.fetches.map fun f => { f with waiters := dropAll f.waiters (fun w => w.slot == n) } }
  let s := trimVault (clusterOfTile (tileOfSlot n)) s
  leaveQueues n s

/-- The SCRATCH, FIFO and engine state that a tile task leaves is discarded with its semaphore counts (R161). -/
def clearSems (t : Nat) (s : State) : State :=
  s.modTile t fun tl => { tl with sems := Vector.replicate 32 { count := 0, ts := 0 } }

/-- A slot of the task has issued an engine or conversion-unit operation that is not complete: pre-emption waits (R199, R210). -/
def unitBusy (s : State) (x : Task) : Bool :=
  x.slots.any fun n => [(s.slot n).awai, (s.slot n).xwai].any fun w => w == .engine || w == .conversion
/-- How many ordered, uncommitted tasks a list of placed tasks holds: the two copies of a redundant task are one (R256, R259,
R272). -/
def orderedTasks (ts : SMap Task) : Nat :=
  (ts.filter fun (id, t) => recOrd t.words && !t.committed
    && !(t.twin.any fun u => decide (u < id) && ts.any fun x => x.1 == u)).length
/-- A supervisor handler holds every event, and a completion handler to which it returns those that it held (R297). -/
def holdsEvents (sl : Slot) : Bool := sl.super || (sl.inUi && sl.uiHold)

/-- The task leaves its tile: its slots, its grant, and for a tile task the semaphores. -/
def removeTask (id : Nat) (x : Task) (s : State) : State :=
  let s := x.slots.foldl (fun acc n => releaseSlot n acc) s
  let s := { s with tasks := s.tasks.erase id, rings := dropAll s.rings fun r => r.task == id }
  let s := if recKind x.words = 3 then clearSems x.tile s else s
  if recBanks x.words = 0 then s else releaseGrant x.tile x.vf (recGroup x.words) s

/-! ## Queues (R253, R256, R263) -/

/-- Put an instance of a record back in its queue, in SEQ order (R263). -/
def requeueIn (recs : List QRec) (words : List Word) (inst misses : Nat) (exh : Bool) (spawner : Option Nat) : List QRec :=
  let flag : List Nat := if exh then [inst] else []
  if recs.any (fun r => recSeq r.words == recSeq words) then
    modFirst recs (fun r => recSeq r.words == recSeq words) fun r => { r with
      insts := (r.insts.takeWhile (· < inst)) ++ inst :: (r.insts.dropWhile (· < inst)),
      exh := flag ++ dropAll r.exh (fun j => j == inst), misses := max r.misses misses }
  else
    recs.takeWhile (fun r => decide ((recSeq r.words).toNat < (recSeq words).toNat))
      ++ { words := words, insts := [inst], exh := flag, spawner := spawner, misses := misses }
        :: recs.dropWhile (fun r => decide ((recSeq r.words).toNat < (recSeq words).toNat))

/-- A record's EXH flag (R132), which an instance of a launch holds on its own. -/
def setExh (words : List Word) (exh : Bool) : List Word :=
  if exh then words.set 0 (recWord words 0 ||| 0x80#64) else words
def clearExh (words : List Word) : List Word := words.set 0 (recWord words 0 &&& ~~~0x80#64)
/-- The record of one instance that waits in a queue. -/
def QRec.wordsOf (r : QRec) (i : Nat) : List Word := setExh r.words (r.exh.contains i)

/-- The dependants of a task are dropped from every queue (R263); none of them has been placed, so they have no dependants
of their own. -/
def dropDependants (id : Nat) (s : State) : State :=
  { s with queues := s.queues.map fun (q, x) => (q, { x with recs := dropAll x.recs (fun r => r.spawner == some id) }) }

/-- The spawner of a record commits or ends: its dependants may be placed (R263). -/
def freeDependants (id : Nat) (s : State) : State :=
  { s with queues := s.queues.map fun (q, x) => (q, { x with
      recs := x.recs.map fun r => if r.spawner == some id then { r with spawner := none } else r }) }

/-- The channels of a role's core and tile, all eight. -/
def channels : List Nat := List.range 8

/-- A body is discarded: its escrow and held copies are dropped, its dependants are discarded, its slots are released, and
its record is re-queued or not (R37, R263). Both copies of a redundant task go together (R272). -/
def discardOne (id : Nat) (s : State) : State :=
  match s.task? id with
  | none => s
  | some x =>
    let s := channels.foldl (fun acc c => dropHeld id x.tile c acc) s
    removeTask id x (dropDependants id s)

def discardBody (id : Nat) (re exh : Bool) (misses : Nat) (s : State) : State :=
  match s.task? id with
  | none => s
  | some x =>
    let s := discardOne id s
    let s := match x.twin with | some u => discardOne u s | none => s
    if re then
      s.modQueue (recQid x.words) fun q => { q with
        recs := requeueIn q.recs (clearExh x.words) x.inst (x.misses + misses) (exh || recExh x.words) x.spawner }
    else s

/-- The tasks of the queue of `t` that rank after it, are uncommitted, and have a line recorded against them (R266 rule
2). -/
def conflicts (s : State) (id : Nat) (asid : BitVec 16) (vline : Nat) : List Nat :=
  match s.task? id with
  | none => []
  | some t =>
    if !recOrd t.words then []
    else s.tasks.filterMap fun (k, u) =>
      if k != id && recOrd u.words && recQid u.words == recQid t.words && !u.committed && t.before u
          && u.reads.any (fun r => r.2.1 == asid && r.2.2 == vline) then some k else none

/-- A write by an ordered task aborts every later-ranked reader of the line (R266 rule 2). -/
def abortReaders (id : Nat) (asid : BitVec 16) (vline : Nat) (s : State) : State :=
  (conflicts s id asid vline).foldl (fun acc k => discardBody k true false 0 acc) s

end Sys2Proof.Machine
end

