-- ==== Sys2Proof/Machine/RegRead.lean ====
section
/-! DEFINITION. What a read of each register of register space gives (05_memory_path.md R86): the fields of the registers are
those of the rules that name them (00_scope.md R9). -/
namespace Sys2Proof.Machine

/-! ## Fields -/

/-- A field of a register: its low bit and its value. -/
def fieldAt (lo v : Nat) : Word := BitVec.ofNat 64 (v * 2 ^ lo)
def bitAt (k : Nat) (b : Bool) : Word := if b then 1#64 <<< k else 0
/-- Keep bits lo to hi of a written value. -/
def keepBits (lo hi : Nat) (v : Word) : Word := v &&& BitVec.ofNat 64 (2 ^ (hi + 1) - 2 ^ lo)

/-! ## Where registers are held -/

/-- The slice of its home die whose repair way holds a sector (R106). -/
def repairSlice (addr : Nat) : Nat :=
  let x : BitVec 48 := BitVec.ofNat 48 addr
  ((x.extractLsb' 7 16) ^^^ (x.extractLsb' 23 16)).toNat % 48
def repairOf (s : State) (d i : Nat) : Repair := (s.die d).repair.get i Repair.reset
def aqPort (s : State) (n : Nat) : AqPort := s.ports.get n AqPort.reset
def ctRect (s : State) (rect : Nat) : CtRect := (s.die (rect / 16)).ctrects.toArray.getD (rect % 16) CtRect.reset

/-! ## Values that registers show -/

/-- `SLOTSTAT` (R152). -/
def slotstat (s : State) (n : Nat) : Word :=
  let sl := s.slot n
  fieldAt 0 sl.awai.cause ||| fieldAt 4 sl.xwai.cause ||| bitAt 8 (sl.bound || isWalker n) ||| bitAt 9 (sl.super || (isWalker n && decide (6 ≤ s.stage)))
/-- The sum of an error counter over every VF and the unattributable errors (R344). -/
def errSum (s : State) (f : ErrCnt → Nat) : Nat := s.errs.foldl (fun acc x => acc + f x.2) 0
def errcnt (s : State) (v : Nat) : Word :=
  if v = 1024 then
    fieldAt 0 (min (errSum s fun c => c.corr.toNat) (2 ^ 32 - 1)) ||| fieldAt 32 (min (errSum s fun c => c.uncorr.toNat) 65535)
      ||| fieldAt 48 (min (errSum s fun c => c.rmis.toNat) 65535)
  else
    let c := s.errs.get v ErrCnt.reset
    fieldAt 0 c.corr.toNat ||| fieldAt 32 c.uncorr.toNat ||| fieldAt 48 c.rmis.toNat
/-- `PQSTAT` (R256). -/
def pqstat (s : State) (n : Nat) : Word :=
  let q := s.queue n
  let infl := orderedTasks (s.tasks.filter fun (_, t) => recQid t.words == n)
  fieldAt 0 (q.recs.length % 8192) ||| fieldAt 24 ((s.die q.lastDie).deficit.get n 0 % 65536) ||| fieldAt 40 (infl % 512)
def prectWord (r : PRect) : Word :=
  fieldAt 0 r.x0.toNat ||| fieldAt 4 r.y0.toNat ||| fieldAt 8 r.x1.toNat ||| fieldAt 12 r.y1.toNat ||| bitAt 16 r.valid
def ctrectWord (r : CtRect) : Word :=
  fieldAt 0 r.x0.toNat ||| fieldAt 4 r.y0.toNat ||| fieldAt 8 r.x1.toNat ||| fieldAt 12 r.y1.toNat ||| bitAt 16 r.valid
    ||| bitAt 17 r.fenced ||| bitAt 18 r.rejoin
/-- `BMODE0` and `BMODE1` (R124). -/
def bmodeWord (tl : Tile) (k : Nat) : Word :=
  (List.range (if k = 0 then 32 else 8)).foldl (fun acc j => acc ||| fieldAt (2 * j) (bankMode tl (32 * k + j)).toNat) 0
def grantAt (tl : Tile) (g : Nat) : Grant := tl.grants.toArray.getD g { valid := false, vf := 0, group := 0, mask := 0 }
/-- The event that `BBIDX` names, word k (R346). -/
def bbWord (s : State) (k : Nat) : Word :=
  match s.blackbox[s.pkg.bbidx.toNat]? with
  | none => 0
  | some e => match k with | 0 => e.time | 1 => e.w1 | 2 => e.w2 | _ => e.w3

/-- The value of a register of register space. -/
def readReg (s : State) (r : RegId) : Word :=
  let p := s.pkg
  match r with
  | .astbase => p.astbase
  | .txcmd => p.txcmd
  | .txasid => p.txasid.zeroExtend 64
  | .txva => p.txva
  | .ownbase d => p.ownbase.toArray.getD d 0
  | .migbase d => p.migbase.toArray.getD d 0
  | .frmbase d => p.frmbase.toArray.getD d 0
  | .btbase => p.btbase
  | .pfqbase => p.pfqbase
  | .admbase => p.admbase
  | .pqbase => p.pqbase
  | .pctl n => let x := s.part n; fieldAt 0 x.vf.toNat ||| bitAt 10 x.en ||| bitAt 11 x.err
  | .prect n => prectWord (s.prect n)
  | .pqcfg n =>
    let q := s.queue n
    fieldAt 0 q.part.toNat ||| fieldAt 6 q.prio.toNat ||| fieldAt 8 q.weight.toNat ||| bitAt 16 q.ord ||| bitAt 17 q.en
  | .pqstat n => pqstat s n
  | .pwd n => let x := s.part n; bitAt 0 x.active ||| bitAt 1 x.done ||| fieldAt 2 x.expiries.toNat
  | .chva => p.chva
  | .featen => p.featen.zeroExtend 64
  | .xvmin => p.xvmin.zeroExtend 64
  | .vklbase => p.vklbase
  | .cnbr n => p.cnbr.toArray.getD n 0
  | .errcnt v => errcnt s v
  | .snapctl => bitAt 0 p.snapGo ||| bitAt 1 p.snapOnct ||| bitAt 2 p.snapDone
  | .bbidx => p.bbidx.zeroExtend 64
  | .bbdata k => bbWord s k
  | .aqtmo => p.aqtmo.zeroExtend 64
  | .dtime => p.dtime
  | .dtctl => bitAt 0 p.dtmaster
  | .dtstat => bitAt 0 p.dtlock ||| fieldAt 1 p.dtsrc.toNat ||| fieldAt 32 p.dtoffs.toNat
  | .etstat k => fieldAt 0 (p.etauth.toArray.getD k 0).toNat ||| fieldAt 32 (p.etstall.toArray.getD k 0).toNat
  | .aqctl n => bitAt 0 (aqPort s n).en
  | .aqstat n => let x := aqPort s n; fieldAt 0 x.state.toNat ||| fieldAt 16 x.crc.toNat ||| fieldAt 40 x.rpl.toNat
  | .rustbase d => (s.die d).rustbase
  | .ruidx d => (s.die d).ruidx.zeroExtend 64
  | .rudata d k => match SMap.get? (s.die d).reuse (s.die d).ruidx.toNat with | some e => e.words.getD k 0 | none => 0
  | .lmthr d => (s.die d).lmthr.zeroExtend 64
  | .lmdeg d => (s.die d).lmdeg.zeroExtend 64
  | .ctrect d k => ctrectWord (ctRect s (16 * d + k))
  | .lmctl d m => let e := linkEnd s d m; fieldAt 0 e.trate.toNat ||| bitAt 3 e.retrain ||| bitAt 5 e.err
  | .lmstat d m =>
    let e := linkEnd s d m
    fieldAt 0 e.rate.toNat ||| bitAt 3 e.half ||| fieldAt 4 e.spare.toNat ||| fieldAt 7 e.state.toNat
  | .lmcrc d m => let e := linkEnd s d m; fieldAt 0 e.crc.toNat ||| fieldAt 32 e.win.toNat
  | .lmrpl d m => fieldAt 0 (linkEnd s d m).rpl.toNat
  | .lmret d m => let e := linkEnd s d m; fieldAt 0 e.last.toNat ||| fieldAt 7 e.nret.toNat
  | .bmode t k => bmodeWord (s.tile t) k
  | .bgkey t g => let x := grantAt (s.tile t) g; fieldAt 0 x.vf.toNat ||| fieldAt 10 x.group.toNat ||| bitAt 26 x.valid
  | .bgmask t g => fieldAt 0 (grantAt (s.tile t) g).mask.toNat
  | .l1ctl t => (s.tile t).l1ctl
  | .rtent t u => (routeEntry s t u).zeroExtend 64
  | .preq c => (s.core c).preq.zeroExtend 64
  | .slotstat n => slotstat s n
  | .srpctl d i => let x := repairOf s d i; bitAt 0 x.en ||| fieldAt 1 (x.pins.length % 4096) ||| bitAt 13 x.full
  | .srpadd d i => let x := repairOf s d i; fieldAt 5 x.sect.toNat ||| bitAt 63 x.go
  | .vlim c => (s.vault c).vlim.zeroExtend 64
/-- A load of a register by a slot of a VF; device time has gone on. Of the error counters a VF reads only its own: what it finds at
those of another or of the physical function is not stated, and is free (R344; DESIGN CHOICE, log 118). -/
def loadReg (vf : Nat) (r : RegId) (s : State) : Word × State :=
  match r with
  | .dtime => let s := tickTime s; (readReg s r, s)
  | .errcnt v => if v = vf then (readReg s r, s) else let (k, s) := s.nextFree; (Config.freeWord k 0, s)
  | r => (readReg s r, s)

end Sys2Proof.Machine
end

