-- ==== Sys2Proof/Machine/Flits.lean ====
section
/-! DEFINITION. The flits of the Aqgal ports and the requests that leave the package (01_operand_journey.md R15, 16_links.md R328
to R330). -/
namespace Sys2Proof.Machine

/-! ## Flits (R328, R329) -/

def modPort (n : Nat) (f : AqPort → AqPort) (s : State) : State := { s with ports := s.ports.set n (f (s.ports.get n AqPort.reset)) }
def portUp (s : State) (n : Nat) : Bool := (aqPort s n).state == 2#2

/-- The fields of a flit of eight words. -/
def flitHead (ws : List Word) : BitVec 32 := (ws.getD 0 0).extractLsb' 0 32
def flitType (ws : List Word) : Nat := ((flitHead ws).extractLsb' 0 4).toNat
def flitSeq (ws : List Word) : BitVec 12 := (flitHead ws).extractLsb' 6 12
def flitAck (ws : List Word) : BitVec 12 := (flitHead ws).extractLsb' 18 12
def flitNak (ws : List Word) : Bool := (flitHead ws).getLsbD 30
def flitPayload (ws : List Word) : List Word := wordsOfBytes 7 ((bytesOfWords (ws.take 8)).drop 4)
def flitCrc (ws : List Word) : BitVec 32 := (ws.getD 7 0).extractLsb' 32 32
def flitGood (ws : List Word) : Bool := ws.length == 8 && crc32c ((bytesOfWords ws).take 60) == flitCrc ws
/-- A flit of a type with a payload of seven words. -/
def makeFlit (type vc : Nat) (seq ack : BitVec 12) (nak : Bool) (payload : List Word) : List Word :=
  let head := BitVec.ofNat 32 (type + 16 * vc + 64 * seq.toNat + 2 ^ 18 * ack.toNat + (if nak then 2 ^ 30 else 0))
  let body := bytesLE 4 head.toNat ++ (bytesOfWords payload).take 56
  wordsOfBytes 8 (body ++ bytesLE 4 (crc32c body).toNat)

/-- A port can take a flit: it is up, and its buffer of 1,024 unacknowledged flits has room (R329). -/
def portRoom (s : State) (n : Nat) : Bool := portUp s n && decide ((aqPort s n).unacked.length < 1024)
/-- A port sends a flit and keeps it until it is acknowledged (R329). The virtual channel is one of R326. -/
def sendFlit (n type vc : Nat) (payload : List Word) (s : State) : State :=
  modPort n (fun p =>
    let f := makeFlit type vc p.txSeq (p.rxSeq - 1) p.nak payload
    { p with txSeq := p.txSeq + 1, nak := false, unacked := p.unacked ++ [f], wire := p.wire ++ [f] }) s
/-- The flits that a port keeps are sent again (R329). -/
def AqPort.resend (p : AqPort) : AqPort := { p with wire := p.wire ++ p.unacked, rpl := satAdd p.rpl 1 }

/-! ## Paths between dies (R318, R321, R326) -/

/-- No path leads from a die to the home die of a byte: accesses are answered as those into a fenced rectangle are (R326, R341). -/
def linkCut (s : State) (d key : Nat) : Bool := !isRemote key && (linkPath s d (homeDie key) (lineHash key)).isNone
/-- An operation of a tile at the home of a location is answered as one into a fenced rectangle: no path leads there, or a slice that
serves it is fenced (R129, R326, R341). -/
def homeCut (s : State) (t : Nat) (l : Loc) : Bool :=
  linkCut s (dieOfTile t) l.key || sliceCut s t l.va || homeSliceCut s (dieOfTile t) l
/-- So is a load or an ordinary store, unless the tile's first-level cache or its die's slice holds the line and serves it. -/
def reachCut (s : State) (t : Nat) (l : Loc) : Bool :=
  !(l.c && (findLine (s.tile t).l1 l.asid l.vline).isSome)
    && (sliceCut s t l.va || (!(l.c && (findLine (s.die (dieOfTile t)).lines l.asid l.vline).isSome)
      && (linkCut s (dieOfTile t) l.key || (l.c && homeSliceCut s (dieOfTile t) l))))
/-- No path leads from a die to a tile. -/
def tileCut (s : State) (d t : Nat) : Bool := (linkPath s d (dieOfTile t) (tileOnDie t)).isNone

/-! ## Requests to other packages (R15, R330) -/

/-- A key names another package (R93), whose number it holds. -/
def keyPackage (key : Nat) : Nat := key / 2 ^ 48 - 1
/-- The port that a request for a line of another package takes, among those in STATE 2 (R330). -/
def remotePort (s : State) (key : Nat) : Option Nat :=
  pick (lineHash key ^^^ keyPackage key) ((List.range 64).filter (portUp s))

/-- A request for another package is made. What its flit carries is not given: seven free words (log 97). -/
def newRequest (req : Requester) (va key port : Nat) (s : State) : State :=
  { s with
    free := s.free + 1, nextFetch := s.nextFetch + 1,
    remotes := s.remotes ++ [{
      tag := s.nextFetch, req := req, va := va, key := key, port := port, flit := (List.range 7).map (Config.freeWord s.free),
      answered := false }] }
/-- A request leaves for another package, if it may now: not while the port set has changed and others are out, nor while its
port has no room (R329, R330). One that finds no port waits for one, or ends with its time. -/
def sendRequest (req : Requester) (va key : Nat) (s : State) : State :=
  match remotePort s key with
  | none => newRequest req va key 64 s
  | some p =>
    if s.remoteWait || !portRoom s p then s
    else sendFlit p 1 0 ((List.range 7).map (Config.freeWord s.free)) (newRequest req va key p s)
/-- The requests that have found no port go out when one is up and none is held back. -/
def sendWaiting (s : State) : State :=
  if s.remoteWait then s
  else s.remotes.foldl (fun acc r =>
    if r.port != 64 || r.answered then acc
    else match remotePort acc r.key with
      | none => acc
      | some p => sendFlit p 1 0 r.flit { acc with remotes := modFirst acc.remotes (fun x => x.tag == r.tag) fun x => { x with port := p } })
    s
/-- A request is out: it has a port and no response. -/
def RemoteReq.out (r : RemoteReq) : Bool := r.port != 64 && !r.answered

/-- An access of another package's memory waits for its response (R330): the state once it has come, or the state while it
waits. -/
def awaitRemote (req : Requester) (va key : Nat) (s : State) : Option State × State :=
  if !isRemote key then (some s, s)
  else
    match s.remotes.find? (fun r => r.req == req && r.va == va) with
    | some r => if r.answered then (some { s with remotes := dropAll s.remotes (fun x => x.tag == r.tag) }, s) else (none, s)
    | none => (none, sendRequest req va key s)

/-- The memory of another package at a line, as a response or a lost response leaves it: each byte and full/empty bit is what
this package last knew of it, or what another package's agent has made of it, which is free (log 98). -/
def otherPackage (key : Nat) (s : State) : State :=
  let (k, s) := s.nextFree
  if k % 2 = 0 then s
  else
    let base := lineKey key
    let f := s.free
    let (c, s) := s.nextFree
    let s := (List.range 128).foldl (fun acc i =>
      let w := Config.freeWord f i
      if w.getLsbD 8 then { acc with mem := Memory.setByte acc.mem (base + i) (w.truncate 8) } else acc) s
    (List.range 16).foldl (fun acc i =>
      if c / 4 ^ i % 4 = 2 then setFE (base + 8 * i) true acc else if c / 4 ^ i % 4 = 3 then setFE (base + 8 * i) false acc else acc) s

/-! ## Reports (R99, R330) -/

/-- A fault that a slice of die `d` has reported to a requester for a page, which is then taken. -/
def takeReport (d : Nat) (req : Requester) (va : Nat) (s : State) : Option Report × State :=
  match (s.die d).reports.find? (fun r => r.req == req && r.vpage == va / 65536) with
  | some r => (some r, s.modDie d fun x => { x with reports := dropAll x.reports (fun y => y == r) })
  | none => (none, s)

end Sys2Proof.Machine
end

