-- ==== Sys2Proof/Machine/Numbers.lean ====
section
/-! DEFINITION. Numbers (04_numbers.md R66 to R81): formats, exact values, the five roundings and exact arithmetic.

Every operation computes an exact value and one function rounds it into a format, so every rule of overflow, infinities and
NaN is stated once (R72, R75, R76). A result that no format holds exactly (a quotient, a root, a power, a logarithm) is
carried with more than twice the bits of any format and a last bit that says that it goes on. -/
namespace Sys2Proof
namespace Machine

/-- A number format (R66, R68 to R70). -/
inductive Fmt where
  | ieee (e m : Nat)                              -- binary32, binary16, bfloat16
  | narrow (signed : Bool) (e m : Nat) (bias : Int) -- e at least 1
  | fixed (signed : Bool) (w : Nat) (bias : Int)  -- integers and fixed point: the code times 2^(-bias)
  | e0m0 (bias : Int)
deriving DecidableEq, Repr

def Fmt.f32 : Fmt := .ieee 8 23
def Fmt.f16 : Fmt := .ieee 5 10
def Fmt.bf16 : Fmt := .ieee 8 7

/-- An exact value: m times 2^e with a sign, an infinity, or NaN. -/
inductive Val where
  | nan
  | inf (neg : Bool)
  | fin (neg : Bool) (m : Nat) (e : Int)
deriving DecidableEq, Repr

/-- Bits of a code. -/
def Fmt.width : Fmt → Nat
  | .ieee e m => 1 + e + m
  | .narrow s e m _ => (if s then 1 else 0) + e + m
  | .fixed _ w _ => w
  | .e0m0 _ => 1

/-- The value of an exponent field and a mantissa field (R68, R70). -/
def fieldValue (neg : Bool) (m : Nat) (bias : Int) (E M : Nat) : Val :=
  if E = 0 then .fin neg M (1 - bias - m) else .fin neg (2 ^ m + M) (E - bias - m)

/-- The bias of an IEEE format (R70). -/
def ieeeBias (e : Nat) : Int := 2 ^ (e - 1) - 1

/-- The value of a code under a `NANMODE` setting (R66 to R71). -/
def Fmt.decode (f : Fmt) (nm : Bool) (c : Nat) : Val :=
  match f with
  | .ieee e m =>
    let neg := c / 2 ^ (e + m) % 2 == 1
    let E := c / 2 ^ m % 2 ^ e
    let M := c % 2 ^ m
    if E = 2 ^ e - 1 then (if M = 0 then .inf neg else .nan) else fieldValue neg m (ieeeBias e) E M
  | .narrow s e m bias =>
    let neg := s && c / 2 ^ (e + m) % 2 == 1
    let E := c / 2 ^ m % 2 ^ e
    let M := c % 2 ^ m
    if nm then
      if E = 2 ^ e - 1 then (if m ≠ 0 ∧ M = 0 then .inf neg else .nan) else fieldValue neg m bias E M
    else if c % 2 ^ (e + m) = 2 ^ (e + m) - 1 then .nan else fieldValue neg m bias E M
  | .fixed s w bias =>
    let c := c % 2 ^ w
    if s && decide (2 ^ (w - 1) ≤ c) then .fin true (2 ^ w - c) (-bias) else .fin false c (-bias)
  | .e0m0 bias => .fin (c % 2 == 1) 1 (-bias)

/-- The canonical NaN (R72); NaN is 0 in an integer or fixed-point format (R76). -/
def Fmt.nanCode : Fmt → Nat
  | .ieee e m => (2 ^ e - 1) * 2 ^ m + 2 ^ (m - 1)
  | .narrow _ e m _ => 2 ^ (e + m) - 1
  | .fixed _ _ _ => 0
  | .e0m0 _ => 0

/-- Whether the format has infinity codes under a setting (R70, R71). -/
def Fmt.hasInf (f : Fmt) (nm : Bool) : Bool :=
  match f with
  | .ieee _ _ => true
  | .narrow _ _ m _ => nm && m != 0
  | _ => false

/-- The code of the largest finite magnitude (R71). -/
def Fmt.maxCode (f : Fmt) (nm : Bool) : Nat :=
  match f with
  | .ieee e m => (2 ^ e - 1) * 2 ^ m - 1
  | .narrow _ e m _ => if nm then (2 ^ e - 1) * 2 ^ m - 1 else 2 ^ (e + m) - 2
  | .fixed s w _ => if s then 2 ^ (w - 1) - 1 else 2 ^ w - 1
  | .e0m0 _ => 0

/-- The largest finite value F (R71, R75). -/
def Fmt.largest (f : Fmt) (nm : Bool) : Val := f.decode nm (f.maxCode nm)

/-! ## Exact arithmetic -/

def Val.isNan : Val → Bool | .nan => true | _ => false
def Val.isZero : Val → Bool | .fin _ 0 _ => true | _ => false
def Val.neg : Val → Val
  | .nan => .nan
  | .inf s => .inf (!s)
  | .fin s m e => .fin (!s) m e
def Val.abs : Val → Val
  | .nan => .nan
  | .inf _ => .inf false
  | .fin _ m e => .fin false m e
/-- Times a power of two. -/
def Val.scale (x : Val) (k : Int) : Val :=
  match x with
  | .fin s m e => .fin s m (e + k)
  | y => y
def Val.ofInt (n : Int) : Val := .fin (decide (n < 0)) n.natAbs 0

/-- A finite value as an integer number of units of 2^e0, for e0 at most its exponent. -/
def unitsAt (neg : Bool) (m : Nat) (e e0 : Int) : Int :=
  let n : Int := (m * 2 ^ (e - e0).toNat : Nat)
  if neg then -n else n

def Val.add : Val → Val → Val
  | .nan, _ => .nan
  | _, .nan => .nan
  | .inf a, .inf b => if a = b then .inf a else .nan
  | .inf a, _ => .inf a
  | _, .inf b => .inf b
  | .fin a m e, .fin b n f =>
    if m = 0 ∧ n = 0 then .fin (a && b) 0 0
    else
      let e0 := min e f
      let t := unitsAt a m e e0 + unitsAt b n f e0
      .fin (decide (t < 0)) t.natAbs e0

def Val.mul : Val → Val → Val
  | .nan, _ => .nan
  | _, .nan => .nan
  | .inf a, .inf b => .inf (a != b)
  | .inf a, .fin b n _ => if n = 0 then .nan else .inf (a != b)
  | .fin a m _, .inf b => if m = 0 then .nan else .inf (a != b)
  | .fin a m e, .fin b n f => .fin (a != b) (m * n) (e + f)

/-- s1 × s2 + s3 with no rounding; ∞ × 0 gives NaN whatever s3 is (R190). -/
def Val.fma (x y z : Val) : Val := (x.mul y).add z

/-- A quotient of 72 bits or more with a last bit that says whether it goes on (R190). -/
def Val.div : Val → Val → Val
  | .nan, _ => .nan
  | _, .nan => .nan
  | .inf _, .inf _ => .nan
  | .inf a, .fin b _ _ => .inf (a != b)
  | .fin a _ _, .inf b => .fin (a != b) 0 0
  | .fin a m e, .fin b n f =>
    if n = 0 then (if m = 0 then .nan else .inf (a != b))
    else if m = 0 then .fin (a != b) 0 0
    else
      let k := 72 + n.log2 - m.log2
      let q := m * 2 ^ k / n
      .fin (a != b) (2 * q + if m * 2 ^ k % n = 0 then 0 else 1) (e - f - k - 1)

/-- The integer square root, one bit at a time from bit `i - 1` down. -/
def isqrtFrom (x : Nat) : Nat → Nat → Nat
  | 0, r => r
  | i + 1, r => isqrtFrom x i (if (r + 2 ^ i) * (r + 2 ^ i) ≤ x then r + 2 ^ i else r)
def isqrt (x : Nat) : Nat := isqrtFrom x (x.log2 / 2 + 1) 0

def Val.sqrt : Val → Val
  | .nan => .nan
  | .inf s => if s then .nan else .inf false
  | .fin s m e =>
    if m = 0 then .fin s 0 0
    else if s then .nan
    else
      let k := 160 + (e % 2).toNat
      let x := m * 2 ^ k
      let r := isqrt x
      .fin false (2 * r + if r * r = x then 0 else 1) ((e - k) / 2 - 1)

/-- 1 / √x; the special operands are those of R190. -/
def Val.rsqrt : Val → Val
  | .nan => .nan
  | .inf s => if s then .nan else .fin false 0 0
  | .fin s m e =>
    if m = 0 then .inf s
    else if s then .nan
    else
      let m := if e % 2 = 0 then m else 2 * m
      let e := if e % 2 = 0 then e else e - 1
      let k := 160 + m.log2
      let r := isqrt (2 ^ (2 * k) / m)
      .fin false (2 * r + if r * r * m = 2 ^ (2 * k) then 0 else 1) (-(e / 2) - k - 1)

def Val.recip (x : Val) : Val := Val.div (.fin false 1 0) x

/-- ln 2 in units of 2^-256. -/
def ln2Units : Nat := (List.range 270).foldl (fun acc i => acc + 2 ^ 300 / ((i + 1) * 2 ^ (i + 1))) 0 / 2 ^ 44
/-- The exponential series of y units of 2^-256. -/
def expSeries (y : Nat) : Nat :=
  ((List.range 90).foldl (fun (acc : Nat × Nat) i => let t := acc.2 * y / 2 ^ 256 / (i + 1); (acc.1 + t, t))
    (2 ^ 256, 2 ^ 256)).1

/-- 2^x (R190). A power with a fraction in its exponent is never a value of a format nor half way between two, so 256
bits of it decide the rounding (PRESUMED, log 9). -/
def Val.exp2 : Val → Val
  | .nan => .nan
  | .inf s => if s then .fin false 0 0 else .inf false
  | .fin s m e =>
    if m = 0 then .fin false 1 0
    else if 0 ≤ e ∨ 10 < (m.log2 : Int) + e then
      let n : Int := if 10 < (m.log2 : Int) + e then 2000 else (m * 2 ^ e.toNat : Nat)
      .fin false 1 (if s then -n else n)
    else
      let k := (-e).toNat
      let v : Int := if s then -(m : Int) else m
      let n := v / 2 ^ k
      let f := (v % 2 ^ k).toNat
      if f = 0 then .fin false 1 n
      else .fin false (2 * expSeries (f * ln2Units / 2 ^ k) + 1) (n - 257)

/-- Bits of log2 of y units of 2^-400 for y in [1, 2), by squaring. -/
def logBits (y : Nat) : Nat → Nat → Nat
  | 0, acc => acc
  | i + 1, acc =>
    let y2 := y * y / 2 ^ 400
    if 2 ^ 401 ≤ y2 then logBits (y2 / 2) i (2 * acc + 1) else logBits y2 i (2 * acc)

/-- log2 x (R190), to 192 bits after the point where it is no integer (PRESUMED, log 9). -/
def Val.log2 : Val → Val
  | .nan => .nan
  | .inf s => if s then .nan else .inf false
  | .fin s m e =>
    if m = 0 then .inf true
    else if s then .nan
    else
      let l := m.log2
      let n : Int := l + e
      if m = 2 ^ l then Val.ofInt n
      else
        let b := logBits (m * 2 ^ 400 / 2 ^ l) 192 0
        let t := 2 * (n * 2 ^ 192 + b) + 1
        .fin (decide (t < 0)) t.natAbs (-193)

/-- Order of two values that are not NaN; -0 equals +0. -/
def Val.lt : Val → Val → Bool
  | .nan, _ => false
  | _, .nan => false
  | .inf a, .inf b => a && !b
  | .inf a, _ => a
  | _, .inf b => !b
  | .fin a m e, .fin b n f => let e0 := min e f; decide (unitsAt a m e e0 < unitsAt b n f e0)
def Val.eq (x y : Val) : Bool := !x.isNan && !y.isNan && !x.lt y && !y.lt x
def Val.sign : Val → Bool | .nan => false | .inf s => s | .fin s _ _ => s
/-- The order in which -0 is less than +0 (R105, R190). -/
def Val.ltZ (x y : Val) : Bool := x.lt y || (x.eq y && x.sign && !y.sign)
def Val.min (x y : Val) : Val := if x.isNan || y.isNan then .nan else if y.ltZ x then y else x
def Val.max (x y : Val) : Val := if x.isNan || y.isNan then .nan else if x.ltZ y then y else x

/-! ## Rounding (R75, R76) -/

/-- Whether a mode takes the neighbour of larger magnitude, for a magnitude n + rem / den with 0 < rem < den: `odd` says
that n's code is odd, `r` is the draw of `.RSR`. -/
def roundAway (rnd : Rnd) (neg odd : Bool) (rem den r : Nat) : Bool :=
  match rnd with
  | .rne => decide (den < 2 * rem) || (decide (2 * rem = den) && odd)
  | .rtz => false
  | .rup => !neg
  | .rdn => neg
  | .rsr => if neg then !decide (r < 2 ^ 32 * (den - rem) / den) else decide (r < 2 ^ 32 * rem / den)

/-- A magnitude m × 2^e in units of 2^q, rounded. Where the format has no mantissa bits, a tie between two powers of two takes the
upper one, and a tie between zero and the smallest of them takes zero (DEDUCED, log 10). -/
def roundUnits (rnd : Rnd) (neg : Bool) (m : Nat) (e q : Int) (r : Nat) : Nat :=
  if q ≤ e then m * 2 ^ (e - q).toNat
  else
    let den := 2 ^ (q - e).toNat
    let n := m / den
    if m % den = 0 then n else if roundAway rnd neg (n % 2 == 1) (m % den) den r then n + 1 else n

/-- The code of an infinity in a format that has them. -/
def infCode (e m : Nat) (neg : Bool) : Nat := (if neg then 2 ^ (e + m) else 0) + (2 ^ e - 1) * 2 ^ m

/-- Overflow and infinite results (R72, R75): `big` is the code of F. -/
def overflowCode (e m : Nat) (big : Nat) (hasInf nm sat : Bool) (rnd : Rnd) (neg isInf : Bool) : Nat :=
  let f := (if neg then 2 ^ (e + m) else 0) + big
  if !nm || !hasInf || sat then f
  else if isInf then infCode e m neg
  else match rnd with
    | .rne | .rsr => infCode e m neg
    | .rtz => f
    | .rup => if neg then f else infCode e m neg
    | .rdn => if neg then infCode e m neg else f

/-- A floating destination with e exponent bits, m mantissa bits and a bias (R75). -/
def encodeFloat (f : Fmt) (signed : Bool) (e m : Nat) (bias : Int) (nm : Bool) (rnd : Rnd) (sat : Bool) (r : Nat)
    (x : Val) : Nat :=
  match x with
  | .nan => f.nanCode
  | .inf neg => if neg && !signed then 0 else overflowCode e m (f.maxCode nm) (f.hasInf nm) nm sat rnd neg true
  | .fin neg mant ex =>
    let sgn := if neg && signed then 2 ^ (e + m) else 0
    if mant = 0 then sgn
    else if neg && !signed then 0
    else
      let qmin := 1 - bias - m
      let q := max ((mant.log2 : Int) + ex - m) qmin
      let n := roundUnits rnd neg mant ex q r
      if (f.largest nm).lt (.fin false n q) then overflowCode e m (f.maxCode nm) (f.hasInf nm) nm sat rnd neg false
      else if n < 2 ^ m then sgn + n
      else
        let l := n.log2
        let E : Int := l + q + bias
        let M := (if l ≤ m then n * 2 ^ (m - l) else n / 2 ^ (l - m)) - 2 ^ m
        sgn + E.toNat * 2 ^ m + M

/-- An integer or fixed-point destination (R76). -/
def encodeFixed (signed : Bool) (w : Nat) (bias : Int) (rnd : Rnd) (sat : Bool) (r : Nat) (x : Val) : Nat :=
  let hi : Int := if signed then 2 ^ (w - 1) - 1 else 2 ^ w - 1
  let lo : Int := if signed then -(2 ^ (w - 1)) else 0
  let code (t : Int) : Nat := (t % 2 ^ w).toNat
  match x with
  | .nan => 0
  | .inf neg => code (if neg then lo else hi)
  | .fin neg m e =>
    let n : Int := (roundUnits rnd neg m e (-bias) r : Nat)
    let t := if neg then -n else n
    if sat then code (if t < lo then lo else if hi < t then hi else t) else code t

/-- The two-point format E0M0 (R69). -/
def encodeE0m0 (bias : Int) (rnd : Rnd) (r : Nat) (x : Val) : Nat :=
  match x with
  | .nan => 0
  | .inf neg => if neg then 1 else 0
  | .fin neg m e =>
    let one : Val := .fin false 1 (-bias)
    if m ≠ 0 ∧ ¬ (Val.lt (.fin false m e) one) then (if neg then 1 else 0)
    else match rnd with
      | .rne | .rtz => if m ≠ 0 ∧ neg then 1 else 0
      | .rup => 0
      | .rdn => 1
      | .rsr =>
        -- (x - lo) / (hi - lo) with hi - lo = 2^(1 - bias)
        let e0 := min e (-bias)
        let num := (unitsAt neg m e e0 + unitsAt false 1 (-bias) e0).toNat
        let den := (2 * unitsAt false 1 (-bias) e0).toNat
        if r < 2 ^ 32 * num / den then 0 else 1

/-- The code of an exact value in a format: the one place where a result is rounded. `r` is the draw of `.RSR`. -/
def Fmt.encode (f : Fmt) (nm : Bool) (rnd : Rnd) (sat : Bool) (r : Nat) (x : Val) : Nat :=
  match f with
  | .ieee e m => encodeFloat f true e m (ieeeBias e) nm rnd sat r x
  | .narrow s e m bias => encodeFloat f s e m bias nm rnd sat r x
  | .fixed s w bias => encodeFixed s w bias rnd sat r x
  | .e0m0 bias => encodeE0m0 bias rnd r x

/-- `RoundNE` of R11 into a format. -/
def Fmt.rne (f : Fmt) (nm : Bool) (x : Val) : Nat := f.encode nm .rne false 0 x

/-! ## Element types (R54) -/

end Machine
open Machine

def ETy.fmt : ETy → Fmt
  | .f32 => .f32 | .f16 => .f16 | .bf16 => .bf16
  | .i32 => .fixed true 32 0 | .i16 => .fixed true 16 0 | .i8 => .fixed true 8 0
  | .u32 => .fixed false 32 0 | .u16 => .fixed false 16 0 | .u8 => .fixed false 8 0
  | .i64 => .fixed true 64 0 | .u64 => .fixed false 64 0
def ETy.bits : ETy → Nat
  | .f32 | .i32 | .u32 => 32
  | .f16 | .bf16 | .i16 | .u16 => 16
  | .i8 | .u8 => 8
  | .i64 | .u64 => 64
def ETy.isFloat : ETy → Bool | .f32 | .f16 | .bf16 => true | _ => false
def ETy.signed : ETy → Bool | .i32 | .i16 | .i8 | .i64 => true | _ => false
/-- Lanes of a V register (R188). -/
def ETy.lanes (t : ETy) : Nat := 512 / t.bits

namespace Machine

/-- ⊕ of R80: addition rounded to binary32. -/
def fadd32 (nm : Bool) (a b : Nat) : Nat := Fmt.f32.rne nm ((Fmt.f32.decode nm a).add (Fmt.f32.decode nm b))

/-- One draw of the stochastic-rounding generator (R77). -/
def srDraw (s : BitVec 32) : BitVec 32 :=
  let s := s ^^^ (s <<< 13)
  let s := s ^^^ (s >>> 17)
  s ^^^ (s <<< 5)
/-- A write of the generator: zero stores a fixed constant (R77). -/
def srWrite (v : BitVec 32) : BitVec 32 := if v = 0#32 then 0x9E3779B9#32 else v

end Machine
end Sys2Proof
end

