-- ==== Sys2Proof/Machine/Stores.lean ====
section
/-! DEFINITION. Stores and home-word operations when they are performed, escrow, commit, and byte-counting words
(02_idioms.md R26, R37, 06_copy_engines.md R116, 07_tile_array.md R130 to R132, R141 to R143, 12_consistency.md R235). -/
namespace Sys2Proof.Machine


/-! ## Data words (R26) -/

/-- The data words that are still to come from sq. -/
def owedIn (ds : List DataWord) : Nat := (ds.filter (fun d => d == .owed)).length
def DataWord.word : DataWord → Word | .val w => w | .owed => 0 | .got w => w
def dataWords (ds : List DataWord) : List Word := ds.map DataWord.word
/-- Give a word from sq to the first data word that is owed. -/
def giveWord (ds : List DataWord) (w : Word) : List DataWord := modFirst ds (fun d => d == .owed) fun _ => .got w
/-- The words that came from sq, oldest first. -/
def gotWords (ds : List DataWord) : List Word := ds.filterMap fun d => match d with | .got w => some w | _ => none
/-- Words as the bytes of a store, the first in the lowest lane (R141). -/
def wordsValue (ws : List Word) : VWord :=
  BitVec.ofNat 512 (ws.foldr (fun w acc => w.toNat + 2 ^ 64 * acc) 0)
/-- Words 0 to n - 1 of a value. -/
def valueWords (v : VWord) (n : Nat) : List Word := (List.range n).map fun i => v.extractLsb' (64 * i) 64

/-! ## Entries of fault queues (15_traps_preemption.md R304) -/

/-- Word 1 of an entry, with ROLE, SLOT, TILE and DIE of a slot of the package. -/
def faultWord1 (kind npg code level : Nat) (slot : Nat) (vf : Nat) (asid : BitVec 16) : Word :=
  BitVec.ofNat 64 (kind + 16 * npg + 256 * code + 4096 * level + 2 ^ 14 * (coreOfSlot slot % 3) + 2 ^ 16 * laneOfSlot slot
    + 2 ^ 20 * tileOnDie (tileOfSlot slot) + 2 ^ 28 * dieOfSlot slot + 2 ^ 32 * (vf % 1024)) ||| (asid.zeroExtend 64 <<< 48)
/-- The words 1 to 7 of an entry without pages. -/
def faultEntry (w1 ts va : Word) : List Word := [w1, ts, va, 0, 0, 0, 0]
/-- An entry that is to be posted. -/
def posting (vf : Option Nat) (asid : BitVec 16) (words : List Word) : Posting :=
  { words := words, vf := vf, asid := asid, entry := none }
/-- A post that the dispatcher of a die holds for a tenant's fault queue, or for the paging fault queue. -/
def holdPosting (d : Nat) (p : Posting) (s : State) : State :=
  s.modDie d fun x => { x with posts := x.posts ++ [{ posting := p, done := none }] }
def holdPost (d : Nat) (words : List Word) (vf : Option Nat) (asid : BitVec 16) (s : State) : State :=
  holdPosting d (posting vf asid words) s

/-! ## Byte-counting words (R116) -/

/-- COUNT, signed. -/
def bcCount (w : Word) : Int := (w.extractLsb' 0 37).toInt
/-- Word 0 with a count and flags. -/
def bcWord (count : Int) (posted ovf : Bool) (poster : Word) : Word :=
  BitVec.ofNat 64 ((count % 2 ^ 37).toNat) ||| (if posted then 1#64 <<< 37 else 0) ||| (if ovf then 1#64 <<< 38 else 0)
    ||| (poster <<< 39)
/-- POSTER for a slot of this package. -/
def posterOf (n : Nat) : Word :=
  BitVec.ofNat 64 (laneOfSlot n + 16 * (coreOfSlot n % 3) + 32 * (2 * tileOfSlot n))
    ||| (Config.selfPackage.zeroExtend 64 <<< 16)
/-- The slot that POSTER names. -/
def posterSlot (w : Word) : Nat :=
  48 * (w.extractLsb' 45 10).toNat + 16 * (w.extractLsb' 43 2).toNat + (w.extractLsb' 39 4).toNat

/-- Write both words of a byte-counting word at its home. -/
def bcWrite (l : Loc) (w0 ts : Word) (full : Bool) (s : State) : State :=
  let s := homePutWord l w0 (homePutWord (l.add 8) ts s)
  if full then setFE l.key true s else s

/-- The larger of two timestamps, unsigned. -/
def maxWord (a b : Word) : Word := if a < b then b else a

/-- `ByteCountTrap`: the trap is due to the poster slot while it is bound to the posting task, and otherwise an entry of
kind 6 goes to the tenant's fault queue (R116). -/
def byteCountTrap (l : Loc) (w0 ts : Word) (vf : Nat) (s : State) : State :=
  let n := posterSlot w0
  let va := BitVec.ofNat 64 l.va
  if (s.slot n).bound && (s.slot n).bcKeys.contains l.key && w0.extractLsb' 55 9 == Config.selfPackage then
    s.modSlot n fun sl => { sl with bcDue := sl.bcDue ++ [(va, 3#32)] }
  else holdPost (dieOfSlot n) (faultEntry (faultWord1 6 0 0 0 n vf l.asid) ts va) (some vf) l.asid s

/-- An arrival of n bytes; the flag says that it set OVF. -/
def bcArrive (l : Loc) (n : Nat) (ts : Word) (vf : Nat) (s : State) : Bool × State :=
  let w0 := homeGetWord s l
  let count := bcCount w0 - n
  let posted := w0.getLsbD 37
  let ovf := posted && decide (count < 0)
  let w0' := bcWord count posted (w0.getLsbD 38 || ovf) (w0.extractLsb' 39 25 |>.zeroExtend 64)
  let s := bcWrite l w0' (maxWord (homeGetWord s (l.add 8)) ts) (posted && decide (count = 0)) s
  (ovf, if ovf then byteCountTrap l w0' ts vf s else s)

/-! ## SCRATCH words and their errors (R130, R338) -/

/-- Some engine or conversion unit works. -/
def unitsWork (s : State) : Bool := s.tiles.any fun (_, t) => !t.conv.isEmpty || t.eng.ops.any (·.started)
/-- Write bytes of a tile's SCRATCH; a word that is written whole holds no error any more. What the bytes held is kept while a
unit works (R201, R216). -/
def putScratch (t off n v : Nat) (s : State) : State :=
  let s := if unitsWork s then
      { s with past := s.past ++ (List.range n).map fun i => (2 ^ 19 * t + off + i, BitVec.ofNat 8 ((s.tile t).scratch.readNat (off + i) 1)) }
    else s
  let s := s.modTile t fun y => { y with scratch := y.scratch.write off n v }
  if s.latent.isEmpty then s
  else { s with latent := dropAll s.latent fun e => match e.place with
    | .scratch t' w => t' == t && decide (off ≤ 8 * w) && decide (8 * w + 8 ≤ off + n)
    | _ => false }
/-- Read bytes of a tile's SCRATCH for a VF, and whether a word of them is poisoned. -/
def getScratch (vf t off n : Nat) (s : State) : Nat × Bool × State :=
  let s := sense vf (ErrAt.inScratch t off n) s
  ((s.tile t).scratch.readNat off n, spoiled s (ErrAt.inScratch t off n), s)

/-! ## Slots' operations at their targets -/

/-- The atomics (R105, R143): the new value of a word from its old value and the operands. -/
def atomResult (op : AtomOp) (dsz nm : Bool) (old : Word) (ws : List Word) : Word :=
  let v := ws.getD 0 0
  let lt : Bool := if dsz then old.slt v else (old.truncate 32 : BitVec 32).slt (v.truncate 32)
  match op with
  | .add => old + v
  | .fadd => BitVec.ofNat 64 (fadd32 nm (old.toNat % 2 ^ 32) (v.toNat % 2 ^ 32))
  | .min => if lt then old else v
  | .max => if lt then v else old
  | .and => old &&& v
  | .or => old ||| v
  | .xor => old ^^^ v
  | .swap => v
  | .cas => if (if dsz then old = v else (old.truncate 32 : BitVec 32) = v.truncate 32) then ws.getD 1 0 else old

/-- The writes of a tail that abort later readers of an ordered queue (R266, rule 2). -/
def StoreOp.clears : StoreOp → Bool
  | .st | .stf | .sete => true
  | .atom _ | .relFence | .bcPost => false
def AtomOp.isCas : AtomOp → Bool | .cas => true | _ => false

/-- Put words into the first entries of lq that a load reserved and that still wait (R24). -/
def fillLq : List LqEntry → Nat → List Word → List LqEntry
  | [], _, _ => []
  | e :: es, p, ws =>
    match ws with
    | [] => e :: es
    | w :: ws' => if e.pos = p ∧ e.word = none then { e with word := some w } :: fillLq es p ws' else e :: fillLq es p ws

/-- Write an access-class register; a write to a0 is discarded (R43). -/
def Slot.writeA (sl : Slot) (n : BitVec 4) (v : Word) : Slot :=
  if n = 0#4 then sl
  else if n.toNat < 8 then { sl with ar := { sl.ar with lo := sl.ar.lo.set! n.toNat v } }
  else sl.setAHigh (sl.aHigh.set! (n.toNat - 8) v)
/-- Read an access-class register; a0 reads as zero (R153). -/
def Slot.readA (sl : Slot) (n : BitVec 4) : Word :=
  if n = 0#4 then 0
  else if n.toNat < 8 then sl.ar.lo.toArray.getD n.toNat 0
  else sl.aHigh.toArray.getD (n.toNat - 8) 0

/-- Deliver the words of a load or a prior value (R137, R140). -/
def Slot.deliver (sl : Slot) (pos : Nat) (dest : LoadDest) (ws : List Word) : Slot :=
  match dest with
  | .lq => { sl with lq := fillLq sl.lq pos ws, scout := sl.scout.map fun sc => { sc with lq := fillLq sc.lq pos ws } }
  | .a n => sl.writeA n (ws.getD 0 0)
  | .discard => sl

/-- Whether an atomic writes: ACAS does only where the word equals the expected one (R143). -/
def atomWrites (op : AtomOp) (dsz : Bool) (old : Word) (ws : List Word) : Bool :=
  match op with
  | .cas => if dsz then old == ws.getD 0 0 else (old.truncate 32 : BitVec 32) == (ws.getD 0 0).truncate 32
  | _ => true

/-- Slot n posts e expected bytes on a byte-counting word, with its bindings for the release (R116, R144): the detail of the
byte-count trap, or 0, and the state after. Details 2 and 4 leave the word as it was. -/
def bcPost (n : Nat) (l : Loc) (e : Word) (binds : Binds) (s : State) : Nat × State :=
  let w0 := homeGetWord s l
  if 2 ^ 36 ≤ e.toNat then (4, s)
  else if w0.getLsbD 37 then (2, s)
  else
    let count := bcCount w0 + e.toNat
    let neg := decide (count < 0)
    let s := releaseWord binds (tileOfSlot n) l.asid l.va s
    let s := bcWrite l (bcWord count true (w0.getLsbD 38 || neg) (posterOf n))
      (maxWord (homeGetWord s (l.add 8)) (s.slot n).sys.tsr) (decide (count = 0)) s
    let s := s.modSlot n fun sl => { sl with bcKeys := if sl.bcKeys.contains l.key then sl.bcKeys else l.key :: sl.bcKeys }
    (if neg then 1 else 0, s)

/-- A write of a word of register space is a step of its own, which follows at once (R86). -/
def regWrite (pa : Nat) (v : Word) (s : State) : State := { s with turns := s.turns ++ [.write pa v] }

/-- The post of BCPOST on two words of register space, which are then the words of the byte-counting word (DESIGN CHOICE, log 119): the
detail of its trap, or 0, and the state after. -/
def regPost (n pa : Nat) (e : Word) (s : State) : Nat × State :=
  let word (pa : Nat) (s : State) : Word × State := match regAt pa with | some r => loadReg (s.vfOf n) r s | none => (0, s)
  let (w0, s) := word pa s
  let (w1, s) := word (pa + 8) s
  if 2 ^ 36 ≤ e.toNat then (4, s)
  else if w0.getLsbD 37 then (2, s)
  else
    let count := bcCount w0 + e.toNat
    let neg := decide (count < 0)
    (if neg then 1 else 0,
     regWrite pa (bcWord count true (w0.getLsbD 38 || neg) (posterOf n)) (regWrite (pa + 8) (maxWord w1 (s.slot n).sys.tsr) s))

/-- The store releases: by its own order or by a pending release that it uses (R240). -/
def PStore.isRel (x : PStore) : Bool := x.rel || x.relWas.isSome
/-- An ACAS that has written has used its pending release: `RELPEND` clears, unless a later REL has set it, and later stores use it no
more (R240). -/
def Slot.relUsed (sl : Slot) (x : PStore) : Slot :=
  let rel := (sl.stores.find? fun y => y.op == .relFence && decide (x.pos < y.pos)).map (·.pos)
  let before (p : Nat) : Bool := (rel.map fun q => decide (p < q)).getD true
  let stores := sl.stores.map fun y =>
    if decide (x.pos < y.pos) && before y.pos && y.op != .relFence && y.relWas == x.relWas then { y with relWas := none } else y
  let w := sl.sys.relpend
  { sl with stores := stores, sys := { sl.sys with relpend := if rel.isNone && x.relWas == some w then w &&& ~~~1#64 else w } }

/-- A store-like operation of slot n takes effect in memory (R141 to R144). -/
def applyMem (n : Nat) (x : PStore) (l : Loc) (s : State) : State :=
  let t := tileOfSlot n
  let w := l.va - l.va % 8
  let ws := dataWords x.data
  let m := x.size.bytes
  let s := if x.isRel && x.op != .bcPost then releaseWord x.binds t l.asid w s else s
  let s := if x.op.clears then abortReaders (s.slot n).task l.asid l.vline s else s
  match x.op with
  | .relFence => s
  | .st => if x.isRel then homePut l m (wordsValue ws) (toHome t l s) else storeBytes t l m (wordsValue ws) s
  | .stf => setFE l.key true (homePutWord l (ws.getD 0 0) (toHome t l s))
  | .sete => setFE l.key false (toHome t l s)
  | .bcPost => (bcPost n l (ws.getD 0 0) x.binds (toHome t l s)).2
  | .atom o =>
    let s := toHome t l s
    let old : Word := (homeGet s l m).truncate 64
    let s := if atomWrites o (x.size == .d) old ws
      then homePut l m ((atomResult o (x.size == .d) x.nm old ws).zeroExtend 512) s else s
    let s := if x.acq then acquireWord x.binds t l.asid w s else s
    s.modSlot n fun sl => (if o.isCas && x.relWas.isSome && atomWrites o (x.size == .d) old ws then sl.relUsed x else sl).deliver x.pos x.dest [old]

/-- At a physical location, which no cache holds and no binding names (R96). -/
def applyPhys (n : Nat) (x : PStore) (key : Nat) (s : State) : State :=
  let ws := dataWords x.data
  let m := x.size.bytes
  match x.op with
  | .st => memPut key m (wordsValue ws) s
  | .stf => setFE key true (memSetWord key (ws.getD 0 0) s)
  | .sete => setFE key false s
  | .atom o =>
    let old : Word := (memGet s key m).truncate 64
    let s := if atomWrites o (x.size == .d) old ws
      then memPut key m ((atomResult o (x.size == .d) x.nm old ws).zeroExtend 512) s else s
    s.modSlot n fun sl => sl.deliver x.pos x.dest [old]
  | .relFence | .bcPost => s

/-- At a word of register space (R86): a store and STF write the register, an atomic writes what it computes from the value
read, and SETE, which writes no data, changes nothing. -/
def applyReg (n : Nat) (x : PStore) (pa : Nat) (s : State) : State :=
  let ws := dataWords x.data
  match x.op with
  | .st | .stf => regWrite pa (ws.getD 0 0) s
  | .atom o =>
    let (old, s) := match regAt pa with
      | some r => loadReg (s.vfOf n) r s
      | none => (0, s)
    let s := if atomWrites o true old ws then regWrite pa (atomResult o true x.nm old ws) s else s
    s.modSlot n fun sl => sl.deliver x.pos x.dest [old]
  | .sete | .relFence | .bcPost => s

/-- A store-like operation of slot n takes effect at its target (R130, R131, R141 to R144). -/
def applyStore (n : Nat) (x : PStore) (s : State) : State :=
  match x.tgt with
  | .mem l => applyMem n x l s
  | .phys key => applyPhys n x key s
  | .reg pa _ => applyReg n x pa s
  | .scratch tile bank off => putScratch tile (8192 * bank + off) x.size.bytes (wordsValue (dataWords x.data)).toNat s
  | .fifo tile bank _ => s.modTile tile fun y => { y with
      fifos := y.fifos.set bank (y.fifos.get bank [] ++ (dataWords x.data).map fun w => { word := w, nm := x.nm }) }

/-- The tile of a scratchpad target. -/
def targetTile : Target → Option Nat
  | .scratch t _ _ => some t
  | .fifo t _ _ => some t
  | _ => none
/-- A write of slot n that leaves its tile (R272). -/
def leavesTile (n : Nat) (tgt : Target) : Bool :=
  match targetTile tgt with
  | some t => t != tileOfSlot n
  | none => true
/-- A FIFO bank has room for the words of a push (R131). -/
def pushRoom (s : State) (x : PStore) : Bool :=
  match x.tgt with
  | .fifo t b _ => decide (((s.tile t).fifos.get b []).length + x.data.length ≤ 1024)
  | _ => true

/-! ## Slots that stop (R300, R310) -/

/-- The stores that a stopping slot has issued complete, those that the rule keeps (R300, R310). They leave in program order,
so that none follows one whose data is missing (R26), and a push that waits for room has had no effect. -/
def finishIf (keep : PStore → Bool) (n : Nat) (s : State) : State :=
  (((s.slot n).stores.filter (fun x => !x.body)).takeWhile fun x => owedIn x.data == 0).foldl
    (fun acc x => if keep x && pushRoom acc x then applyStore n { x with dest := .discard } acc else acc)
    (s.modSlot n fun sl => { sl with stores := [], loads := [] })
def finishStores (n : Nat) (s : State) : State := finishIf (fun _ => true) n s

/-! ## Redundant tasks (R272) -/

/-- What a copy of a redundant task does with a write that leaves its tile: wait for the other copy, perform it, take the
result that the other copy got, or find that the two differ. -/
inductive Gate where
  | wait
  | go
  | taken (r : List Word)
  | differ

/-- The number of an outgoing operation: its ordinal among those that one half of one role has issued, in a completion handler or
outside. The two copies number alike what they issue in program order. -/
def outKey (role : Nat) (h : Half) (ui : Bool) (k : Nat) : Nat :=
  role + 3 * ((match h with | .access => 0 | .execute => 1) + (if ui then 2 else 0) + 5 * k)
/-- The numbers of the commit that a role makes and of the DONE update. -/
def commitKey (role : Nat) : Nat := role + 12
def doneKey : Nat := 27
/-- The number that the next outgoing operation of a half of slot n has. -/
def Slot.outNext (sl : Slot) (n : Nat) (h : Half) : Nat :=
  outKey (coreOfSlot n % 3) h sl.inUi (match h with
    | .access => if sl.inUi then sl.ar.outsUi else sl.ar.outs
    | .execute => if sl.inUi then sl.xr.outsUi else sl.xr.outs)
/-- A half has issued an outgoing operation. -/
def Slot.outCount (sl : Slot) (h : Half) : Slot :=
  match h, sl.inUi with
  | .access, false => { sl with ar := { sl.ar with outs := sl.ar.outs + 1 } }
  | .access, true => { sl with ar := { sl.ar with outsUi := sl.ar.outsUi + 1 } }
  | .execute, false => { sl with xr := { sl.xr with outs := sl.xr.outs + 1 } }
  | .execute, true => { sl with xr := { sl.xr with outsUi := sl.xr.outsUi + 1 } }

/-- Slot n runs a copy of a redundant task; a supervisor handler is no part of it. -/
def redundant (s : State) (n : Nat) : Bool := !(s.slot n).super && ((s.taskOf n).bind (·.twin)).isSome
/-- The other copy of a redundant task, while it is there. -/
def Task.other (t : Task) (s : State) : Option Task := t.twin.bind s.task?

/-- Two copies give one operation alike, as far as the data of both has come. -/
def agree : List (Option Word) → List (Option Word) → Bool
  | [], [] => true
  | x :: xs, y :: ys => (x.isNone || y.isNone || x == y) && agree xs ys
  | _, _ => false

/-- An outgoing operation of a copy is compared with the other copy's of its number; a task that is not redundant goes on. -/
def redGate (id key : Nat) (o : Outgoing) (s : State) : Gate × State :=
  match s.task? id with
  | none => (.go, s)
  | some t =>
    match t.other s with
    | none => (.go, s)
    | some u =>
      let s := s.modTask id fun t => { t with out := t.out.set key o }
      match u.out.get? key with
      | none => (.wait, s)
      | some x =>
        if !agree x.words o.words then (.differ, s)
        else match t.gifts.get? key with
          | some r => (.taken r, s.modTask id fun t => { t with used := t.used.set key () })
          | none => (.go, s)

/-- A copy has performed an outgoing operation: the other copy will take its result. -/
def redDone (id key : Nat) (r : List Word) (s : State) : State :=
  match (s.task? id).bind (·.twin) with
  | none => s
  | some u => (s.modTask id fun t => { t with used := t.used.set key () }).modTask u fun t => { t with gifts := t.gifts.set key r }

/-- A copy reaches a word that it sends: whether it is to send it now, and whether the two copies differ. -/
def redPost (id key : Nat) (o : Outgoing) (s : State) : Bool × Bool × State :=
  match s.task? id with
  | none => (true, false, s)
  | some t =>
    match t.other s with
    | none => (true, false, s)
    | some u =>
      let s := s.modTask id fun t => { t with out := t.out.set key o, used := t.used.set key () }
      match u.out.get? key with
      | none => (false, false, s)
      | some x => (true, !agree x.words o.words, s)

/-- An operation as a word, for the comparison of two copies. -/
def StoreOp.code : StoreOp → Word
  | .st => 1 | .stf => 2 | .sete => 3 | .relFence => 4 | .bcPost => 5
  | .atom .add => 16 | .atom .fadd => 17 | .atom .min => 18 | .atom .max => 19 | .atom .and => 20 | .atom .or => 21
  | .atom .xor => 22 | .atom .swap => 23 | .atom .cas => 24
/-- A data word, absent while it is still to come. -/
def DataWord.known : DataWord → Option Word | .val w => some w | .owed => none | .got w => some w
/-- A store as words, for the comparison of two copies: its operation, target, size and data. -/
def storeWords (x : PStore) : List (Option Word) :=
  (x.op.code :: (match x.tgt with
    | .mem l => [0x40, BitVec.ofNat 64 l.va]
    | .scratch t b off => [0x41, BitVec.ofNat 64 (tileInCluster t), BitVec.ofNat 64 (8192 * b + off)]
    | .fifo t b _ => [0x42, BitVec.ofNat 64 (tileInCluster t), BitVec.ofNat 64 b]
    | .phys k => [0x43, BitVec.ofNat 64 k]
    | .reg pa _ => [0x44, BitVec.ofNat 64 pa]) ++ [BitVec.ofNat 64 x.size.bytes]).map some ++ x.data.map DataWord.known
/-- A store of slot n as an outgoing operation. -/
def PStore.outgoing (x : PStore) (n : Nat) : Outgoing := { slot := n, tsr := x.tsr, words := storeWords x }

/-- A mismatch that slot n finds (R272), with the TSR of the operation that raises it (R22): both bodies are discarded and the
record is re-queued; the second time the task is discarded, an entry of kind 7 is due and the error is counted. -/
def redMismatch (id n : Nat) (ts : Word) (s : State) : State :=
  match s.task? id with
  | none => s
  | some t =>
    -- what has not been found equal does not leave the tile
    let inside (acc : State) (n : Nat) : State := finishIf (fun x => !leavesTile n x.tgt) n acc
    let s := t.slots.foldl inside s
    let s := match t.other s with
      | some u => u.slots.foldl inside s
      | none => s
    if t.misses = 0 then discardBody id true false 1 s
    else
      let c := s.errs.get t.vf ErrCnt.reset
      let s := discardBody id false false 0 s
      holdPost t.die (faultEntry (faultWord1 7 0 0 0 n t.vf t.asid) ts 0) (some t.vf) t.asid
        { s with errs := s.errs.set t.vf { c with rmis := if c.rmis = -1 then -1 else c.rmis + 1 } }

/-! ## Accesses and releases (R235, R239) -/

/-- Two ranges of bytes overlap. -/
def overlaps (a n b m : Nat) : Bool := decide (a < b + m) && decide (b < a + n)
def StoreOp.writes : StoreOp → Bool
  | .st | .stf | .atom _ | .bcPost => true
  | .sete | .relFence => false
def StoreOp.isAtom : StoreOp → Bool | .atom _ => true | _ => false
def PStore.bytes (x : PStore) : Nat := if x.op == .bcPost then 16 else x.size.bytes
/-- Bytes that an access names are bound to the word of a release, or lie in a scratchpad (R235, R238). -/
def boundTo (x : PStore) (tgt : Target) (m : Nat) : Bool :=
  match x.tgt, tgt with
  | .mem w, .mem l => x.binds.any fun (_, base, len, word) => word == w.va - w.va % 8 && overlaps base len l.va m
  | _, t => (targetTile t).isSome
/-- The release of a store waits for nothing more: the slot's earlier loads of bound bytes have returned, and its earlier
stores of bound bytes and its earlier releases have been performed (R235, R239). -/
def relReady (sl : Slot) (x : PStore) : Bool :=
  !x.isRel || (!sl.loads.any (fun y => decide (y.pos < x.pos) && boundTo x y.tgt y.size.bytes)
    && !sl.stores.any fun y => decide (y.pos < x.pos) && (y.isRel || boundTo x y.tgt y.bytes))
/-! ## Escrow (R132) and commit (R37) -/

/-- The 128-byte lines that a list of escrow stores holds: its entries (R132). -/
def escrowLines (es : List EscrowStore) : List (Nat × Nat) :=
  (es.filter (fun e => e.op != .relFence)).foldl (fun acc e =>
    let k := (e.loc.asid.toNat, e.loc.vline)
    if acc.contains k then acc else k :: acc) []

/-- A store of escrow, as it is performed when its task has committed. -/
def EscrowStore.store (e : EscrowStore) : PStore :=
  { pos := e.pos, op := e.op, tgt := .mem e.loc, size := e.size, data := e.data, rel := e.rel, acq := false, dest := .discard,
    tsr := e.tsr, nm := false, body := false, binds := e.binds, relWas := none, insn := 0, key := e.key }
/-- A store of a body as an entry of escrow holds it. -/
def PStore.escrow (x : PStore) (n : Nat) (l : Loc) : EscrowStore :=
  { op := x.op, loc := l, size := x.size, data := x.data, rel := x.isRel, slot := n, pos := x.pos, binds := x.binds, tsr := x.tsr,
    key := x.key, gate := false }

/-- An entry of escrow may be applied: its data has come, no earlier entry of its slot waits, and the slot's earlier accesses that
its release follows are done (R235). -/
def escrowReady (s : State) (kept : List EscrowStore) (e : EscrowStore) : Bool :=
  let sl := s.slot e.slot
  owedIn e.data == 0 && !kept.any (fun k => k.slot == e.slot) && relReady sl e.store

/-- A store of slot n is answered as one into a fenced rectangle (R129, R326, R341). -/
def PStore.cut (x : PStore) (s : State) (n : Nat) : Bool :=
  match x.tgt with
  | .mem l => if x.op == .st && !x.isRel then reachCut s (tileOfSlot n) l else homeCut s (tileOfSlot n) l
  | .reg pa _ => regCut s (tileOfSlot n) pa
  | .scratch t _ _ | .fifo t _ _ => tileLost s (tileOfSlot n) t
  | _ => false
/-- A store of slot n that has a number is compared with the other copy's (R272). -/
def PStore.compare (x : PStore) (id n : Nat) (s : State) : Gate × State :=
  match x.key with
  | some k => redGate id k (x.outgoing n) s
  | none => (.go, s)
/-- This copy has performed it. -/
def PStore.performed (x : PStore) (id : Nat) (r : List Word) (s : State) : State :=
  match x.key with
  | some k => redDone id k r s
  | none => s
/-- An entry of escrow as it is performed now: one that is not gated is compared no more. -/
def EscrowStore.now (e : EscrowStore) : PStore := if e.gate then e.store else { e.store with key := none }

/-- A store of escrow leaves its bank: an error of its words is corrected, or goes with the data as poison (R338, R344). -/
def senseEscrow (id : Nat) (e : EscrowStore) (s : State) : Bool × State :=
  if s.latent.isEmpty then (false, s)
  else
    let at' := ErrAt.inEscrow id e.slot e.pos
    let s := sense unattributed at' s
    (spoiled s at', { s with latent := dropAll s.latent fun x => at' x.place })
/-- The sector of a location is poisoned where a store of a tile has put its bytes. -/
def spoilLine (t : Nat) (l : Loc) (s : State) : State :=
  let k := l.off / 32
  if l.c && (findLine (s.tile t).l1 l.asid l.vline).isSome then poisonAt { place := .l1 t l.asid l.vline k, bad := true } s
  else if l.c && (findLine (s.die (dieOfTile t)).lines l.asid l.vline).isSome then
    poisonAt { place := .slice (dieOfTile t) l.asid l.vline k, bad := true } s
  else if l.c && !isRemote l.key && (findLine (s.die (homeDie l.key)).lines l.asid l.vline).isSome then
    poisonAt { place := .slice (homeDie l.key) l.asid l.vline k, bad := true } s
  else poisonAt { place := .dram (l.key / 32), bad := true } s

/-- Apply the escrow of a committed task in program order, as far as the data has arrived; a store that waits holds back what
follows it in its slot (R37). `kept` are the stores that stay. A page to which no path leads answers as a fenced rectangle does
(R326, R341). -/
def drainEscrow (id : Nat) (kept : List EscrowStore) : List EscrowStore → State → State
  | [], s => s.modTask id fun t => { t with escrow := kept }
  | e :: es, s =>
    if !escrowReady s kept e then drainEscrow id (kept ++ [e]) es s
    else if e.store.cut s e.slot then
      drainEscrow id kept es (s.modSlot e.slot fun sl => { sl with scDue := some (BitVec.ofNat 64 e.loc.va) })
    else
      match e.now.compare id e.slot s with
      | (.wait, s) => drainEscrow id (kept ++ [e]) es s
      | (.taken _, s) => drainEscrow id kept es s
      | (.differ, s) => redMismatch id e.slot e.tsr (s.modTask id fun t => { t with escrow := kept ++ e :: es })
      | (.go, s) =>
        let (bad, s) := senseEscrow id e s
        let s := applyStore e.slot e.store (s.modTask id fun t => { t with escrow := kept ++ es })
        let s := if bad then spoilLine (tileOfSlot e.slot) e.loc s else s
        drainEscrow id kept es (e.now.performed id [] s)

/-- Held copies of a committed task start, unless a store pushed before them still waits in escrow (R37, R118). -/
def startHeld (id : Nat) (s : State) : State :=
  match s.task? id with
  | none => s
  | some t =>
    let free (z : Transfer) : Transfer :=
      if z.held && z.task == id && !t.escrow.any (fun e => e.slot == z.slot && decide (e.pos < z.pos)) then
        { z with held := false } else z
    s.modTile t.tile fun tl => { tl with chans := tl.chans |> mapVec fun c =>
      { c with fifo := c.fifo.map free, exec := c.exec.map free } }

def settleEscrow (id : Nat) (s : State) : State :=
  match s.task? id with
  | some t => if t.committed then startHeld id (drainEscrow id [] t.escrow s) else s
  | none => s

/-- Give words of sq to the stores that wait for them, oldest store first (R26). -/
def feedSq (n : Nat) : Nat → State → State
  | 0, s => s
  | k + 1, s =>
    let sl := s.slot n
    match sl.sq with
    | [] => s
    | e :: rest =>
      let mine (x : EscrowStore) : Bool := x.slot == n && owedIn x.data != 0
      let inEscrow := ((s.task? sl.task).map fun t => sl.bound && t.escrow.any mine).getD false
      if inEscrow then
        let s := s.modTask sl.task fun t =>
          { t with escrow := modFirst t.escrow mine fun x => { x with data := giveWord x.data e.word } }
        feedSq n k (settleEscrow sl.task
          (s.modSlot n fun sl => { sl with sq := rest, sqTaken := sl.sqTaken + 1 }))
      else if sl.stores.any (fun x => owedIn x.data != 0) then
        feedSq n k (s.modSlot n fun sl => { sl with
          sq := rest, sqTaken := sl.sqTaken + 1,
          stores := modFirst sl.stores (fun x => owedIn x.data != 0) fun x => { x with data := giveWord x.data e.word } })
      else s

/-- The stores of a body that a slot has issued go to escrow; those of a slot stay in its program order (R132). -/
def toEscrow (n : Nat) (s : State) : State :=
  let sl := s.slot n
  let es := sl.stores.filterMap fun x => match x.tgt with
    | .mem l => if x.body then some (x.escrow n l) else none
    | _ => none
  let s := s.modSlot n fun sl => { sl with stores := dropAll sl.stores (fun x => x.body) }
  s.modTask sl.task fun t => { t with escrow := t.escrow ++ es }

/-- A task commits: its watchdog starts, its escrow drains, its held copies proceed, its dependants may be placed and its
recorded reads are dropped (R37, R263, R264, R309). Stores of the body that have not come to escrow yet do so later, in the program
order of their slots, and are applied then. -/
def commitTask (id : Nat) (s : State) : State :=
  match s.task? id with
  | none => s
  | some t =>
    let s := t.slots.foldl (fun acc n => acc.modSlot n fun sl =>
      { sl with sys := { sl.sys with wdcnt := recCyclim t.words } }) s
    let s := s.modTask id fun t => { t with committed := true, clearing := false, reads := [] }
    freeDependants id (settleEscrow id s)

/-- Whether an ordered task may commit: every task of its queue that ranks before it has committed or is gone (R266 rule
3). Records that wait in the queue are tasks of the queue too. -/
def clearedToCommit (s : State) (id : Nat) : Bool :=
  match s.task? id with
  | none => false
  | some t =>
    !recOrd t.words ||
      (s.tasks.all (fun (k, u) => k == id || t.twin == some k || recQid u.words != recQid t.words || !recOrd u.words || u.committed || t.before u)
        && (s.queue (recQid t.words)).recs.all (fun r =>
             r.insts.all (fun i => !rankBefore r.words i t.words t.inst)))

/-! ## TCOMMIT (R264, R272) -/

/-- The escrow of slot n at its TCOMMIT, in program order: it is what the two copies of a redundant task compare there. -/
def ownEscrow (id n : Nat) (s : State) : List EscrowStore :=
  ((s.task? id).map fun t => t.escrow.filter fun e => e.slot == n).getD []
/-- A copy of a redundant task meets the other at its TCOMMIT (R272). -/
def meetTwin (id n : Nat) (s : State) : Gate × State :=
  let key := commitKey (coreOfSlot n % 3)
  redGate id key { slot := n, tsr := (s.slot n).sys.tsr, words := (ownEscrow id n s).flatMap fun e => storeWords e.store } s
/-- After the two copies have met: the entries of the slot that were compared whole are applied by one copy (`keep`) and dropped by
the other, and what either copy still lacked, or another slot stored, is compared on its own. `whole` says which entries of the slot,
in order, were compared whole. -/
def splitEscrow (n : Nat) (keep : Bool) : List Bool → List EscrowStore → List EscrowStore
  | _, [] => []
  | ws, e :: es =>
    if e.slot != n then { e with gate := true } :: splitEscrow n keep ws es
    else match ws with
      | true :: ws => if keep then e :: splitEscrow n keep ws es else splitEscrow n keep ws es
      | _ :: ws => { e with gate := true } :: splitEscrow n keep ws es
      | [] => { e with gate := true } :: splitEscrow n keep [] es
/-- Both copies of a redundant task commit, `id` by slot n and the other by slot m: one of them applies what was compared whole. -/
def commitBoth (id n u m : Nat) (s : State) : State :=
  let whole := ((ownEscrow id n s).zip (ownEscrow u m s)).map fun (x, y) => owedIn x.data == 0 && owedIn y.data == 0
  let s := s.modTask id fun t => { t with escrow := splitEscrow n true whole t.escrow }
  let s := s.modTask u fun t => { t with escrow := splitEscrow m false whole t.escrow }
  commitTask u (commitTask id s)

/-- TCOMMIT of the task `id` by slot n (R264): whether the task is committed now. A redundant copy meets its twin first, and a
task of an ordered queue waits in the clearing queue; it does not wait for store data (R37). -/
def tryCommit (id n : Nat) (s : State) : Bool × State :=
  match s.task? id with
  | none => (true, s)
  | some t =>
    if t.committed then (true, s)
    else
      match meetTwin id n (toEscrow n s) with
      | (.wait, s) => (false, s)
      | (.differ, s) => (false, redMismatch id n (s.slot n).sys.tsr s)
      | (_, s) =>
        if !clearedToCommit s id then (false, s.modTask id fun t => { t with clearing := true })
        else match t.twin, (t.other s).bind fun u => u.out.get? (commitKey (coreOfSlot n % 3)) with
          | some u, some o => (true, commitBoth id n u o.slot s)
          | _, _ => (true, commitTask id s)

end Sys2Proof.Machine
end

