-- ==== Sys2Proof/Machine/Walk.lean ====
section
/-! DEFINITION. Translation: the walk, the checks at the slice and the owner map (05_memory_path.md R85, R89, R92 to R102),
and the posts of fault-queue entries (15_traps_preemption.md R303). -/
namespace Sys2Proof.Machine

/-! ## Physical addresses (R85, R96) -/

/-- The memory key of a physical address of a package; `none` is the requester's own. -/
def pkgKey (pkg : Option (BitVec 9)) (pa : Nat) : Nat :=
  match pkg with
  | none => pa
  | some p => if p = Config.selfPackage then pa else (p.toNat + 1) * 2 ^ 48 + pa
/-- Register space (R85). -/
def isRegSpace (key : Nat) : Bool := key / 2 ^ 40 % 256 == 0xFF
/-- Memory that exists: DRAM of layers 0 to 5 (R85). -/
def isDram (key : Nat) : Bool := key / 2 ^ 40 % 256 == 0 && decide (key / 2 ^ 35 % 8 < 6)

/-! ## Page-table entries (R93, R94) -/

def pteV (p : Word) : Bool := p.getLsbD 0
def pteR (p : Word) : Bool := p.getLsbD 1
def pteW (p : Word) : Bool := p.getLsbD 2
def pteX (p : Word) : Bool := p.getLsbD 3
def pteU (p : Word) : Bool := p.getLsbD 4
def pteScope (p : Word) : BitVec 3 := p.extractLsb' 5 3
def pteC (p : Word) : Bool := p.getLsbD 8
def pteD (p : Word) : Bool := p.getLsbD 9
def pteA (p : Word) : Bool := p.getLsbD 10
def pteWatch (p : Word) : Bool := p.getLsbD 11
def pteMig (p : Word) : Bool := p.getLsbD 12
def pteLeaf (p : Word) : Bool := p.getLsbD 13
def ptePpn (p : Word) : Nat := (p.extractLsb' 16 32).toNat
def ptePkg (p : Word) : BitVec 9 := p.extractLsb' 48 9
def pteRem (p : Word) : Bool := p.getLsbD 57
/-- The package that an entry names. -/
def ptePackage (p : Word) : Option (BitVec 9) := if pteRem p then some (ptePkg p) else none

/-- The bad formats of R94, for an entry with V = 1 at a level. -/
def badFormat (p : Word) (lvl : Nat) : Bool :=
  p.extractLsb' 14 2 != 0#2 || p.extractLsb' 58 2 != 0#2
    || (pteLeaf p && lvl == 1) || (!pteLeaf p && lvl == 3)
    || (!pteLeaf p && (p.extractLsb' 1 11 != 0#11))
    || (!pteRem p && ptePkg p != 0#9) || decide (319 < (ptePkg p).toNat)
    || (pteLeaf p && lvl == 2 && ptePpn p % 2 ^ 13 != 0)

/-! ## The walk (R98) -/

inductive Walked where
  | leaf (pte : Word) (ea lvl : Nat)
  | fault (code lvl : Nat)
  | wait (key : Nat)            -- the walker waits for a migration word
  | remote (key lvl : Nat)      -- it waits for a word of another package
deriving DecidableEq, Repr

/-- The word of a page that is full while the page is not migrating (R98). A key of another package has no register of this
package; its own `MIGBASE` is taken to be this one's (DESIGN CHOICE, log 12). -/
def migrationWord (s : State) (pkg : Option (BitVec 9)) (ppn : Nat) : Nat :=
  let pa := ppn * 65536
  pkgKey pkg (((s.pkg.migbase.toArray.getD (homeDie pa) 0) &&& 0xFFFFFFFF0000#64).toNat + 8 * (pa / 65536 % 2 ^ 22))

/-- A read of the walker's finds poison, which is delivered to it (R338, R344). -/
def walkPoison (s : State) (key : Nat) : Bool := s.poison.contains (key / 32)
/-- A part of a walk, which changes the state by the errors that its reads find, and which may end the walk. -/
abbrev WalkM := EStateM Walked State
/-- A walker load (R96): memory at the home controller, the absent fault elsewhere; a poisoned sector ends the walk with
the format code (R338). A load of another package's memory needs its response (R330). -/
def walkRead (req : Requester) (key lvl : Nat) : WalkM Word := do
  if !isDram key then throw (.fault 4 lvl)
  if isRemote key && !(← get).remotes.any (fun r => r.req == req && r.va == key && r.answered) then throw (.remote key lvl)
  modify (senseWalker key)
  if walkPoison (← get) key then
    modify (countUncorr unattributed)
    throw (.fault 3 lvl)
  return memWord (← get) key

/-- The levels of the walk from `lvl` down; `n` is 4 - lvl. -/
def walkFrom (req : Requester) (va : Nat) : Nat → Option (BitVec 9) → Nat → WalkM Walked
  | 0, _, _ => return .fault 3 3
  | n + 1, pkg, node => do
    let lvl := 3 - n
    let ea := pkgKey pkg (node + 8 * (va / 2 ^ (55 - 13 * lvl) % 2 ^ 13))
    let pte ← walkRead req ea lvl
    if !pteV pte then return (if lvl = 3 ∨ pteLeaf pte then .fault 1 lvl else .fault 2 (lvl + 1))
    else if badFormat pte lvl then return .fault 3 lvl
    else
      let pkg := ptePackage pte
      if pteMig pte then return .wait (migrationWord (← get) pkg (ptePpn pte))
      else if pteLeaf pte then return .leaf pte ea lvl
      else walkFrom req va n pkg (ptePpn pte * 65536)

/-- The walk for one miss (R95, R98); a MIG entry ends it where it waits, and the whole walk is then made again. -/
def walkAll (req : Requester) (va : Nat) (asid : BitVec 16) : WalkM Walked := do
  let s ← get
  if !s.pkg.astbase.getLsbD 0 then return .fault 2 1
  else
    let base := (s.pkg.astbase &&& 0xFFFFFFF00000#64).toNat + 16 * asid.toNat
    let w0 ← walkRead req base 1
    let w1 ← walkRead req (base + 8) 1
    if w0.extractLsb' 1 15 ≠ 0#15 ∨ w0.extractLsb' 58 6 ≠ 0#6 ∨ w1 ≠ 0 then return .fault 3 1
    else if !w0.getLsbD 0 then return .fault 2 1
    else walkFrom req va 3 none (ptePpn w0 * 65536)
/-- What the walk comes to, and the state after its reads. -/
def walk (s : State) (req : Requester) (va : Nat) (asid : BitVec 16) : Walked × State :=
  match walkAll req va asid s with
  | .ok w s => (w, s)
  | .error w s => (w, s)

/-! ## Checks at the slice (R99 to R102) -/

/-- What an access needs of a leaf (R100) and the kind that it reports (R97). -/
structure Access where
  kind : BitVec 3
  r    : Bool
  w    : Bool
  x    : Bool
  d    : Bool                   -- it writes, and so sets D (R99)
  quiet : Bool                  -- sets neither A nor D and makes no claim: a prefetch or a scout access (R99, R302)
deriving DecidableEq, Repr

def Access.load : Access := { kind := 0, r := true, w := false, x := false, d := false, quiet := false }
def Access.store : Access := { kind := 1, r := false, w := true, x := false, d := true, quiet := false }
def Access.atomic : Access := { kind := 2, r := true, w := true, x := false, d := true, quiet := false }
/-- LDFF needs W as the other full/empty operations do (R100) and writes nothing. -/
def Access.fullRead : Access := { kind := 2, r := true, w := true, x := false, d := false, quiet := false }
def Access.bcPost : Access := { kind := 2, r := false, w := true, x := false, d := true, quiet := false }
def Access.bcRead : Access := { kind := 2, r := true, w := false, x := false, d := false, quiet := false }
def Access.fetch : Access := { kind := 3, r := false, w := false, x := true, d := false, quiet := false }
def Access.prefetch : Access := { kind := 4, r := true, w := false, x := false, d := false, quiet := true }
def Access.prefetchX : Access := { kind := 4, r := false, w := false, x := true, d := false, quiet := true }
def Access.copyRead : Access := { kind := 5, r := true, w := false, x := false, d := false, quiet := false }
def Access.copyWrite : Access := { kind := 6, r := false, w := true, x := false, d := true, quiet := false }
def Access.copyReduce : Access := { kind := 6, r := true, w := true, x := false, d := true, quiet := false }

/-- The memory key that a leaf gives a virtual address. -/
def leafKey (pte : Word) (large : Bool) (va : Nat) : Nat :=
  pkgKey (ptePackage pte) (if large then ptePpn pte / 8192 * 2 ^ 29 + va % 2 ^ 29 else ptePpn pte * 65536 + va % 65536)
def leafLoc (pte : Word) (large : Bool) (va : Nat) (asid : BitVec 16) : Loc :=
  { key := leafKey pte large va, va := va, asid := asid, large := large, scope := pteScope pte, c := pteC pte, w := pteW pte,
    watch := pteWatch pte }

/-- Check 2: the scope fault for a requester on die `d` (R101). -/
def scopeBad (pte : Word) (key d : Nat) : Bool :=
  let s := (pteScope pte).toNat
  (decide (s ≤ 4) && (isRemote key || homeDie key != d)) || (s == 5 && isRemote key)
/-- Check 3 (R100). -/
def permBad (pte : Word) (a : Access) (user : Bool) : Bool :=
  (a.r && !pteR pte) || (a.w && !pteW pte) || (a.x && !pteX pte) || (user && !pteU pte)
/-- Check 1: absent memory, or register space for a user requester (R99). -/
def physBad (key : Nat) (user : Bool) : Option Nat :=
  if isRegSpace key then (if user then some 6 else none) else if isDram key then none else some 4

/-- The owner word of a page of a package (R102). A package's own `OWNBASE` is taken to be this one's (DESIGN CHOICE, log 12). -/
def ownerKey (s : State) (pkg : Option (BitVec 9)) (pa : Nat) : Nat :=
  pkgKey pkg (((s.pkg.ownbase.toArray.getD (homeDie pa) 0) &&& 0xFFFFFFFF0000#64).toNat + 8 * (pa / 65536 % 2 ^ 22))
/-- The name in an owner word: ASID and virtual page. -/
def ownerName (w : Word) : BitVec 55 := w.extractLsb' 0 55
def nameOf (asid : BitVec 16) (va : Nat) : Word := asid.zeroExtend 64 ||| (BitVec.ofNat 64 (va / 65536 % 2 ^ 39) <<< 16)
/-- The name under which the claim of a 512 MiB group names the 64 KiB page at an address of the group. -/
def pageName (g : Word) (pa : Nat) : Word :=
  (g.extractLsb' 0 16).zeroExtend 64 ||| (((g.extractLsb' 16 39 + BitVec.ofNat 39 (pa / 65536 % 8192)).zeroExtend 64) <<< 16)

/-- The claim of a writable cacheable page (R102): `none` is a refusal. A 512 MiB claim writes the group word anew, and SMALL of one that
has LARGE and SMALL is then 0 (DESIGN CHOICE, log 116). -/
def claim (s : State) (pte : Word) (large : Bool) (va : Nat) (asid : BitVec 16) : Option State :=
  if !(pteW pte && pteC pte) then some s
  else
    let pkg := ptePackage pte
    let pa := ptePpn pte * 65536
    let gkey := ownerKey s pkg (pa / 2 ^ 29 * 2 ^ 29)
    let g := memWord s gkey
    if large then
      let gname := nameOf asid (va / 2 ^ 29 * 2 ^ 29)
      if (g.getLsbD 56 && g.getLsbD 55 && ownerName g != ownerName gname) || (g.getLsbD 57 && !g.getLsbD 55) then none
      else some (memSetWord gkey (gname ||| 0x0180000000000000#64) s)
    else
      let key := ownerKey s pkg pa
      let own := memWord s key
      let name := nameOf asid va
      if g.getLsbD 56 && g.getLsbD 55 && ownerName (pageName g pa) != ownerName name then none
      else if own.getLsbD 56 && !(key == gkey && own.getLsbD 55) && ownerName own != ownerName name then none
      else
        let s := if key = gkey && own.getLsbD 55 then s
                 else memSetWord key (name ||| 0x0100000000000000#64 ||| (own &&& 0x0200000000000000#64)) s
        some (memSetWord gkey (memWord s gkey ||| 0x0200000000000000#64) s)

/-- Set A, and D for a write, in memory at EA (R99). -/
def setAD (e : TEntry) (a : Access) (s : State) : TEntry × State :=
  if a.quiet then (e, s)
  else
    let bits : Word := 0x400#64 ||| (if a.d then 0x200#64 else 0)
    if e.pte &&& bits = bits then (e, s)
    else ({ e with pte := e.pte ||| bits }, memSetWord e.ea (memWord s e.ea ||| bits) s)

/-- The entry of a slice's translation cache for a virtual address (R99). -/
def TEntry.has (asid : BitVec 16) (va : Nat) (e : TEntry) : Bool :=
  e.asid == asid && e.slice == sliceOf va && (if e.large then e.vpage == va / 2 ^ 29 else e.vpage == va / 65536)

/-- The outcome of a translation. -/
inductive Xlat where
  | ok (l : Loc) (s : State)
  | fault (code lvl : Nat) (s : State)
  | miss (conf : Bool) (s : State)

/-- What comes of a slice's own request for words of another package. -/
inductive Asked where
  | got (s : State)
  | lost (s : State)
  | waits (s : State)
/-- The words at some keys that slice i of die d reads and writes, those of another package by a request for each (R15, R330). -/
def askWords (d i : Nat) (keys : List Nat) (s : State) : Asked :=
  if keys.all fun k => !isRemote k then .got s
  else
    let me := Requester.slice d i
    let keys := (keys.filter isRemote).eraseDups
    let mine (r : Report) : Bool := r.req == me && keys.any fun k => r.vpage == k / 65536
    let clear (s : State) : State := { s with remotes := dropAll s.remotes fun r => r.req == me && keys.contains r.va && r.answered }
    if (s.die d).reports.any mine then .lost (clear (s.modDie d fun x => { x with reports := dropAll x.reports mine }))
    else if keys.all fun k => s.remotes.any fun r => r.req == me && r.va == k && r.answered then .got (clear s)
    else .waits (keys.foldl (fun acc k => (awaitRemote me k k acc).2) s)
/-- The words that a slice touches for an access through a leaf: the page's owner word where a claim is due, and the entry where A or D
is to be set (R99, R102). -/
def touched (s : State) (pte : Word) (ea : Nat) (a : Access) (owned : Bool) : List Nat :=
  let bits : Word := 0x400#64 ||| (if a.d then 0x200#64 else 0)
  if a.quiet then []
  else (if owned || !(pteW pte && pteC pte) then [] else [ownerKey s (ptePackage pte) (ptePpn pte * 65536)])
    ++ (if pte &&& bits = bits then [] else [ea])

/-- An entry that the slice holds serves an access if checks 2 and 3 pass (R99); a denial discards it (R100). Where a quiet
access has installed it, the first other access makes the claim (DEDUCED, log 112). -/
def tryEntry (d : Nat) (e : TEntry) (va : Nat) (a : Access) (user : Bool) (s : State) : Xlat :=
  let key := leafKey e.pte e.large va
  let lvl := if e.large then 2 else 3
  if scopeBad e.pte key d then .fault 5 lvl s
  else if permBad e.pte a user || (physBad key user).isSome then
    .miss true (s.modDie d fun x => { x with tlb := dropAll x.tlb (fun y => y == e) })
  else
    match askWords d (sliceOf va) (touched s e.pte e.ea a e.owned) s with
    | .waits s => .miss false s
    | .lost s => .fault 4 lvl s
    | .got s =>
      match if a.quiet || e.owned then some s else claim s e.pte e.large va e.asid with
      | none => .fault 7 lvl (s.modDie d fun x => { x with tlb := dropAll x.tlb (fun y => y == e) })
      | some s =>
        let (e', s) := setAD { e with owned := e.owned || !a.quiet } a s
        .ok (leafLoc e'.pte e.large va e.asid) (s.modDie d fun x => { x with tlb := modFirst x.tlb (fun y => y == e) fun _ => e' })

/-- An install record with STATUS 0 is checked and installed (R99); the access that waits is then served. A miss is a record that waits
for words of another package. -/
def installLeaf (d : Nat) (pte : Word) (ea lvl va : Nat) (asid : BitVec 16) (a : Access) (user : Bool) (s : State) : Xlat :=
  let large := lvl == 2
  let key := leafKey pte large va
  match physBad key user with
  | some c => .fault c lvl s
  | none =>
    if scopeBad pte key d then .fault 5 lvl s
    else if permBad pte a user then .fault 6 lvl s
    else
      match askWords d (sliceOf va) (touched s pte ea a false) s with
      | .waits s => .miss false s
      | .lost s => .fault 4 lvl s
      | .got s =>
        match if a.quiet then some s else claim s pte large va asid with
        | none => .fault 7 lvl s
        | some s =>
          let e : TEntry := { slice := sliceOf va, asid := asid, vpage := if large then va / 2 ^ 29 else va / 65536,
                              large := large, pte := pte, ea := ea, owned := !(a.quiet && pteW pte && pteC pte) }
          let (e, s) := setAD e a s
          .ok (leafLoc pte large va asid) (s.modDie d fun x => { x with tlb := e :: dropAll x.tlb (TEntry.has asid va) })

/-- Find an entry that serves an access on die `d`. -/
def lookupT (d va : Nat) (asid : BitVec 16) (a : Access) (user : Bool) (s : State) : Xlat :=
  match (s.die d).tlb.find? (TEntry.has asid va) with
  | some e => tryEntry d e va a user s
  | none => .miss false s

/-- A walk needs a word of another package: it is asked for, unless the request has been lost (R330). -/
def goRemote (d : Nat) (req : Requester) (key : Nat) (s : State) : Bool × State :=
  match takeReport d req key s with
  | (some _, s) => (true, s)
  | (none, s) => (false, (awaitRemote req key key s).2)

/-- The words of other packages that a walk has read are asked for anew by the next one. -/
def walkDone (req : Requester) (s : State) : State :=
  { s with remotes := dropAll s.remotes fun r => r.req == req && r.va == r.key && r.answered }
/-- The migration word in the way of a walk is full; that of another package is read over Aqgal until it is (R98, R330). A request
that is lost is made again. -/
def migrationFull (d : Nat) (req : Requester) (key : Nat) (s : State) : Bool × State :=
  if !isRemote key then (feFull s key, s)
  else
    let (_, s) := takeReport d req key s
    match awaitRemote req key key s with
    | (some s, _) => (feFull s key, s)
    | (none, s) => (false, s)

/-- A walk of the device's own, checked at the slice. A migration word that is in its way holds the page's walks back until
it is full (R98). -/
def walkNow (d va : Nat) (asid : BitVec 16) (a : Access) (user : Bool) (s : State) : Xlat :=
  let mine (x : BitVec 16 × Nat × Nat) : Bool := x.1 == asid && x.2.1 == va / 65536
  let (go, s) := match (s.die d).walkWaits.find? mine with
    | some x => migrationFull d (.disp d) x.2.2 s
    | none => (true, s)
  if !go then .miss false s
  else
    let s := s.modDie d fun x => { x with walkWaits := dropAll x.walkWaits mine }
    match walk s (.disp d) va asid with
    | (.leaf pte ea lvl, s) => installLeaf d pte ea lvl va asid a user (walkDone (.disp d) s)
    | (.fault c l, s) => .fault c l (walkDone (.disp d) s)
    | (.remote key lvl, s) =>
      let (lost, s) := goRemote d (.disp d) key s
      if lost then .fault 4 lvl (walkDone (.disp d) s) else .miss false s
    | (.wait key, s) => .miss false <| (walkDone (.disp d) s).modDie d fun x => { x with walkWaits := (asid, va / 65536, key) :: x.walkWaits }

/-- A translation for the device's own accesses, which have no core whose walker could serve them: what the slice lacks is
walked at once (DEDUCED, log 13). A miss is a walk that waits, or a page of another package whose response has not come. -/
def translateNow (d : Nat) (va : Word) (asid : BitVec 16) (a : Access) (user : Bool) (s : State) : Xlat :=
  if va.extractLsb' 55 9 ≠ 0#9 then .fault 3 1 s
  else
    match (match lookupT d va.toNat asid a user s with
      | .miss _ s => walkNow d va.toNat asid a user s
      | x => x) with
    | .ok l s =>
      (match takeReport d (.disp d) l.va s with
       | (some r, s) => .fault r.code.toNat r.level.toNat s
       | (none, s) => match awaitRemote (.disp d) l.va l.key s with
         | (some s, _) => .ok l s
         | (none, s) => .miss false s)
    | x => x

/-! ## Fault queues (R242, R303) -/

/-- A queue descriptor that may be used: the reserved bits of words 0 and 1, LOG2N and VALID (R242). -/
def descOk (w0 w1 : Word) : Bool :=
  w0.extractLsb' 0 6 == 0#6 && w0.extractLsb' 55 9 == 0#9 && w1.extractLsb' 5 11 == 0#11 && w1.extractLsb' 33 31 == 0#31
    && w1.getLsbD 32 && decide (1 ≤ (w1.extractLsb' 0 5).toNat) && decide ((w1.extractLsb' 0 5).toNat ≤ 16)
def descBase (w0 : Word) : Nat := 64 * (w0.extractLsb' 6 49).toNat
def descSlots (w1 : Word) : Nat := 2 ^ (w1.extractLsb' 0 5).toNat

/-- The `m` bytes of a location in a line that a cache holds as an entry is posted: each clean byte is what it was or what is posted,
which is free (R303). -/
def Line.shows (x : Line) (l : Loc) (m : Nat) (v : VWord) (choice : Nat) : Line :=
  { x with data := (List.range m).foldl (fun acc i =>
      if choice / 2 ^ i % 2 = 1 && !x.dirty.getLsbD (l.off + i) then linePut acc (l.off + i) 1 (lineGet (v.zeroExtend 1024) i 1) else acc) x.data }
/-- The copies of a line that caches hold, where an entry has been posted in a page with C = 1. -/
def staleCopies (l : Loc) (m : Nat) (v : VWord) (s : State) : State :=
  if !l.c then s
  else
    let s := s.tiles.foldl (fun acc (t, x) =>
      if (findLine x.l1 l.asid l.vline).isNone then acc
      else
        let (k, acc) := acc.nextFree
        acc.modTile t fun x => { x with l1 := modFirst x.l1 (Line.has l.asid l.vline) fun y => y.shows l m v k }) s
    s.dies.foldl (fun acc (d, x) =>
      if (!isRemote l.key && homeDie l.key == d) || (findLine x.lines l.asid l.vline).isNone then acc
      else
        let (k, acc) := acc.nextFree
        acc.modDie d fun x => x.modLine l.asid l.vline fun y => y.shows l m v k) s
/-- Words 2 to 7, then word 0 empty, last word 1 full, at the home (R303). -/
def writeEntry (l : Loc) (words : List Word) (s : State) : State :=
  let s := (List.range 6).foldl (fun acc k => homePutWord (l.add (16 + 8 * k)) (words.getD (k + 1) 0) acc) s
  let s := setFE l.key false (homePutWord l 0 s)
  let s := setFE (l.key + 8) true (homePutWord (l.add 8) (words.getD 0 0) s)
  staleCopies l 64 (wordsValue (0 :: words.take 7)) s

/-- A physical location, which no cache holds. -/
def physLoc (key : Nat) : Loc :=
  { key := key, va := key, asid := 0, large := false, scope := 7, c := false, w := true, watch := false }

/-- What comes of a post: the key of the entry's reply word, or the post as it is held. -/
inductive Posted where
  | made (key : Nat) (s : State)
  | held (p : Posting) (s : State)

/-- The entry at a location has been reserved: it is written, or the post waits while the entry's word 1 is full (R303). -/
def Posting.fill (p : Posting) (e : Loc) (s : State) : Posted :=
  if feFull s (e.key + 8) then .held { p with entry := some e } s else .made e.key (writeEntry e p.words s)

/-- Post to the paging fault queue, which reserves an entry first (R303). -/
def postPfq (p : Posting) (s : State) : Posted :=
  let q := (s.pkg.pfqbase &&& 0xFFFFFFFFFFC0#64).toNat
  let w0 := memWord s q
  let w1 := memWord s (q + 8)
  if q = 0 || !isDram q || !descOk w0 w1 then .held p s
  else
    let tail := memWord s (q + 16)
    let e := descBase w0 + 64 * (tail.toNat % descSlots w1)
    if !isDram e then .held p s else p.fill (physLoc e) (memSetWord (q + 16) (tail + 1) s)

/-- The forward bit of word 1 (R304): the entry goes to the paging fault queue in place of a tenant's. -/
def forwarded (words : List Word) : List Word := words.set 0 (words.getD 0 0 ||| 0x40000000#64)
def Posting.forward (p : Posting) : Posting := { p with words := forwarded p.words, vf := none, entry := none }
/-- The tenant's fault queue: FQ of the VF's admission entry (R252). -/
def tenantQueue (s : State) (vf : Nat) : Word := memWord s ((s.pkg.admbase &&& 0xFFFFFFFF0000#64).toNat + 64 * vf + 32)

/-- Post to a tenant's fault queue from die `d`; a post that fails goes to the paging fault queue with FWD = 1 (R303). -/
def postTenant (d vf : Nat) (p : Posting) (s : State) : Posted :=
  let fq := tenantQueue s vf
  if fq.extractLsb' 0 6 ≠ 0#6 then postPfq p.forward s
  else
    match translateNow d fq p.asid Access.atomic false s with
    | .miss _ s => .held p s
    | .fault _ _ s => postPfq p.forward s
    | .ok l s =>
      let w0 := homeGetWord s l
      let w1 := homeGetWord s (l.add 8)
      if !descOk w0 w1 then postPfq p.forward s
      else
        let tail := homeGetWord s (l.add 16)
        match translateNow d (BitVec.ofNat 64 (descBase w0 + 64 * (tail.toNat % descSlots w1))) p.asid Access.atomic false s with
        | .miss _ s => .held p s
        | .fault _ _ s => postPfq p.forward s
        | .ok e s => p.fill e (homePutWord (l.add 16) (tail + 1) s)

/-- Make a post from die `d`, or go on with one that has reserved its entry, which a tenant's queue reaches by a new translation (R104,
R303). -/
def post (d : Nat) (p : Posting) (s : State) : Posted :=
  match p.entry, p.vf with
  | some e, none => p.fill e s
  | some e, some _ =>
    (match translateNow d (BitVec.ofNat 64 e.va) p.asid Access.atomic false s with
     | .miss _ s => .held p s
     | .fault _ _ s => postPfq p.forward s
     | .ok e s => p.fill e s)
  | none, some vf => postTenant d vf p s
  | none, none => postPfq p s

/-- Make a post now or hold it at the dispatcher of die `d` (R303). -/
def postOrHold (d : Nat) (vf : Option Nat) (asid : BitVec 16) (words : List Word) (s : State) : State :=
  match post d (posting vf asid words) s with
  | .made _ s => s
  | .held p s => holdPosting d p s

/-- Try the posts that a die holds, in order (R303). -/
def retryPosts (d : Nat) (s : State) : State :=
  let ps := (s.die d).posts
  let s := s.modDie d fun x => { x with posts := [] }
  ps.foldl (fun acc p =>
    match post d p.posting acc with
    | .made key acc =>
      match p.done with
      | none => acc
      | some h => acc.modDie d fun x => { x with holds := x.holds ++ [{ h with reply := some key }] }
    | .held q acc => acc.modDie d fun x => { x with posts := x.posts ++ [{ p with posting := q }] }) s

end Sys2Proof.Machine
end

