-- ==== Sys2Proof/Machine/Ops.lean ====
section
/-! DEFINITION. What every instruction shares: taking a trap and returning from one, scout mode, the two halves passing over
each other's instructions, guards and tokens, and the step to the next instruction (02_idioms.md R24, R25, 03_encoding.md
R38, R39, R46, R50, R51, 15_traps_preemption.md R295 to R303). -/
namespace Sys2Proof.Machine

/-! ## Queues of a slot -/

/-- Push an entry into a half's outgoing branch queue. -/
def Slot.pushBq (sl : Slot) (h : Half) (e : BqEntry) : Slot :=
  match h with
  | .access => { sl with bqa := sl.bqa ++ [e] }
  | .execute => { sl with bqx := sl.bqx ++ [e] }
/-- A half's outgoing and incoming branch queues. -/
def Slot.bqOut (sl : Slot) : Half → List BqEntry | .access => sl.bqa | .execute => sl.bqx
def Slot.bqIn (sl : Slot) (h : Half) : List BqEntry := sl.bqOut (otherHalf h)
/-- Take the oldest entry of a half's incoming branch queue; its checkpoints remember it (R296). -/
def Slot.popBq (sl : Slot) (h : Half) : Slot :=
  match sl.bqIn h with
  | [] => sl
  | e :: rest =>
    let sl := match h with
      | .access => { sl with bqx := rest }
      | .execute => { sl with bqa := rest }
    { sl with ckpts := sl.ckpts.map fun c => if c.half == h then { c with bqGone := c.bqGone ++ [e] } else c }
/-- Take the oldest n entries of lq (R24, R44). -/
def Slot.popLq (sl : Slot) (n : Nat) : Slot :=
  { sl with lq := sl.lq.drop n,
            scout := sl.scout.map fun sc => { sc with lqNa := sc.lqNa.drop n },
            ckpts := sl.ckpts.map fun c => if c.half == .execute then { c with lqGone := c.lqGone ++ sl.lq.take n } else c }
/-- The index of the execute half's instruction that writes: CVLD has retired when its unit gives its words (R199, R205). -/
def Slot.sqIndex (sl : Slot) : Nat := if sl.xwai == .conversion then sl.xr.pos - 1 else sl.xr.pos
/-- Push words into sq (R26); a word that a store took before a trap undid its push is not pushed again (R296). -/
def pushSq (n : Nat) (ws : List Word) (s : State) : State :=
  let s := ws.foldl (fun acc w => acc.modSlot n fun sl =>
    let sl' : Slot := { sl with xr := { sl.xr with sqPushed := sl.xr.sqPushed + 1 } }
    if sl.xr.sqPushed < sl.sqTaken then sl' else { sl' with sq := sl.sq ++ [{ pos := sl.sqIndex, word := w }] }) s
  feedSq n 32 s

/-! ## Restoring the halves to an instruction (R296) -/

/-- A half that has passed the instruction with index `F` goes back to the state in which it stood there. -/
def Slot.backHalf (sl : Slot) (h : Half) (F : Nat) : Slot :=
  match if sl.posOf h ≤ F then none else sl.ckpts.find? (fun c => c.half == h && c.pos == F) with
  | none => sl
  | some c =>
    (match h with
      | .access => { sl with ar := c.a, bqx := c.bqGone ++ sl.bqx }
      | .execute => { sl with xr := c.x, bqa := c.bqGone ++ sl.bqa, lq := c.lqGone ++ sl.lq }).setWait h .none

/-- Undo what the instruction with index `F` and later ones have put into the slot's queues: their entries, their loads and
stores with the words of sq that these took and the pending release that they used, and the tokens pushed early. -/
def Slot.undoFrom (sl : Slot) (F : Nat) : Slot :=
  let undone := sl.stores.filter (fun x => decide (F ≤ x.pos))
  let words := undone.flatMap fun x => gotWords x.data
  { sl with
    lq := dropAll sl.lq (fun e => decide (F ≤ e.pos)), bqa := dropAll sl.bqa (fun e => decide (F ≤ e.pos)),
    bqx := dropAll sl.bqx (fun e => decide (F ≤ e.pos)),
    sq := words.map (fun w => ({ pos := 0, word := w } : SqEntry)) ++ dropAll sl.sq (fun e => decide (F ≤ e.pos)),
    sqTaken := sl.sqTaken - words.length,
    loads := dropAll sl.loads (fun x => decide (F ≤ x.pos)), stores := dropAll sl.stores (fun x => decide (F ≤ x.pos)),
    sys := { sl.sys with relpend := (undone.findSome? fun x => x.relWas).getD sl.sys.relpend },
    xr := { sl.xr with tok := none }, ckpts := [], ffGot := none }

/-- Both halves go back to the instruction with index `F`, which they have issued or stand at, and it and every later one is
undone. -/
def Slot.backTo (sl : Slot) (F : Nat) : Slot := ((sl.backHalf .access F).backHalf .execute F).undoFrom F
/-- Undo every later instruction of the half that is ahead: `h` is the half that stands at the instruction. -/
def Slot.restoreTo (sl : Slot) (h : Half) : Slot := sl.backTo (sl.posOf h)

/-! ## Accesses in flight (R26, R130, R239, R295, R339) -/

/-- Two accesses of n and m bytes name a common byte, FIFO bank or register. -/
def Target.same (a b : Target) (n m : Nat) : Bool :=
  match a, b with
  | .mem x, .mem y => overlaps x.key n y.key m
  | .scratch t b o, .scratch t' b' o' => t == t' && b == b' && overlaps o n o' m
  | .fifo t b _, .fifo t' b' _ => t == t' && b == b'
  | .phys k, .phys k' => overlaps k n k' m
  | .reg p _, .reg q _ => p == q
  | _, _ => false
/-- Two accesses name the scratchpad of one tile, where they are performed in program order (R130). -/
def Target.sameTile (a b : Target) : Bool := (targetTile a).isSome && targetTile a == targetTile b
/-- Two accesses that are ordered at their target whatever else orders them; those of register space are. -/
def Target.meets (a b : Target) (n m : Nat) : Bool :=
  a.same b n m || a.sameTile b || match a, b with | .reg _ _, .reg _ _ => true | _, _ => false

/-- The slot's escrowed stores that overlap an access. -/
def escrowOver (s : State) (n : Nat) (l : Loc) (m : Nat) : List EscrowStore :=
  match s.taskOf n with
  | none => []
  | some t => t.escrow.filter fun e => overlaps e.loc.key e.size.bytes l.key m && e.op.writes
/-- The slot's own earlier stores in the pipeline that overlap an access at index `pos`. -/
def pendingOver (sl : Slot) (pos : Nat) (tgt : Target) (m : Nat) : List PStore :=
  sl.stores.filter fun x => decide (x.pos < pos) && x.op.writes && x.tgt.same tgt x.bytes m
/-- An access at index `pos` must follow an earlier store of the slot that still lacks its data (R26, R130). -/
def behindOwed (s : State) (n pos : Nat) (tgt : Target) (m : Nat) : Bool :=
  (s.slot n).stores.any (fun x => decide (x.pos < pos) && owedIn x.data != 0 && x.tgt.meets tgt x.bytes m)
    || match tgt with | .mem l => (escrowOver s n l m).any (fun e => owedIn e.data != 0) | _ => false

/-- An acquire that has issued before `pos` has not taken effect yet. -/
def acquirePending (sl : Slot) (pos : Nat) : Bool :=
  sl.loads.any (fun x => x.acq && decide (x.pos < pos)) || sl.stores.any (fun x => x.acq && decide (x.pos < pos))
/-- An operation of the engines or the conversion unit that slot n has issued before `pos` has not read its operands yet: it may still
find poison (R339). -/
def unitReads (s : State) (n pos : Nat) : Bool :=
  let tl := s.tile (tileOfSlot n)
  decide ((s.slot n).xr.pos ≤ pos)
    && ((s.slot n).xwai == .conversion && tl.conv.any (fun o => o.slot == n && o.got.isNone)
      || (s.slot n).xwai == .engine && tl.eng.ops.any fun o => o.slot == n && o.started && !o.read)
/-- A load or an atomic that has issued before `pos` may still bring poison, which is consumed before any later effect (R339).
One that waits for the data of a store of the slot holds nothing back, since that data may come later in program order. -/
def openAccess (s : State) (n pos : Nat) : Bool :=
  (s.slot n).loads.any (fun x => decide (x.pos < pos) && !behindOwed s n x.pos x.tgt x.size.bytes)
    || ((s.slot n).stores.any fun x => x.op.isAtom && decide (x.pos < pos) && owedIn x.data == 0)
    || unitReads s n pos
/-- A scratchpad access that has issued before `pos` may still find its tile fenced (R129). One that waits for the data of a store
of the slot holds nothing back. -/
def lateAccess (s : State) (n pos : Nat) : Bool :=
  let scratch (t : Target) : Bool := (targetTile t).isSome
  (s.slot n).loads.any (fun x => decide (x.pos < pos) && scratch x.tgt && !behindOwed s n x.pos x.tgt x.size.bytes)
    || (s.slot n).stores.any fun x => decide (x.pos < pos) && scratch x.tgt && owedIn x.data == 0
/-- A BCPOST that has issued before `pos` and whose checks are still to be made (R26, R144). -/
def postPending (sl : Slot) (pos : Nat) : Bool := sl.stores.any fun x => x.op == .bcPost && decide (x.pos < pos)
/-- The instruction with index `p` has issued and may still trap, or be left unissued by an event: a BCPOST that has not taken
effect, a scratchpad access whose tile may be fenced first (R129), or a load for whose value the half waits. -/
def Slot.late (sl : Slot) (p : Nat) : Bool :=
  sl.stores.any (fun x => x.pos == p && (x.op == .bcPost || (targetTile x.tgt).isSome))
    || sl.loads.any (fun x => x.pos == p && (targetTile x.tgt).isSome) || sl.awai == .load p
/-- The slot can go back to the instruction with index `p`: the execute half has issued what precedes it, the checkpoints of the
halves that have passed it are at hand, and no later instruction has had an outside effect. -/
def Slot.canBack (sl : Slot) (p : Nat) : Bool :=
  let at' (h : Half) : Bool := decide (sl.posOf h ≤ p) || sl.ckpts.any fun c => c.half == h && c.pos == p
  decide (p ≤ sl.xr.pos) && at' .access && at' .execute && sl.scout.isNone && decide (sl.eff ≤ p)
/-- The instruction with index `p` has an outside effect while a scratchpad store before it is on its way: that store can no longer
be undone. -/
def Slot.passes (sl : Slot) (p : Nat) : Bool :=
  decide (sl.eff < p) && sl.stores.any fun x => decide (x.pos < p) && (targetTile x.tgt).isSome
def Slot.passScratch (sl : Slot) (p : Nat) : Slot := if sl.passes p then { sl with eff := p } else sl

/-- An acquire that was issued at an index has taken effect. -/
def Slot.acquired (sl : Slot) (pos : Nat) : Slot :=
  { sl with bqa := modFirst sl.bqa (fun e => e.type == .acquire && e.pos == pos) fun e => { e with value := true } }

/-- A half that waits for the value of an instruction goes on. -/
def Slot.freeLoad (sl : Slot) (pos : Nat) : Slot := if sl.awai == .load pos then { sl with awai := .none } else sl

/-- A store of a slot has gone. -/
def endStore (n : Nat) (x : PStore) (s : State) : State :=
  s.modSlot n fun sl =>
    let sl := sl.passScratch x.pos
    let sl := { sl with stores := dropAll sl.stores (fun y => y.pos == x.pos && y.op == x.op) }
    let sl := match x.dest with | .a _ => sl.freeLoad x.pos | _ => sl
    if x.acq then sl.acquired x.pos else sl

/-! ## Entering the supervisor handler (R299, R300) -/

/-- A task ends as status 2 of R305 says: a body is discarded without re-queue, with its dependants; a tail stops; DONE is
not updated. -/
def stopTask (id : Nat) (s : State) : State :=
  match s.task? id with
  | none => s
  | some t => if t.committed then removeTask id t (t.slots.foldl (fun acc n => finishStores n acc) s)
              else discardBody id false false 0 s

/-- The double trap (R300). The walker, which no task binds, stops for good. -/
def doubleTrap (n : Nat) (s : State) : State :=
  let vf := s.vfOf n
  let asid := s.asidOf n
  let ts := (s.slot n).sys.tsr
  let s := finishStores n s
  let s := if isWalker n then s.modSlot n fun sl => { sl with awai := .faultPost, xwai := .faultPost }
           else stopTask (s.slot n).task s
  let s := logEvent 4 (some (dieOfSlot n)) (some (tileOnDie (tileOfSlot n))) s
  let words := faultEntry (faultWord1 10 0 0 0 n vf asid) ts 0
  -- an entry without a task's address space is forwarded (R303)
  postOrHold (dieOfSlot n) none asid (if isWalker n then forwarded words else words) s

/-- Enter the supervisor handler of a slot, whose halves already stand at one instruction: the ONE operation that takes a
trap (R299). The record holds the kind and the detail, the first 64 bits of the instruction, the address where the slot
resumes and the address that the trap names. -/
def enterHandler (n kind : Nat) (detail : Nat) (insn tpc tva : Word) (s : State) : State :=
  let sl := (s.slot n).undoFrom (max (s.slot n).ar.pos (s.slot n).xr.pos)
  if sl.super || isWalker n then doubleTrap n s
  else
    let s := leaveQueues n s
    let p := max sl.ar.pos sl.xr.pos + 1
    let pc := (s.core (coreOfSlot n)).tvec
    s.setSlot n { sl with
      trap := { tcause := BitVec.ofNat 64 (kind + 65536 * (detail % 2 ^ 32)), tinsn := insn, tpc := tpc, tva := tva,
                tstat := sl.inUi },
      super := true, ctxa := tpc, ctxx := tpc, ar := { sl.ar with pos := p, pc := pc, bad := false },
      xr := { sl.xr with pos := p, pc := pc, bad := false }, awai := .none, xwai := .none, ckpts := [], held := none }

/-- A pre-emption request for the slot is pending in its core's `PREQ` (R307). -/
def preDue (s : State) (n : Nat) : Bool := (s.core (coreOfSlot n)).preq.getLsbD (laneOfSlot n)
/-- One of the traps of R297 is due to the slot. -/
def trapDue (s : State) (n : Nat) : Bool := preDue s n || !(s.slot n).bcDue.isEmpty || (s.slot n).semDue.isSome || (s.slot n).scDue.isSome

/-- One of the events of WAITE is due; a watchdog expiry ends the task itself. -/
def waiteDue (s : State) (n : Nat) : Bool :=
  !(s.slot n).done.isEmpty || (s.slot n).ports.toList.any (fun q => !q.isEmpty) || preDue s n

/-- Leave the supervisor handler (R313): SUPER clears, the bank that TSTAT.UIACT names returns, and both halves resume at
the context's PCA and PCX. Events that the handler held wait for UIRET when a completion handler goes on (R297). -/
def leaveHandler (n : Nat) (s : State) : State :=
  s.modSlot n fun sl =>
    let p := max sl.ar.pos sl.xr.pos + 1
    { sl with super := false, inUi := sl.trap.tstat, uiHold := sl.trap.tstat && (sl.uiHold || trapDue s n),
              ar := { sl.ar with pos := p, pc := sl.ctxa, bad := false },
              xr := { sl.xr with pos := p, pc := sl.ctxx, bad := false }, ckpts := [] }

/-! ## Scout mode (R302) -/

/-- Restore the whole slot to the checkpoint that scout mode began with. -/
def Slot.rollback (sl : Slot) (sc : Scout) : Slot :=
  { sl with ar := sc.ac, xr := sc.xc, lq := sc.lq, sq := sc.sq, bqa := sc.bqa, bqx := sc.bqx, ckpts := [],
            loads := dropAll sl.loads (fun x => decide (sc.pos ≤ x.pos)),
            stores := dropAll sl.stores (fun x => decide (sc.pos ≤ x.pos)),
            awai := .none, xwai := .none, scout := none }

/-- The words 1 to 7 of the entry of kind 1 that scout mode has collected (R304). -/
def scoutWords (n vf : Nat) (asid : BitVec 16) (sc : Scout) : List Word :=
  let page (p : ScoutPage) : Nat := (p.delta % 2 ^ 29).toNat + 2 ^ 29 * p.kind.toNat
  let pages := sc.pages.map page
  let w := (List.range 4).map fun k => BitVec.ofNat 64 (pages.getD (2 * k) 0 + 2 ^ 32 * pages.getD (2 * k + 1) 0)
  [faultWord1 1 (1 + pages.length) sc.code.toNat sc.level.toNat n vf asid, sc.tsr,
   BitVec.ofNat 64 (sc.va % 2 ^ 55 + 2 ^ 56 * sc.kind.toNat)] ++ w

/-- Scout mode ends: the slot rolls back and parks on the post of its batch, which is made when it can be (R302, R303). -/
def endScout (n : Nat) (s : State) : State :=
  let sl := s.slot n
  match sl.scout with
  | none => s
  | some sc =>
    let s := forgetAsks n s
    let words := scoutWords n (s.vfOf n) (s.asidOf n) sc
    let va := BitVec.ofNat 64 sc.va
    let sl := sl.rollback sc
    match post (dieOfSlot n) (posting none (s.asidOf n) words) s with
    | .made key s => s.setSlot n { sl with
        fva := va, awai := .faultWord key false, xwai := .faultWord key false, fentry := words, finsn := sc.insn }
    | .held p s => s.setSlot n { sl with fva := va, awai := .faultPost, xwai := .faultPost, fentry := words, finsn := sc.insn,
                                         post := some { posting := p, code := false } }

/-! ## Raising a trap (R296) -/

/-- A half waits for the result of an earlier instruction past which it has moved. -/
def Slot.owesResult (sl : Slot) (h : Half) (F : Nat) : Bool :=
  match sl.waitOf h with
  | .load p => decide (p < F)
  | .engine => true
  | .conversion => true
  | _ => false

/-- An instruction before `F` has issued and may trap before it, as soon as its access is performed. -/
def lateBefore (s : State) (n F : Nat) : Bool :=
  let sl := s.slot n
  sl.loads.any (fun x => decide (x.pos < F) && sl.late x.pos && !behindOwed s n x.pos x.tgt x.size.bytes)
    || sl.stores.any fun x => decide (x.pos < F) && owedIn x.data == 0
      && (x.op == .bcPost || match x.tgt with | .scratch _ _ _ => true | _ => false)
/-- The halves meet at the instruction of the half that issues before it traps or faults: the other half first issues
every earlier instruction, and what it waits for there takes place. -/
def canMeet : M Unit := do
  let s ← get
  let sl := s.me
  let h := s.cur.half
  holdUnless (decide (sl.posOf h ≤ sl.posOf (otherHalf h)) && !sl.owesResult (otherHalf h) (sl.posOf h)
    && !lateBefore s s.cur.slot (sl.posOf h))
def meetAt : M Unit := do
  canMeet
  let h := (← get).cur.half
  modify fun s => leaveQueues s.cur.slot (s.modMe fun sl => sl.restoreTo h)

/-- Raise a trap at the instruction `i`. In scout mode no trap is raised and the mode ends (R302). -/
def raiseAt {α : Type} (insn : Word) (kind detail : Nat) (tva : Word) : M α := do
  let s ← get
  if s.me.scout.isSome then haltWith (endScout s.cur.slot)
  meetAt
  haltWith fun s => enterHandler s.cur.slot kind detail insn (s.me.pcOf s.cur.half) tva s
def raise {α : Type} (i : Instr) (kind detail : Nat) (tva : Word) : M α := raiseAt i.word kind detail tva

/-- A translation fault (R302, R305): of a supervisor access, a double trap (R300); of a scout access, a page of the batch
or the end of the mode; else the slot begins scout mode at the instruction, whose results it makes unavailable by `skip`. -/
def pageDelta (va first : Nat) : Int := (va / 65536 : Nat) - (first / 65536 : Nat)

/-- Begin scout mode at the instruction that faulted; both halves stand at it. -/
def startScout (insn : Word) (code lvl va : Nat) (kind : BitVec 3) (sl : Slot) : Slot :=
  { sl with scout := some {
      pos := max sl.ar.pos sl.xr.pos, code := BitVec.ofNat 4 code, level := BitVec.ofNat 2 lvl, va := va, kind := kind,
      tsr := sl.sys.tsr, insn := insn, ac := sl.ar, xc := sl.xr, lq := sl.lq, sq := sl.sq, bqa := sl.bqa, bqx := sl.bqx, pages := [],
      aNa := 0, wNa := 0, gNa := 0, pNa := 0, vNa := 0, mNa := 0, lqNa := sl.lq.map fun _ => false, dropped := [],
      issued := 0, atA := 0, atX := 0 } }

/-- A fault of a scout access: code 1 or 2 on a new 64 KiB page adds the page, and anything else ends the mode (R302). -/
def scoutFault (code va : Nat) (kind : BitVec 3) (n : Nat) (s : State) : State :=
  match (s.slot n).scout with
  | none => s
  | some sc =>
    let d := pageDelta va sc.va
    if (code = 1 ∨ code = 2) ∧ d.natAbs ≤ 2 ^ 28 then
      if d = 0 ∨ sc.pages.any (fun p => p.delta == d) then s
      else
        let sc := { sc with pages := sc.pages ++ [{ delta := d, kind := kind }] }
        let s := s.modSlot n fun sl => { sl with scout := some sc }
        if sc.pages.length = 8 then endScout n s else s
    else endScout n s

/-! ## Positions and program counters (R38, R39) -/

/-- The address after an instruction: the four bytes at offset 28 of a block are never decoded (R39). -/
def nextPc (pc : Word) (len : Nat) : Word :=
  let p := pc + BitVec.ofNat 64 len
  if p.extractLsb' 0 5 = 28#5 then p + 4 else p

/-- A half moves past its instruction to an address; the checkpoints that only this instruction needed go. -/
def Slot.advance (sl : Slot) (h : Half) (pc : Word) : Slot :=
  let p := sl.posOf h
  ((sl.setPc h pc).setPos h (p + 1)).setWait h .none |> fun sl =>
    { sl with ckpts := dropAll sl.ckpts (fun c => c.half != h && decide (c.pos ≤ p) && !sl.late c.pos), held := none }

/-- The half that issues moves on to the next instruction, or to a target. -/
def retireTo (pc : Word) : M Unit := modify fun s => s.modMe fun sl => sl.advance s.cur.half pc
def retire (i : Instr) : M Unit := modify fun s =>
  s.modMe fun sl => sl.advance s.cur.half (nextPc (sl.pcOf s.cur.half) i.bytes)
/-- Both halves move on after a joint instruction (R51). -/
def Slot.advanceBoth (sl : Slot) (pc : Word) : Slot := (sl.advance .access pc).advance .execute pc
def retireBoth (i : Instr) : M Unit := actMe fun sl => sl.advanceBoth (nextPc sl.ar.pc i.bytes)

/-! ## Streams (R48) and what a half meets -/

/-- The stream of an instruction. A branch names the half that resolves it (R162); `each` is a branch that each half takes
on its own. -/
inductive Stream where
  | skip
  | access
  | execute
  | branch (h : Half)
  | each
  | joint
deriving DecidableEq, Repr

/-- The class of a W-class register (R47): `mem` says that code 0x38 is neutral, as in the load and store groups. -/
def wClass (mem : Bool) : WReg → RC
  | .w _ => .exe
  | .g n => if n = 0#3 then .neu else .exe
  | .a _ => .acc
  | .q => if mem then .neu else .exe
  | .mp _ => .exe
  | .lkw => .exe
  | .lke => .exe
  | .const _ _ => .neu

/-- The stream of 0x10 to 0x28 and 0x2D to 0x2F (R162). -/
def aluStream (rs : List WReg) : Stream := if rs.any (fun r => wClass false r == .acc) then .access else .execute
/-- The half that resolves a branch on registers (R162). -/
def branchStream (rs : List WReg) : Stream :=
  .branch (if rs.any (fun r => wClass false r == .acc) then .access else .execute)

/-- How an instruction stands to the two halves: its stream, its guard, and whether it is of the release and of the acquire
class (R46, R48, R50). -/
structure Form where
  instr  : Instr
  guard  : Guard
  stream : Stream
  rel    : Bool
  acq    : Bool

def mkForm (i : Instr) (g : Guard) (st : Stream) : Form := { instr := i, guard := g, stream := st, rel := false, acq := false }

/-- A predicate; p0 reads as 1 (R153). -/
def Slot.readP (sl : Slot) (n : PReg) : Bool := n == 0#3 || sl.xr.p.getLsbD n.toNat
/-- Whether a guard passes (R40, R46). -/
def Slot.guardPasses (sl : Slot) (g : Guard) : Bool := sl.readP g.p != g.neg
/-- A guard by p0 has a fixed value and waits for nothing (R46). -/
def guardFixed (g : Guard) : Bool := g.p == 0#3

/-- An instruction that may trap after it has issued (R129, R144), or for whose value the access half may wait (R137). -/
def trapsLate : Instr → Bool
  | .bcpost _ | .lds _ | .ldsx _ | .sts _ | .stsx _ | .ld _ | .ldx _ => true
  | .aadd _ | .afadd _ | .amin _ | .amax _ | .aand _ | .aor _ | .axor _ | .aswp _ | .acas _ => true
  | _ => false
/-- While the other half has not issued the instruction at which a half stands, that instruction may still trap, and a
checkpoint of the half is kept (R296); so it is for an instruction that may trap after it has issued. -/
def Slot.keepCkpt (sl : Slot) (h : Half) (i : Instr) : Slot :=
  if (trapsLate i || sl.posOf (otherHalf h) ≤ sl.posOf h) && !sl.ckpts.any (fun c => c.half == h && c.pos == sl.posOf h) then
    { sl with ckpts := sl.ckpts ++ [{ half := h, pos := sl.posOf h, a := sl.ar, x := sl.xr, lqGone := [], bqGone := [] }] }
  else sl

/-- A half passes over an instruction of the other stream, with the tokens that it pushes and takes. -/
def passOver (i : Instr) (push : List BqEntry) (pop : Nat) : M Unit := do
  modify fun s => s.modMe fun sl =>
    let h := s.cur.half
    let sl := push.foldl (fun acc e => acc.pushBq h e) sl
    let sl := (List.range pop).foldl (fun acc _ => acc.popBq h) sl
    sl.advance h (nextPc (sl.pcOf h) i.bytes)

/-- An entry that a half pushes at its present instruction. -/
def bqEntry (sl : Slot) (h : Half) (ty : BqType) (v : Bool) : BqEntry :=
  { pos := sl.posOf h, type := ty, value := v, offset := 0 }

/-- Wait for room for k entries in the outgoing branch queue of the half that issues (R25). -/
def needBqRoom (k : Nat) : M Unit := do
  let s ← get
  if 8 < (s.me.bqOut s.cur.half).length + k then park .branchRoom else pure ()
/-- The oldest entry of the incoming branch queue (R25). -/
def needBqHead : M BqEntry := do
  let s ← get
  match s.me.bqIn s.cur.half with
  | e :: _ => return e
  | [] => park .branchEmpty

/-- Count an instruction with index `p` that a half issues in scout mode, once. -/
def Scout.count (sc : Scout) (h : Half) (p : Nat) : Scout :=
  match h with
  | .access => if sc.atA = p then sc else { sc with issued := sc.issued + 1, atA := p }
  | .execute => if sc.atX = p then sc else { sc with issued := sc.issued + 1, atX := p }
/-- Scout mode counts the instructions it issues and ends after 512 (R302). -/
def scoutCount (outside : Bool) : M Unit := do
  let s ← get
  match s.me.scout with
  | none => pure ()
  | some sc =>
    if outside || decide (512 ≤ sc.issued) then haltWith (endScout s.cur.slot)
    else actMe fun sl => { sl with scout := some (sc.count s.cur.half (sl.posOf s.cur.half)) }

/-- A branch condition or a guard that is unavailable ends scout mode (R302). -/
def scoutGuard (g : Guard) : M Unit := do
  let s ← get
  match s.me.scout with
  | none => pure ()
  | some sc => if !guardFixed g && sc.pNa.getLsbD g.p.toNat then haltWith (endScout s.cur.slot) else pure ()

/-- A half that waits at the joint instruction itself meets the other there; one that still waits for an earlier
instruction does not (R51). -/
def Wait.mayMeet : Wait → Bool
  | .none => true
  | .meeting => true
  | _ => false

/-- The beginning of every instruction. The role check (R57 check 4) comes first. A half that meets an instruction of the
other stream passes over it, with the guard it owes (R46) and the tokens of R50; a half that meets one of its own goes on
when the guard passes, and a guarded-off instruction has no effect. At a joint instruction the half waits for the other
(R51). `outside` says that the instruction's effect lies outside the slot, which scout mode does not make (R302). -/
def begin (f : Form) (outside : Bool) : M Unit := do
  let s ← get
  let h := s.cur.half
  let sl := s.me
  if f.instr.roleBad s.myRole then raise f.instr 4 ((encode f.instr).op.toNat) 0
  let off : Bool := guardFixed f.guard && f.guard.neg
  match f.stream with
  | .skip => do passOver f.instr [] 0; halt
  | .each => if h = .access then scoutCount false else pure ()
  | .branch r => if h = r then scoutCount false else pure ()
  | .joint =>
    if sl.posOf (otherHalf h) ≠ sl.posOf h ∨ !(sl.waitOf (otherHalf h)).mayMeet then park .meeting
    scoutGuard f.guard
    if !sl.guardPasses f.guard then do retireBoth f.instr; halt
    scoutCount outside
  | .execute =>
    if h = .access then do passOver f.instr [] 0; halt
    scoutGuard f.guard
    if !sl.guardPasses f.guard then do retire f.instr; halt
    scoutCount outside
  | .access =>
    if h = .execute then do
      scoutGuard f.guard
      -- the guard it owes, a release token, and the acquire token that it must find
      let guards := if guardFixed f.guard then [] else [bqEntry sl h .guard (sl.guardPasses f.guard)]
      let runs := if guardFixed f.guard then !off else sl.guardPasses f.guard
      let rels := if f.rel && runs then [bqEntry sl h .release true] else []
      if f.acq && runs then do
        -- its own tokens go out first, once; the acquire has taken effect when its token says so (R50)
        if sl.xr.tok ≠ some sl.xr.pos then do
          needBqRoom (guards.length + rels.length)
          actMe fun sl => (guards ++ rels).foldl (fun acc e => acc.pushBq .execute e) { sl with xr := { sl.xr with tok := some sl.xr.pos } }
        let e ← needBqHead
        if !e.value then park .branchEmpty
        passOver f.instr [] 1
        halt
      needBqRoom (guards.length + rels.length)
      passOver f.instr (guards ++ rels) 0
      halt
    if off then do retire f.instr; halt
    if !(guardFixed f.guard) then do
      -- a guard token stays at the head until the instruction is done with
      let e ← needBqHead
      if !e.value then do
        actMe fun sl => sl.popBq .access
        retire f.instr
        halt
      if f.rel then do
        let q := (← get).me.bqIn .access
        if q.length < 2 then park .branchEmpty
    else if f.rel then do
      let _ ← needBqHead
    if f.acq then needBqRoom 1
    scoutCount outside

/-- The end of an access-stream instruction: its guard and release tokens are taken, and its acquire token is pushed, which
says whether the acquire has taken effect (R46, R50). -/
def finishWith (f : Form) (took : Bool) : M Unit := do
  modify fun s => s.modMe fun sl =>
    let sl := if guardFixed f.guard then sl else sl.popBq .access
    let sl := if f.rel then sl.popBq .access else sl
    if f.acq then sl.pushBq .access (bqEntry sl .access .acquire took) else sl
  retire f.instr
def finishAccess (f : Form) : M Unit := finishWith f true

/-- An outside effect takes place only when every earlier instruction of the slot has issued, in both halves (R295), none of
them can trap or consume poison any more (R339), and every earlier acquire has taken effect (R239). -/
def needEarlier : M Unit := do
  let s ← get
  let h := s.cur.half
  let p := s.me.posOf h
  holdUnless (decide (p ≤ s.me.posOf (otherHalf h)) && !openAccess s s.cur.slot p && !acquirePending s.me p && !postPending s.me p)
  match s.me.awai with
  | .load p => holdUnless (decide (s.me.posOf h ≤ p))
  | _ => pure ()
  if s.me.passes p then actMe fun sl => { sl with eff := p }

end Sys2Proof.Machine
end

