-- ==== Sys2Proof/Machine/Translate.lean ====
section
/-! DEFINITION. Misses, the walker's mailbox and install records, and the translation of a slot's accesses
(05_memory_path.md R96 to R100, 15_traps_preemption.md R302), and the device steps of the walker. -/
namespace Sys2Proof.Machine

/-! ## Records (R97) -/

def Access.need (a : Access) : BitVec 5 :=
  BitVec.ofNat 5 ((if a.r then 1 else 0) + (if a.w then 2 else 0) + (if a.x then 4 else 0) + (if a.quiet then 8 else 0)
    + (if a.d then 16 else 0))
def Miss.access (m : Miss) : Access :=
  { kind := m.kind, r := m.need.getLsbD 0, w := m.need.getLsbD 1, x := m.need.getLsbD 2, quiet := m.need.getLsbD 3,
    d := m.need.getLsbD 4 }
/-- Words 0 and 1 of a miss message. -/
def Miss.message (m : Miss) : Word × Word :=
  (BitVec.ofNat 64 (m.va % 2 ^ 55 + 2 ^ 56 * m.kind.toNat + (if m.conf then 2 ^ 59 else 0) + (if m.user then 2 ^ 60 else 0)),
   BitVec.ofNat 64 (m.asid.toNat + 2 ^ 16 * m.slice + 2 ^ 32 * m.tag.toNat))
/-- The address form of R96 for a memory key, and back. -/
def physForm (key : Nat) : Word :=
  if isRemote key then BitVec.ofNat 64 (key % 2 ^ 48 + 2 ^ 48 * (key / 2 ^ 48 - 1) + 2 ^ 57) else BitVec.ofNat 64 key
def physKey (w : Word) : Nat :=
  pkgKey (if w.getLsbD 57 then some (w.extractLsb' 48 9) else none) (w.extractLsb' 0 48).toNat

/-- Change the first miss that satisfies a test. -/
def Die.modMiss (x : Die) (p : Miss → Bool) (f : Miss → Miss) : Die := { x with misses := modFirst x.misses p f }

/-- Each miss is posted to the mailbox of its core's walker when the mailbox, which holds 16 messages, has room (R97). -/
def postMisses (d : Nat) (s : State) : State :=
  (s.die d).misses.foldl (fun acc m =>
    if m.posted || decide (16 ≤ (acc.core m.core).mailbox.length) then acc
    else
      let acc := acc.modCore m.core fun c => { c with mailbox := c.mailbox ++ [m.message] }
      acc.modDie d fun x => x.modMiss (fun y => y.tag == m.tag && y.slice == m.slice) fun y => { y with posted := true }) s

/-- An access misses: it waits for the miss of its ASID and 64 KiB page, which is made if there is none (R97). -/
def addMiss (d : Nat) (req : Requester) (core va : Nat) (asid : BitVec 16) (a : Access) (conf user : Bool) (s : State) :
    State :=
  let sl := sliceOf va
  let same (m : Miss) : Bool := m.slice == sl && m.asid == asid && m.va / 65536 == va / 65536
  let s :=
    if (s.die d).misses.any same then
      s.modDie d fun x => x.modMiss same fun m =>
        { m with waiters := if m.waiters.contains req then m.waiters else m.waiters ++ [req] }
    else
      let m : Miss := {
        slice := sl, va := va, asid := asid, kind := a.kind, need := a.need, conf := conf, user := user,
        tag := (s.die d).nextTag, core := core, posted := false, stale := false, waiters := [req] }
      s.modDie d fun x => { x with nextTag := x.nextTag + 1, misses := x.misses ++ [m] }
  postMisses d s

/-! ## A slot's accesses -/

/-- A translation fault of an access of the instruction `i` that issues (R302). `skip` makes the results of the instruction
unavailable and moves on in scout mode. -/
def faultAt {α : Type} (i : Instr) (code lvl : Nat) (va : Nat) (kind : BitVec 3) (skip : M Unit) : M α := do
  let s ← get
  let n := s.cur.slot
  let sl := s.me
  if sl.scout.isSome then
    modify (scoutFault code va kind n)
    if (← get).me.scout.isSome then skip
    halt
  if sl.super || isWalker n then
    raise i 6 (code + 16 * lvl) (BitVec.ofNat 64 va)
  meetAt
  actMe (startScout i.word code lvl va kind)
  skip
  halt

/-- The format fault of a virtual address, at level 1 (R92, R138). -/
def checkFormat (i : Instr) (va : Word) (kind : BitVec 3) (skip : M Unit) : M Unit :=
  if va.extractLsb' 55 9 ≠ 0#9 then faultAt i 3 1 va.toNat kind skip else pure ()

/-- Translate an access of the slot that issues (R14, R99): it holds back while the slice's miss is served, parked with the
given cause if any, and raises what the slice reports. A slice in a fenced rectangle, and a home to which no path leads, answer
negatively (R129, R326, R341). In scout mode a page too far from the first ends the mode (R302). -/
def translate (i : Instr) (va : Word) (a : Access) (skip : M Unit) (w : Wait := .none) (const : Bool := false) :
    M Loc := do
  let s ← get
  let n := s.cur.slot
  let req : Requester := if const then .const n else .slot n
  let d := s.myDie
  let a := if s.me.scout.isSome then { a with quiet := true } else a
  let retry : M Loc := if w == .none then halt else park w
  checkFormat i va a.kind skip
  -- a slice in a fenced rectangle serves nothing; a line that the tile holds needs no slice (R129)
  if sliceCut s s.myTile va.toNat && (findLine (s.tile s.myTile).l1 (s.asidOf n) (vlineOf va.toNat)).isNone then raise i 15 5 va
  match s.me.scout with
  | some sc => if 2 ^ 28 < (pageDelta va.toNat sc.va).natAbs then haltWith (endScout n)
  | none => pure ()
  let asid := s.asidOf n
  let user := !s.me.super
  match lookupT d va.toNat asid a user s with
  | .ok l t =>
    -- a request that timed out has reported the absent fault (R330)
    match if isRemote l.key then takeReport d req l.va t else (none, t) with
    | (some r, t) => do
      set t
      faultAt i r.code.toNat r.level.toNat va.toNat a.kind skip
    | (none, t) =>
      match awaitRemote req l.va l.key t with
      | (some t, _) => do
        set t
        if !isRegSpace l.key && (if a.kind.toNat ≤ 1 then reachCut t t.myTile l else homeCut t t.myTile l) then raise i 15 5 va
        return l
      | (none, t) => do
        set t
        retry
  | .fault c lv t => do
    set t
    faultAt i c lv va.toNat a.kind skip
  | .miss conf t =>
    match takeReport d req va.toNat t with
    | (some r, t) => do
      set t
      faultAt i r.code.toNat r.level.toNat va.toNat a.kind skip
    | (none, t) => do
      set (addMiss d req s.myCore va.toNat asid a conf user t)
      retry

/-! ## The walker's steps (R97, R98) -/

/-- The walker reads WMB0; it parks while no message is present (R97). -/
def execWmb0Read (core : Nat) (s : State) : Host.Outcome State Fault Refusal :=
  .next (match (s.core core).mailbox with
    | [] => s.modSlot (16 * core + 15) fun sl => { sl with awai := .mailbox }
    | m :: _ => (s.modCore core fun c => { c with wmb0 := some m.1 }).modSlot (16 * core + 15) fun sl => { sl with awai := .none })

/-- The walker reads WMB1, which removes the message; a slice that held a miss for want of room posts it (R97). -/
def readWmb1 (core : Nat) (s : State) : State :=
  match (s.core core).mailbox with
  | [] => s
  | m :: rest => postMisses (dieOfTile (tileOfCore core)) (s.modCore core fun c => { c with wmb1 := some m.2, mailbox := rest })
def execWmb1Read (core : Nat) (s : State) : Host.Outcome State Fault Refusal := .next (readWmb1 core s)

/-- The install record goes to the slice that word 2 names (R97). -/
def sendInstall (core : Nat) (w2 : Word) (s : State) : State :=
  let c := s.core core
  s.modDie (dieOfTile (tileOfCore core)) fun x => { x with
    installs := x.installs ++ [((w2.extractLsb' 16 6).toNat, c.win0, c.win1, w2)] }

/-- The install record for the message that the walker has read, and the walker goes back to its mailbox. -/
def answerWalk (core : Nat) (m1 pte ea : Word) (status lvl : Nat) (s : State) : State :=
  sendInstall core ((m1 &&& 0x0000FFFF003FFFFF#64) ||| BitVec.ofNat 64 (2 ^ 48 * status + 2 ^ 52 * lvl))
    (s.modCore core fun c => { c with wmb0 := none, wmb1 := none, win0 := pte, win1 := ea })
/-- An access of the walker's own of absent memory or register space ends the walk with the absent fault (R96), and one that reads
poison with the format code (R338). The level is not stated for a load that is no step of R98 and is free (log 89). -/
def endWalk (core code : Nat) (s : State) : State :=
  let (k, s) := s.nextFree
  let s := match (s.core core).wmb1 with
    | some m1 => answerWalk core m1 0 0 code (k % 4) s
    | none => s
  s.modSlot (16 * core + 15) fun sl => { sl with awai := .mailbox }

/-- The walker has walked for the message that it read and writes WIN0, WIN1 and WIN2 (R98); while a migration word is in
its way it stays where it is. -/
def execWin2Write (core : Nat) (s : State) : Host.Outcome State Fault Refusal :=
  .next (match (s.core core).wmb0, (s.core core).wmb1 with
    | some m0, some m1 =>
      let n := 16 * core + 15
      let me := Requester.walker core
      let (go, s) := match (s.slot n).awai with
        | .fullEmpty key _ => migrationFull (dieOfSlot n) me key s
        | _ => (true, s)
      if !go then s
      else
        let s := s.modSlot n fun sl => { sl with awai := .none }
        match walk s me (m0.extractLsb' 0 55).toNat (m1.extractLsb' 0 16) with
        | (.leaf pte ea lvl, s) => answerWalk core m1 pte (physForm ea) 0 lvl (walkDone me s)
        | (.fault code lvl, s) => answerWalk core m1 0 0 code lvl (walkDone me s)
        | (.remote key lvl, s) =>
          let (lost, s) := goRemote (dieOfSlot n) me key s
          if lost then answerWalk core m1 0 0 4 lvl (walkDone me s) else s
        | (.wait key, s) => (walkDone me s).modSlot n fun sl => { sl with awai := .fullEmpty key true }
    | _, _ => s)

/-- The location of another address of the 64 KiB page of a location. -/
def Loc.at (l : Loc) (va : Nat) : Loc := { l with key := l.key - l.va % 65536 + va % 65536, va := va }

/-- The fill of a code line starts for slot n, unless the line is present or on its way (R184, R369). -/
def startFill (n : Nat) (l : Loc) (demand : Bool) (s : State) : State :=
  s.modCore (coreOfSlot n) fun c =>
    if c.icache.any (fun x => x.asid == l.asid && x.vline == vlineOf l.va)
        || c.ifills.any (fun x => x.asid == l.asid && x.vline == vlineOf l.va) then c
    else { c with ifills := c.ifills ++ [{ vf := s.vfOf n, asid := l.asid, vline := vlineOf l.va, key := lineKey l.key, demand := demand }] }

end Sys2Proof.Machine
end

