-- ==== Sys2Proof/Machine/Operands.lean ====
section
/-! DEFINITION. Every operand form (02_idioms.md R24, R29, R36, 03_encoding.md R43 to R45, 08_core.md R153 to R159,
09_scalar_instructions.md R163, R165): registers, queues, ports, links and constant windows, read in the order of R44, with
the pre-issue waits of R151 and the traps of R165. -/
namespace Sys2Proof.Machine

/-! ## Registers -/

/-- The size of the rotating region from its code (R277): none, 8 or 16. -/
def rotSize (c : BitVec 2) : Nat := if c = 1#2 then 8 else if c = 2#2 then 16 else 0
/-- The physical entry of the register stack that w`k` names (R29, R154). -/
def Slot.wIndex (sl : Slot) (k : BitVec 5) : Nat :=
  let S := rotSize sl.sys.rots
  let k := k.toNat
  (sl.sys.wbase.toNat + if 16 ≤ k ∧ k < 16 + S then 16 + (k - 16 + sl.xr.rb.toNat) % S else k) % 128

def Slot.readStack (sl : Slot) (k : BitVec 5) : Word := sl.xr.stack.toArray.getD (sl.wIndex k) 0
def Slot.writeStack (sl : Slot) (k : BitVec 5) (v : Word) : Slot :=
  { sl with xr := { sl.xr with stack := sl.xr.stack.set! (sl.wIndex k) v } }
/-- g0 reads as zero, and a write to it is discarded (R43, R153). -/
def Slot.readG (sl : Slot) (n : BitVec 3) : Word := if n = 0#3 then 0 else sl.xr.g.toArray.getD n.toNat 0
def Slot.writeG (sl : Slot) (n : BitVec 3) (v : Word) : Slot :=
  if n = 0#3 then sl else { sl with xr := { sl.xr with g := sl.xr.g.set! n.toNat v } }
def Slot.readV (sl : Slot) (n : BitVec 4) : VWord := sl.xr.v.toArray.getD n.toNat 0
def Slot.writeV (sl : Slot) (n : BitVec 4) (v : VWord) : Slot := { sl with xr := { sl.xr with v := sl.xr.v.set! n.toNat v } }
/-- m0 reads as all ones, and a write to it is discarded (R43, R153). -/
def Slot.readM (sl : Slot) (n : MReg) : Word := if n = 0#3 then -1 else sl.xr.m.toArray.getD n.toNat 0
def Slot.writeM (sl : Slot) (n : MReg) (v : Word) : Slot :=
  if n = 0#3 then sl else { sl with xr := { sl.xr with m := sl.xr.m.set! n.toNat v } }
/-- A write to p0 is discarded (R43). -/
def Slot.writeP (sl : Slot) (n : PReg) (b : Bool) : Slot :=
  if n = 0#3 then sl
  else { sl with xr := { sl.xr with p := (sl.xr.p &&& ~~~(1#8 <<< n.toNat)) ||| (if b then 1#8 <<< n.toNat else 0) } }

/-! ## Ports and links (R156 to R158) -/

def mpValid (w : Word) : Bool := w.getLsbD 63
/-- The slot and port that an MPDST register names. -/
def mpDest (sender : Nat) (w : Word) : Nat × Nat :=
  let die := (w.extractLsb' 16 2).toNat
  let _ := sender
  (16 * (3 * (192 * die + (w.extractLsb' 8 8).toNat) + (w.extractLsb' 4 2).toNat) + (w.extractLsb' 0 4).toNat,
   (w.extractLsb' 6 2).toNat)
def Slot.mpdstOf (sl : Slot) (n : BitVec 2) : Word := sl.sys.mpdst.toArray.getD n.toNat 0
def Slot.portOf (sl : Slot) (n : Nat) : List PortWord := sl.ports.toArray.getD n []
/-- A destination port buffers eight words, those in flight to it among them (R36). -/
def portFull (s : State) (dest : Nat × Nat) : Bool :=
  decide (8 ≤ ((s.slot dest.1).portOf dest.2).length
    + (s.flights.filter (fun f => f.dest == dest.1 && f.dport == dest.2)).length)
/-- The tile whose link register a write to `lkw` (west) or `lke` reaches (R158). -/
def linkTarget (t : Nat) (west : Bool) : Nat :=
  let k := tileInCluster t
  tileOfCluster (clusterOfTile t) (4 * (k / 4) + (k % 4 + if west then 3 else 1) % 4)
/-- An inbound link register holds two words, those in flight among them (R158). -/
def linkFull (s : State) (t : Nat) (west : Bool) : Bool :=
  let x := s.tile (linkTarget t west)
  if west then decide (2 ≤ x.lke.length + x.lkeFly.length) else decide (2 ≤ x.lkw.length + x.lkwFly.length)
/-- A word with its sender's TSR and NANMODE (R22, R36). -/
def State.tag (s : State) (v : Word) : PortWord :=
  { word := v, ts := s.me.sys.tsr, nm := (s.core s.myCore).nanmode }

/-! ## Bodies and purity (13_tasks_scheduling.md R267, R272) -/

/-- The task whose body or tail the slot runs; a supervisor handler runs for none. -/
def runTask (s : State) : Option Task := if s.me.super then none else s.taskOf s.cur.slot
/-- The slot runs the body of an uncommitted task. -/
def inBody (s : State) : Bool := match runTask s with | some t => !t.committed | none => false
def isPure (s : State) : Bool := match runTask s with | some t => recPure t.words | none => false

/-- The purity fault (R267): the task is discarded, and an entry of kind 9 goes to the tenant's fault queue. -/
def purityFault {α : Type} : M α := do
  let s ← get
  if s.me.scout.isSome then haltWith (endScout s.cur.slot)
  meetAt
  haltWith fun s =>
    let n := s.cur.slot
    let vf := s.vfOf n
    let asid := s.asidOf n
    let ts := s.me.sys.tsr
    postOrHold s.myDie (some vf) asid (faultEntry (faultWord1 9 0 0 0 n vf asid) ts 0) (stopTask s.me.task s)

/-- An irrevocable instruction raises the purity fault in a pure task (R133). -/
def checkPureIrrevocable : M Unit := do
  if isPure (← get) then purityFault else pure ()

/-- A copy of a redundant task sends a word (R272): the second copy to reach it sends it, once the two agree; the first
sends nothing. The answer says whether to send. -/
def redSend (w : List Word) : M Bool := do
  let s ← get
  if !redundant s s.cur.slot then return true
  let key := s.me.outNext s.cur.slot s.cur.half
  match redPost s.me.task key { slot := s.cur.slot, tsr := s.me.sys.tsr, words := w.map some } s with
  | (send, false, s) => do
    set (s.modMe fun sl => sl.outCount s.cur.half)
    return send
  | (_, true, s) => haltWith fun _ => redMismatch s.me.task s.cur.slot s.me.sys.tsr s

/-! ## What an instruction reads and writes -/

/-- A source or a destination, of one of the four classes of R43. -/
inductive Opnd where
  | w (r : WReg)
  | v (r : VReg)
  | p (n : PReg)
  | m (n : MReg)
deriving DecidableEq, Repr

/-- How many entries of lq the sources take (R44). -/
def lqNeed (srcs : List Opnd) : Nat :=
  srcs.foldl (fun acc x => match x with | .w .q => acc + 1 | .v .q => acc + 8 | _ => acc) 0
/-- How many words of a port, and of a link, the sources take. -/
def portNeed (srcs : List Opnd) (n : BitVec 2) : Nat := (srcs.filter (fun x => x == .w (.mp n))).length
def linkNeed (srcs : List Opnd) (west : Bool) : Nat := (srcs.filter (fun x => x == .w (if west then .lkw else .lke))).length
/-- How many words the destinations push into sq (R43). -/
def sqNeed (dsts : List Opnd) : Nat :=
  dsts.foldl (fun acc x => match x with | .w .q => acc + 1 | .v .q => acc + 8 | _ => acc) 0

def isPortLike : Opnd → Bool
  | .w (.mp _) => true
  | .w .lkw => true
  | .w .lke => true
  | _ => false

/-- The first port or link word, of those that the sources take in order, whose NANMODE differs (R74): its field's code. -/
def firstMismatch (nm : Bool) : List Opnd → List (List PortWord) → List PortWord → List PortWord → Option Nat
  | [], _, _, _ => none
  | x :: xs, ps, lw, le =>
    match x with
    | .w (.mp n) =>
      match ps.getD n.toNat [] with
      | [] => firstMismatch nm xs ps lw le
      | a :: rest => if a.nm ≠ nm then some (0x39 + n.toNat) else firstMismatch nm xs (ps.set n.toNat rest) lw le
    | .w .lkw =>
      match lw with
      | [] => firstMismatch nm xs ps lw le
      | a :: rest => if a.nm ≠ nm then some 0x3D else firstMismatch nm xs ps rest le
    | .w .lke =>
      match le with
      | [] => firstMismatch nm xs ps lw le
      | a :: rest => if a.nm ≠ nm then some 0x3E else firstMismatch nm xs ps lw rest
    | _ => firstMismatch nm xs ps lw le

/-- Take the word of a W-class source (R44); the waits are over. -/
def takeW (c : List (WReg × Word)) (r : WReg) : M Word := do
  let s ← get
  let sl := s.me
  match r with
  | .w n => return sl.readStack n
  | .g n => return sl.readG n
  | .a n => return sl.readA n
  | .q => do
    actMe fun sl => sl.popLq 1
    return ((sl.lq.head?.bind (·.word)).getD 0)
  | .mp n => do
    actMe fun sl => { sl with ports := sl.ports.set! n.toNat ((sl.portOf n.toNat).drop 1) }
    return (((sl.portOf n.toNat).head?.map (·.word)).getD 0)
  | .lkw => do
    modify fun s => s.modTile s.myTile fun t => { t with lkw := t.lkw.drop 1 }
    return (((s.tile s.myTile).lkw.head?.map (·.word)).getD 0)
  | .lke => do
    modify fun s => s.modTile s.myTile fun t => { t with lke := t.lke.drop 1 }
    return (((s.tile s.myTile).lke.head?.map (·.word)).getD 0)
  | .const w k => return ((c.find? (fun x => x.1 == .const w k)).map (·.2)).getD 0

/-- Take the value of a V-class source: `lq` gives eight entries as lanes 0 to 7 (R43). -/
def takeV (r : VReg) : M VWord := do
  let s ← get
  match r with
  | .v n => return s.me.readV n
  | .q => do
    actMe fun sl => sl.popLq 8
    return wordsValue ((s.me.lq.take 8).map fun e => e.word.getD 0)

/-- Write a W-class destination (R43, R163). -/
def putW (r : WReg) (v : Word) : M Unit := do
  let s ← get
  match r with
  | .w n => actMe fun sl => sl.writeStack n v
  | .g n => actMe fun sl => sl.writeG n v
  | .a n => actMe fun sl => sl.writeA n v
  | .q => if s.me.scout.isSome then pure () else modify (pushSq s.cur.slot [v])
  | .mp n =>
    let sl := s.me
    let d := mpDest s.cur.slot (sl.mpdstOf n)
    let f : Flight := { sender := s.cur.slot, port := n.toNat, vf := s.vfOf s.cur.slot, dest := d.1, dport := d.2, word := s.tag v }
    if ← redSend [0x39, f.word.word, sl.mpdstOf n] then modify fun s => { s with flights := s.flights ++ [f] }
  | .lkw => do
    if ← redSend [0x3D, v] then modify fun s => s.modTile (linkTarget s.myTile true) fun t => { t with lkeFly := t.lkeFly ++ [s.tag v] }
  | .lke => do
    if ← redSend [0x3E, v] then modify fun s => s.modTile (linkTarget s.myTile false) fun t => { t with lkwFly := t.lkwFly ++ [s.tag v] }
  | .const _ _ => pure ()

/-- Write a V-class destination: `sq` gets lanes 0 to 7 as eight words (R43). -/
def putV (r : VReg) (v : VWord) : M Unit := do
  let s ← get
  match r with
  | .v n => actMe fun sl => sl.writeV n v
  | .q => if s.me.scout.isSome then pure () else modify (pushSq s.cur.slot (valueWords v 8))
def putP (n : PReg) (b : Bool) : M Unit := actMe fun sl => sl.writeP n b
def putM (n : MReg) (v : Word) : M Unit := actMe fun sl => sl.writeM n v

/-! ## Availability in scout mode (R302) -/

def Slot.unavailable (sl : Slot) (sc : Scout) (x : Opnd) : Bool :=
  match x with
  | .w (.w n) => sc.wNa.getLsbD (sl.wIndex n)
  | .w (.g n) => sc.gNa.getLsbD n.toNat
  | .w (.a n) => sc.aNa.getLsbD n.toNat
  | .w .q => sc.lqNa.headD false
  | .w _ => false
  | .v (.v n) => sc.vNa.getLsbD n.toNat
  | .v .q => (sc.lqNa.take 8).any id
  | .p n => n != 0#3 && sc.pNa.getLsbD n.toNat
  | .m n => n != 0#3 && sc.mNa.getLsbD n.toNat
/-- Set or clear one bit. -/
def setBit {w : Nat} (x : BitVec w) (k : Nat) (b : Bool) : BitVec w :=
  (x &&& ~~~(1#w <<< k)) ||| (if b then 1#w <<< k else 0)
/-- Mark a destination unavailable or available. -/
def Slot.mark (sl : Slot) (na : Bool) (sc : Scout) (x : Opnd) : Scout :=
  match x with
  | .w (.w n) => { sc with wNa := setBit sc.wNa (sl.wIndex n) na }
  | .w (.g n) => { sc with gNa := setBit sc.gNa n.toNat (na && n != 0#3) }
  | .w (.a n) => { sc with aNa := setBit sc.aNa n.toNat (na && n != 0#4) }
  | .w _ => sc
  | .v (.v n) => { sc with vNa := setBit sc.vNa n.toNat na }
  | .v .q => sc
  | .p n => { sc with pNa := setBit sc.pNa n.toNat na }
  | .m n => { sc with mNa := setBit sc.mNa n.toNat na }
def markAll (na : Bool) (dsts : List Opnd) : M Unit := do
  match (← get).me.scout with
  | none => pure ()
  | some sc => actMe fun sl => { sl with scout := some (dsts.foldl (fun acc x => sl.mark na acc x) sc) }
/-- Take the sources of an instruction whose results are unavailable, without using them. -/
def discardSrcs (srcs : List Opnd) : M Unit := actMe fun sl => sl.popLq (lqNeed srcs)

/-! ## Poison (17_reliability_start.md R338 to R341, R344) -/

/-- Poison is consumed by slot n at the instruction with index `pos`: its stores before that instruction are performed and no
later one is, and its rectangle is fenced before anything else happens (R339, R341). -/
def consumePoison (n pos : Nat) (s : State) : State :=
  let s := countUncorr (s.vfOf n) s
  let s := finishStores n (s.modSlot n fun sl => { sl with stores := sl.stores.filter fun x => decide (x.pos < pos) })
  { s with turns := .fence (rectOf s (tileOfSlot n)) (tileOfSlot n) :: s.turns }
/-- The instruction that issues has read bytes that may be poisoned; in scout mode nothing is consumed. -/
def checkPoison (bad : Bool) : M Unit := do
  if bad then
    if (← get).me.scout.isSome then haltWith fun s => endScout s.cur.slot s
    haltWith fun s => consumePoison s.cur.slot (s.me.posOf s.cur.half) s

/-! ## Constant windows (R45, R159) -/

/-- The address that a constant operand names. -/
def Slot.constAddr (sl : Slot) (win : BitVec 3) (off : BitVec 17) : Word :=
  (sl.sys.cwin.toArray.getD win.toNat 0 &&& 0x007FFFFFFFFFFFF8#64) + 8 * off.zeroExtend 64

/-- A line enters the core's constant cache, which holds 128 lines; the line it replaces is free. -/
def fillConst (c : Nat) (l : Loc) (y : Line) (s : State) : State :=
  let (k, s) := s.nextFree
  s.modCore c fun x =>
    let ls := if 128 ≤ x.kcache.length then x.kcache.eraseIdx (k % 128) else x.kcache
    { x with kcache := { asid := l.asid, vline := l.vline, data := y.data, poison := y.poison } :: ls }

/-- The values that a byte held before stores made since the task of slot n was placed (R159). -/
def olderBytes (s : State) (n : Nat) (asid : BitVec 16) (va : Nat) : List Byte :=
  (s.kpast.take (s.kpast.length - (s.slot n).kmark)).filterMap fun e => if e.1 == asid && e.2.1 == va then some e.2.2 else none
/-- The values of a byte that caches of the package hold dirty: stores that the reading tile may not see yet. -/
def dirtyBytes (s : State) (asid : BitVec 16) (va : Nat) : List Byte :=
  let at' (ls : List Line) : Option Byte := (findLine ls asid (vlineOf va)).bind fun l =>
    if l.dirty.getLsbD (va % 128) then some (l.data.extractLsb' (8 * (va % 128)) 8) else none
  s.tiles.filterMap (fun x => at' x.2.l1) ++ s.dies.filterMap fun x => at' x.2.lines
/-- A constant read of slot n: each byte is the one that the read finds, or any that was stored to it since the task was placed or
held before, chosen independently (R159). -/
def mixConst (n : Nat) (asid : BitVec 16) (va : Nat) (v : Word) (s : State) : Word × State :=
  (List.range 8).foldl (fun (w, s) i =>
    match olderBytes s n asid (va + i) ++ dirtyBytes s asid (va + i) with
    | [] => (w, s)
    | bs =>
      let (k, s) := s.nextFree
      match bs[k % (bs.length + 1)]? with
      | some b => ((w &&& ~~~(0xFF#64 <<< (8 * i))) ||| (b.zeroExtend 64 <<< (8 * i)), s)
      | none => (w, s)) (v, s)
/-- A constant read finds a word. -/
def giveConst (va : Word) (v : Word) : M Word := do
  let s ← get
  let (w, s) := mixConst s.cur.slot (s.asidOf s.cur.slot) va.toNat v s
  set s
  return w
/-- The line of the constant cache that a read hits; one whose bytes have been stored to since may have been replaced. -/
def constLine (asid : BitVec 16) (va : Word) (s : State) : Option KLine × State :=
  match (s.core s.myCore).kcache.find? (fun x => x.asid == asid && x.vline == va.toNat / 128) with
  | none => (none, s)
  | some x =>
    if (List.range 8).all fun i => (olderBytes s s.cur.slot asid (va.toNat + i)).isEmpty then (some x, s)
    else let (k, s) := s.nextFree; (if k % 2 = 0 then some x else none, s)

/-- The word at an address of a constant window, through the constant cache; a miss is translated and checked as a load
(R45). -/
def constWord (i : Instr) (va : Word) (skip : M Unit) : M Word := do
  let s ← get
  let asid := s.asidOf s.cur.slot
  let (hit, s) := constLine asid va s
  set s
  match hit with
  | some x => do
    checkPoison (poisonHit x.poison (va.toNat % 128) 8)
    giveConst va (x.data.extractLsb' (8 * (va.toNat % 128)) 64)
  | none => do
    let l ← translate i va Access.load skip .none true
    let s ← get
    -- a page of register space gives its register (R86)
    if isRegSpace l.key then
      match regAt l.key with
      | none => faultAt i 4 (if l.large then 2 else 3) va.toNat Access.load.kind skip
      | some r => do
        let (v, s) := loadReg (s.vfOf s.cur.slot) r s
        set s
        return v
    if !l.c then
      let (v, bad, s) := loadBytes s.myTile l 8 false s
      set s
      checkPoison bad
      giveConst va (v.truncate 64)
    else
      -- the line's bytes are those that a load of the tile would find
      let s := senseSlice s.myDie l.asid l.vline (fillSlice s.myDie l s)
      set s
      match findLine (s.die s.myDie).lines l.asid l.vline with
      | none => return 0
      | some y => do
        let x := match findLine (s.tile s.myTile).l1 l.asid l.vline with
          | some z => y.merge z.data z.dirty z.poison
          | none => y
        set (fillConst s.myCore l x s)
        checkPoison (poisonHit x.poison l.off 8)
        giveConst va (x.data.extractLsb' (8 * l.off) 64)

/-- A constant operand's word. -/
def constRead (i : Instr) (win : BitVec 3) (off : BitVec 17) (skip : M Unit) : M Word := do
  constWord i ((← getMe).constAddr win off) skip

/-- The constant operands of an instruction, read before anything is taken (R165). -/
def constReads (i : Instr) (skip : M Unit) : List Opnd → M (List (WReg × Word))
  | [] => return []
  | .w (.const w k) :: xs => do
    let v ← constRead i w k skip
    let vs ← constReads i skip xs
    return (.const w k, v) :: vs
  | _ :: xs => constReads i skip xs

/-! ## Before an instruction takes its operands -/

/-- The port that a destination sends through. -/
def portDest (dsts : List Opnd) : Option (BitVec 2) := dsts.findSome? fun x => match x with | .w (.mp k) => some k | _ => none
/-- Whether an instruction reads or writes a port or a link. -/
def usesPorts (srcs dsts : List Opnd) : Bool := srcs.any isPortLike || dsts.any isPortLike

/-- The pre-issue waits of R151 on an instruction's sources and destinations. -/
def waits (srcs dsts : List Opnd) : M Unit := do
  let s ← get
  let sl := s.me
  let n := lqNeed srcs
  if sl.lq.length < n || (sl.lq.take n).any (fun e => e.word.isNone) then park (.lqEmpty n)
  match (List.range 4).find? (fun k => decide ((sl.portOf k).length < portNeed srcs (BitVec.ofNat 2 k))) with
  | some k => park (.portEmpty k)
  | none => pure ()
  if (s.tile s.myTile).lkw.length < linkNeed srcs true then park (.linkEmpty true)
  if (s.tile s.myTile).lke.length < linkNeed srcs false then park (.linkEmpty false)
  let q := sqNeed dsts
  if q ≠ 0 && sl.scout.isNone && decide (16 < sl.sq.length + q) then park (.sqRoom q)
  match portDest dsts with
  | some k => if mpValid (sl.mpdstOf k) && portFull s (mpDest s.cur.slot (sl.mpdstOf k)) then park (.portRoom k.toNat)
  | none => pure ()
  if dsts.contains (.w .lkw) && linkFull s s.myTile true then park (.linkRoom true)
  if dsts.contains (.w .lke) && linkFull s s.myTile false then park (.linkRoom false)

/-- A port or link is an outside effect, which waits for every earlier instruction (R295). -/
def waitPorts (srcs dsts : List Opnd) : M Unit :=
  if usesPorts srcs dsts then do
    needEarlier
    checkPureIrrevocable
  else pure ()

/-- Scout mode makes no outside effect, and an unavailable source only makes the results unavailable (R302). -/
def scoutSources (srcs dsts : List Opnd) (skip : M Unit) : M Unit := do
  match (← get).me.scout with
  | none => pure ()
  | some sc =>
    if usesPorts srcs dsts then haltWith fun s => endScout s.cur.slot s
    if srcs.any ((← get).me.unavailable sc) then do
      skip
      halt

/-- A word sent through a port register whose VALID is 0 traps (R156). -/
def checkDest (i : Instr) (dsts : List Opnd) : M Unit := do
  match portDest dsts with
  | some k => if !mpValid ((← get).me.mpdstOf k) then raise i 11 k.toNat 0
  | none => pure ()

/-- Take every source and use none. -/
def takeEvery (cs : List (WReg × Word)) (srcs : List Opnd) : M Unit := srcs.forM fun x => match x with
  | .w r => do let _ ← takeW cs r
  | .v r => do let _ ← takeV r
  | _ => pure ()

/-- The NANMODE of a word of a port or a link is the core's, or the instruction traps with its sources taken (R74). -/
def checkModes (i : Instr) (cs : List (WReg × Word)) (srcs : List Opnd) : M Unit := do
  let s ← get
  match firstMismatch (s.core s.myCore).nanmode srcs s.me.ports.toList (s.tile s.myTile).lkw (s.tile s.myTile).lke with
  | none => pure ()
  | some code => do
    canMeet
    takeEvery cs srcs
    raise i 10 code 0

/-- The waits and traps of R165 that come before an instruction takes its operands: the constant reads, the port trap, and
the NANMODE mismatch. The answer is the constant operands' words. -/
def prepare (f : Form) (srcs dsts : List Opnd) (next : M Unit) : M (List (WReg × Word)) := do
  waits srcs dsts
  waitPorts srcs dsts
  let skip : M Unit := do
    discardSrcs srcs
    markAll true dsts
    next
  scoutSources srcs dsts skip
  let cs ← constReads f.instr skip srcs
  markAll false dsts
  checkDest f.instr dsts
  checkModes f.instr cs srcs
  return cs

/-- One W-class instruction of a stream: its operands are taken in the order of R44, its result is computed and written. -/
def compute (i : Instr) (g : Guard) (st : Stream) (d : WReg) (srcs : List WReg) (op : List Word → Word) (s : State) :
    Host.Outcome State Fault Refusal :=
  M.step (do
    let f := mkForm i g st
    begin f false
    let next : M Unit := if st == .access then finishAccess f else retire i
    let cs ← prepare f (srcs.map .w) [.w d] next
    let xs ← srcs.mapM (takeW cs)
    putW d (op xs)
    next) s

/-- The values of W-class sources, which stay where they are until the instruction completes (R296). -/
def peekAll (cs : List (WReg × Word)) (rs : List WReg) : M (List Word) := do
  let s ← get
  let xs ← rs.mapM (takeW cs)
  set s
  return xs

/-- A joint instruction up to its operands (R51): the two halves have met, and each register is read by the half that owns
it. The effect of every joint instruction is an outside effect (R295), but the calls and the returns are met in scout mode
too (R284). The answer is the values of the sources, and the step that takes them. -/
def jointOperands (i : Instr) (g : Guard) (srcs : List WReg) (dsts : List Opnd) (call : Bool) : M (List Word × M Unit) := do
  begin (mkForm i g .joint) (!call)
  needEarlier
  let cs ← prepare (mkForm i g .joint) (srcs.map .w) dsts (haltWith fun s => endScout s.cur.slot s)
  let xs ← peekAll cs srcs
  return (xs, do let _ ← srcs.mapM (takeW cs))

end Sys2Proof.Machine
end

