-- ==== Sys2Proof/Machine/Accesses.lean ====
section
/-! DEFINITION. What the memory instructions share: addresses, scratchpad addresses, the purity fault, the commit of an
irrevocable instruction, the bytes a load returns (02_idioms.md R26, 07_tile_array.md R128 to R139, 13_tasks_scheduling.md
R266, R267). -/
namespace Sys2Proof.Machine

/-! ## Addresses (R138) -/

/-- The traps of orders 1 and 2 of R139 on a virtual address: alignment, whose detail is the size code and whose TVA is the address
(DEDUCED, log 105), and the format fault, which `translate` raises. -/
def checkAlign (i : Instr) (va : Word) (bytes detail : Nat) : M Unit :=
  if va.toNat % bytes = 0 then pure () else raise i 5 detail va

/-! ## Scratchpad addresses (R17, R128, R129) -/

/-- The group of a slot's task. -/
def State.groupOf (s : State) (n : Nat) : BitVec 16 := ((s.taskOf n).map fun t => recGroup t.words).getD 0

/-- The SCRATCH and FIFO banks of a grant, in ascending order: its logical banks (R128). A bank that is still changing its mode is
none (DESIGN CHOICE, log 126). -/
def logicalBanks (tl : Tile) (g : Grant) : List Nat :=
  (maskBanks g.mask).filter fun b => bankMode tl b == 1#2 || bankMode tl b == 2#2

/-- Resolve a scratchpad address of a (VF, GROUP) that tile `a` names at its target tile, or give the detail of the scratch fault. `whole` says
that the access may act on a FIFO bank (R129, detail 4). The fence is tested before the grant (DEDUCED, log 15). -/
def scratchTarget (s : State) (a vf : Nat) (group : BitVec 16) (va : Word) (whole : Bool) : Except Nat Target :=
  if va.extractLsb' 23 41 ≠ 0#41 then .error 1
  else
    let t := tileOfCluster (clusterOfTile a) (va.extractLsb' 19 4).toNat
    if tileLost s a t then .error 5
    else
      match grantOf (s.tile t) vf group with
      | none => .error 2
      | some (_, g) =>
        match (logicalBanks (s.tile t) g)[(va.extractLsb' 13 6).toNat]? with
        | none => .error 3
        | some b =>
          if bankMode (s.tile t) b == 2#2 then (if whole then .ok (.fifo t b va) else .error 4)
          else .ok (.scratch t b (va.extractLsb' 0 13).toNat)

def myScratch (i : Instr) (va : Word) (whole : Bool) : M Target := do
  let s ← get
  match scratchTarget s s.myTile (s.vfOf s.cur.slot) (s.groupOf s.cur.slot) va whole with
  | .ok t => return t
  | .error d => raise i 15 d va

/-! ## Bodies, purity and commit (R133, R266, R267) -/

/-- Whether `n` bytes lie in the range with a base and a length. -/
def inRange (base len : Word) (va n : Nat) : Bool :=
  decide (base.toNat ≤ va) && decide (va + n ≤ base.toNat + len.toNat)
/-- A pure task's load must lie in an argument range or in a constant window, which spans 2^17 words, its store in the result range
(R159, R267). -/
def checkPure (store : Bool) (va n : Nat) : M Unit := do
  let s ← get
  match runTask s with
  | none => pure ()
  | some t =>
    let arg := recArg t.words
    let ok := if store then inRange (arg 4) (arg 5) va n
              else inRange (arg 0) (arg 1) va n || inRange (arg 2) (arg 3) va n
                || s.me.sys.cwin.toList.any fun w => inRange (w &&& 0x007FFFFFFFFFFFF8#64) 0x100000 va n
    if recPure t.words && !ok then purityFault else pure ()
/-- Commit the slot's task as TCOMMIT does and hold the instruction until that is done (R133, R266). -/
def commitNow : M Unit := do
  let s ← get
  let (ok, s) := tryCommit s.me.task s.cur.slot s
  set s
  holdUnless ok
/-- An irrevocable instruction in a body commits the task first. -/
def commitFirst : M Unit := do
  if inBody (← get) then
    needEarlier
    commitNow
  else pure ()

/-- Before an effect that releases, or that must follow the slot's own stores: they have all been performed, and the
escrow of a committed body has been applied (R50, R235). -/
def storesDone (s : State) : Bool :=
  let n := s.cur.slot
  let owed := match s.taskOf n with
    | some t => t.committed && t.escrow.any (fun e => e.slot == n)
    | none => false
  s.me.stores.isEmpty && s.me.loads.isEmpty && !owed
def needStoresDone : M Unit := do
  holdUnless (storesDone (← get))

/-- What the slot that issues would send out next, as the other copy of its redundant task is to give it (R272). -/
def State.outgoing (s : State) (w : List Word) : Outgoing := { slot := s.cur.slot, tsr := s.me.sys.tsr, words := w.map some }
/-- The number that it has. -/
def State.outKey (s : State) : Nat := s.me.outNext s.cur.slot s.cur.half
/-- The half that issues has sent it out. -/
def outDone : M Unit := modify fun s => s.modMe fun sl => sl.outCount s.cur.half
/-- The copies of the task differ in what the slot that issues sends out. -/
def redDiffer {α : Type} : M α := haltWith fun s => redMismatch s.me.task s.cur.slot s.me.sys.tsr s

/-- An outgoing effect of a redundant copy takes place once (R272): nothing when this copy is to perform it, else the
result that the other copy got. The operation is described by words, which the two copies must give alike. -/
def redEffect (w : List Word) : M (Option (List Word)) := do
  let s ← get
  if !redundant s s.cur.slot then return none
  match redGate s.me.task s.outKey (s.outgoing w) s with
  | (.wait, s) => do set s; halt
  | (.differ, s) => do set s; redDiffer
  | (.taken r, s) => do
    set s
    outDone
    return some r
  | (.go, s) => do set s; return none
/-- This copy has performed it, with a result for the other. -/
def redPerformed (r : List Word) : M Unit := do
  let s ← get
  if redundant s s.cur.slot then
    set (redDone s.me.task s.outKey r s)
    outDone

/-! ## The bytes that a load returns (R26, R132) -/

/-- Put the bytes of a write over those of a read. -/
def overlay (key n : Nat) (v : VWord) (k m : Nat) (w : VWord) : VWord :=
  (List.range n).foldl (fun acc i =>
    if k ≤ key + i ∧ key + i < k + m then
      (acc &&& ~~~(0xFF#512 <<< (8 * i))) ||| ((w >>> (8 * (key + i - k)) &&& 0xFF#512) <<< (8 * i))
    else acc) v

/-- Whether a load must wait for an earlier store of its bytes: one that lacks its data, or a home-word operation that has
not been performed (R26, R239). -/
def mustWait (s : State) (n : Nat) (pos : Nat) (l : Loc) (m : Nat) : Bool :=
  (escrowOver s n l m).any (fun e => owedIn e.data != 0)
    || (pendingOver (s.slot n) pos (.mem l) m).any fun x => owedIn x.data != 0 || x.op.isAtom || x.op == .bcPost

/-- Put the slot's own escrow and pending stores over what memory gives (R26, R132). -/
def ownBytes (s : State) (n : Nat) (pos : Nat) (l : Loc) (m : Nat) (v : VWord) : VWord :=
  let v := (escrowOver s n l m).foldl (fun acc e => overlay l.key m acc e.loc.key e.size.bytes (wordsValue (dataWords e.data))) v
  (pendingOver (s.slot n) pos (.mem l) m).foldl (fun acc x =>
    match x.tgt with
    | .mem k => overlay l.key m acc k.key x.size.bytes (wordsValue (dataWords x.data))
    | _ => acc) v

/-- Record a read of an uncommitted ordered body (R266): `none` when the slice has no room and the task is aborted. -/
def recordRead (s : State) (id : Nat) (asid : BitVec 16) (va : Nat) : Option State :=
  match s.task? id with
  | none => some s
  | some t =>
    let r := (sliceOf va, asid, vlineOf va)
    if t.committed || !recOrd t.words || t.reads.contains r then some s
    else
      let held : Nat := s.tasks.foldl (fun acc (_, u) => if u.die = t.die then acc + (u.reads.filter (fun x => x.1 == sliceOf va)).length else acc) 0
      if held < 2048 then some (s.modTask id fun t => { t with reads := t.reads ++ [r] })
      else if clearedToCommit s id then some s
      else none

/-- A read of the task's body bypasses the first-level cache when its queue is ordered (R266). -/
def bypasses (s : State) (n : Nat) : Bool :=
  match if (s.slot n).super then none else s.taskOf n with
  | some t => recOrd t.words && !t.committed
  | none => false

/-- A read of the slot's escrow finds the errors of its stores (R338). -/
def escrowPoison (n : Nat) (l : Loc) (m : Nat) (s : State) : Bool × State :=
  if s.latent.isEmpty then (false, s)
  else (escrowOver s n l m).foldl (fun (bad, s) e =>
    let at' := ErrAt.inEscrow (s.slot n).task e.slot e.pos
    let s := sense (s.vfOf n) at' s
    (bad || spoiled s at', s)) (false, s)

/-- Read `m` bytes for slot n as a load at index `pos` does: through the caches, with the slot's own stores over them. The
answer says whether the bytes are poisoned. -/
def readMem (n pos : Nat) (l : Loc) (m : Nat) (s : State) : VWord × Bool × State :=
  let (v, bad, s) := loadBytes (tileOfSlot n) l m (bypasses s n) s
  let (spoilt, s) := escrowPoison n l m s
  (ownBytes s n pos l m v, bad || spoilt, s)

/-- A value of a size, extended to 64 bits (R140). -/
def extendTo (size : Size) (sx : Bool) (v : VWord) : Word :=
  match size with
  | .b => if sx then (v.truncate 8 : BitVec 8).signExtend 64 else (v.truncate 8 : BitVec 8).zeroExtend 64
  | .h => if sx then (v.truncate 16 : BitVec 16).signExtend 64 else (v.truncate 16 : BitVec 16).zeroExtend 64
  | .w => if sx then (v.truncate 32 : BitVec 32).signExtend 64 else (v.truncate 32 : BitVec 32).zeroExtend 64
  | _ => v.truncate 64
/-- The words that a load delivers: eight lanes for a V load (R140). -/
def loadWords (size : Size) (sx : Bool) (v : VWord) : List Word :=
  match size with
  | .v => valueWords v 8
  | _ => [extendTo size sx v]

/-! ## Destinations of loads (R24, R49, R137) -/

def loadDest : WReg → LoadDest
  | .q => .lq
  | .a n => .a n
  | _ => .discard
/-- The lq entries that a load reserves. -/
def lqTakes (d : LoadDest) (size : Size) : Nat :=
  match d with
  | .lq => if size == .v then 8 else 1
  | _ => 0
/-- Wait for room in lq (R24). -/
def needLq (k : Nat) : M Unit := do
  if k ≠ 0 && decide (32 < (← get).me.lq.length + k) then park (.lqRoom k) else pure ()
/-- Reserve lq entries at the instruction that issues, filled or not; `na` says that scout mode makes them unavailable. -/
def reserveLq (k : Nat) (ws : Option (List Word)) (na : Bool) : M Unit := actMe fun sl =>
  let es := (List.range k).map fun i => ({ pos := sl.ar.pos, word := ws.map fun w => w.getD i 0 } : LqEntry)
  { sl with lq := sl.lq ++ es, scout := sl.scout.map fun sc => { sc with lqNa := sc.lqNa ++ List.replicate k na } }
/-- The results of a load in scout mode whose address or value is unavailable (R302). -/
def scoutNoData (d : LoadDest) (k : Nat) : M Unit := do
  reserveLq k (some []) true
  match d with
  | .a n => markAll true [.w (.a n)]
  | _ => pure ()
/-- Give a load's words at once. -/
def giveNow (d : LoadDest) (k : Nat) (ws : List Word) : M Unit := do
  reserveLq k (some ws) false
  match d with
  | .a n => do
    actMe fun sl => sl.writeA n (ws.headD 0)
    markAll false [.w (.a n)]
  | _ => pure ()

/-- The address half waits for a value that it is to hold (R137), and for a store that lacks its data (R26). -/
def waitLoad (pos : Nat) : M Unit := actMe fun sl => sl.setWait .access (.load pos)

end Sys2Proof.Machine
end

