-- ==== Sys2Proof/Machine/MemoryAccess.lean ====
section
/-! DEFINITION. The memory access instructions 0x30 to 0x49 where they issue (07_tile_array.md R137 to R146). A load's data
returns and a store is performed in steps of their own (Pipeline.lean). -/
namespace Sys2Proof.Machine

/-! ## Targets -/

/-- The format fault of a virtual access, or of the walker's physical form (R96, R138). R96 states no level for the walker's own:
it is 1, and the trap is taken in the walker's slot (DESIGN CHOICE, log 115). -/
def checkVirt (i : Instr) (va : Word) (a : Access) (skip : M Unit) : M Unit := do
  if isWalker (← get).cur.slot then
    if va.extractLsb' 58 6 ≠ 0#6 then faultAt i 3 1 va.toNat a.kind skip
  else checkFormat i va a.kind skip
/-- The bindings that a release or an acquire of the slot finds (R231). -/
def bindsIf (b : Bool) : M Binds := do
  let s ← get
  return if b then bindings s (s.vfOf s.cur.slot) else []

/-- The target of a virtual access: memory, a register (R86), or the walker's physical form, whose absent memory ends the
walk and whose load of another package goes over Aqgal (R96). A register of a tile in a fenced rectangle answers negatively
(R129). `w` is the cause that the half parks with while the slice misses the page. -/
def virtTarget (i : Instr) (va : Word) (size : Size) (a : Access) (skip : M Unit) (w : Wait := .none) : M Target := do
  let s ← get
  if isWalker s.cur.slot then
    checkVirt i va a skip
    let key := physKey va
    if !isDram key then haltWith (endWalk s.myCore 4)
    if isRemote key then
      let (lost, s) := takeReport s.myDie (.slot s.cur.slot) key s
      if lost.isSome then haltWith fun _ => endWalk s.myCore 4 s
      match awaitRemote (.slot s.cur.slot) key key s with
      | (some s, _) => set s
      | (none, s) => do
        set s
        if w == .none then halt else park w
    return .phys key
  let l ← translate i va a skip w
  if isRegSpace l.key then
    if size == .d && (regAt l.key).isSome then
      if regCut s s.myTile l.key then raise i 15 5 va
      return .reg l.key va.toNat
    faultAt i 4 (if l.large then 2 else 3) va.toNat a.kind skip
  return .mem l
/-- The cause of a load whose page a slice misses (R151). -/
def missWait (d : LoadDest) : Wait := match d with | .a _ => .xlat | _ => .none

/-- Where the sources of a memory instruction are read: the base, the index and a data field that is not `sq`. -/
def dataSrcs (rs : List WReg) : List Opnd := (rs.filter (fun r => r != .q)).map .w
/-- A data field's word: from a register at issue, or from sq (R26). -/
def takeData (cs : List (WReg × Word)) (size : Size) (r : WReg) : M (List DataWord) :=
  if size == .v then return List.replicate 8 .owed
  else if r == .q then return [.owed]
  else do return [.val (← takeW cs r)]

/-- In scout mode: whether an access overlaps a store that was dropped. -/
def scoutDropped (s : State) (va n : Nat) : Bool :=
  match s.me.scout with
  | some sc => sc.dropped.any fun (a, m) => overlaps va n a m
  | none => false
def dropStore (va n : Nat) : M Unit := actMe fun sl =>
  { sl with scout := sl.scout.map fun sc => { sc with dropped := (va, n) :: sc.dropped } }
def inScout : M Bool := do return (← get).me.scout.isSome

/-! ## Loads (R140) -/

/-- What a load instruction names. -/
structure LoadOp where
  form : Form
  d    : WReg
  base : WReg
  idx  : Option WReg
  imm  : Word
  size : Size
  sx   : Bool
  acq  : Bool

/-- The load's address, after its waits and operand traps. -/
def LoadOp.address (o : LoadOp) : M (Word × M Unit) := do
  let k := lqTakes (loadDest o.d) o.size
  begin o.form false
  needLq k
  let skip : M Unit := do
    scoutNoData (loadDest o.d) k
    finishAccess o.form
  let cs ← prepare o.form (.w o.base :: (o.idx.toList.map .w)) [] skip
  let b ← takeW cs o.base
  match o.idx with
  | none => return (b + o.imm, skip)
  | some r => do
    let x ← takeW cs r
    return (b + x * BitVec.ofNat 64 o.size.bytes, skip)

/-- A load whose target is known: in scout mode its data is read at once, else its place in lq is reserved and the data
returns later (R24, R302). -/
def LoadOp.issue (o : LoadOp) (tgt : Target) : M Unit := do
  let s ← get
  let d := loadDest o.d
  let k := lqTakes d o.size
  let pos := s.me.ar.pos
  if s.me.scout.isSome then
    match tgt with
    | .mem l =>
      if scoutDropped s l.va o.size.bytes then scoutNoData d k
      else
        match recordRead s s.me.task l.asid l.va with
        | none => haltWith fun s => discardBody s.me.task true false 0 s
        | some s => do
          let (v, bad, s) := readMem s.cur.slot pos l o.size.bytes s
          set s
          checkPoison bad
          giveNow d k (loadWords o.size o.sx v)
    | .scratch t b off =>
      let va := 2 ^ 60 + 2 ^ 19 * t + 8192 * b + off
      if scoutDropped s va o.size.bytes then scoutNoData d k
      else
        let (v, bad, s) := getScratch (s.vfOf s.cur.slot) t (8192 * b + off) o.size.bytes s
        set s
        checkPoison bad
        giveNow d k (loadWords o.size o.sx (BitVec.ofNat 512 v))
    | _ => scoutNoData d k
    finishAccess o.form
  else
    let binds ← bindsIf o.acq
    reserveLq k none false
    actMe fun sl => { sl with loads := sl.loads ++
      [{ pos := pos, dest := d, tgt := tgt, size := o.size, sx := o.sx, acq := o.acq, tsr := sl.sys.tsr, binds := binds,
         insn := o.form.instr.word }] }
    finishWith o.form false
    let s ← get
    let late := behindOwed s s.cur.slot pos tgt o.size.bytes
    match d with
    | .a _ => waitLoad pos
    | _ => if late then waitLoad pos else pure ()

/-- A virtual load (R140). -/
def LoadOp.run (o : LoadOp) : M Unit := do
  let i := o.form.instr
  let (va, skip) ← o.address
  checkAlign i va o.size.bytes o.size.code.toNat
  checkVirt i va Access.load skip
  checkPure false va.toNat o.size.bytes
  let tgt ← virtTarget i va o.size Access.load skip (missWait (loadDest o.d))
  o.issue tgt

/-- The words that a FIFO bank holds, or those that it has room for (R131). -/
def fifoFree (s : State) (t b : Nat) (push : Bool) : Nat :=
  let k := ((s.tile t).fifos.get b []).length
  if push then 1024 - k else k
/-- A push or a pop can be served. -/
def FifoWaiter.able (w : FifoWaiter) (s : State) (t : Nat) : Bool := decide (w.count ≤ fifoFree s t w.bank w.push)
/-- A push or a pop of a bank of tile `t` is served when it can be and its turn has come: one that has parked follows those of
its kind that parked before it, and one that has not follows those that can be served (R131; log 88). -/
def fifoReady (s : State) (t : Nat) (me : FifoWaiter) : Bool :=
  let others := (s.tile t).fifoWait.filter fun w => w.bank == me.bank && w.push == me.push
  let before := if others.contains me then others.takeWhile (· != me) else others.filter fun w => w.able s t
  me.able s t && before.isEmpty
def waitFifo (t : Nat) (me : FifoWaiter) (s : State) : State :=
  if (s.tile t).fifoWait.contains me then s else s.modTile t fun x => { x with fifoWait := x.fifoWait ++ [me] }
def leaveFifo (t : Nat) (me : FifoWaiter) (s : State) : State :=
  s.modTile t fun x => { x with fifoWait := dropAll x.fifoWait (fun w => w == me) }

/-- A store as a push of a FIFO bank: its tile and how it waits there (R131). -/
def PStore.push (n : Nat) (x : PStore) : Option (Nat × FifoWaiter) :=
  match x.tgt with
  | .fifo t b _ => some (t, { bank := b, slot := n, half := .access, push := true, count := x.data.length })
  | _ => none
def pushReady (s : State) (n : Nat) (x : PStore) : Bool := ((x.push n).map fun (t, w) => fifoReady s t w).getD true
/-- Earlier accesses of the slot to a tile's scratchpad are performed before an access there (R130). -/
def needScratchDone (t : Nat) : M Unit := do
  let s ← get
  holdUnless (!s.me.stores.any (fun x => targetTile x.tgt == some t) && !s.me.loads.any fun x => targetTile x.tgt == some t)
/-- A pure task reaches the scratchpad of its own tile only (R139; log 90). -/
def checkPureTile (tgt : Target) : M Unit := do
  let s ← get
  if isPure s && leavesTile s.cur.slot tgt then purityFault else pure ()

/-- A scratchpad load (R140); a FIFO bank's words are popped when the instruction takes effect. -/
def LoadOp.runScratch (o : LoadOp) : M Unit := do
  let i := o.form.instr
  let (va, _) ← o.address
  checkAlign i va o.size.bytes o.size.code.toNat
  let tgt ← myScratch i va (o.size == .d || o.size == .v)
  checkPureTile tgt
  match tgt with
  | .fifo t b _ =>
    if ← inScout then haltWith fun s => endScout s.cur.slot s
    checkPureIrrevocable
    needEarlier
    needScratchDone t
    commitFirst
    let k := if o.size == .v then 8 else 1
    match ← redEffect [0x42, va, BitVec.ofNat 64 k] with
    | some r => do
      if r.getD k 0 ≠ 0 then raise i 10 0x100 va
      giveNow (loadDest o.d) (lqTakes (loadDest o.d) o.size) (r.take k)
      finishAccess o.form
      halt
    | none => pure ()
    let s ← get
    let me : FifoWaiter := { bank := b, slot := s.cur.slot, half := .access, push := false, count := k }
    let q := (s.tile t).fifos.get b []
    modify fun s => sense (s.vfOf s.cur.slot) (ErrAt.inFifo t b) s
    checkPoison (spoiled (← get) (ErrAt.inFifo t b))
    if !fifoReady s t me then
      modify (waitFifo t me)
      park (.fifoPop t b k)
    let ws := q.take k
    canMeet
    modify fun s => (leaveFifo t me s).modTile t fun x => { x with fifos := x.fifos.set b (q.drop k) }
    -- both copies of a redundant task take the words, or the trap (R74, R272)
    let bad := ws.any fun w => w.nm != (s.core s.myCore).nanmode
    redPerformed (ws.map (·.word) ++ [if bad then 1 else 0])
    if bad then raise i 10 0x100 va
    giveNow (loadDest o.d) (lqTakes (loadDest o.d) o.size) (ws.map (·.word))
    finishAccess o.form
  | tgt => o.issue tgt

def LoadOp.ofLd (i : Instr) (o : LdOps) : LoadOp :=
  { form := { mkForm i o.gd .access with acq := o.acq }, d := o.d, base := o.base, idx := none, imm := o.imm,
    size := o.sz, sx := o.sx, acq := o.acq }
def LoadOp.ofLx (i : Instr) (o : LxOps) : LoadOp :=
  { form := { mkForm i o.gd .access with acq := o.acq }, d := o.d, base := o.base, idx := some o.idx, imm := 0,
    size := o.sz, sx := o.sx, acq := o.acq }

def execLd (o : LdOps) (s : State) : Host.Outcome State Fault Refusal := M.step (LoadOp.ofLd (.ld o) o).run s
def execLdx (o : LxOps) (s : State) : Host.Outcome State Fault Refusal := M.step (LoadOp.ofLx (.ldx o) o).run s
def execLds (o : LdOps) (s : State) : Host.Outcome State Fault Refusal := M.step (LoadOp.ofLd (.lds o) o).runScratch s
def execLdsx (o : LxOps) (s : State) : Host.Outcome State Fault Refusal := M.step (LoadOp.ofLx (.ldsx o) o).runScratch s

/-! ## Stores and home-word operations (R141 to R143) -/

/-- The pending release of the slot is used by its next write to the word, except while SUPER is 1 (R240): `RELPEND` as it was,
if it is used. Whether an ACAS writes shows when it is performed, and it uses the release then. -/
def useRelpend (va n : Nat) (writes : Bool) : M (Option Word) := do
  let sl ← getMe
  let w := sl.sys.relpend
  let hit := w.getLsbD 0 && !sl.super && overlaps va n (8 * (w.extractLsb' 3 52).toNat) 8
  if hit && writes then actMe fun sl => { sl with sys := { sl.sys with relpend := w &&& ~~~1#64 } }
  return if hit then some w else none

/-- Entries of escrow that a grant has, and those that are in use or will be (R132). -/
def escrowRoom (s : State) (n : Nat) (l : Loc) : Bool :=
  match s.taskOf n with
  | none => true
  | some t =>
    let tl := s.tile t.tile
    let banks := match grantOf tl t.vf (recGroup t.words) with
      | some (_, g) => ((maskBanks g.mask).filter fun b => bankMode tl b == 3#2).length
      | none => 0
    let pend (k : Nat) : List EscrowStore := (s.slot k).stores.filterMap fun x => match x.tgt with
      | .mem m => if x.body then some (x.escrow k m) else none
      | _ => none
    let lines (u : Task) : List (Nat × Nat) := escrowLines (u.escrow ++ u.slots.flatMap pend)
    let mine := lines t
    if mine.contains (l.asid.toNat, l.vline) then true
    else
      let used : Nat := s.tasks.foldl (fun acc (_, u) =>
        if u.tile == t.tile && u.vf == t.vf && recGroup u.words == recGroup t.words then acc + (lines u).length else acc) 0
      decide (used < 56 * banks)

/-- A store of a body that needs an entry when none is free (R132). -/
def escrowFull : M Unit := do
  let s ← get
  match runTask s with
  | none => pure ()
  | some t =>
    if recOrd t.words && !recExh t.words then
      meetAt
      haltWith fun s => discardBody s.me.task true true 0 s
    else
      needEarlier
      commitNow

/-- A store-like instruction enters the pipeline; `pend` is the pending release that it uses. -/
def pushStore (i : Instr) (op : StoreOp) (tgt : Target) (size : Size) (data : List DataWord) (rel acq : Bool) (pend : Option Word)
    (dest : LoadDest) : M Unit := do
  let binds ← bindsIf (rel || pend.isSome || acq)
  let s ← get
  let virt := match tgt with | .mem _ => true | _ => false
  let x : PStore := {
    pos := s.me.ar.pos, op := op, tgt := tgt, size := size, data := data, rel := rel, acq := acq, dest := dest,
    tsr := s.me.sys.tsr, nm := (s.core s.myCore).nanmode, body := virt && inBody s, binds := binds,
    relWas := pend, insn := i.word, key := if redundant s s.cur.slot then some s.outKey else none }
  actMe fun sl => { sl with stores := sl.stores ++ [x] }
  if redundant s s.cur.slot then outDone
  modify (fun s => feedSq s.cur.slot 32 s)

/-- The access half parks after a store that overlaps one without its data (R151). -/
def waitStore (pos : Nat) (tgt : Target) (m : Nat) : M Unit := do
  let s ← get
  if behindOwed s s.cur.slot pos tgt m then actMe fun sl => sl.setWait .access .storeData else pure ()

/-- A virtual store (R141): traps, then escrow room in a body, then its place in the pipeline. -/
def storeAt (f : Form) (op : StoreOp) (va : Word) (size : Size) (data : List DataWord) (rel : Bool) (a : Access) : M Unit := do
  let i := f.instr
  let n := size.bytes
  let skip : M Unit := do
    dropStore va.toNat n
    finishAccess f
  checkAlign i va n size.code.toNat
  checkVirt i va a skip
  checkPure true va.toNat n
  -- order 4 of R139 comes before the translation: the line is known from the virtual address
  let s ← get
  let here : Loc := { key := 0, va := va.toNat, asid := s.asidOf s.cur.slot, large := false, scope := 0, c := false, w := false, watch := false }
  if s.me.scout.isNone && inBody s && !escrowRoom s s.cur.slot here then escrowFull
  let tgt ← virtTarget i va size a skip
  if ← inScout then
    dropStore va.toNat n
    -- it fills its line as a load does (R302)
    match tgt with
    | .mem l => modify fun s => (readMem s.cur.slot s.me.ar.pos l n s).2.2
    | _ => pure ()
    finishAccess f
  else
    let pend ← useRelpend va.toNat n true
    let pos := (← getMe).ar.pos
    pushStore i op tgt size data rel false pend .discard
    finishAccess f
    waitStore pos tgt n

/-- What a store must have before it is made: its address, and its data but in scout mode, where the store is dropped and an address
that is available is translated all the same (R302). -/
def storeSrcs (scout : Bool) (addr : List WReg) (data : WReg) : List Opnd := dataSrcs (addr ++ if scout then [] else [data])

/-- ST and STX, STS and STSX: the form, the registers and the modifiers. -/
structure StoreInstr where
  form : Form
  base : WReg
  idx  : Option WReg
  imm  : Word
  data : WReg
  size : Size
  rel  : Bool

/-- The address and the data of a store, after the waits and the operand traps. -/
def StoreInstr.operands (o : StoreInstr) : M (Word × List DataWord) := do
  begin o.form false
  let cs ← prepare o.form (storeSrcs (← inScout) (o.base :: o.idx.toList) o.data) [] (finishAccess o.form)
  let b ← takeW cs o.base
  let x ← match o.idx with
    | none => pure o.imm
    | some r => do pure ((← takeW cs r) * BitVec.ofNat 64 o.size.bytes)
  let d ← takeData cs o.size o.data
  return (b + x, d)

def StoreInstr.run (o : StoreInstr) : M Unit := do
  let (va, data) ← o.operands
  storeAt o.form .st va o.size data o.rel Access.store

/-- A scratchpad store; a push into a FIFO bank is irrevocable (R133). -/
def StoreInstr.runScratch (o : StoreInstr) : M Unit := do
  let (va, data) ← o.operands
  let i := o.form.instr
  checkAlign i va o.size.bytes o.size.code.toNat
  let tgt ← myScratch i va (o.size == .d || o.size == .v)
  checkPureTile tgt
  match tgt with
  | .fifo _ _ _ => do
    if ← inScout then haltWith fun s => endScout s.cur.slot s
    checkPureIrrevocable
    commitFirst
  | _ => pure ()
  if ← inScout then
    match tgt with
    | .scratch t b off => dropStore (2 ^ 60 + 2 ^ 19 * t + 8192 * b + off) o.size.bytes
    | _ => pure ()
    finishAccess o.form
  else
    let pos := (← getMe).ar.pos
    pushStore i .st tgt o.size data false false none .discard
    finishAccess o.form
    waitStore pos tgt o.size.bytes

def StoreInstr.ofSt (i : Instr) (o : StOps) : StoreInstr :=
  { form := { mkForm i o.gd .access with rel := o.rel }, base := o.base, idx := none, imm := o.imm, data := o.data,
    size := o.sz, rel := o.rel }
def StoreInstr.ofSx (i : Instr) (o : SxOps) : StoreInstr :=
  { form := { mkForm i o.gd .access with rel := o.rel }, base := o.base, idx := some o.idx, imm := 0, data := o.data,
    size := o.sz, rel := o.rel }

def execSt (o : StOps) (s : State) : Host.Outcome State Fault Refusal := M.step (StoreInstr.ofSt (.st o) o).run s
def execStx (o : SxOps) (s : State) : Host.Outcome State Fault Refusal := M.step (StoreInstr.ofSx (.stx o) o).run s
def execSts (o : StOps) (s : State) : Host.Outcome State Fault Refusal := M.step (StoreInstr.ofSt (.sts o) o).runScratch s
def execStsx (o : SxOps) (s : State) : Host.Outcome State Fault Refusal := M.step (StoreInstr.ofSx (.stsx o) o).runScratch s

/-! ## Full/empty operations (R142) -/

/-- STF writes a word and sets it full; SETE sets it empty. In a body both go to escrow. -/
def execStf (o : FeSt) (s : State) : Host.Outcome State Fault Refusal :=
  M.step (do
    let f : Form := { mkForm (.stf o) o.gd .access with rel := o.rel }
    begin f true
    let cs ← prepare f (storeSrcs (← inScout) [o.base] o.data) [] (finishAccess f)
    let b ← takeW cs o.base
    let d ← takeData cs .d o.data
    storeAt f .stf (b + o.imm) .d d o.rel Access.atomic) s
def execSete (o : FeSet) (s : State) : Host.Outcome State Fault Refusal :=
  M.step (do
    let f : Form := { mkForm (.sete o) o.gd .access with rel := o.rel }
    begin f true
    let cs ← prepare f [.w o.base] [] (finishAccess f)
    let b ← takeW cs o.base
    storeAt f .sete (b + o.imm) .d [] o.rel Access.atomic) s

/-- Before a home-word operation that takes effect at issue, the slot's earlier accesses of its bytes are performed, and
every earlier acquire has taken effect (R239). -/
def needHomeReady (tgt : Target) (n : Nat) : M Unit := do
  let s ← get
  let sl := s.me
  let pos := sl.ar.pos
  let touches (t : Target) (m : Nat) : Bool := t.same tgt m n
  let escrow := match tgt, s.taskOf s.cur.slot with
    | .mem l, some t => t.committed && t.escrow.any fun e => e.slot == s.cur.slot && overlaps e.loc.key e.size.bytes l.key n
    | _, _ => false
  holdUnless (!sl.loads.any (fun x => touches x.tgt x.size.bytes) && !sl.stores.any (fun x => touches x.tgt x.size.bytes)
    && !acquirePending sl pos && !escrow)

/-- The word's state and value as the slot's own escrow shows them in a body (R132). -/
def escrowWord (s : State) (n : Nat) (l : Loc) : Option Bool :=
  match s.taskOf n with
  | none => none
  | some t => (t.escrow.filter fun e => overlaps e.loc.key e.size.bytes l.key 8).foldl (fun acc e => match e.op with
    | .stf => some true
    | .sete => some false
    | _ => acc) none

/-- The state of the word as an LDFE or LDFF of the slot finds it: its own escrow comes first (R132), and an LDFF that has
waited has its value already (R142). -/
def wordFull (s : State) (l : Loc) : Bool :=
  (if inBody s then escrowWord s s.cur.slot l else none).getD (feFull s l.key)
/-- The value that filled the word on which the LDFF that issues has waited. -/
def latched (sl : Slot) : Option Word := sl.ffGot.bind fun (p, v) => if p = sl.ar.pos then some v else none

/-- LDFE and LDFF (R142): they wait for the word to be full and take its value, and LDFE leaves it empty. -/
def loadFull (i : Instr) (o : FeLd) (take : Bool) (s : State) : Host.Outcome State Fault Refusal :=
  M.step (do
    let f : Form := { mkForm i o.gd .access with acq := o.acq }
    let d := loadDest o.d
    let k := lqTakes d .d
    begin f true
    needLq k
    let skip : M Unit := do
      scoutNoData d k
      finishAccess f
    let cs ← prepare f [.w o.base] [] skip
    let va := (← takeW cs o.base) + o.imm
    let a := if take then Access.atomic else Access.fullRead
    checkAlign i va 8 3
    checkVirt i va a skip
    if take then checkPureIrrevocable else checkPure false va.toNat 8
    let tgt ← virtTarget i va .d a skip (missWait d)
    needEarlier
    needHomeReady tgt 8
    if take then
      commitFirst
      needHomeReady tgt 8
      match ← redEffect [0x34, va] with
      | some r => do
        giveNow d k r
        finishAccess f
        halt
      | none => pure ()
    match tgt with
    | .mem l =>
      let s ← get
      let n := s.cur.slot
      if !take && mustWait s n s.me.ar.pos l 8 then halt
      if !wordFull s l && (take || (latched s.me).isNone) then
        park (if take || feFull s l.key then .fullEmpty l.key true else .fullKeep l)
      if !take then
        match recordRead s s.me.task l.asid l.va with
        | some s => set s
        | none => haltWith fun s => discardBody s.me.task true false 0 s
      modify (toHome (tileOfSlot n) l)
      let s ← get
      let v : Word := ((if take then none else latched s.me).getD
        ((ownBytes s n s.me.ar.pos l 8 (homeGet s l 8)).truncate 64))
      checkPoison (homePoison s l 8)
      if take then
        modify (setFE l.key false)
        redPerformed [v]
      if o.acq then modify (acquireWord (← bindsIf true) (tileOfSlot n) l.asid l.va)
      actMe fun sl => { sl with ffGot := none }
      giveNow d k [v]
      finishAccess f
    | .phys key =>
      let s ← get
      if !feFull s key && (take || (latched s.me).isNone) then
        park (if take then .fullEmpty key true else .fullKeep (physLoc key))
      if take then modify (setFE key false)
      giveNow d k [(if take then none else latched s.me).getD (memWord s key)]
      actMe fun sl => { sl with ffGot := none }
      finishAccess f
    | .reg pa _ =>
      -- a register holds no full/empty bit that any operation sets: its word stays empty (R86, R88)
      if feFull (← get) pa then
        giveNow d k [0]
        finishAccess f
      else park (.fullEmpty pa true)
    | _ => finishAccess f) s
def execLdfe (o : FeLd) (s : State) : Host.Outcome State Fault Refusal := loadFull (.ldfe o) o true s
def execLdff (o : FeLd) (s : State) : Host.Outcome State Fault Refusal := loadFull (.ldff o) o false s

/-! ## Atomics (R143) -/

def ordRel : Order → Bool | .rel => true | .ar => true | _ => false
def ordAcq : Order → Bool | .acq => true | .ar => true | _ => false

/-- An atomic: it commits a body first (R133), reserves the place of its prior value and is performed in the slot's order of
stores once its data words have arrived (R26). -/
def atomicAt (i : Instr) (g : Guard) (op : AtomOp) (dsz : Bool) (ord : Order) (d base : WReg) (vals : List WReg) (s : State) :
    Host.Outcome State Fault Refusal :=
  M.step (do
    let size : Size := if dsz then .d else .w
    let f : Form := { mkForm i g .access with rel := ordRel ord, acq := ordAcq ord }
    let dest := loadDest d
    let k := lqTakes dest .d
    begin f true
    needLq k
    let skip : M Unit := do
      scoutNoData dest k
      finishAccess f
    let cs ← prepare f (dataSrcs (base :: vals)) [] skip
    let va ← takeW cs base
    let skip : M Unit := do
      dropStore va.toNat size.bytes
      skip
    let data ← vals.mapM (fun r => takeData cs size r)
    checkAlign i va size.bytes size.code.toNat
    checkVirt i va Access.atomic skip
    checkPureIrrevocable
    let tgt ← virtTarget i va size Access.atomic skip (missWait dest)
    commitFirst
    let pend ← useRelpend va.toNat size.bytes (!op.isCas)
    let pos := (← getMe).ar.pos
    reserveLq k none false
    pushStore i (.atom op) tgt size data.flatten (ordRel ord) (ordAcq ord) pend dest
    finishWith f false
    match dest with
    | .a _ => waitLoad pos
    | _ => pure ()) s

def execAadd (o : AtOps) (s : State) : Host.Outcome State Fault Refusal := atomicAt (.aadd o) o.gd .add o.dsz o.ord o.d o.base [o.val] s
def execAfadd (o : AtOps) (s : State) : Host.Outcome State Fault Refusal := atomicAt (.afadd o) o.gd .fadd o.dsz o.ord o.d o.base [o.val] s
def execAmin (o : AtOps) (s : State) : Host.Outcome State Fault Refusal := atomicAt (.amin o) o.gd .min o.dsz o.ord o.d o.base [o.val] s
def execAmax (o : AtOps) (s : State) : Host.Outcome State Fault Refusal := atomicAt (.amax o) o.gd .max o.dsz o.ord o.d o.base [o.val] s
def execAand (o : AtOps) (s : State) : Host.Outcome State Fault Refusal := atomicAt (.aand o) o.gd .and o.dsz o.ord o.d o.base [o.val] s
def execAor (o : AtOps) (s : State) : Host.Outcome State Fault Refusal := atomicAt (.aor o) o.gd .or o.dsz o.ord o.d o.base [o.val] s
def execAxor (o : AtOps) (s : State) : Host.Outcome State Fault Refusal := atomicAt (.axor o) o.gd .xor o.dsz o.ord o.d o.base [o.val] s
def execAswp (o : AtOps) (s : State) : Host.Outcome State Fault Refusal := atomicAt (.aswp o) o.gd .swap o.dsz o.ord o.d o.base [o.val] s
/-- ACAS: the expected word is taken before the new one (R44). -/
def execAcas (o : AcasOps) (s : State) : Host.Outcome State Fault Refusal :=
  atomicAt (.acas o) o.gd .cas o.dsz o.ord o.d o.base [o.exp, o.new] s

/-! ## Byte-counting words (R116, R144) -/

/-- A BCPOST makes its checks and its post at its target (R116, R144): the detail of its trap, or 0, and the state after. -/
def postAt (n : Nat) (tgt : Target) (e : Word) (binds : Binds) (s : State) : Nat × State :=
  match tgt with
  | .mem l => bcPost n l e binds (toHome (tileOfSlot n) l s)
  | .phys key => bcPost n (physLoc key) e binds s
  | .reg pa _ => regPost n pa e s
  | _ => (0, s)
/-- BCPOST whose count is known and behind which nothing of the slot is outstanding: its checks and the post are made at once. The
other copy of a redundant task takes the detail of the trap as its result (R272). -/
def postNow (f : Form) (tgt : Target) (va e : Word) : M Unit := do
  let i := f.instr
  let n := (← get).cur.slot
  if 2 ^ 36 ≤ e.toNat then raise i 14 4 va
  canMeet
  match ← redEffect [0x48, va, e] with
  | some r =>
    let detail := (r.headD 0).toNat
    if detail ≠ 0 then raise i 14 detail va
    finishAccess f
  | none => do
    let (detail, t) := postAt n tgt e (← bindsIf true) (← get)
    if detail ≠ 2 then set t
    redPerformed [BitVec.ofNat 64 detail]
    if detail ≠ 0 then raise i 14 detail va
    finishAccess f
/-- BCPOST is the next thing that the slot does: both halves stand at it, and every earlier access has been performed. -/
def alone (s : State) : Bool :=
  let p := s.me.ar.pos
  decide (p ≤ s.me.xr.pos) && !acquirePending s.me p && storesDone s
/-- BCPOST; one whose count is to come from sq, or which must follow earlier accesses, waits among the slot's stores, and makes its
checks and the post then (R26, R50, R144). -/
def execBcpost (o : FeSt) (s : State) : Host.Outcome State Fault Refusal :=
  M.step (do
    let i := Instr.bcpost o
    let f : Form := { mkForm i o.gd .access with rel := true }
    begin f true
    let cs ← prepare f (dataSrcs [o.base, o.data]) [] (finishAccess f)
    let va := (← takeW cs o.base) + o.imm
    checkAlign i va 16 3
    checkVirt i va Access.bcPost (finishAccess f)
    checkPureIrrevocable
    let tgt ← virtTarget i va .d Access.bcPost (do
      dropStore va.toNat 16
      finishAccess f)
    commitFirst
    if o.data == .q then
      pushStore i .bcPost tgt .d [.owed] true false none .discard
      finishAccess f
    else
      let e ← takeW cs o.data
      if alone (← get) then do
        needEarlier
        postNow f tgt va e
      else do
        pushStore i .bcPost tgt .d [.val e] true false none .discard
        finishAccess f) s

/-- BCRD: word 0 at its home, whatever its state. At an address of register space it is the register there (DESIGN CHOICE, log 119). -/
def execBcrd (o : BcrdOps) (s : State) : Host.Outcome State Fault Refusal :=
  M.step (do
    let i := Instr.bcrd o
    let f := mkForm i o.gd .access
    let d := loadDest o.d
    let k := lqTakes d .d
    begin f true
    needLq k
    let skip : M Unit := do
      scoutNoData d k
      finishAccess f
    let cs ← prepare f [.w o.base] [] skip
    let va ← takeW cs o.base
    checkAlign i va 16 3
    checkVirt i va Access.bcRead skip
    checkPureIrrevocable
    let tgt ← virtTarget i va .d Access.bcRead skip (missWait d)
    needEarlier
    needHomeReady tgt 8
    commitFirst
    needHomeReady tgt 8
    match tgt with
    | .mem l => do
      match ← redEffect [0x49, va] with
      | some r => giveNow d k r
      | none => do
        modify fun s => toHome s.myTile l s
        let v := homeGetWord (← get) l
        checkPoison (homePoison (← get) l 8)
        redPerformed [v]
        giveNow d k [v]
    | .phys key => giveNow d k [memWord (← get) key]
    | .reg pa _ => do
      let s ← get
      match regAt pa with
      | some r =>
        let (v, s) := loadReg (s.vfOf s.cur.slot) r s
        set s
        giveNow d k [v]
      | none => giveNow d k [0]
    | _ => giveNow d k [0]
    finishAccess f) s

/-! ## Prefetch and line control (R145, R146) -/

/-- PFH: the line is asked for, and every failure is dropped. An ordered body's prefetch stays out of the first-level cache
and is recorded (R266). -/
def prefetchLine (n : Nat) (va : Word) (s : State) : State :=
  if va.extractLsb' 55 9 ≠ 0#9 then s
  else
    let asid := s.asidOf n
    let user := !(s.slot n).super
    match lookupT (dieOfSlot n) va.toNat asid Access.prefetch user s with
    | .fault _ _ s => s
    | .miss conf s => addMiss (dieOfSlot n) (.pfh n va.toNat) (coreOfSlot n) va.toNat asid Access.prefetch conf user s
    | .ok l s =>
      if !l.c || !isDram l.key then s
      else if bypasses s n then
        match recordRead s (s.slot n).task asid va.toNat with
        | some s => fillSlice (dieOfSlot n) l s
        | none => discardBody (s.slot n).task true false 0 s
      else fillL1 (tileOfSlot n) l s

/-- CFLUSH and CINV follow the slot's earlier accesses of their line. -/
def needLineDone (va : Word) : M Unit := do
  let s ← get
  let asid := s.asidOf s.cur.slot
  let here (t : Target) : Bool := match t with
    | .mem l => l.asid == asid && l.vline == vlineOf va.toNat
    | _ => false
  needEarlier
  holdUnless (!s.me.loads.any (fun x => here x.tgt) && !s.me.stores.any fun x => here x.tgt && !x.body)
/-- PFH, CFLUSH and CINV: an address, and what is done with it. -/
def lineOp (i : Instr) (o : BoOps) (outside : Bool) (act : Nat → Word → State → State) (s : State) : Host.Outcome State Fault Refusal :=
  M.step (do
    let f := mkForm i o.gd .access
    begin f outside
    let cs ← prepare f [.w o.base] [] (finishAccess f)
    let va := (← takeW cs o.base) + o.imm
    if outside then needLineDone va
    finishAccess f
    modify fun s => act s.cur.slot va s) s
def execPfh (o : BoOps) (s : State) : Host.Outcome State Fault Refusal := lineOp (.pfh o) o false prefetchLine s
def execCflush (o : BoOps) (s : State) : Host.Outcome State Fault Refusal :=
  lineOp (.cflush o) o true (fun n va s => cleanL1 (tileOfSlot n) (s.asidOf n) (vlineOf va.toNat) s) s
def execCinv (o : BoOps) (s : State) : Host.Outcome State Fault Refusal :=
  lineOp (.cinv o) o true (fun n va s => dropL1 (tileOfSlot n) (s.asidOf n) (vlineOf va.toNat) s) s

end Sys2Proof.Machine
end

