-- ==== Sys2Proof/Machine/Sync.lean ====
section
/-! DEFINITION. Bindings, fences, semaphores and cross-partition queues, 0x58 to 0x5F (12_consistency.md R230 to R249). -/
namespace Sys2Proof.Machine

/-! ## Bindings (R230 to R233) -/

/-- The table's word `k` of entry `e` of a VF. -/
def bindKey (s : State) (vf e k : Nat) : Nat :=
  (s.pkg.btbase &&& 0xFFFFFFFE0000#64).toNat + 131072 * vf + 32 * e + 8 * k
def bindEn (s : State) : Bool := s.pkg.btbase.getLsbD 0

/-- The checks of R231 in their order: the detail of the first that fails. A base whose region wraps at 2^64 passes the first;
the region is then the one that the entry's fields hold. -/
def bindCheck (s : State) (vf : Nat) (base len word : Word) : Option Nat :=
  let bs := bindings s vf
  let b := base.toNat % 2 ^ 55
  let n := len.toNat
  let w := word.toNat
  if b % 128 ≠ 0 ∨ n % 128 ≠ 0 ∨ n < 128 ∨ 2 ^ 36 < n ∨ 2 ^ 55 ≤ (base.toNat + n - 1) % 2 ^ 64 then some 1
  else if w % 8 ≠ 0 ∨ 2 ^ 55 ≤ w ∨ (b ≤ w ∧ w < b + n) ∨ bs.any (fun (_, x, m, _) => decide (x ≤ w) && decide (w < x + m)) then some 2
  else if bs.any (fun (_, x, m, _) => overlaps b n x m) then some 3
  else if 4096 ≤ bs.length then some 4
  else none

/-- The lowest entry of the table that is free. -/
def bindFree (bs : List (Nat × Nat × Nat × Nat)) : Nat → Nat → Nat
  | 0, e => e
  | n + 1, e => if bs.any (fun x => x.1 == e) then bindFree bs n (e + 1) else e

/-- BIND (R231): irrevocable (R233). -/
def execBind (o : T3W) (s : State) : Host.Outcome State Fault Refusal :=
  M.step (do
    let i := Instr.bind o
    let f := mkForm i o.gd .access
    begin f true
    let cs ← prepare f [.w o.s1, .w o.s2, .w o.t] [] (finishAccess f)
    let len ← takeW cs o.s1
    let word ← takeW cs o.s2
    let base ← takeW cs o.t
    let s ← get
    let vf := s.vfOf s.cur.slot
    if !bindEn s then raise i 19 6 0
    match bindCheck s vf base len word with
    | some d => raise i 19 d 0
    | none => pure ()
    checkPureIrrevocable
    needEarlier
    commitFirst
    if (← redEffect [0x58, base, len, word]).isNone then
      modify fun s =>
        let e := bindFree (bindings s vf) 4096 0
        memSetWord (bindKey s vf e 0) ((base &&& 0x007FFFFFFFFFFF80#64) ||| 1)
          (memSetWord (bindKey s vf e 1) (len &&& 0x1FFFFFFFFF#64)
            (memSetWord (bindKey s vf e 2) (word &&& 0x007FFFFFFFFFFFF8#64) (memSetWord (bindKey s vf e 3) 0 s)))
      redPerformed []
    finishAccess f) s

/-- UNBIND (R232). -/
def execUnbind (o : S1W) (s : State) : Host.Outcome State Fault Refusal :=
  M.step (do
    let i := Instr.unbind o
    let f := mkForm i o.gd .access
    begin f true
    let cs ← prepare f [.w o.s1] [] (finishAccess f)
    let base ← takeW cs o.s1
    let s ← get
    let vf := s.vfOf s.cur.slot
    if !bindEn s then raise i 19 6 0
    match if base.toNat % 128 ≠ 0 then none else (bindings s vf).find? (fun x => x.2.1 == base.toNat) with
    | none => raise i 19 5 0
    | some (e, _) => do
      checkPureIrrevocable
      needEarlier
      commitFirst
      if (← redEffect [0x59, base]).isNone then
        modify fun s => memSetWord (bindKey s vf e 0) 0 (memSetWord (bindKey s vf e 1) 0 (memSetWord (bindKey s vf e 2) 0 s))
        redPerformed []
      finishAccess f) s

/-! ## Fences (R240) -/

/-- The address of ACQ and REL, translated as a load, and what it reaches. -/
def fenceTarget (i : Instr) (f : Form) (o : BoOps) : M (Word × Target) := do
  let cs ← prepare f [.w o.base] [] (finishAccess f)
  let va := (← takeW cs o.base) + o.imm
  checkAlign i va 8 3
  return (va, ← virtTarget i va .d Access.load (finishAccess f))

/-- ACQ: stale copies of bound lines are discarded, once every earlier access of the slot that it follows is done. -/
def execAcq (o : BoOps) (s : State) : Host.Outcome State Fault Refusal :=
  M.step (do
    let f : Form := { mkForm (.acq o) o.gd .access with acq := true }
    begin f true
    let (va, tgt) ← fenceTarget (.acq o) f o
    needEarlier
    needHomeReady tgt 8
    let binds ← bindsIf true
    modify fun s => acquireWord binds s.myTile (s.asidOf s.cur.slot) va.toNat s
    finishAccess f) s

/-- REL: its release takes its place among the slot's stores, or in escrow, and the next write of the word is the release
write. -/
def execRel (o : BoOps) (s : State) : Host.Outcome State Fault Refusal :=
  M.step (do
    let f : Form := { mkForm (.rel o) o.gd .access with rel := true }
    begin f true
    let (va, tgt) ← fenceTarget (.rel o) f o
    pushStore (.rel o) .relFence tgt .d [] true false (some (← getMe).sys.relpend) .discard
    actMe fun sl => { sl with sys := { sl.sys with relpend := BitVec.ofNat 64 (va.toNat % 2 ^ 55 + 1) } }
    finishAccess f) s

/-! ## Semaphores (R32, R241) -/

/-- The slot runs a tile task (R161). -/
def inTileTask (s : State) : Bool := match s.taskOf s.cur.slot with | some t => recKind t.words == 3 | none => false
def semOf (tl : Tile) (n : Nat) : Sem := tl.sems.toArray.getD n { count := 0, ts := 0 }
def Tile.setSem (tl : Tile) (n : Nat) (x : Sem) : Tile := { tl with sems := tl.sems.set! n x }

/-- Every scratchpad access of the slot that issues has been performed at its bank, and every earlier release, those that wait in the
escrow of its committed task among them (R238, R239). -/
def scratchDone (s : State) : Bool :=
  let sl := s.me
  !sl.stores.any (fun x => x.isRel || (targetTile x.tgt).isSome) && !sl.loads.any (fun x => (targetTile x.tgt).isSome)
    && !((s.taskOf s.cur.slot).map fun t => t.committed && t.escrow.any fun e => e.slot == s.cur.slot && e.rel).getD false
/-- The release of SEMPOST at tile scope: the poster's scratchpad stores are performed first (R32). A count at 65,535
overflows. -/
def postSem (tile n : Nat) (ts : Word) (s : State) : Bool × State :=
  let x := semOf (s.tile tile) n
  if x.count = 65535 then (true, s)
  else (false, s.modTile tile fun t => t.setSem n { count := x.count + 1, ts := maxWord x.ts ts })

def execSempost (o : KSem) (s : State) : Host.Outcome State Fault Refusal :=
  M.step (do
    let i := Instr.sempost o
    let f : Form := { mkForm i o.gd .access with rel := true }
    begin f true
    let s ← get
    if !inTileTask s then raise i 4 0x5C 0
    needEarlier
    holdUnless (scratchDone (← get))
    let n := o.n.toNat
    if (semOf (s.tile s.myTile) n).count = 65535 then raise i 21 n 0
    if (← redEffect [0x5C, o.n.zeroExtend 64]).isNone then
      modify fun s => (postSem s.myTile n s.me.sys.tsr s).2
      redPerformed []
    finishAccess f) s

/-- SEMWAIT: it takes a count, in the order in which the waiters parked. -/
def execSemwait (o : KSem) (s : State) : Host.Outcome State Fault Refusal :=
  M.step (do
    let i := Instr.semwait o
    let f : Form := { mkForm i o.gd .access with acq := true }
    begin f true
    let s ← get
    if !inTileTask s then raise i 4 0x5D 0
    needEarlier
    let n := o.n.toNat
    let x := semOf (s.tile s.myTile) n
    let first := match (s.tile s.myTile).semWait.find? (fun w => w.1 == n) with
      | some w => w.2 == s.cur.slot
      | none => true
    if x.count = 0 || !first then
      modify fun s => if (s.tile s.myTile).semWait.contains (n, s.cur.slot) then s
        else s.modTile s.myTile fun t => { t with semWait := t.semWait ++ [(n, s.cur.slot)] }
      park (.semaphore n)
    modify fun s => (s.modTile s.myTile fun t =>
      { t.setSem n { x with count := x.count - 1 } with semWait := dropAll t.semWait (fun w => w == (n, s.cur.slot)) }).modMe
        fun sl => { sl with sys := { sl.sys with semts := x.ts } }
    finishAccess f) s

/-! ## Queues (R242 to R246) -/

/-- A 64-byte buffer in either form of R108: a virtual address, or a cluster-local scratchpad address in SCRATCH banks. -/
inductive Buffer where
  | mem (l : Loc)
  | scratch (tile bank off : Nat)

/-- The two forms of R108: bit [63] marks a scratchpad address, whose bits [62:23] are zero. -/
def isScratchForm (a : Word) : Bool := a.getLsbD 63

/-- Read n words of a buffer as a load of slot n does. -/
def Buffer.read (b : Buffer) (n pos k : Nat) (s : State) : List Word × Bool × State :=
  match b with
  | .mem l =>
    let (v, bad, s) := readMem n pos l 64 s
    (valueWords v k, bad, s)
  | .scratch t bk off =>
    let (v, bad, s) := getScratch (s.vfOf n) t (8192 * bk + off) 64 s
    (valueWords (BitVec.ofNat 512 v) k, bad, s)
/-- Write a buffer as a store does. -/
def Buffer.write (b : Buffer) (n : Nat) (ws : List Word) (s : State) : State :=
  match b with
  | .mem l => storeBytes (tileOfSlot n) l 64 (wordsValue ws) s
  | .scratch t bk off => putScratch t (8192 * bk + off) 64 (wordsValue ws).toNat s

/-- Where a home-word operation of several words lies: translated memory, or the walker's physical form. -/
def homeLoc (i : Instr) (va : Word) (a : Access) (skip : M Unit) : M Loc := do
  match ← virtTarget i va .v a skip with
  | .mem l => return l
  | .phys key => return physLoc key
  | _ => faultAt i 4 3 va.toNat a.kind skip

/-- The buffer of a queue instruction (R108, R246): queue fault 4 for a bad form. -/
def checkBuffer (i : Instr) (b : Word) : M Unit :=
  if b.extractLsb' 0 6 ≠ 0#6 ∨ (if isScratchForm b then b.extractLsb' 23 40 ≠ 0#40 else b.extractLsb' 55 9 ≠ 0#9) then
    raise i 20 4 0
  else pure ()
def bufferAt (i : Instr) (b : Word) (a : Access) (skip : M Unit) : M Buffer := do
  if isScratchForm b then
    match ← myScratch i (b &&& 0x7FFFFF#64) false with
    | .scratch t k off => return .scratch t k off
    | _ => halt
  else return .mem (← homeLoc i b a skip)

/-- The checks and the translations that QPUT and QGET share (R249): the two addresses, the descriptor, its counter that they advance
and the buffer. -/
structure QueueAt where
  q    : Word
  desc : Loc
  next : Loc
  w0   : Word
  w1   : Word
  buf  : Buffer

def queueAt (i : Instr) (f : Form) (o : S2W) (get' : Bool) : M QueueAt := do
  begin f true
  let cs ← prepare f [.w o.s1, .w o.s2] [] (finishAccess f)
  let q ← takeW cs o.s1
  let b ← takeW cs o.s2
  let skip : M Unit := do
    if get' && !isScratchForm b then dropStore b.toNat 64
    finishAccess f
  if q.extractLsb' 0 6 ≠ 0#6 then raise i 20 1 0
  checkBuffer i b
  if q.extractLsb' 55 9 ≠ 0#9 && !isWalker (← get).cur.slot then faultAt i 3 1 q.toNat 0 skip
  checkPureIrrevocable
  let d ← homeLoc i q Access.load skip
  -- the counter, unless a number is reserved already; the ring slot is named by the descriptor and comes after it
  let off : Nat := if get' then 24 else 16
  let next ← if (← getMe).sys.qpend.getLsbD 0 then pure (d.add off) else homeLoc i (q + BitVec.ofNat 64 off) Access.atomic skip
  let buf ← bufferAt i b (if get' then Access.store else Access.load) skip
  needEarlier
  needHomeReady (.mem d) 32
  match buf with
  | .scratch t _ _ => needScratchDone t
  | .mem _ => pure ()
  modify fun s => toHome s.myTile d s
  let s ← get
  let ws := valueWords (ownBytes s s.cur.slot s.me.ar.pos d 16 (homeGet s d 16)) 2
  let w0 := ws.getD 0 0
  let w1 := ws.getD 1 0
  if !descOk w0 w1 then raise i 20 1 0
  return { q := q, desc := d, next := next, w0 := w0, w1 := w1, buf := buf }

/-- QPEND of a reservation (R246). -/
def qpendWord (op stage : Bool) (n : Word) : Word :=
  1#64 ||| (if op then 2#64 else 0) ||| (if stage then 4#64 else 0) ||| ((n &&& 0xFFFFFFFF#64) <<< 32)
def setQpend (w : Word) : M Unit := actMe fun sl => { sl with sys := { sl.sys with qpend := w } }
/-- The queue instruction is done with its reservation: VALID clears. -/
def clearQpend (at' : QueueAt) (op : Bool) : M Unit := do
  let num : BitVec 32 := (← getMe).sys.qpend.extractLsb' 32 32
  modify fun s => { s with rings := dropAll s.rings fun r => r.desc == at'.desc.key && r.get == op && r.num == num }
  actMe fun sl => { sl with sys := { sl.sys with qpend := sl.sys.qpend &&& ~~~1#64 } }
/-- The reservation of the slot: the one that QPEND holds, or the next number of TAIL or HEAD. -/
def reserve (at' : QueueAt) (op : Bool) : M Word := do
  let p := (← getMe).sys.qpend
  if p.getLsbD 0 then return p >>> 32
  modify fun s => toHome s.myTile at'.next s
  let n := homeGetWord (← get) at'.next
  modify (homePutWord at'.next (n + 1))
  setQpend (qpendWord op false n)
  modify fun s => { s with rings := s.rings ++ [{ desc := at'.desc.key, get := op, num := n.truncate 32, task := s.me.task }] }
  return n &&& 0xFFFFFFFF#64
/-- The address of the slot of a ring with a number. -/
def ringSlot (at' : QueueAt) (n : Word) : Word :=
  BitVec.ofNat 64 (descBase at'.w0 + 64 * (n.toNat % descSlots at'.w1))

/-- An earlier reservation of the same ring slot still waits: the slots of a queue are filled in TAIL order and emptied in HEAD
order (R245). -/
def ringBehind (s : State) (at' : QueueAt) (op : Bool) (k : Word) : Bool :=
  s.rings.any fun r => r.desc == at'.desc.key && r.get == op
    && (let d := ((k.truncate 32 : BitVec 32) - r.num).toNat; d != 0 && decide (d ≤ 2 ^ 31) && d % descSlots at'.w1 == 0)
/-- Wait until the ring slot has a state and the instruction's turn has come. -/
def waitRing (at' : QueueAt) (key : Nat) (op : Bool) (k : Word) : M Unit := do
  let s ← get
  if feFull s key != op then park (.fullEmpty key op)
  holdUnless (!ringBehind s at' op k)
/-- A release on a word at issue waits for the slot's earlier accesses of bound bytes and its earlier releases (R235). -/
def needReleased (l : Loc) : M Unit := do
  let s ← get
  let binds := bindings s (s.vfOf s.cur.slot)
  let x : PStore := {
    pos := s.me.ar.pos, op := .relFence, tgt := .mem l, size := .d, data := [], rel := true, acq := false, dest := .discard,
    tsr := 0, nm := false, body := false, binds := binds, relWas := none, insn := 0, key := none }
  let owed (e : EscrowStore) : Bool := e.slot == s.cur.slot && (e.rel || boundTo x (.mem e.loc) e.size.bytes)
  holdUnless (relReady s.me x && !((s.taskOf s.cur.slot).map fun t => t.committed && t.escrow.any owed).getD false)

/-- QPUT (R244). -/
def execQput (o : S2W) (s : State) : Host.Outcome State Fault Refusal :=
  M.step (do
    let i := Instr.qput o
    let f : Form := { mkForm i o.gd .access with rel := true }
    let at' ← queueAt i f o false
    let s ← get
    let n := s.cur.slot
    match at'.buf with
    | .mem l => holdUnless (!mustWait s n s.me.ar.pos l 64)
    | _ => pure ()
    let (pkt, bad, s) := at'.buf.read n s.me.ar.pos 8 s
    set s
    checkPoison bad
    let rev := at'.w1.extractLsb' 16 16
    if (pkt.getD 1 0).extractLsb' 0 16 ≠ rev then
      -- a fault of the ring slot that it would have reserved comes first (R249)
      let n := if s.me.sys.qpend.getLsbD 0 then s.me.sys.qpend >>> 32 else homeGetWord (toHome s.myTile at'.next s) at'.next
      let _ ← homeLoc i (ringSlot at' (n &&& 0xFFFFFFFF#64)) Access.atomic (finishAccess f)
      raise i 20 2 0
    commitFirst
    if !s.me.sys.qpend.getLsbD 0 then
      if (← redEffect (0x5A :: at'.q :: pkt.drop 2)).isSome then
        finishAccess f
        halt
    let k ← reserve at' false
    let e ← homeLoc i (ringSlot at' k) Access.atomic (finishAccess f)
    waitRing at' e.key false k
    needHomeReady (.mem e) 64
    needReleased e
    let s ← get
    let t := s.myTile
    modify (releaseWord (← bindsIf true) t e.asid e.va)
    modify (toHome t e)
    let w1 : Word := rev.zeroExtend 64 ||| (if (s.core s.myCore).nanmode then 0x10000#64 else 0) ||| (k <<< 32)
    modify fun s => (List.range 6).foldl (fun acc j => homePutWord (e.add (16 + 8 * j)) (pkt.getD (j + 2) 0) acc)
      (homePutWord (e.add 8) w1 s)
    modify fun s => setFE e.key true (homePutWord e s.me.sys.tsr s)
    clearQpend at' false
    redPerformed []
    finishAccess f) s

/-- QGET (R245). -/
def execQget (o : S2W) (s : State) : Host.Outcome State Fault Refusal :=
  M.step (do
    let i := Instr.qget o
    let f : Form := { mkForm i o.gd .access with acq := true }
    let at' ← queueAt i f o true
    let s ← get
    let n := s.cur.slot
    let nm := (s.core s.myCore).nanmode
    let rev := at'.w1.extractLsb' 16 16
    commitFirst
    match at'.buf with
    | .mem l => needHomeReady (.mem l) 64
    | _ => pure ()
    let p := (← getMe).sys.qpend
    let deliver (pkt : List Word) : M Unit := do
      modify (at'.buf.write n pkt)
      clearQpend at' true
      finishAccess f
    let check (pkt : List Word) : M Unit := do
      let w := pkt.getD 1 0
      if w.getLsbD 16 != nm then do
        clearQpend at' true
        raise i 10 0x200 at'.q
      if w.extractLsb' 0 16 ≠ rev then do
        clearQpend at' true
        raise i 20 3 0
    if p.getLsbD 0 && p.getLsbD 2 then
      deliver s.me.sys.qpbuf.toList
      halt
    if !p.getLsbD 0 then
      match ← redEffect [0x5B, at'.q] with
      | some pkt => do
        canMeet
        check pkt
        deliver pkt
        halt
      | none => pure ()
    let k ← reserve at' true
    let e ← homeLoc i (ringSlot at' k) Access.atomic (finishAccess f)
    waitRing at' e.key true k
    needHomeReady (.mem e) 64
    canMeet
    modify (toHome s.myTile e)
    let pkt := valueWords (homeGet (← get) e 64) 8
    checkPoison (homePoison (← get) e 64)
    modify (setFE e.key false)
    modify (acquireWord (← bindsIf true) s.myTile e.asid e.va)
    actMe fun sl => { sl with sys := { sl.sys with qpbuf := vecOf 8 pkt 0,
                                                   qpend := qpendWord true true k } }
    redPerformed pkt
    check pkt
    deliver pkt) s

end Sys2Proof.Machine
end

