-- ==== Sys2Proof/Machine/CopyEngine.lean ====
section
/-! DEFINITION. Copy engines and collectives: the requests, CPY to COLLNB, and the steps of a channel (06_copy_engines.md R107 to
R123). -/
namespace Sys2Proof.Machine

/-! ## Requests (R107 to R109) -/

def reqLen (w2 : Word) : Nat := (w2.extractLsb' 0 32).toNat
def reqEty (w2 : Word) : BitVec 4 := w2.extractLsb' 32 4
def reqRed (w2 : Word) : BitVec 3 := w2.extractLsb' 36 3
def reqCi (w2 : Word) : Bool := w2.getLsbD 39
def reqBcw (w2 : Word) : Bool := w2.getLsbD 40
def reqKind (w2 : Word) : Nat := (w2.extractLsb' 44 4).toNat

/-- A form of R108. -/
def formOk (a : Word) : Bool := if isScratchForm a then a.extractLsb' 23 40 == 0#40 else a.extractLsb' 55 8 == 0#8
def isVirtual (a : Word) : Bool := !isScratchForm a

/-- ETYPE permitted for RED (R105, R109 check 3). -/
def redPermitted (red : BitVec 3) (ety : BitVec 4) : Bool :=
  if 10#4 < ety then false
  else
    let t := ETy.ofCode ety
    match red.toNat with
    | 1 => t.isFloat || t.bits == 32 || t.bits == 64
    | 2 | 3 => true
    | 4 | 5 => t.bits == 64
    | _ => false
/-- Bytes of an element. -/
def etyBytes (ety : BitVec 4) : Nat := (ETy.ofCode ety).bits / 8

/-- The first check of R109 that a request fails. -/
def checkRequest (w0 w1 w2 w3 uivec : Word) (coll : Bool) : Option Nat :=
  let red := reqRed w2
  let es := etyBytes (reqEty w2)
  if w2.extractLsb' 41 3 ≠ 0#3 ∨ w2.extractLsb' 48 16 ≠ 0#16 then some 1
  else if !formOk w0 || !formOk w1 || !(isVirtual w3 && formOk w3) then some 2
  else if (red = 0#3 ∧ reqEty w2 ≠ 0#4) ∨ 5#3 < red ∨ (red ≠ 0#3 ∧ ¬ redPermitted red (reqEty w2)) ∨ (red ≠ 0#3 ∧ isScratchForm w1) then some 3
  else if (red ≠ 0#3 ∧ (w0.toNat % es ≠ 0 ∨ w1.toNat % es ≠ 0 ∨ reqLen w2 % es ≠ 0))
      ∨ (coll = false ∧ w3.toNat % (if reqBcw w2 then 16 else 8) ≠ 0) then some 4
  else if reqCi w2 && uivec == 0 then some 5
  else if (if coll then decide (reqKind w2 < 1 ∨ 6 < reqKind w2 ∨ w3 = 0 ∨ w3.toNat % 64 ≠ 0) else reqKind w2 != 0) then some 6
  else if !coll && reqBcw w2 && w3 == 0 then some 7
  else none

/-! ## Instructions (R110, R112, R123) -/

/-- A request is held while its task is uncommitted, when it writes global memory; every collective counts as one that
does, since its signal word is known only at its start (DEDUCED, log 21). -/
def requestHeld (s : State) (w1 w3 : Word) (coll : Bool) : Bool := inBody s && (isVirtual w1 || coll || w3 != 0)

/-- Where the other copy of the redundant task that pushes is, and the number of the push among its outgoing operations (R272). -/
def copyTwin (s : State) : Option (Nat × Nat × Nat) :=
  if s.me.super then none
  else
    match s.task? s.me.task with
    | none => none
    | some t => t.twin.bind fun u => (s.task? u).map fun x => (x.tile, u, s.outKey)

/-- CPY, CPYNB, COLL and COLLNB. -/
def pushCopy (i : Instr) (o : CpOps) (coll nb : Bool) (s : State) : Host.Outcome State Fault Refusal :=
  M.step (do
    let f : Form := { mkForm i o.gd .access with rel := true }
    begin f true
    let rs := (List.range 4).map fun k => WReg.a (o.first + BitVec.ofNat 4 k)
    let cs ← prepare f (rs.map .w) [.w o.d] (finishAccess f)
    let ws ← rs.mapM (takeW cs)
    let w0 := ws.getD 0 0
    let w1 := ws.getD 1 0
    let w2 := ws.getD 2 0
    let w3 := ws.getD 3 0
    let s ← get
    match checkRequest w0 w1 w2 w3 s.me.sys.uivec coll with
    | some d => raise i 12 d 0
    | none => pure ()
    let c := o.ch.toNat
    let ch := chanOf s s.myTile c
    let held := requestHeld s w1 w3 coll
    let task := s.me.task
    let count := (ch.fifo ++ ch.exec).filter fun x => x.held && x.task == task
    if held && decide (4 ≤ count.length) then raise i 13 2 0
    if 8 ≤ ch.fifo.length then
      if nb then
        putW o.d (-1)
        finishAccess f
        halt
      else park (.copyRoom c)
    needEarlier
    let other := copyTwin (← get)
    let gift ← redEffect [0x50, w0, w1, w2, w3]
    let s ← get
    let x : Transfer := {
      id := ch.next, w0 := w0, w1 := w1, w2 := w2, w3 := w3, ts := s.me.sys.tsr, slot := s.cur.slot, pos := s.me.ar.pos,
      task := task, vf := s.vfOf s.cur.slot, asid := s.asidOf s.cur.slot, group := s.groupOf s.cur.slot,
      nm := (s.core s.myCore).nanmode, held := held, body := held, coll := coll, started := false, written := 0, desc := [], seq := 0,
      ended := none, fault := none, fcode := 0, fwhere := 0, carry := [], ready := false, bufs := [],
      twin := other }
    modify fun s => s.modTile s.myTile (Tile.modChan c fun y => { y with next := y.next + 1, fifo := y.fifo ++ [x] })
    if gift.isNone then redPerformed []
    putW o.d (ch.next.zeroExtend 64)
    markAll false [.w o.d]
    finishAccess f) s

def execCpy (o : CpOps) (s : State) : Host.Outcome State Fault Refusal := pushCopy (.cpy o) o false false s
def execCpynb (o : CpOps) (s : State) : Host.Outcome State Fault Refusal := pushCopy (.cpynb o) o false true s
def execColl (o : CpOps) (s : State) : Host.Outcome State Fault Refusal := pushCopy (.coll o) o true false s
def execCollnb (o : CpOps) (s : State) : Host.Outcome State Fault Refusal := pushCopy (.collnb o) o true true s

/-- The test of R30 and R112. -/
def idComplete (ch : Channel) (id : BitVec 32) : Bool := decide (2 ^ 31 ≤ (id - ch.cdone).toNat)

/-- CWAIT. Copies write at home and leave no stale line behind, so the acquire discards nothing. -/
def execCwait (o : CwOps) (s : State) : Host.Outcome State Fault Refusal :=
  M.step (do
    let i := Instr.cwait o
    let f : Form := { mkForm i o.gd .access with acq := true }
    begin f true
    let cs ← prepare f [.w o.id] [] (finishAccess f)
    let id : BitVec 32 := (← takeW cs o.id).truncate 32
    let s ← get
    let ch := chanOf s s.myTile o.ch.toNat
    if !idComplete ch id then
      if inBody s && (ch.fifo ++ ch.exec).any (fun x => x.id == id && x.held && x.task == s.me.task) then raise i 13 1 0
      park (.copyId o.ch.toNat id.toNat)
    finishAccess f) s

/-- CTEST. -/
def execCtest (o : CtOps) (s : State) : Host.Outcome State Fault Refusal :=
  M.step (do
    let f := mkForm (.ctest o) o.gd .access
    begin f false
    let cs ← prepare f [.w o.id] [.w o.d] (finishAccess f)
    let id : BitVec 32 := (← takeW cs o.id).truncate 32
    let s ← get
    putW o.d (wordOfBool (idComplete (chanOf s s.myTile o.ch.toNat) id))
    finishAccess f) s

/-- The status word of CSTAT (R112). -/
def chanStatus (ch : Channel) : Word :=
  ch.cdone.zeroExtend 64 ||| BitVec.ofNat 64 (2 ^ 32 * ch.fifo.length + 2 ^ 36 * ch.exec.length
    + 2 ^ 40 * (ch.exec.filter fun x => x.held).length + (if ch.paused then 2 ^ 44 else 0) + 2 ^ 46 * ch.lasterr.toNat)
def execCstat (o : CsOps) (s : State) : Host.Outcome State Fault Refusal :=
  M.step (do
    let f := mkForm (.cstat o) o.gd .access
    begin f false
    let _ ← prepare f [] [.w o.d] (finishAccess f)
    let s ← get
    putW o.d (chanStatus (chanOf s s.myTile o.ch.toNat))
    finishAccess f) s

/-! ## The bytes of a transfer (R108, R113, R114) -/

/-- What a transfer meets when it reads or writes some bytes. -/
inductive Moved (α : Type) where
  | ok (v : α) (s : State)
  | fault (code va : Nat) (s : State) -- the code and 16 times the level
  | status (code : Nat) (s : State)
  | wait (s : State)

/-- A transfer reads poison, which is delivered to it (R338, R344). -/
def meetPoison {α : Type} (x : Transfer) (s : State) : Moved α := .status 8 (countUncorr x.vf s)

/-- The scratchpad place of an address: status 13 outside SCRATCH and FIFO banks, 14 in a fenced rectangle (R117). -/
def copyScratch (s : State) (t : Nat) (x : Transfer) (a : Word) : Except Nat Target :=
  match scratchTarget s t x.vf x.group (a &&& 0x7FFFFFFFFFFFFFFF#64) true with
  | .ok g => .ok g
  | .error 5 => .error 14
  | .error _ => .error 13

/-- A translation for a transfer of channel c (R14): a miss goes to the walker of the core that owns the channel, and the
transfer waits for what it installs or reports. Register space is absent memory to it. -/
def copyXlat (t c : Nat) (x : Transfer) (va : Word) (a : Access) (s : State) : Moved Loc :=
  let d := dieOfTile t
  let req := Requester.chan t c x.id.toNat
  if va.extractLsb' 55 9 ≠ 0#9 then .fault (3 + 16) va.toNat s
  else
    match lookupT d va.toNat x.asid a true s with
    | .fault code lvl s => .fault (code + 16 * lvl) va.toNat s
    | .ok l s =>
      if tileFenced s t || (if a.w then homeCut s t l else reachCut s t l) then .status 14 s
      else
        (match if isRemote l.key then takeReport d req l.va s else (none, s) with
         | (some r, s) => .fault (r.code.toNat + 16 * r.level.toNat) va.toNat s
         | (none, s) =>
           match awaitRemote req l.va l.key s with
           | (some s, _) => .ok l s
           | (none, s) => .wait s)
    | .miss conf s =>
      match takeReport d req va.toNat s with
      | (some r, s) => .fault (r.code.toNat + 16 * r.level.toNat) va.toNat s
      | (none, s) => .wait (addMiss d req (coreOfSlot x.slot) va.toNat x.asid a conf true s)

/-- Accesses of the issuing slot before the push that have not been performed, its escrow among them once its task has committed:
the transfer, which observes them, follows them (R113, R248). -/
def Transfer.behind (x : Transfer) (s : State) : Bool :=
  let sl := s.slot x.slot
  sl.bound && sl.task == x.task
    && (sl.loads.any (fun y => decide (y.pos < x.pos)) || sl.stores.any (fun y => decide (y.pos < x.pos))
      || ((s.task? x.task).map fun t => t.committed && t.escrow.any fun e => e.slot == x.slot && decide (e.pos < x.pos)).getD false)
/-- The escrowed stores of the issuing slot that a transfer of its body observes at some bytes: those before its push, and later
ones whose data has come (R113). -/
def Transfer.escrow (x : Transfer) (s : State) (l : Loc) (n : Nat) : List EscrowStore :=
  if (s.slot x.slot).task == x.task then
    (escrowOver s x.slot l n).filter fun e => decide (e.pos < x.pos) || owedIn e.data == 0
  else []
/-- One of them still lacks its data, for which the read waits (R26). -/
def Transfer.owed (x : Transfer) (s : State) (l : Loc) (n : Nat) : Bool := (x.escrow s l n).any fun e => owedIn e.data != 0

/-- Bytes of virtual memory as the issuing slot's loads see them (R113): its tile's lines, its die's slice, its escrow. -/
def copyLoad (t : Nat) (x : Transfer) (l : Loc) (n : Nat) (s : State) : VWord × Bool × State :=
  let s := if l.c then cleanL1 t l.asid l.vline s else s
  let (v, bad, s) := match if l.c then findLine (s.die (dieOfTile t)).lines l.asid l.vline else none with
    | some y =>
      let s := senseSlice (dieOfTile t) l.asid l.vline s
      let y := (findLine (s.die (dieOfTile t)).lines l.asid l.vline).getD y
      (lineGet y.data l.off n, poisonHit y.poison l.off n, s)
    | none =>
      let s := toHome t l s
      (homeGet s l n, homePoison s l n, s)
  let own := x.escrow s l n
  let (spoilt, s) := if own.isEmpty then (false, s) else escrowPoison x.slot l n s
  (own.foldl (fun acc e => overlay l.key n acc e.loc.key e.size.bytes (wordsValue (dataWords e.data))) v, bad || spoilt, s)

/-- The bytes from an address to the end of its 32-byte sector, at most n. -/
def pieceLen (a : Word) (n : Nat) : Nat := min n (32 - a.toNat % 32)
/-- A FIFO bank at an address of a transfer. -/
def isFifoAt (s : State) (t : Nat) (x : Transfer) (a : Word) : Bool :=
  isScratchForm a && match copyScratch s t x a with | .ok (.fifo _ _ _) => true | _ => false
/-- The piece of n bytes that lies at an address: up to the end of a sector, or a word of a FIFO bank (R108, R131). -/
def pieceAt (s : State) (t : Nat) (x : Transfer) (a : Word) (n : Nat) : Nat := if isFifoAt s t x a then min 8 n else pieceLen a n
/-- A FIFO bank serves a copy's word when it can and no waiter that it could serve is before the copy (R131; log 88). -/
def fifoOpen (s : State) (t b : Nat) (push : Bool) : Bool :=
  decide (1 ≤ fifoFree s t b push) && !(s.tile t).fifoWait.any fun w => w.bank == b && w.push == push && w.able s t

/-- Read one piece of a source, which lies in one sector, or one word of a FIFO bank. -/
def readPiece (t c : Nat) (x : Transfer) (a : Word) (n : Nat) (s : State) : Moved (List Byte) :=
  if isScratchForm a then
    match copyScratch s t x a with
    | .error c => .status c s
    | .ok (.fifo t' b _) =>
      let s := sense x.vf (ErrAt.inFifo t' b) s
      let q := (s.tile t').fifos.get b []
      if !fifoOpen s t' b false then .wait s
      else if spoiled s (ErrAt.inFifo t' b) then meetPoison x s
      else .ok ((bytesLE 8 ((q.head?.map (·.word.toNat)).getD 0)).take n) (s.modTile t' fun y => { y with fifos := y.fifos.set b (q.drop 1) })
    | .ok (.scratch t' b off) =>
      let (v, bad, s) := getScratch x.vf t' (8192 * b + off) n s
      if bad then meetPoison x s else .ok (bytesLE n v) s
    | .ok _ => .status 13 s
  else
    match copyXlat t c x a Access.copyRead s with
    | .ok l s =>
      if x.owed s l n then .wait s
      else
        let (v, bad, s) := copyLoad t x l n s
        if bad then meetPoison x s else .ok (bytesLE n v.toNat) s
    | .fault c v s => .fault c v s
    | .status c s => .status c s
    | .wait s => .wait s

/-- The result of a reduction on one element (R105). -/
def reduceElem (red : BitVec 3) (ety : BitVec 4) (nm : Bool) (old v : Nat) : Nat :=
  let t := ETy.ofCode ety
  let w := t.bits
  if t.isFloat then
    let f := t.fmt
    let a := f.decode nm old
    let b := f.decode nm v
    f.rne nm (match red.toNat with | 1 => a.add b | 2 => a.min b | _ => a.max b)
  else
    let a := BitVec.ofNat w old
    let b := BitVec.ofNat w v
    let lt := if t.signed then b.slt a else b.ult a
    (match red.toNat with
      | 1 => a + b
      | 2 => if lt then b else a
      | 3 => if lt then a else b
      | 4 => a &&& b
      | _ => a ||| b).toNat

/-- Reduce bytes into those that memory holds, element by element. -/
def reduceBytes (red : BitVec 3) (ety : BitVec 4) (nm : Bool) (old v : List Byte) : List Byte :=
  let es := etyBytes ety
  let num (bs : List Byte) (k : Nat) : Nat := ((bs.drop (es * k)).take es).foldr (fun b acc => b.toNat + 256 * acc) 0
  (List.range (v.length / es)).flatMap fun k => bytesLE es (reduceElem red ety nm (num old k) (num v k))

def bytesValue (bs : List Byte) : VWord := BitVec.ofNat 512 (bs.foldr (fun b acc => b.toNat + 256 * acc) 0)

/-- The effect of a piece on its destination; `red` is 0 for a plain write. A virtual destination is written at its home, and no
cache keeps a copy of its line (R235). -/
def putPiece (x : Transfer) (red : BitVec 3) (tgt : Target) (bs : List Byte) (s : State) : State :=
  match tgt with
  | .fifo t' b _ => s.modTile t' fun y => { y with fifos := y.fifos.set b (y.fifos.get b [] ++ [{ word := wordLE bs, nm := x.nm }]) }
  | .scratch t' b off => putScratch t' (8192 * b + off) bs.length (bytesValue bs).toNat s
  | .mem l =>
    let s := abortReaders x.task l.asid l.vline s
    let s := if l.c then dropCopies l.asid l.vline s else s
    let bs := if red = 0#3 then bs else reduceBytes red (reqEty x.w2) x.nm (bytesLE bs.length (homeGet s l bs.length).toNat) bs
    homePut l bs.length (bytesValue bs) s
  | _ => s

/-- The other copy's transfer of a redundant task. -/
def otherCopy (s : State) (c : Nat) (t' u p : Nat) : Option Transfer :=
  ((chanOf s t' c).exec ++ (chanOf s t' c).fifo).find? fun y => y.task == u && y.twin.map (·.2.2) == some p
/-- A transfer has bytes ready that it has not written, or is a collective whose result is still to come. -/
def Transfer.hasBytes (y : Transfer) : Bool := if y.coll then !y.ready || !y.carry.isEmpty else y.ready
/-- What a transfer of a redundant task's copy does with the bytes that it has ready, or with its signal word (none): it waits
for the other copy, writes when the two are equal, leaves out what the other has written, or finds that they differ (R272). -/
def copyGate (c : Nat) (x : Transfer) (bs : List Byte) (s : State) : Gate :=
  match x.twin with
  | none => .go
  | some (t', u, p) =>
    match otherCopy s c t' u p with
    | some y =>
      if y.ended.isSome || decide (x.written < y.written) then .taken []
      else if bs.isEmpty then (if y.hasBytes || decide (y.written < x.written) then .wait else .go)
      else if y.ready && y.written == x.written && decide (bs.length ≤ y.carry.length) then
        (if y.carry.take bs.length == bs then .go else .differ)
      else .wait
    | none =>
      match s.task? u with
      | some v => if (v.used.get? p).isNone then .wait else .taken []
      | none => .taken []

/-- The copies of a redundant task differ in a write of a transfer: the mismatch of R272, and the transfers end as those of a
discarded body do. -/
def copiesDiffer (c : Nat) (x : Transfer) (s : State) : State :=
  let s := match x.twin.bind fun (t', u, p) => (otherCopy s c t' u p).map fun y => (t', y) with
    | some (t', y) => endTransfer t' c y.id (statusWord 9 1 y.written) s
    | none => s
  redMismatch x.task x.slot x.ts s

/-- Whether a write of a transfer leaves its tile. -/
def Target.leaves (t : Nat) (g : Target) : Bool := match targetTile g with | some t' => t' != t | none => true

/-- Write one piece of a destination. The copies of a redundant task write what leaves their tiles once. -/
def writePiece (t c : Nat) (x : Transfer) (red : BitVec 3) (a : Word) (bs : List Byte) (s : State) : Moved Unit :=
  let goal : Moved Target :=
    if isScratchForm a then
      match copyScratch s t x a with
      | .error c => .status c s
      | .ok (.fifo t' b off) => if fifoOpen s t' b true then .ok (.fifo t' b off) s else .wait s
      | .ok (.scratch t' b off) => .ok (.scratch t' b off) s
      | .ok _ => .status 13 s
    else
      match copyXlat t c x a (if red = 0#3 then Access.copyWrite else Access.copyReduce) s with
      | .ok l s =>
        let s := if red = 0#3 then s else senseHome l.asid l.vline l.key s
        if red ≠ 0#3 && homePoison s l bs.length then meetPoison x s else .ok (.mem l) s
      | .fault c v s => .fault c v s
      | .status c s => .status c s
      | .wait s => .wait s
  match goal with
  | .fault c v s => .fault c v s
  | .status c s => .status c s
  | .wait s => .wait s
  | .ok g s =>
    match if g.leaves t then copyGate c x bs s else .go with
    | .wait => .wait s
    | .taken _ => .ok () s
    | .differ => .status 9 (copiesDiffer c x s)
    | .go => .ok () (putPiece x red g bs s)

/-! ## Ends and faults of a transfer (R117, R119) -/

def modTransfer (t c : Nat) (id : BitVec 32) (f : Transfer → Transfer) (s : State) : State :=
  s.modTile t (Tile.modChan c fun y => { y with exec := modFirst y.exec (fun z => z.id == id) f })
def findTransfer (s : State) (t c : Nat) (id : BitVec 32) : Option Transfer := (chanOf s t c).exec.find? fun x => x.id == id

def setPaused (t c : Nat) (s : State) : State := s.modTile t (Tile.modChan c Channel.pause)

/-- The entry of kind 2 (R304). -/
def copyEntry (t c : Nat) (x : Transfer) (code lvl va : Nat) (kind : Nat) : List Word :=
  let base := faultWord1 2 0 code lvl x.slot x.vf x.asid
  let w1 := (base &&& ~~~0xF0000#64) ||| BitVec.ofNat 64 (2 ^ 16 * c)
  let _ := t
  [w1, x.ts, BitVec.ofNat 64 (va % 2 ^ 55 + 2 ^ 56 * kind), x.id.zeroExtend 64, 0, 0, 0]

/-- Post a transfer's entry, or hold it in the channel (R303). -/
def postTransfer (t c : Nat) (id : BitVec 32) (p : Posting) (s : State) : State :=
  match post (dieOfTile t) p s with
  | .made key s => modTransfer t c id (fun z => if z.ended.isNone then { z with fault := some key } else z) s
  | .held p s => s.modTile t (Tile.modChan c fun y => { y with heldPost := y.heldPost ++ [p] })

/-- A transfer meets a translation fault: it pauses, and its channel with it (R119). -/
def faultTransfer (t c : Nat) (x : Transfer) (code va kind whr : Nat) (s : State) : State :=
  let s := modTransfer t c x.id (fun z => { z with fault := some 0, fcode := BitVec.ofNat 4 code, fwhere := whr }) s
  setPaused t c (postTransfer t c x.id (posting none x.asid (copyEntry t c x (code % 16) (code / 16) va kind)) s)

/-- Posts that a channel holds are tried again (R303). -/
def retryChan (t c : Nat) (s : State) : State :=
  let ps := (chanOf s t c).heldPost
  let s := s.modTile t (Tile.modChan c fun y => { y with heldPost := [] })
  ps.foldl (fun acc p => postTransfer t c ((p.words.getD 3 0).truncate 32) p acc) s

/-- The reply of the paging service to a transfer's entry (R119): it resumes, or completes with the fault's code. -/
def replyTransfer (t c : Nat) (x : Transfer) (status : Nat) (s : State) : State :=
  let s := modTransfer t c x.id (fun z => { z with fault := none }) s
  if status = 0 then setPaused t c s
  else
    let s := s.modTile t (Tile.modChan c fun y => { y with exec := modFirst y.exec (fun z => z.id == x.id) fun z =>
      { z with ended := some (statusWord x.fcode.toNat x.fwhere x.written) } })
    chanAdvance t c 17 (setPaused t c s)

/-- A transfer that is not behind a paused one of its channel may complete (R119). -/
def mayComplete (ch : Channel) (x : Transfer) : Bool :=
  !ch.exec.any fun z => z.fault.isSome && decide ((z.id - ch.cdone).toNat < (x.id - ch.cdone).toNat)

/-- A transfer ends with a code; LASTERR and CDONE follow when the earlier ones have ended. -/
def finishTransfer (t c : Nat) (x : Transfer) (code whr done : Nat) (s : State) : State :=
  endTransfer t c x.id (statusWord code whr done) s

/-- The signal word of a transfer whose bytes are written (R115), then its end. -/
def signalTransfer (t c : Nat) (x : Transfer) (sig : Word) (s : State) : State :=
  let len := reqLen x.w2
  let gate := if sig = 0 then Gate.taken [] else copyGate c x [] s
  match gate with
  | .wait => s
  | .taken _ | .differ => finishTransfer t c x 0 0 len s
  | .go =>
    match copyXlat t c x sig Access.copyWrite s with
    | .wait s => s
    | .status code s => finishTransfer t c x code 2 x.written s
    | .fault code va s => faultTransfer t c x code va 6 2 s
    | .ok l s =>
      let s := abortReaders x.task l.asid l.vline s
      let s := if l.c then dropCopies l.asid l.vline s else s
      if reqBcw x.w2 then
        let (ovf, s) := bcArrive l len x.ts x.vf s
        finishTransfer t c x (if ovf then 10 else 0) 0 len (retryPosts (dieOfTile t) s)
      else finishTransfer t c x 0 0 len (setFE l.key true (homePutWord l x.ts s))

/-! ## Copies (R113, R114) -/

/-- Source and destination of a plain copy overlap. -/
def selfOverlap (x : Transfer) : Bool :=
  reqRed x.w2 == 0#3 && isScratchForm x.w0 == isScratchForm x.w1 && decide (x.w0 ≠ x.w1)
    && overlaps x.w0.toNat (reqLen x.w2) x.w1.toNat (reqLen x.w2)

/-- The values that the destination bytes of an overlapping copy receive: each is free to be the byte that its source held, or
the value that the transfer wrote there (R113). `d` is how far the source lies above the destination; byte j takes its
written value from byte j + d. -/
def overlapValues (src : List Byte) (d : Int) (s : State) : List Byte × State :=
  let n := src.length
  let order := if 0 < d then (List.range n).reverse else List.range n
  let (vals, s) := order.foldl (fun (vals, s) j =>
    let k : Int := Int.ofNat j + d
    let (c, s) := s.nextFree
    let v : Byte :=
      if 0 ≤ k ∧ k < n ∧ c % 2 = 1 then SMap.get vals k.toNat (src.getD j 0) else src.getD j 0
    (SMap.set vals j v, s)) (([] : SMap Byte), s)
  ((List.range n).map fun j => SMap.get vals j 0, s)

/-- A copy whose remaining bytes overlap and are no words of a FIFO bank. -/
def mixes (s : State) (t : Nat) (x : Transfer) : Bool :=
  let off := BitVec.ofNat 64 x.written
  selfOverlap x && !isFifoAt s t x (x.w0 + off) && !isFifoAt s t x (x.w1 + off)
/-- The bytes that a copy reads before it writes any of them: a piece of its source and of its destination, a word of a FIFO
bank, or all that remain where the two overlap. -/
def chunkLen (s : State) (t : Nat) (x : Transfer) : Nat :=
  let off := BitVec.ofNat 64 x.written
  let rem := reqLen x.w2 - x.written
  if isFifoAt s t x (x.w0 + off) || isFifoAt s t x (x.w1 + off) then min 8 rem
  else if mixes s t x then rem
  else min (pieceLen (x.w0 + off) rem) (pieceLen (x.w1 + off) rem)

/-- Read the source of a transfer until it carries n bytes; what it has read it keeps while it waits. -/
def gather (t c : Nat) (id : BitVec 32) (n : Nat) : Nat → State → Moved Unit
  | 0, s => .wait s
  | k + 1, s =>
    match findTransfer s t c id with
    | none => .wait s
    | some x =>
      if x.ended.isSome || x.fault.isSome then .wait s
      else if n ≤ x.carry.length then .ok () s
      else
        let a := x.w0 + BitVec.ofNat 64 (x.written + x.carry.length)
        match readPiece t c x a (pieceAt s t x a (n - x.carry.length)) s with
        | .ok bs s => gather t c id n k (modTransfer t c id (fun z => { z with carry := z.carry ++ bs }) s)
        | .fault c v s => .fault c v s
        | .status c s => .status c s
        | .wait s => .wait s

/-- A transfer ends with a failure, once it may (R119). -/
def failTransfer (t c : Nat) (x : Transfer) (code whr : Nat) (s : State) : State :=
  if mayComplete (chanOf s t c) x then finishTransfer t c x code whr x.written s else s

/-- Write the next piece of the bytes that a transfer has ready; the flag says that it has been written. -/
def writeNext (t c : Nat) (x : Transfer) (s : State) : Bool × State :=
  let a := x.w1 + BitVec.ofNat 64 x.written
  let m := pieceAt s t x a x.carry.length
  match writePiece t c x (if x.coll then 0 else reqRed x.w2) a (x.carry.take m) s with
  | .wait s => (false, s)
  | .status code s => (false, failTransfer t c x code 1 s)
  | .fault code va s => (false, faultTransfer t c x code va 6 1 s)
  | .ok _ s => (true, modTransfer t c x.id (fun z =>
      { z with written := z.written + m, carry := z.carry.drop m, ready := z.coll || decide (m < z.carry.length) }) s)

/-- The next piece of a copy: read, then written, in ascending order (DESIGN CHOICE, log 99). -/
def copyPiece (t c : Nat) (x : Transfer) (s : State) : Bool × State :=
  if x.ready then writeNext t c x s
  else
    let n := chunkLen s t x
    match gather t c x.id n (n + 1) s with
    | .wait s => (false, s)
    | .status code s => (false, failTransfer t c x code 0 s)
    | .fault code va s => (false, faultTransfer t c x code va 5 0 s)
    | .ok _ s =>
      match findTransfer s t c x.id with
      | none => (false, s)
      | some x =>
        let (bs, s) := if mixes s t x then overlapValues x.carry (Int.ofNat x.w0.toNat - Int.ofNat x.w1.toNat) s else (x.carry, s)
        let s := modTransfer t c x.id (fun z => { z with carry := bs, ready := true }) s
        writeNext t c { x with carry := bs, ready := true } s

/-- A started transfer with bytes still to write: a copy, or a collective that has its result. -/
def Transfer.unwritten (x : Transfer) : Bool :=
  x.started && x.ended.isNone && x.fault.isNone && (if x.coll then x.ready && !x.carry.isEmpty else decide (x.written < reqLen x.w2))

/-- Up to n pieces of a transfer. -/
def copyPieces (t c : Nat) (id : BitVec 32) : Nat → State → State
  | 0, s => s
  | n + 1, s =>
    match findTransfer s t c id with
    | none => s
    | some x =>
      if !x.unwritten then s
      else match copyPiece t c x s with
        | (true, s) => copyPieces t c id n s
        | (false, s) => s

/-! ## Collectives (R120 to R122) -/

def descGroup (d : List Word) : Nat := ((d.getD 0 0).extractLsb' 0 16).toNat
def descSize (d : List Word) : Nat := ((d.getD 0 0).extractLsb' 16 16).toNat
def descRank (d : List Word) : Nat := ((d.getD 0 0).extractLsb' 32 16).toNat
def descRoot (d : List Word) : Nat := ((d.getD 0 0).extractLsb' 48 16).toNat
def descSig (d : List Word) : Word := d.getD 1 0
def descMember (d : List Word) (r : Nat) : Word := d.getD (8 + r) 0
def memberHere (m : Word) : Bool := m.extractLsb' 0 9 == Config.selfPackage
def memberTile (m : Word) : Nat := 192 * (m.extractLsb' 9 2).toNat + (m.extractLsb' 11 8).toNat
def memberChan (m : Word) : Nat := (m.extractLsb' 19 3).toNat
/-- An entry names a tile that a die has (R120). -/
def memberValid (m : Word) : Bool := decide ((m.extractLsb' 11 8).toNat < 192)
/-- An entry names a channel of this package. -/
def memberIs (m : Word) (t c : Nat) : Bool := memberHere m && memberValid m && memberTile m == t && memberChan m == c

/-- A started collective and the channel where it waits. -/
structure Member where
  tile : Nat
  ch   : Nat
  x    : Transfer

/-- The entries of a member's table, none while its descriptor gives none. -/
def Member.table (m : Member) : List Word :=
  if m.x.desc.length = 8 + descSize m.x.desc then m.x.desc.drop 8 else []
/-- A member's table names a channel of this package. -/
def Member.names (m : Member) (t c : Nat) : Bool := m.table.any fun e => memberIs e t c
/-- The entry at a member's own rank. -/
def Member.own (m : Member) : Word := descMember m.x.desc (descRank m.x.desc)
/-- A collective of a redundant task's copy whose entry names the other copy's channel: that copy is the participant, and this one
takes its result (R272; DEDUCED, log 108). -/
def Member.muted (m : Member) : Bool :=
  match m.x.twin with
  | some (t', _, _) => t' != m.tile && memberIs m.own t' m.ch
  | none => false

/-- The collectives of a group with ordinal k that have started and not ended. -/
def startedAll (s : State) (group k : Nat) : List Member :=
  s.tiles.flatMap fun (t, tl) => ((List.range 8).zip tl.chans.toList).flatMap fun (c, ch) =>
    (ch.exec.filter fun x => x.coll && x.started && x.ended.isNone && descGroup x.desc == group && x.seq == k).map
      fun x => { tile := t, ch := c, x := x }
/-- Those that are participants. -/
def started (s : State) (group k : Nat) : List Member := (startedAll s group k).filter fun m => !m.muted
/-- The other copy's collective of a participant that is a redundant task's, once it has started. -/
def Member.echo (s : State) (m : Member) : Option Member :=
  m.x.twin.bind fun (t', u, p) => (otherCopy s m.ch t' u p).bind fun y =>
    if y.started && y.ended.isNone then some { tile := t', ch := m.ch, x := y } else none
/-- The other copy, where there is one, has started the collective. -/
def Member.echoed (s : State) (m : Member) : Bool :=
  match m.x.twin with
  | some (_, u, _) => (s.task? u).isNone || (m.echo s).isSome
  | none => true
/-- The members that have started the collective of a member: itself, and those that its table names (R122). -/
def peers (ms : List Member) (m : Member) : List Member :=
  ms.filter fun y => (y.tile == m.tile && y.ch == m.ch) || m.names y.tile y.ch
/-- Every member of this package that a member's table names has started the collective; one without a table waits for
nothing. -/
def Member.whole (ms : List Member) (m : Member) : Bool :=
  m.table.all fun e => !memberHere e || !memberValid e || ms.any fun y => y.tile == memberTile e && y.ch == memberChan e

/-- The status with which a collective ends that a member has left: the one with which a channel of its table ended it, or 12
where a member's tile is fenced or no path leads to it (R122, R326). -/
def Member.lost (s : State) (m : Member) : Option Nat :=
  match s.gone.find? fun g => g.group == descGroup m.x.desc && g.seq == m.x.seq && m.names g.tile g.ch with
  | some g => some g.code
  | none =>
    if m.table.any fun e => memberHere e && memberValid e && (tileLost s m.tile (memberTile e) || tileCut s (dieOfTile m.tile) (memberTile e)) then some 12
    else none

/-- The limits of R120 and R121 on one member's request and descriptor. -/
def memberOk (m : Member) : Bool :=
  let d := m.x.desc
  let kind := reqKind m.x.w2
  let red := reqRed m.x.w2
  decide (2 ≤ descSize d) && decide (descSize d ≤ 16384) && decide (descRank d < descSize d) && decide (descRoot d < descSize d)
    && (kind == 2 || kind == 4 || descRoot d == 0)
    && (List.range 5).all (fun k => d.getD (3 + k) 0 == 0)
    && decide (d.length = 8 + descSize d)
    && (List.range (descSize d)).all (fun r => (descMember d r).extractLsb' 22 42 == 0#42 && memberValid (descMember d r))
    && memberIs m.own m.tile m.ch
    && (if reqBcw m.x.w2 then descSig d != 0 && (descSig d).toNat % 16 == 0 else (descSig d).toNat % 8 == 0)
    && (match kind with
        | 1 => red == 0#3 && reqLen m.x.w2 == 0
        | 2 => red == 0#3
        | 5 => red == 0#3
        | _ => red != 0#3)

/-- Two members agree on what R122 lists. -/
def memberAgree (a b : Member) : Bool :=
  (a.x.w2 &&& 0x0000F07FFFFFFFFF#64) == (b.x.w2 &&& 0x0000F07FFFFFFFFF#64) && descSize a.x.desc == descSize b.x.desc
    && descRoot a.x.desc == descRoot b.x.desc && a.x.nm == b.x.nm

/-- Combine the contributions to one element in a free order (R81, R121). -/
def combineAny (red : BitVec 3) (ety : BitVec 4) (nm : Bool) : Nat → List Nat → State → Nat × State
  | 0, vs, s => (vs.headD 0, s)
  | n + 1, vs, s =>
    match vs with
    | [] => (0, s)
    | [v] => (v, s)
    | vs =>
      let (c, s) := s.nextFree
      let a := vs.getD (c % vs.length) 0
      let vs := vs.eraseIdx (c % vs.length)
      let (c, s) := s.nextFree
      let b := vs.getD (c % vs.length) 0
      let vs := vs.eraseIdx (c % vs.length)
      combineAny red ety nm n (reduceElem red ety nm a b :: vs) s

/-- Combine the contributions to a block, element by element. -/
def combineBlocks (red : BitVec 3) (ety : BitVec 4) (nm : Bool) (bss : List (List Byte)) (n : Nat) (s : State) : List Byte × State :=
  let es := etyBytes ety
  (List.range (n / es)).foldl (fun (acc, s) k =>
    let vs := bss.map fun bs => ((bs.drop (es * k)).take es).foldr (fun b acc => b.toNat + 256 * acc) 0
    let (v, s) := combineAny red ety nm vs.length vs s
    (acc ++ bytesLE es v, s)) ([], s)

/-- The bytes that a member reads from its source and writes to its destination (R121). -/
def Member.srcLen (m : Member) : Nat :=
  let d := m.x.desc
  let len := reqLen m.x.w2
  match reqKind m.x.w2 with
  | 1 => 0
  | 2 => if descRank d = descRoot d then len else 0
  | 6 => descSize d * len
  | _ => len
def Member.dstLen (m : Member) : Nat :=
  let d := m.x.desc
  let len := reqLen m.x.w2
  match reqKind m.x.w2 with
  | 1 => 0
  | 4 => if descRank d = descRoot d then len else 0
  | 5 => descSize d * len
  | _ => len
/-- The buffers of a member in memory. -/
def Member.bufs (m : Member) : List (BitVec 16 × Nat × Nat) :=
  ([(m.x.w0, m.srcLen), (m.x.w1, m.dstLen)].filter fun b => isVirtual b.1 && b.2 != 0).map fun b => (m.x.asid, b.1.toNat, b.2)

/-- The buffers of every member of a collective. Those of another package's member are not known here, and any address may lie in
them (DEDUCED, log 113). -/
def allBufs (ms : List Member) : List (BitVec 16 × Nat × Nat) :=
  ms.flatMap Member.bufs ++ (ms.filter fun m => m.table.any fun e => !memberHere e).map fun m => (m.x.asid, 0, 2 ^ 55)

/-- A line holds a byte of a buffer. -/
def inBufs (bs : List (BitVec 16 × Nat × Nat)) (l : Line) : Bool :=
  bs.any fun (a, base, n) => a == l.asid && decide (base < 128 * l.vline + 128) && decide (128 * l.vline < base + n)
/-- Carry the lines of some buffers from a tile's first-level cache and its die's slices to their homes (R248): a release keeps
those of the cache, and an acquire drops them. -/
def carryBufs (drop : Bool) (bs : List (BitVec 16 × Nat × Nat)) (t : Nat) (s : State) : State :=
  let d := dieOfTile t
  let s := ((s.tile t).l1.filter (inBufs bs)).foldl (fun acc l =>
    if drop then dropL1 t l.asid l.vline acc else cleanL1 t l.asid l.vline acc) s
  ((s.die d).lines.filter (inBufs bs)).foldl (fun acc l =>
    if d = homeDie l.key && !isRemote l.key then acc else dropSliceLine d l.asid l.vline acc) s

/-- Every member completes with a status, and those that start the collective later will (R122); completion is an acquire of the
buffers all the same (R248). Bytes of the destination that have not been written keep their values (DEDUCED, log 109). -/
def endMembers (ms : List Member) (code : Nat) (s : State) : State :=
  let bufs := allBufs ms
  let fin (acc : State) (m : Member) : State := finishTransfer m.tile m.ch m.x code 0 m.x.written (carryBufs true bufs m.tile acc)
  ms.foldl (fun acc m =>
    let acc := { acc with gone := { tile := m.tile, ch := m.ch, group := descGroup m.x.desc, seq := m.x.seq, code := code } :: acc.gone }
    match m.echo acc with
    | some e => fin (fin acc m) e
    | none => fin acc m) s
/-- The collectives with a member on some tiles end with status 12 (R122, R341). -/
def loseMembers (ts : List Nat) (s : State) : State :=
  let all := s.tiles.flatMap fun (t, tl) => ((List.range 8).zip tl.chans.toList).flatMap fun (c, ch) =>
    (ch.exec.filter fun x => x.coll && x.started && x.ended.isNone).map fun x => ({ tile := t, ch := c, x := x } : Member)
  endMembers (all.filter fun m => !m.muted && ts.any fun t => t == m.tile || (List.range 8).any fun c => m.names t c) 12 s

/-- A member reads its source; a failure ends the collective for every member (DESIGN CHOICE, log 100). -/
def gatherMember (ms : List Member) (m : Member) (s : State) : Bool × State :=
  match gather m.tile m.ch m.x.id m.srcLen (m.srcLen + 1) s with
  | .ok _ s => (true, s)
  | .wait s => (false, s)
  | .status code s => (false, endMembers ms code s)
  | .fault code va s => (false, faultTransfer m.tile m.ch m.x code va 5 0 s)

/-- The source bytes of each rank that a kind reads: a member of this package has read its own, another's are free (R121). -/
def collSources (s : State) (ms : List Member) (ranks : List Nat) (n : Nat) : List (List Byte) × State :=
  ranks.foldl (fun (acc, s) r =>
    match ms.find? fun m => descRank m.x.desc == r with
    | some m => (acc ++ [((findTransfer s m.tile m.ch m.x.id).map (·.carry)).getD []], s)
    | none =>
      let f := s.free
      let (_, s) := s.nextFree
      (acc ++ [(List.range n).map fun i => (Config.freeWord f i).truncate 8], s)) ([], s)

/-- What each member of a matched collective is to write (R121). -/
def collResult (ms : List Member) (m0 : Member) (s : State) : State :=
  let d := m0.x.desc
  let size := descSize d
  let kind := reqKind m0.x.w2
  let len := reqLen m0.x.w2
  let red := reqRed m0.x.w2
  let ety := reqEty m0.x.w2
  let ranks := match kind with | 1 => [] | 2 => [descRoot d] | _ => List.range size
  let (bss, s) := collSources s ms ranks (if kind = 6 then size * len else len)
  let (common, s) := match kind with
    | 3 | 4 => combineBlocks red ety m0.x.nm bss len s
    | 5 => (bss.flatten, s)
    | 2 => (bss.headD [], s)
    | _ => ([], s)
  let bufs := allBufs ms
  ms.foldl (fun s m =>
    let (bs, s) := if kind = 6 then
        combineBlocks red ety m0.x.nm (bss.map fun b => (b.drop (len * descRank m.x.desc)).take len) len s
      else (if m.dstLen = 0 then [] else common, s)
    let give (t : Nat) (id : BitVec 32) (s : State) : State :=
      modTransfer t m.ch id (fun z => { z with carry := bs, ready := true, bufs := bufs }) s
    let s := give m.tile m.x.id s
    match m.echo s with
    | some e => give e.tile e.x.id s
    | none => s) s

/-- A matched collective goes on: its members read their sources, and when all have, each has its result. -/
def collData (ms : List Member) (m0 : Member) (s : State) : State :=
  let (all, s) := ms.foldl (fun (ok, s) m => let (k, s) := gatherMember ms m s; (ok && k, s)) (true, s)
  if all then collResult ms m0 s else s

/-- A group's collectives with ordinal k. One that a member has left ends; of those whose members have all started, one is
carried out if they agree, or ends with status 11 at every member (R122). What a member of another package does is free. -/
def collMatch (group k : Nat) (s : State) : State :=
  let ms := (started s group k).filter fun m => !m.x.ready
  match ((startedAll s group k).filter fun m => !m.x.ready).find? fun m => (m.lost s).isSome with
  | some m => endMembers [m] ((m.lost s).getD 12) s
  | none =>
    let whole := ms.filter fun m => m.whole ms && m.echoed s
    let (c, s) := if whole.length ≤ 1 then (0, s) else s.nextFree
    match whole[c % whole.length]? with
    | none => s
    | some m0 =>
      let ms := peers ms m0
      let remote := (m0.table.filter fun e => !memberHere e).length
      let ranks := ms.map fun m => descRank m.x.desc
      let good := ms.all memberOk && ms.all (memberAgree m0) && ranks.eraseDups.length == ranks.length
        && decide (ms.length + remote = descSize m0.x.desc)
      let (c, s) := if remote = 0 then (0, s) else s.nextFree
      if good && c % 2 = 0 then collData ms m0 s else endMembers ms 11 s

/-! ## The steps of a channel (R111) -/

/-- The words that a collective reads before it starts: its descriptor, then the member table that this names, none if its
limits are broken (R120, R122) or the table's address is not a multiple of 8 (DESIGN CHOICE, log 114). -/
def descWords (d : List Word) : Nat :=
  let size := descSize d
  if d.length < 8 ∨ size < 2 ∨ 16384 < size ∨ (d.getD 2 0).toNat % 8 ≠ 0 then 8 else 8 + size
/-- Read the group descriptor and the member table; the words that have been read are kept while the channel waits. -/
def readDesc (t c : Nat) (id : BitVec 32) : Nat → State → Moved Unit
  | 0, s => .wait s
  | k + 1, s =>
    match findTransfer s t c id with
    | none => .wait s
    | some x =>
      let n := x.desc.length
      if descWords x.desc ≤ n then .ok () s
      else
        let a := if n < 8 then x.w3 + BitVec.ofNat 64 (8 * n) else x.desc.getD 2 0 + BitVec.ofNat 64 (8 * (n - 8))
        let m := pieceLen a (8 * (descWords x.desc - n))
        -- both addresses are virtual (R120)
        match if isScratchForm a then .fault (3 + 16) a.toNat s else readPiece t c x a m s with
        | .ok bs s => readDesc t c id k (modTransfer t c id (fun z => { z with desc := z.desc ++ wordsOfBytes (m / 8) bs }) s)
        | .fault c v s => .fault c v s
        | .status c s => .status c s
        | .wait s => .wait s

/-- A collective starts with the next ordinal of its group. Its push was a release of its buffers at fabric scope: what the slot
stored to them before is carried home now (R248). -/
def startColl (t c : Nat) (id : BitVec 32) (s : State) : State :=
  match findTransfer s t c id with
  | none => s
  | some x =>
    let g := descGroup x.desc
    let k := (chanOf s t c).groups.get g 0
    let s := s.modTile t (Tile.modChan c fun y => { y with groups := y.groups.set g (k + 1) })
    let s := { s with gone := dropAll s.gone fun z => z.tile == t && z.ch == c && z.group == g && z.seq == k }
    let s := carryBufs false (Member.bufs { tile := t, ch := c, x := x }) t s
    modTransfer t c id (fun z => { z with started := true, seq := k }) s

/-- A placed request may start. -/
def Transfer.mayStart (x : Transfer) (s : State) : Bool := !x.started && !x.held && x.ended.isNone && x.fault.isNone && !x.behind s
/-- A placed request that has not started yet starts: a copy at once, a collective by reading its descriptor (R120). -/
def startTransfer (t c : Nat) (x : Transfer) (s : State) : State :=
  if !x.coll then modTransfer t c x.id (fun z => { z with started := true }) s
  else
    match readDesc t c x.id 16400 s with
    | .wait s => s
    | .status code s => finishTransfer t c x code 3 0 s
    | .fault code va s => faultTransfer t c x code va 5 3 s
    | .ok _ s => startColl t c x.id s

/-- The reply to a transfer's fault (R119). A collective's source that stays out of reach ends it for every member (log 100). -/
def answerFault (t c : Nat) (x : Transfer) (status : Nat) (s : State) : State :=
  let others := if x.coll && x.started && x.fwhere == 0 && status != 0 then
      (peers (started s (descGroup x.desc) x.seq) { tile := t, ch := c, x := x }).filter fun m => !(m.tile == t && m.ch == c)
    else []
  endMembers others x.fcode.toNat (replyTransfer t c x status s)

/-- The channel takes a step: a reply to a fault is taken, a placed request starts, the head of the FIFO takes a place, or a
transfer moves its next piece. -/
def chanStep (t c : Nat) (s : State) : State :=
  let s := if (chanOf s t c).heldPost.isEmpty then s else retryChan t c s
  let ch := chanOf s t c
  match ch.exec.find? fun x => match x.fault with
      | some key => !(ch.heldPost.any fun p => (p.words.getD 3 0).truncate 32 == x.id) && feFull s key
      | none => false with
  | some x => answerFault t c x ((memWord s (x.fault.getD 0)).extractLsb' 0 4).toNat s
  | none =>
    if ch.paused then
      match ch.exec.find? fun x => x.unwritten with
      | some x => copyPieces t c x.id 1 s
      | none => s
    else match ch.exec.find? fun x => x.mayStart s with
      | some x => startTransfer t c x s
      | none =>
        match ch.fifo with
        | x :: rest =>
          if ch.exec.length < 8 then
            chanAdvance t c 17 (s.modTile t (Tile.modChan c fun y => { y with fifo := rest, exec := y.exec ++ [x] }))
          else s
        | [] =>
          match ch.exec.filter fun x => x.unwritten with
          | [] => s
          | xs =>
            let (k, s) := s.nextFree
            match xs[k % xs.length]? with
            | some x => copyPieces t c x.id 1 s
            | none => s

def execTransferStart (tile ch : Nat) (s : State) : Host.Outcome State Fault Refusal := .next (chanStep tile ch s)

/-- The bytes of a transfer are all written: it completes, unless an earlier transfer of the channel waits on a fault (R111,
R119). A collective's completion is an acquire of the buffers of every member (R248). -/
def endWritten (t c : Nat) (x : Transfer) (s : State) : State :=
  if !mayComplete (chanOf s t c) x then s
  else if x.coll then signalTransfer t c x (descSig x.desc) (carryBufs true x.bufs t s)
  else signalTransfer t c x x.w3 s

/-- TRANSFER_COMPLETE: the rest of a started transfer's bytes is written, and it completes if it may. -/
def completeTransfer (t c id : Nat) (s : State) : State :=
  match findTransfer s t c (BitVec.ofNat 32 id) with
  | none => s
  | some x =>
    let s := copyPieces t c x.id (2 * (reqLen x.w2 + x.carry.length) + 2) s
    match findTransfer s t c x.id with
    | some x => if x.started && x.ended.isNone && x.fault.isNone && !x.unwritten && (!x.coll || x.ready) then endWritten t c x s else s
    | none => s
def execTransferComplete (tile ch id : Nat) (s : State) : Host.Outcome State Fault Refusal := .next (completeTransfer tile ch id s)

/-- TRANSFER_FAULT: a transfer tries its next bytes and meets the fault (R119). -/
def execTransferFault (tile ch id : Nat) (s : State) : Host.Outcome State Fault Refusal :=
  .next (match findTransfer s tile ch (BitVec.ofNat 32 id) with
    | none => s
    | some x =>
      if x.started then copyPieces tile ch x.id 1 s
      else if x.mayStart s && !(chanOf s tile ch).paused then startTransfer tile ch x s else s)

def execCollectiveMatchComplete (group k : Nat) (s : State) : Host.Outcome State Fault Refusal := .next (collMatch group k s)
/-- COLLECTIVE_MEMBER_LOST: a member of one of the group's collectives with ordinal k has become unreachable (R122). -/
def execCollectiveMemberLost (group k : Nat) (s : State) : Host.Outcome State Fault Refusal :=
  .next (
    let ms := started s group k
    let (c, s) := if ms.length ≤ 1 then (0, s) else s.nextFree
    match ms[c % ms.length]? with
    | some m => endMembers (peers ms m) 12 s
    | none => s)

end Sys2Proof.Machine
end

