-- ==== Sys2Proof/Machine/Flags.lean ====
section
/-! DEFINITION. What a predicate records: the conditions of R53 on integers (09_scalar_instructions.md R174) and on floating
values (10_vector_conversion.md R192), and the predicate operations of R175. The machine has no flag register; its flags are
the predicates p1 to p7 and the bits of mask registers. -/
namespace Sys2Proof
open Machine

/-- A condition on two integers of w bits: `.LE` and `.GT` compare signed values (R174). The codes 8 and 9 are no integer
conditions. -/
def Cond.holds {w : Nat} (c : Cond) (x y : BitVec w) : Bool :=
  match c with
  | .eq => x == y
  | .ne => x != y
  | .lt => x.slt y
  | .ge => !x.slt y
  | .ltu => x.ult y
  | .geu => !x.ult y
  | .le => !y.slt x
  | .gt => y.slt x
  | .un => false
  | .or => false

/-- A condition on two floating values: only `.NE` and `.UN` hold where an operand is NaN (R53, R192). -/
def Cond.holdsVal (c : Cond) (x y : Val) : Bool :=
  let un := x.isNan || y.isNan
  match c with
  | .eq => x.eq y
  | .ne => !x.eq y
  | .lt => x.lt y
  | .ge => !un && !x.lt y
  | .le => !un && !y.lt x
  | .gt => y.lt x
  | .un => un
  | .or => !un
  | .ltu => false
  | .geu => false

/-- The operations of PLOG (R175). -/
def PlogOp.apply (op : PlogOp) (a b : Bool) : Bool :=
  match op with
  | .and => a && b
  | .or => a || b
  | .xor => a != b
  | .andn => a && !b

end Sys2Proof
end

