-- ==== Sys2Proof/Machine/Control.lean ====
section
/-! DEFINITION. NOP, the reserved codes, branches and IPF (03_encoding.md R56, R58, 09_scalar_instructions.md R162,
R177 to R186). -/
namespace Sys2Proof.Machine

/-! ## The code that a slot runs (14_digest_code.md R274, R289) -/

/-- The resident translation of a slot's VF and cluster whose native code holds an address. -/
def codeAt (s : State) (n : Nat) (pc : Word) : Option VaultEntry :=
  (s.vault (clusterOfTile (tileOfSlot n))).entries.find? fun e =>
    e.vf == s.vfOf n && decide (e.code ≤ pc.toNat) && decide (pc.toNat < e.code + e.codelen)

/-- The checks of R183 on the target of a taken branch: the function is the one that holds the branch (DEDUCED, log 14). A handler's
code that lies in no translation has no such bounds (log 121). -/
def targetOk (s : State) (n : Nat) (pc tgt : Word) : Bool :=
  tgt.extractLsb' 0 2 == 0#2 && tgt.extractLsb' 0 5 != 28#5 &&
    match codeAt s n pc with
    | some e => decide (e.code ≤ tgt.toNat) && decide (tgt.toNat < e.code + e.codelen)
    | none => (s.slot n).super

/-! ## Branches (R178) -/

/-- The half that issues goes to the target of a taken branch; a target that fails R183 traps when it is fetched. -/
def jump (tgt : Word) (ok : Bool) : M Unit := modify fun s =>
  let h := s.cur.half
  let ok := ok && targetOk s s.cur.slot (s.me.pcOf h) tgt
  s.modMe fun sl => (sl.advance h tgt).setBad h (!ok)

/-- The target of a direct branch: 4-byte units from the branch's own address (R42, R177). -/
def branchTarget (pc imm : Word) : Word := pc + imm * 4

/-- What a branch does where it is resolved, and where its outcome is followed. -/
structure Branch where
  instr : Instr
  guard : Guard
  half  : Half
  srcs  : List Opnd
  /-- The count register of LOOPR (R181). -/
  count : Option WReg
  /-- Whether the branch is taken, from its sources and the predicates. -/
  cond  : List Word → Slot → Bool
  /-- The target of a direct branch; BRX takes an offset from the entry of the function (R182). -/
  imm   : Option Word

/-- The address that a taken branch names, and whether the high half of an offset is zero (R182). The entry of a handler's code that
lies in no translation is taken to be `TVEC` (DESIGN CHOICE, log 121). -/
def Branch.target (b : Branch) (s : State) (pc off : Word) : Word × Bool :=
  match b.imm with
  | some imm => (branchTarget pc imm, true)
  | none =>
    let entry := match codeAt s s.cur.slot pc with | some e => e.code + e.entry | none => if s.me.super then (s.core s.myCore).tvec.toNat else 0
    (BitVec.ofNat 64 entry + off, off.extractLsb' 32 32 == 0#32)

/-- A half follows a resolved branch. The execute half of a taken LOOPR rotates its region (R29, R181). -/
def Branch.follow (b : Branch) (taken : Bool) (off : Word) : M Unit := do
  let s ← get
  let h := s.cur.half
  let S := rotSize s.me.sys.rots
  if b.count.isSome && taken && h == .execute && decide (0 < S) then
    actMe fun sl => { sl with xr := { sl.xr with rb := BitVec.ofNat 4 ((sl.xr.rb.toNat + S - 1) % S) } }
  if taken then
    let (tgt, ok) := b.target s (s.me.pcOf h) off
    jump tgt ok
  else retire b.instr

/-- A branch whose condition is unavailable ends scout mode (R302). -/
def scoutCond (srcs : List Opnd) : M Unit := do
  let s ← get
  match s.me.scout with
  | none => pure ()
  | some sc => if srcs.any (s.me.unavailable sc) then haltWith (endScout s.cur.slot) else pure ()

/-- A branch (R178): the resolving half evaluates the guard and the condition and pushes the outcome, which the other half
pops. -/
def Branch.run (b : Branch) : M Unit := do
  begin (mkForm b.instr b.guard (.branch b.half)) false
  let s ← get
  let h := s.cur.half
  if h == b.half then
    scoutGuard b.guard
    needBqRoom 1
    if s.me.guardPasses b.guard then
      waits b.srcs []
      scoutCond b.srcs
      let cs ← prepare (mkForm b.instr b.guard (.branch b.half)) b.srcs [] (pure ())
      let xs ← b.srcs.mapM fun x => match x with
        | .w r => takeW cs r
        | _ => pure 0
      let taken := b.cond xs (← get).me
      match b.count with
      | some r => putW r (xs.headD 0 - 1)
      | none => pure ()
      actMe fun sl => sl.pushBq h { pos := sl.posOf h, type := .outcome, value := taken, offset := if b.imm.isNone then xs.headD 0 else 0 }
      b.follow taken (xs.headD 0)
    else
      actMe fun sl => sl.pushBq h { pos := sl.posOf h, type := .outcome, value := false, offset := 0 }
      b.follow false 0
  else
    let e ← needBqHead
    actMe fun sl => sl.popBq h
    b.follow e.value e.offset

/-- The half of a branch on registers (R162). -/
def branchHalf (rs : List WReg) : Half := if rs.any (fun r => wClass false r == .acc) then .access else .execute

/-- BZ and BNZ (R180), and LOOPR (R181). -/
def branch1 (i : Instr) (o : B1W) (loop : Bool) (cond : Word → Bool) (s : State) : Host.Outcome State Fault Refusal :=
  M.step (Branch.run {
    instr := i, guard := o.gd, half := branchHalf [o.s1], srcs := [.w o.s1], count := if loop then some o.s1 else none,
    cond := fun xs _ => cond (xs.headD 0), imm := some o.imm }) s
/-- BP and BNP: the execute half resolves them (R162). -/
def branchP (i : Instr) (o : B1P) (want : Bool) (s : State) : Host.Outcome State Fault Refusal :=
  M.step (Branch.run {
    instr := i, guard := o.gd, half := .execute, srcs := [.p o.s1], count := none,
    cond := fun _ sl => sl.readP o.s1 == want, imm := some o.imm }) s
/-- The register compares (R177). -/
def branch2 (i : Instr) (o : B2W) (c : Cond) (s : State) : Host.Outcome State Fault Refusal :=
  M.step (Branch.run {
    instr := i, guard := o.gd, half := branchHalf [o.s1, o.s2], srcs := [.w o.s1, .w o.s2], count := none,
    cond := fun xs _ => c.holds (xs.getD 0 0) (xs.getD 1 0), imm := some o.imm }) s

/-! ## Meanings -/

/-- NOP (R58): both halves pass over it. -/
def execNop (o : NopOps) (s : State) : Host.Outcome State Fault Refusal :=
  M.step (begin (mkForm (.nop o) o.gd .skip) false) s

/-- A code of R56: the illegal-instruction trap with detail 2. -/
def execReservedOpcode (w : BitVec 64) (s : State) : Host.Outcome State Fault Refusal := M.step (raiseAt w 1 2 0) s

/-- BR (R162, R177): unguarded, each half takes it on its own; guarded, the execute half resolves it (R179). -/
def execBr (o : B0) (s : State) : Host.Outcome State Fault Refusal :=
  if guardFixed o.gd then
    M.step (do
      begin (mkForm (.br o) o.gd .each) false
      let s ← get
      if o.gd.neg then retire (.br o) else jump (branchTarget (s.me.pcOf s.cur.half) o.imm) true) s
  else
    M.step (Branch.run { instr := .br o, guard := o.gd, half := .execute, srcs := [], count := none, cond := fun _ _ => true,
                         imm := some o.imm }) s
def execBz (o : B1W) (s : State) : Host.Outcome State Fault Refusal := branch1 (.bz o) o false (fun x => x == 0) s
def execBnz (o : B1W) (s : State) : Host.Outcome State Fault Refusal := branch1 (.bnz o) o false (fun x => x != 0) s
def execBp (o : B1P) (s : State) : Host.Outcome State Fault Refusal := branchP (.bp o) o true s
def execBnp (o : B1P) (s : State) : Host.Outcome State Fault Refusal := branchP (.bnp o) o false s
def execBeq (o : B2W) (s : State) : Host.Outcome State Fault Refusal := branch2 (.beq o) o .eq s
def execBne (o : B2W) (s : State) : Host.Outcome State Fault Refusal := branch2 (.bne o) o .ne s
def execBlt (o : B2W) (s : State) : Host.Outcome State Fault Refusal := branch2 (.blt o) o .lt s
def execBge (o : B2W) (s : State) : Host.Outcome State Fault Refusal := branch2 (.bge o) o .ge s
def execBltu (o : B2W) (s : State) : Host.Outcome State Fault Refusal := branch2 (.bltu o) o .ltu s
def execBgeu (o : B2W) (s : State) : Host.Outcome State Fault Refusal := branch2 (.bgeu o) o .geu s
/-- LOOPR (R181): the count falls by one, and the branch is taken while it is not zero. -/
def execLoopr (o : B1W) (s : State) : Host.Outcome State Fault Refusal := branch1 (.loopr o) o true (fun x => x - 1 != 0) s
/-- BRX (R182). -/
def execBrx (o : S1W) (s : State) : Host.Outcome State Fault Refusal :=
  M.step (Branch.run { instr := .brx o, guard := o.gd, half := branchHalf [o.s1], srcs := [.w o.s1], count := none,
                       cond := fun _ _ => true, imm := none }) s

/-- IPF (R186): the line of the target is asked for, and any failure is dropped. -/
def prefetchCode (n : Nat) (pc tgt : Word) (s : State) : State :=
  let c := coreOfSlot n
  let asid := s.asidOf n
  let held := (s.core c).icache.any (fun l => l.asid == asid && l.vline == vlineOf tgt.toNat)
    || (s.core c).ifills.any (fun l => l.asid == asid && l.vline == vlineOf tgt.toNat)
  let inside := match codeAt s n pc with
    | some e => decide (e.code ≤ tgt.toNat) && decide (tgt.toNat < e.code + e.codelen)
    | none => false
  if held || !inside then s
  else
    match lookupT (dieOfSlot n) tgt.toNat asid Access.prefetchX (!(s.slot n).super) s with
    | .ok l s => if isDram l.key then startFill n l false s else s
    | .fault _ _ s => s
    | .miss conf s => addMiss (dieOfSlot n) (.ipf n tgt.toNat) c tgt.toNat asid Access.prefetchX conf (!(s.slot n).super) s
def execIpf (o : B0) (s : State) : Host.Outcome State Fault Refusal :=
  M.step (do
    let f := mkForm (.ipf o) o.gd .access
    begin f false
    modify fun s => prefetchCode s.cur.slot (s.me.pcOf .access) (branchTarget (s.me.pcOf .access) o.imm) s
    finishAccess f) s

end Sys2Proof.Machine
end

