-- ==== Sys2Proof/Machine/Code.lean ====
section
/-! DEFINITION. Code named by digest: objects, assay, the mint, fetches and installs (14_digest_code.md R274 to R294), and the
steps of a fetch. -/
namespace Sys2Proof.Machine

/-! ## Bytes of code objects -/

/-- A byte of an object: memory of a heap, or the object's own bytes elsewhere. -/
def CodeObj.byteAt (s : State) (o : CodeObj) (k : Nat) : Byte :=
  match o.place with
  | .heap _ => s.mem.byte (o.key + k)
  | _ => o.bytes.getD k 0
def CodeObj.slice (s : State) (o : CodeObj) (k n : Nat) : List Byte := (List.range n).map fun i => o.byteAt s (k + i)
def CodeObj.wordAt (s : State) (o : CodeObj) (k : Nat) : Word := wordLE (o.slice s k 8)

/-- A digest as six words (R278). -/
def digestWords (bs : List Byte) : List Word := wordsOfBytes 6 bs

/-! ## The header of a translation (R289) -/

structure Header where
  frame   : BitVec 2
  rot     : BitVec 2
  win     : BitVec 8
  winoff  : List Nat
  rpmap   : List Nat
  entry   : Nat
  codelen : Nat
  code    : Nat                 -- offset of the native code from the header

/-- Read a header; a frame code of 0 and a map longer than 4,096 are rejected as check 1 of R288. `w k` is the word at
offset k. -/
def parseHeader (w : Nat → Word) : Option Header :=
  let w0 := w 0
  let w1 := w 8
  let nrp := (w0.extractLsb' 4 13).toNat
  if w0.extractLsb' 0 2 = 0#2 ∨ 4096 < nrp then none
  else some {
    frame := w0.extractLsb' 0 2, rot := w0.extractLsb' 2 2, win := w0.extractLsb' 24 8,
    winoff := (List.range 8).map fun k => ((w (16 + 4 * k)).extractLsb' 0 32).toNat,
    rpmap := (List.range nrp).map fun p => ((w (48 + 4 * p)).extractLsb' 0 32).toNat,
    entry := (w0.extractLsb' 32 32).toNat, codelen := (w1.extractLsb' 0 32).toNat,
    code := (48 + 4 * nrp + 31) / 32 * 32 }

/-! ## Images and assay (R288, R290) -/

/-- The signature blocks of an object: a translation is one, a fat object lists several (R290). -/
def CodeObj.images (s : State) (o : CodeObj) : List Nat :=
  match o.kind with
  | .translation => [0]
  | .fat =>
    if (o.wordAt s 0).extractLsb' 0 32 = 0x54414658#32 then
      (List.range ((o.wordAt s 0).extractLsb' 32 16).toNat).map fun k => ((o.wordAt s (8 + 8 * k)).extractLsb' 0 32).toNat
    else []
  | .selser => []

/-- The features that a set does not enable. -/
def featMissing (s : State) (req : BitVec 32) : Bool := req &&& ~~~(s.pkg.featen.zeroExtend 32) != 0#32

/-- MATCH and MODEL of a signature block: an exact match, or one of the family. -/
def imageExact (s : State) (o : CodeObj) (b : Nat) : Bool :=
  !(o.wordAt s b).getLsbD 40 && (o.wordAt s (b + 8)).extractLsb' 0 32 == s.pkg.ident
def imageFamily (s : State) (o : CodeObj) (b : Nat) : Bool :=
  (o.wordAt s b).getLsbD 40 && (o.wordAt s (b + 8)).extractLsb' 8 24 == 0x584107#24
def imageFeatures (s : State) (o : CodeObj) (b : Nat) : BitVec 32 := (o.wordAt s (b + 8)).extractLsb' 32 32

/-- The image that a fetch chooses (R290). A translation has no choice to make. -/
def CodeObj.chosen (s : State) (o : CodeObj) : Option Nat :=
  match o.kind with
  | .translation => some 0
  | _ =>
    let ok := (o.images s).filter fun b => !featMissing s (imageFeatures s o b)
    (ok.find? (imageExact s o)).or (ok.find? (imageFamily s o))

/-- Assay (R288) of the signature block at offset `b`, for a digest. -/
def assay (s : State) (o : CodeObj) (b : Nat) (dig : List Word) : Bool :=
  let w := fun k => o.wordAt s (b + 8 * k)
  let kid := ((w 0).extractLsb' 48 4).toNat
  let key := (s.pkg.vklbase &&& 0xFFFFFFFFF000#64).toNat + 128 * kid
  let kb := fun off n => (List.range n).map fun i => s.mem.byte (key + off + i)
  let nlen := ((w 2).extractLsb' 32 32).toNat
  (w 0).extractLsb' 0 32 == 0x47495358#32 && (w 0).extractLsb' 32 8 == 1#8 && (w 0).extractLsb' 41 7 == 0#7
    && (w 0).extractLsb' 52 12 == 0#12 && (List.range 5).all (fun k => w (27 + k) == 0)
    && (parseHeader fun k => o.wordAt s (b + 256 + k)).isSome
    && (memWord s key).getLsbD 0
    && ecdsaOk (natBE (kb 8 48)) (natBE (kb 56 48)) (o.slice s b 120) (natBE (o.slice s (b + 120) 48)) (natBE (o.slice s (b + 168) 48))
    && (List.range 6).map (fun k => w (3 + k)) == dig
    && (imageExact s o b || imageFamily s o b)
    && !featMissing s (imageFeatures s o b)
    && decide (s.pkg.xvmin.toNat ≤ ((w 2).extractLsb' 0 32).toNat)
    && digestWords (sha384 (o.slice s (b + 256) nlen)) == (List.range 6).map (fun k => w (9 + k))

/-! ## Selser images (R292, R293) -/

/-- A Praed operation whose instruction writes a D field (R63). -/
def shapeWritesD : Shape → Bool
  | .sN0 | .sNopOps | .sB0 | .sB1W | .sB1P | .sB2W | .sS1W | .sS2W | .sStOps | .sSxOps | .sFeSt | .sFeSet | .sBoOps | .sCwOps
  | .sT3W | .sKSem | .sKTrap | .sT2C | .sCvstR | .sT2X | .sCalldOps | .sCalldrOps | .sMtsrOps => false
  | _ => true
def opRaw (op : Nat) : Raw :=
  { len := .l64, op := BitVec.ofNat 8 op, gp := 0, gs := false, d := 0, s1 := 0, s2 := 0, x20 := 0, m12 := 0, ext := 0 }
def praedOp (op : Nat) : Bool := decide (0x10 ≤ op) && decide (op ≤ 0xCF) && (opRow (opRaw op)).isSome
def opAssigned (op : Nat) : Bool :=
  praedOp op || [0x100, 0x101, 0x102, 0x103, 0x110, 0x111, 0x112, 0x113, 0x120].contains op
def opProduces (op : Nat) : Bool :=
  [0x100, 0x101, 0x102, 0x113].contains op
    || (praedOp op && match opRow (opRaw op) with | some (sh, _) => shapeWritesD sh | none => false)

/-- The records, each with a mark that says whether it is the immediate of the one before it. -/
def markRecords : List Word → Bool → List (Word × Bool)
  | [], _ => []
  | r :: rs, imm => (r, imm) :: markRecords rs (!imm && r.getLsbD 62)

/-- Whether a Selser image is canonical (R292). -/
def canonical (bs : List Byte) : Bool :=
  let w := fun k => wordLE (bs.drop (8 * k))
  let nrec := ((w 1).extractLsb' 0 32).toNat
  let ndig := ((w 1).extractLsb' 32 16).toNat
  let recs := markRecords ((List.range nrec).map fun k => w (3 + 6 * ndig + k)) false
  let producer (k : Int) : Bool :=
    decide (0 ≤ k) && match recs[k.toNat]? with
      | some (r, imm) => !imm && opProduces (r.extractLsb' 0 10).toNat
      | none => false
  let back (k : Nat) (d : Nat) : Bool := d == 0 || producer (Int.ofNat k - Int.ofNat d)
  let okRec (k : Nat) : Bool := match recs[k]? with
    | none => true
    | some (_, true) => true
    | some (r, false) =>
      let op := (r.extractLsb' 0 10).toNat
      let imm := (recs.getD (k + 1) (0, false)).1
      !r.getLsbD 63 && opAssigned op && back k (r.extractLsb' 14 16).toNat && back k (r.extractLsb' 30 16).toNat
        && back k (r.extractLsb' 46 16).toNat
        && (if op = 0x113 then imm != 0 && producer (Int.ofNat k + Int.ofNat imm.toNat) else true)
        && (if op = 0x120 then k == 0 && nrec == 2 else true)
  decide (24 + 48 * ndig + 8 * nrec ≤ bs.length)
    && (w 0).extractLsb' 0 32 == 0x534C4553#32 && (w 0).extractLsb' 32 8 == 1#8 && (w 0).extractLsb' 42 22 == 0#22
    && (w 1).extractLsb' 48 16 == 0#16
    && bs.length == 24 + 48 * ndig + 8 * nrec + (w 2).toNat
    && (List.range nrec).all okRec

/-- What the mint makes of a canonical image: the translation and its FEATREQ, or nothing when it fails (R291, R293). -/
def mintOf (s : State) (bs : List Byte) : Option (List Byte × BitVec 32) :=
  let w := fun k => wordLE (bs.drop (8 * k))
  let ndig := ((w 1).extractLsb' 32 16).toNat
  let r0 := w (3 + 6 * ndig)
  let good (t : List Byte) : Bool := match parseHeader fun k => wordLE (t.drop k) with
    | some h => decide (h.codelen ≤ 524288)
    | none => false
  if r0.extractLsb' 0 10 = 0x120#10 then
    let imm := w (4 + 6 * ndig)
    let t := bs.drop (24 + 48 * ndig + 16)
    if imm.extractLsb' 0 32 = s.pkg.ident ∧ ¬ featMissing s (imm.extractLsb' 32 32) ∧ good t then some (t, imm.extractLsb' 32 32)
    else none
  else
    let t := Config.mintImage bs
    if good t then some (t, Config.mintFeatures bs) else none

/-! ## Sources (R285) -/

/-- The sources of a fetch from die `d`, in order. -/
def sources (s : State) (d : Nat) : List Place :=
  .heap d :: ((List.range 4).filter (fun x => x != d)).map .heap
    ++ s.pkg.cnbr.toList.filterMap (fun w => if w.getLsbD 63 then some (.neighbour (w.extractLsb' 0 9)) else none) ++ [.storage]
/-- The first object for a digest of the kinds that a test admits. -/
def offered (s : State) (d : Nat) (dig : List Word) (p : CodeKind → Bool) : Option CodeObj :=
  (sources s d).findSome? fun pl => s.objects.find? fun o => o.place == pl && p o.kind && o.digest == dig
def nativeKind : CodeKind → Bool | .selser => false | _ => true
def selserKind : CodeKind → Bool | .selser => true | _ => false

/-- The translation that the mint would publish for a digest (R286, R291). -/
def mintFor (s : State) (d : Nat) (dig : List Word) : Option (List Byte × BitVec 32) :=
  match offered s d dig selserKind with
  | none => none
  | some o =>
    let bs := o.slice s 0 o.len
    if canonical bs && digestWords (sha384 bs) == dig then mintOf s bs else none

/-! ## Installs (R275) -/

/-- Install the translation whose header lies at a virtual address of die d's heap; `none` while it must wait. -/
def install (c vf : Nat) (dig : List Word) (h : Header) (base : Nat) (code : List Byte) (s : State) : Option State × State :=
  let old := (s.vault c).entries.find? fun e => e.vf == vf && e.digest == dig
  match old with
  | some e => if pinned s c e then (none, s) else go (evictEntry c e s)
  | none => go s
where
  go (s : State) : Option State × State :=
    let units := (h.codelen + 1023) / 1024
    match makeRoom c units 65 s with
    | (none, s) => (none, s)
    | (some k, s) =>
      let s := { s with clock := s.clock + 1 }
      let e : VaultEntry := {
        slot := k, vf := vf, digest := dig, serial := (s.vault c).serial, base := base, code := base + h.code, entry := h.entry,
        codelen := h.codelen, frame := h.frame, rot := h.rot, rpmap := h.rpmap, win := h.win, winoff := h.winoff,
        used := s.clock, units := units, bytes := code }
      (some (s.modVault c fun v => { v with entries := v.entries ++ [e], serial := v.serial + 1 }), s)

/-! ## Entering a function (R278, R258) -/

/-- The frame area's byte at an offset: a memory key (R276). -/
def frameKey (s : State) (n off : Nat) : Nat :=
  ((s.pkg.frmbase.toArray.getD (dieOfSlot n) 0) &&& 0xFFFFFFFFF000#64).toNat + 4096 * (n % 9216) + off
/-- The address of the root's digest (R276). -/
def rootDigest : Word := 0x8000000000000000#64

/-- The windows that an entry binds are loaded; others keep their values (R278). -/
def loadWindows (e : VaultEntry) (v : Vector Word 8) : Vector Word 8 :=
  vecOf 8 ((List.range 8).map fun k =>
    if e.win.getLsbD k then BitVec.ofNat 64 (e.base + e.winoff.getD k 0) else v.toArray.getD k 0) 0

/-- A use of an entry (R275). -/
def useEntry (c : Nat) (e : VaultEntry) (s : State) : State :=
  let s := { s with clock := s.clock + 1 }
  s.modVault c fun v => { v with entries := modFirst v.entries (fun x => x.slot == e.slot) fun x => { x with used := s.clock } }

/-- The slot's current function becomes `e`, named by the digest at `da`. -/
def enterEntry (n : Nat) (e : VaultEntry) (da : Word) (s : State) : State :=
  let s := s.modSlot n fun sl => { sl with sys := { sl.sys with
    cfda := da, cfh := cfhWord e.slot e.serial, cwin := loadWindows e sl.sys.cwin } }
  trimVault (clusterOfSlot n) (useEntry (clusterOfSlot n) e s)

/-- A slot enters its root function at binding (R258, R275). -/
def enterRoot (n : Nat) (e : VaultEntry) (s : State) : State :=
  let pc := BitVec.ofNat 64 (e.code + e.entry)
  (enterEntry n e rootDigest s).modSlot n fun sl =>
    { ((sl.setPc .access pc).setPc .execute pc) with
      sys := { sl.sys with rots := e.rot }, awai := .none, xwai := .none }

/-! ## Fetches (R285, R286) -/

/-- Start a fetch, or join the one in progress. -/
def startFetch (c vf : Nat) (asid : BitVec 16) (die : Nat) (dig : List Word) (addr : Option Nat) (w : Option FetchWaiter)
    (s : State) : Nat × State :=
  let same (f : Fetch) : Bool := f.vf == vf && f.digest == dig
  match (s.vault c).fetches.find? same with
  | some f =>
    (f.id, s.modVault c fun v => { v with fetches := modFirst v.fetches same fun f => { f with waiters := f.waiters ++ w.toList } })
  | none =>
    (s.nextFetch, { s.modVault c fun v => { v with fetches := v.fetches ++
        [{ id := s.nextFetch, vf := vf, asid := asid, digest := dig, addr := addr, die := die, waiters := w.toList, minting := false }] }
      with nextFetch := s.nextFetch + 1 })

/-- Resident code for a digest of a VF (R278). -/
def vaultLookup (s : State) (c vf : Nat) (dig : List Word) : Option VaultEntry :=
  (s.vault c).entries.find? fun e => e.vf == vf && e.digest == dig

/-- A slot asks for its root function: it enters it if it is resident, and else waits for the fetch (R258, R275). -/
def askRoot (n : Nat) (dig : List Word) (s : State) : State :=
  let c := clusterOfSlot n
  match vaultLookup s c (s.vfOf n) dig with
  | some e => enterRoot n e s
  | none =>
    let (id, s) := startFetch c (s.vfOf n) (s.asidOf n) (dieOfSlot n) dig none (some { slot := n, why := .root, da := rootDigest }) s
    s.modSlot n fun sl => { sl with awai := .code id, xwai := .code id }

/-- The digest in the slot's frame area. -/
def frameDigest (s : State) (n off : Nat) : List Word := (List.range 6).map fun k => memWord s (frameKey s n (off + 8 * k))

/-- A fetch fails (R286): each slot that waits posts an entry of kind 3 and parks on its word. -/
def failFetch (c : Nat) (f : Fetch) (s : State) : State :=
  let s := s.modVault c fun v => { v with fetches := dropAll v.fetches (fun x => x.id == f.id) }
  f.waiters.foldl (fun acc w =>
    let n := w.slot
    let words := faultEntry (faultWord1 3 0 0 0 n (acc.vfOf n) (acc.asidOf n)) (acc.slot n).sys.tsr (w.da &&& 0x7FFFFFFFFFFFFF#64)
    match post (dieOfSlot n) (posting (some (acc.vfOf n)) (acc.asidOf n) words) acc with
    | .made key acc => acc.modSlot n fun sl => { sl with awai := .faultWord key true, xwai := .faultWord key true, fentry := words }
    | .held p acc => acc.modSlot n fun sl => { sl with
        awai := .faultPost, xwai := .faultPost, fentry := words, post := some { posting := p, code := true } }) s

/-- The fetch has its translation: the root functions among its waiters are entered; the other waiters replay when they
unpark. -/
def serveFetch (c : Nat) (f : Fetch) (s : State) : State :=
  let s := s.modVault c fun v => { v with fetches := dropAll v.fetches (fun x => x.id == f.id) }
  match vaultLookup s c f.vf f.digest with
  | none => s
  | some e => f.waiters.foldl (fun acc w => if w.why == .root then enterRoot w.slot e acc else acc) s

/-- Install an object's image for a fetch, from the heap where it lies. -/
def installImage (c : Nat) (f : Fetch) (o : CodeObj) (b : Nat) (s : State) : State :=
  match parseHeader fun k => o.wordAt s (b + 256 + k) with
  | none => failFetch c f s
  | some h =>
    if 524288 < h.codelen then failFetch c f s
    else match install c f.vf f.digest h (o.va + b + 256) (o.slice s (b + 256 + h.code) h.codelen) s with
      | (some s, _) => serveFetch c f s
      | (none, s) => s

/-- Bytes of a die's heap may be placed at a virtual address and at a memory key (R287): both lie in the heap's 4 GiB and in the die's
own DRAM, and the bytes are in no use: they belong to no object and no frame area (R276), and memory and the slices hold
nothing there (DEDUCED, log 122). -/
def heapFree (d va key len : Nat) (s : State) : Bool :=
  let base := (s.pkg.chva &&& 0x7FFFFFFFFF0000#64).toNat + 2 ^ 32 * d
  let apart (a n b m : Nat) : Bool := decide (a + n ≤ b ∨ b + m ≤ a)
  decide (base ≤ va ∧ va + len ≤ base + 2 ^ 32) && isDram key && isDram (key + len - 1)
    && homeDie key == d && homeDie (key + len - 1) == d
    && (s.objects.all fun o => match o.place with
        | .heap _ => apart o.va o.len va len && apart o.key o.len key len
        | _ => true)
    && ((List.range 4).all fun e => apart (s.pkg.frmbase.toArray.getD e 0).toNat (4096 * 9216) key len)
    && (s.mem.all fun c => decide (c.1 < key ∨ key + len ≤ c.1))
    && s.dies.all fun (_, x) => x.lines.all fun l => apart l.key 128 key len

/-- Dwedar places an object in a die's heap, if there is room at a place that it draws (R287): the place is free. -/
def placeInHeap (d : Nat) (k : CodeKind) (dig : List Word) (bs : List Byte) (s : State) : Option CodeObj × State :=
  let (x, s) := s.nextFree
  let (y, s) := s.nextFree
  let va := (s.pkg.chva &&& 0x7FFFFFFFFF0000#64).toNat + 2 ^ 32 * d + 32 * (x % 2 ^ 27)
  let key := 2 ^ 38 * d + 65536 * (y % 2 ^ 22) + va % 65536
  if heapFree d va key bs.length s then
    let o : CodeObj := { place := .heap d, kind := k, digest := dig, key := key, va := va, len := bs.length, bytes := [],
                         meas := s.dwedar }
    let m := (List.range bs.length).foldl (fun m i => Memory.setByte m (key + i) (bs.getD i 0)) s.mem
    (some o, { s with mem := m, objects := s.objects ++ [o] })
  else (none, s)

/-- The heap object whose native code holds an address, with the image's offset (R274). -/
def codeHolder (s : State) (a : Nat) : Option (CodeObj × Nat) :=
  s.objects.findSome? fun o => match o.place with
    | .heap _ => ((o.images s).find? fun b => match parseHeader fun k => o.wordAt s (b + 256 + k) with
        | some h =>
          let code := o.va + b + 256 + h.code
          decide (code ≤ a) && decide (a < code + h.codelen)
        | none => false).map fun b => (o, b)
    | _ => none

/-- A fetch takes its next step (R285): it installs what its sources offer, or the mint goes to work. -/
def fetchStep (c : Nat) (f : Fetch) (s : State) : State :=
  let toMint := s.modVault c fun v => { v with fetches := modFirst v.fetches (fun x => x.id == f.id) fun x => { x with minting := true } }
  if f.minting then s
  else
    match f.addr with
    | some a =>
      match codeHolder s a with
      | some (o, b) => installImage c f o b s
      | none => serveFetch c f s
    | none =>
      match offered s f.die f.digest nativeKind with
      | none => toMint
      | some o =>
        match o.chosen s with
        | none => toMint
        | some b =>
          if o.place = .heap f.die then installImage c f o b s
          else if assay s o b f.digest then
            let len := 256 + ((o.wordAt s (b + 16)).extractLsb' 32 32).toNat
            match placeInHeap f.die .translation f.digest (o.slice s b len) s with
            | (some o', s) => installImage c f o' 0 s
            | (none, s) => s
          else toMint

/-- The signature block of a translation that the mint signs (R288, R291). -/
def mintBlock (model : BitVec 32) (dig : List Word) (feat : BitVec 32) (t : List Byte) : List Byte :=
  let head := bytesOfWords ([BitVec.ofNat 64 (0x47495358 + 2 ^ 32), (model.zeroExtend 64) ||| (feat.zeroExtend 64 <<< 32),
    (Config.mintVersion.zeroExtend 64) ||| (BitVec.ofNat 64 t.length <<< 32)] ++ dig) ++ sha384 t
  let (r, q) := Config.mintSign head
  head ++ bytesBE 48 r ++ bytesBE 48 q ++ List.replicate 40 0#8

/-- The digest at an address of a slot, as the service cores read it. -/
def digestNow (s : State) (n : Nat) (da : Word) : Option (List Word) :=
  if da.getLsbD 63 then some (frameDigest s n (da.extractLsb' 0 12).toNat)
  else
    let ws := (List.range 6).filterMap fun k =>
      match translateNow (dieOfSlot n) (da + BitVec.ofNat 64 (8 * k)) (s.asidOf n) Access.prefetch false s with
      | .ok l s => some (homeGetWord s l)
      | _ => none
    if ws.length = 6 then some ws else none
/-- A digest's address names a digest; where it cannot be translated now, the short tag kept for it decides, and without one
it may name any. -/
def namesDigest (s : State) (n : Nat) (da : Word) (tag : Option Word) (dig : List Word) : Bool :=
  match digestNow s n da with
  | some d => d == dig
  | none => match tag with
    | some t => t == dig.headD 0
    | none => true
/-- A digest with a live frame: a root digest, a `CFDA` or a frame of a bound slot names it (R291). -/
def liveDigest (s : State) (dig : List Word) : Bool :=
  s.slots.any fun (n, sl) =>
    sl.bound && (frameDigest s n 0 == dig
      || namesDigest s n sl.sys.cfda ((currentEntry s n).map fun e => e.digest.headD 0) dig
      || (List.range ((sl.sys.cfp.toNat - 64) / 32)).any fun k =>
          namesDigest s n (memWord s (frameKey s n (64 + 32 * k + 16))) (some (memWord s (frameKey s n (64 + 32 * k + 8)))) dig)
def residentDigest (s : State) (dig : List Word) : Bool := s.vaults.any fun (_, v) => v.entries.any fun e => e.digest == dig
/-- Translations that the mint evicts when the heap is full: those with no live frame that are resident in no vault (R291). -/
def evictHeap (d : Nat) (s : State) : State :=
  { s with objects := dropAll s.objects fun o =>
      o.place == .heap d && nativeKind o.kind && !liveDigest s o.digest && !residentDigest s o.digest }

/-- Dwedar, another package or the storage publishes an object, which none of the model's registers orders (R287, R359; log 123). A
translation that enters a heap has passed assay (R285). -/
def publish (p : Place) (k : CodeKind) (dig : List Word) (bs : List Byte) (s : State) : State :=
  let o : CodeObj := { place := .storage, kind := k, digest := dig, key := 0, va := 0, len := bs.length, bytes := bs, meas := s.dwedar }
  match p with
  | .heap d =>
    if d < 4 && (k == .selser || (!(o.images s).isEmpty && (o.images s).all fun b => assay s o b dig)) then (placeInHeap d k dig bs s).2
    else s
  | _ => { s with objects := s.objects ++ [{ o with place := p }] }
/-- An object is withdrawn from where it stands; a translation of a heap only while it is resident in no vault of the package
(R359). -/
def withdraw (k : Nat) (s : State) : State :=
  match s.objects[k]? with
  | none => s
  | some o =>
    let inHeap := match o.place with | .heap _ => true | _ => false
    if inHeap && nativeKind o.kind && residentDigest s o.digest then s else { s with objects := s.objects.eraseIdx k }

def findFetch (s : State) (id : Nat) : Option (Nat × Fetch) :=
  s.vaults.findSome? fun (c, v) => (v.fetches.find? fun f => f.id == id).map fun f => (c, f)

/-! ## The steps of a fetch -/

/-- CODE_FETCH_INSTALL (R285): the fetch k of a cluster. -/
def execCodeFetchInstall (cluster k : Nat) (s : State) : Host.Outcome State Fault Refusal :=
  .next (match (s.vault cluster).fetches.find? fun f => f.id == k with
    | some f => fetchStep cluster f s
    | none => s)

/-- MINT_PUBLISH (R291): the mint's work for a fetch is complete. It publishes where there is room; after the heap has been cleared
once, a second want of room escalates. -/
def execMintPublish (k : Nat) (s : State) : Host.Outcome State Fault Refusal :=
  .next (match findFetch s k with
    | none => s
    | some (c, f) =>
      if !f.minting then s
      else match mintFor s f.die f.digest with
        | none => s
        | some (t, feat) =>
          let publish (s : State) : Option State × State :=
            match placeInHeap f.die .translation f.digest (mintBlock s.pkg.ident f.digest feat t ++ t) s with
            | (none, s) => (none, s)
            | (some _, s) => (some (s.modVault c fun v => { v with
                fetches := modFirst v.fetches (fun x => x.id == f.id) fun x => { x with minting := false } }), s)
          match publish s with
          | (some t, _) => t
          | (none, s) => match publish (evictHeap f.die s) with
            | (some t, _) => t
            | (none, s) => failFetch c f s)

/-- CODE_FETCH_FAILURE (R286): the mint has nothing to publish for the fetch. -/
def execCodeFetchFailure (cluster k : Nat) (s : State) : Host.Outcome State Fault Refusal :=
  .next (match (s.vault cluster).fetches.find? fun f => f.id == k with
    | some f => if f.minting && (mintFor s f.die f.digest).isNone then failFetch cluster f s else s
    | none => s)

/-- VLIM_WRITE (R275): a value of 0 or above 64 is ignored. -/
def writeVlim (c : Nat) (v : Word) (s : State) : State :=
  let n := v.extractLsb' 0 7
  if n = 0#7 ∨ 64 < n.toNat then s else trimVault c (s.modVault c fun x => { x with vlim := n })
def execVlimWrite (cluster : Nat) (v : Word) (s : State) : Host.Outcome State Fault Refusal := .next (writeVlim cluster v s)

end Sys2Proof.Machine
end

