-- ==== Sys2Proof/Machine/Tasks.lean ====
section
/-! DEFINITION. Launch records, admission, the task instructions 0xD0 to 0xD6, DONE and the reuse table
(13_tasks_scheduling.md R250 to R273, 21_program_pure_reuse.md R367). -/
namespace Sys2Proof.Machine

/-! ## The admission table (R252) -/

/-- Word k of the admission entry of a VF. -/
def admWord (s : State) (vf k : Nat) : Word :=
  memWord s ((s.pkg.admbase &&& 0xFFFFFFFF0000#64).toNat + 64 * vf + 8 * k)
def admMaxRu (s : State) (vf : Nat) : Nat := ((admWord s vf 0).extractLsb' 4 15).toNat
def admAsid (s : State) (vf : Nat) : BitVec 16 := (admWord s vf 0).extractLsb' 48 16

/-! ## Tiles of a partition (R255) -/

def PRect.holds (r : PRect) (t : Nat) : Bool :=
  r.valid && decide (r.x0.toNat ≤ tileX t) && decide (tileX t ≤ r.x1.toNat) && decide (r.y0.toNat ≤ tileY t)
    && decide (tileY t ≤ r.y1.toNat)
/-- The tiles of a partition on a die, in row-major order. -/
def partTiles (s : State) (p d : Nat) : List Nat :=
  ((List.range 192).map (192 * d + ·)).filter fun t => (s.prect (4 * p + d)).holds t
def partRects (s : State) (p : Nat) : Nat := ((List.range 4).filter fun d => (s.prect (4 * p + d)).valid).length
/-- The extents of a launch fit in a partition (R253): enough dies hold enough clusters with enough of its tiles. -/
def extentsFit (s : State) (p : Nat) (ws : List Word) : Bool :=
  let clusters (d : Nat) : Nat := ((List.range 12).filter fun c =>
    decide (recExt ws 2 < ((partTiles s p d).filter fun t => clusterOfTile t == 12 * d + c).length)).length
  decide (recExt ws 4 < ((List.range 4).filter fun d => decide (recExt ws 3 < clusters d)).length)

/-! ## Admission (R253) -/

/-- The digest that a record gives a role (R250). -/
def recDigest (ws : List Word) (role : Nat) : List Word := (List.range 6).map fun k => recWord ws (8 + 6 * role + k)
/-- The roles of a record's functions. -/
def recRoles (ws : List Word) : List Nat := if recKind ws = 3 then [0, 1, 2] else [recKind ws]

/-- Check 1: reserved fields, EXH, extents, CYCLIM, unused digests, and the ranges of a pure task. -/
def recordOk (ws : List Word) : Bool :=
  (recWord ws 0).extractLsb' 18 2 == 0#2 && (recWord ws 0).extractLsb' 54 10 == 0#10 && (recWord ws 2).extractLsb' 32 32 == 0#32
    && (recWord ws 3).extractLsb' 18 46 == 0#46 && recWord ws 6 == 0 && recWord ws 7 == 0 && !recExh ws
    && decide (recExt ws 0 ≤ 14) && recExt ws 1 == 0 && decide (recExt ws 3 ≤ 11) && recCyclim ws != 0
    && (List.range 3).all (fun r => (recRoles ws).contains r || (recDigest ws r).all (· == 0))
    && (!recPure ws || (decide ((recArg ws 1).toNat ≤ 2 ^ 20) && decide ((recArg ws 3).toNat ≤ 2 ^ 20)
          && decide (1 ≤ (recArg ws 5).toNat) && decide ((recArg ws 5).toNat ≤ 65536)))
/-- Check 2: the admission entry and the flags. -/
def flagsOk (s : State) (vf : Nat) (ws : List Word) : Bool :=
  let a := admWord s vf 0
  a.getLsbD 0 && (recKind ws != 3 || recExt ws 0 == 0) && !(recPure ws && (recGang ws || recOrd ws)) && !(recRed ws && recGang ws)
    && (!recPure ws || a.getLsbD 1) && (!recRed ws || a.getLsbD 2) && (!recGang ws || a.getLsbD 3)
/-- A queue with WEIGHT 0 is disabled (R256). -/
def queueOn (q : PQueue) : Bool := q.en && q.weight != 0
/-- Check 3: the queue and its partition. -/
def queueOk (s : State) (vf : Nat) (ws : List Word) : Bool :=
  let q := s.queue (recQid ws)
  let p := q.part.toNat
  queueOn q && (s.part p).en && (s.part p).vf.toNat == vf && (admWord s vf 1).getLsbD p && recOrd ws == q.ord
    && (!q.ord || partRects s p == 1) && decide (recBanks ws ≤ 38) && extentsFit s p ws

/-- The code of the first check that a record fails. Check 4 concerns a child in an ordered queue (DEDUCED, log 24). -/
def admitFault (s : State) (vf : Nat) (ws : List Word) (spawnTs : Option Word) : Option Nat :=
  if !recordOk ws then some 1
  else if !flagsOk s vf ws then some 2
  else if !queueOk s vf ws then some 3
  else if recOrd ws && spawnTs.any (fun t => decide (recTs ws < t)) then some 4
  else if 4096 ≤ (s.queue (recQid ws)).recs.length then some 5
  else none

/-- An admitted record takes its SEQ and enters its queue's ring. -/
def admitRecord (ws : List Word) (spawner : Option Nat) (s : State) : State :=
  let q := recQid ws
  let ws := (ws.take 32).set 4 s.seq
  let key := (s.pkg.pqbase &&& 0xFFFFC0000000#64).toNat + 2 ^ 20 * q + 256 * ((s.queue q).count % 4096)
  let s := (List.range 32).foldl (fun acc k => memSetWord (key + 8 * k) (recWord ws k) acc) s
  let s := s.modQueue q fun x => { x with
    count := x.count + 1,
    recs := x.recs ++ [{ words := ws, insts := List.range (recInstances ws), exh := [], spawner := spawner, misses := 0 }] }
  { s with seq := s.seq + 1 }

/-- A record that arrives for a VF from outside (R253, R254). Stage 6 of start enables admission (R348). -/
def arriveRecord (vf : Nat) (ws : List Word) (s : State) : State :=
  if !s.pkg.admbase.getLsbD 0 || decide (s.stage < 7) then s
  else
    match admitFault s vf ws none with
    | none => admitRecord ws none s
    | some c =>
      let asid := admAsid s vf
      postOrHold 0 (some vf) asid (faultEntry (faultWord1 4 0 c 0 0 vf asid) (recTs ws) 0) s
/-- LAUNCH_RECORD_ARRIVAL: the VF and the 32 words of a record. -/
def execLaunchRecordArrival (aqgal : Bool) (record : List Word) (s : State) : Host.Outcome State Fault Refusal :=
  let _ := aqgal
  .next (arriveRecord ((record.headD 0).toNat % 1024) (record.drop 1) s)

/-! ## The task of a task instruction

A handler's task instructions act on the task of its slot (DEDUCED, log 25). -/

def slotTask (s : State) : Option Task := s.taskOf s.cur.slot
def uncommitted (s : State) : Bool := match slotTask s with | some t => !t.committed | none => false

/-! ## TSPAWN (R264, R273) -/

/-- One 64-byte piece of a record in either form of R108. -/
def recordScratch (i : Instr) (a : Word) : M (Option Buffer) := do
  if isScratchForm a then
    match ← myScratch i (a &&& 0x7FFFFFFFFFFFFFFF#64) false with
    | .scratch t k off => return some (.scratch t k off)
    | _ => halt
  else return none
def recordPiece (i : Instr) (a : Word) (b : Option Buffer) (take : M Unit) : M Buffer := do
  match b with
  | some b => return b
  | none => return .mem (← homeLoc i a Access.load (do take; retireBoth i))

def readPieces (n pos : Nat) : List Buffer → M (List Word)
  | [] => return []
  | b :: bs => do
    let s ← get
    match b with
    | .mem l => holdUnless (!mustWait s n pos l 64)
    | .scratch t _ _ => needScratchDone t
    let (ws, bad, s) := b.read n pos 8 s
    set s
    checkPoison bad
    let rest ← readPieces n pos bs
    return ws ++ rest

def execTspawn (o : S1W) (s : State) : Host.Outcome State Fault Refusal :=
  M.step (do
    let i := Instr.tspawn o
    let (xs, take) ← jointOperands i o.gd [o.s1] [] false
    let a := xs.headD 0
    if a.toNat % 64 ≠ 0 then raise i 5 6 a
    let as := (List.range 4).map fun k => a + BitVec.ofNat 64 (64 * k)
    let bs ← as.mapM (recordScratch i)
    if !isScratchForm a && as.any (fun x => x.extractLsb' 55 9 != 0#9) then faultAt i 3 1 a.toNat 0 (retireBoth i)
    checkPureIrrevocable
    let bs ← (as.zip bs).mapM fun (x, b) => recordPiece i x b take
    let s ← get
    let n := s.cur.slot
    let ws ← readPieces n s.me.ar.pos bs
    let s ← get
    let vf := s.vfOf n
    if !s.pkg.admbase.getLsbD 0 then raise i 22 3 0
    match admitFault s vf ws (some s.me.sys.tsr) with
    | some 5 => park (.queueRoom (recQid ws))
    | some d => raise i 22 d 0
    | none => pure ()
    if (← redEffect (0xD0 :: ws)).isNone then
      modify fun s => admitRecord ws (if inBody s then some s.me.task else none) s
      redPerformed []
    take
    retireBoth i) s

/-! ## TCOMMIT (R264) -/

def execTcommit (o : N0) (s : State) : Host.Outcome State Fault Refusal :=
  M.step (do
    let i := Instr.tcommit o
    let _ ← jointOperands i o.gd [] [] false
    if uncommitted (← get) then commitNow
    retireBoth i) s

/-- CLEARING_QUEUE_RELEASE: the first waiting task of a partition that may commit does so (R266 rule 3). -/
def clearNext (p : Nat) (s : State) : State :=
  match s.tasks.find? fun (k, t) => t.clearing && !t.committed && t.twin.isNone && (s.queue (recQid t.words)).part.toNat == p
      && clearedToCommit s k with
  | some (k, _) => commitTask k s
  | none => s
def execClearingQueueRelease (part : Nat) (s : State) : Host.Outcome State Fault Refusal := .next (clearNext part s)

/-! ## DONE (R265) -/

/-- Every first-level line of the ASID on a tile is written back, and every line of the die's slices that is not at home
there: the release of every store of the task. -/
def releaseAll (t : Nat) (asid : BitVec 16) (s : State) : State :=
  let s := ((s.tile t).l1.filter fun l => l.asid == asid).foldl (fun acc l => cleanL1 t l.asid l.vline acc) s
  ((s.die (dieOfTile t)).lines.filter fun l => l.asid == asid).foldl (fun acc l =>
    if dieOfTile t = homeDie l.key && !isRemote l.key then acc else dropSliceLine (dieOfTile t) l.asid l.vline acc) s

/-- An entry that the dispatcher makes on a task's behalf: kind 1 with AKIND 2 or kind 5, which name the word. -/
def doneEntry (h : DoneHold) (kind code lvl : Nat) : List Word :=
  faultEntry (faultWord1 kind (if kind = 1 then 1 else 0) code lvl (48 * h.tile) h.vf h.asid) h.ts
    (h.addr &&& 0x7FFFFFFFFFFFFF#64 ||| (if kind = 1 then 2#64 <<< 56 else 0))
def doneFails (h : DoneHold) (s : State) : State :=
  postOrHold (dieOfTile h.tile) (some h.vf) h.asid (doneEntry h 5 0 0) s
/-- An update that has faulted waits for the reply to its entry. -/
def holdDone (h : DoneHold) (code lvl : Nat) (s : State) : State :=
  let d := dieOfTile h.tile
  let words := doneEntry h 1 code lvl
  match post d (posting none h.asid words) s with
  | .made key s => s.modDie d fun x => { x with holds := x.holds ++ [{ h with reply := some key }] }
  | .held p s => s.modDie d fun x => { x with posts := x.posts ++ [{ posting := p, done := some h }] }

/-- Make the update: a signal word for one instance, else an arrival at a byte-counting word. -/
def makeDone (h : DoneHold) (s : State) : State :=
  let d := dieOfTile h.tile
  match translateNow d h.addr h.asid (if h.n = 1 then Access.atomic else Access.bcPost) true s with
  | .ok l s =>
    let s := toHome h.tile l s
    if h.n = 1 then setFE l.key true (homePutWord l h.ts s)
    else retryPosts d (bcArrive l 1 h.ts h.vf s).2
  | .fault c lv s => holdDone h c lv s
  | .miss _ s => s.modDie d fun x => { x with holds := x.holds ++ [{ h with reply := none }] }

/-- The DONE update of a task on a tile. -/
def updateDone (t : Task) (ts : Word) (s : State) : State :=
  let a := recDone t.words
  if a = 0 then s
  else
    let h : DoneHold := { addr := a, n := recInstances t.words, ts := ts, vf := t.vf, asid := t.asid, tile := t.tile, reply := none }
    let s := releaseAll t.tile t.asid s
    if a.toNat % (if h.n = 1 then 8 else 16) ≠ 0 then doneFails h s else makeDone h s

/-- A held update is made again when its entry's reply is 0, and dropped with an entry of kind 5 otherwise. -/
def replyDone (d : Nat) (h : DoneHold) (status : Nat) (s : State) : State :=
  let s := s.modDie d fun x => { x with holds := x.holds.erase h }
  if status = 0 then makeDone h s else doneFails h s
/-- The updates that a die holds without an entry are tried again. -/
def retryDone (d : Nat) (s : State) : State :=
  let hs := (s.die d).holds.filter fun h => h.reply.isNone
  let s := s.modDie d fun x => { x with holds := x.holds.filter fun h => h.reply.isSome }
  hs.foldl (fun acc h => makeDone h acc) s

/-- The held updates of a die whose entries have been replied to (R305). -/
def replyHolds (d : Nat) (s : State) : State :=
  (s.die d).holds.foldl (fun acc h => match h.reply with
    | some key => if feFull acc key then replyDone d h ((memWord acc key).toNat % 16) acc else acc
    | none => acc) s

/-! ## The reuse table (R268 to R271, R367) -/

/-- What comes of a read that the dispatcher makes: the bytes and whether every page has C = 1, WATCH = 1 and SCOPE at most 5,
nothing when some byte cannot be read, or a wait for a page that migrates. -/
inductive RangeRead where
  | got (bs : List Byte) (ok : Bool)
  | unreadable
  | waits

/-- Read n bytes as loads of a task at its tile would, in blocks of 64. -/
def readRange (t : Nat) (asid : BitVec 16) : Nat → Nat → Nat → State → RangeRead × State
  | 0, _, _, s => (.got [] true, s)
  | k + 1, va, n, s =>
    if n = 0 then (.got [] true, s)
    else
      let m := min n (64 - va % 64)
      match translateNow (dieOfTile t) (BitVec.ofNat 64 va) asid Access.load true s with
      | .ok l s =>
        let (v, bad, s) := loadBytes t l m false s
        if bad then (.unreadable, s)
        else
          match readRange t asid k (va + m) (n - m) s with
          | (.got bs ok, s) => (.got (bytesLE m v.toNat ++ bs) (ok && l.c && l.watch && decide (l.scope.toNat ≤ 5)), s)
          | r => r
      | .fault _ _ s => (.unreadable, s)
      | .miss _ s => (.waits, s)

/-- The hash of a pure task, as 16 bytes, and whether its ranges admit an entry. -/
def pureHash (t vf : Nat) (asid : BitVec 16) (ws : List Word) (inst : Nat) (s : State) : RangeRead × State :=
  let len := fun k => (recArg ws k).toNat
  match readRange t asid (len 1 / 64 + 2) (recArg ws 0).toNat (len 1) s with
  | (.got b0 ok0, s) =>
    (match readRange t asid (len 3 / 64 + 2) (recArg ws 2).toNat (len 3) s with
     | (.got b1 ok1, s) =>
       let msg := bytesOfWords ((recWord ws 0 &&& 0x43#64) :: (recRoles ws).flatMap (recDigest ws) ++ [BitVec.ofNat 64 inst, recArg ws 1])
         ++ b0 ++ bytesOfWords [recArg ws 3] ++ b1 ++ bytesOfWords [recArg ws 5]
       (.got (bytesLE 16 (sipHash128 (admWord s vf 2) (admWord s vf 3) msg).toNat) (ok0 && ok1), s)
     | r => r)
  | r => r

def Reuse.valid (e : Reuse) : Bool := (e.words.getD 0 0).getLsbD 0
def Reuse.vf (e : Reuse) : Nat := ((e.words.getD 0 0).extractLsb' 2 10).toNat
def frameBase (s : State) (d e : Nat) : Nat := ((s.die d).rustbase &&& 0xFFFFC0000000#64).toNat + 65536 * e
/-- The entry of a die that a hash hits. -/
def reuseHit (s : State) (d vf : Nat) (h : BitVec 128) (rlen : Word) : Option Nat :=
  ((s.die d).reuse.find? fun (_, e) => e.valid && e.vf == vf && e.words.getD 1 0 == h.extractLsb' 0 64
    && e.words.getD 2 0 == h.extractLsb' 64 64 && ((e.words.getD 0 0).extractLsb' 16 17).toNat == rlen.toNat).map (·.1)

/-- Of the valid entries that a test admits, the one hit least recently. -/
def oldestReuse (es : SMap Reuse) (p : Reuse → Bool) : Option Nat :=
  (es.foldl (fun (acc : Option (Nat × Nat)) (k, e) =>
    if !(e.valid && p e) then acc
    else match acc with
      | none => some (k, e.used)
      | some (j, u) => if e.used < u then some (k, e.used) else some (j, u)) none).map (·.1)
/-- The entry that a creation takes (R367). -/
def reuseVictim (s : State) (d vf : Nat) : Option Nat :=
  let es := (s.die d).reuse
  let most := admMaxRu s vf
  let held := (es.filter fun (_, e) => e.valid && e.vf == vf).length
  if most = 0 then none
  else if most ≤ held then oldestReuse es fun e => e.vf == vf
  else ((List.range 16384).find? fun k => match SMap.get? es k with | some e => !e.valid | none => true).or (oldestReuse es fun _ => true)

/-- The entry is hit: HITS rises and it becomes the most recent. -/
def touchReuse (d e : Nat) (f : List Word → List Word) (s : State) : State :=
  s.modDie d fun x =>
    let old := SMap.get x.reuse e { words := List.replicate 8 0, used := 0 }
    { x with reuseClock := x.reuseClock + 1, reuse := x.reuse.set e { words := f old.words, used := x.reuseClock + 1 } }

/-- The result range of a task as it is read for its entry. -/
def readResult (t : Task) (s : State) : RangeRead × State :=
  let len := (recArg t.words 5).toNat
  readRange t.tile t.asid (len / 64 + 2) (recArg t.words 4).toNat len s
/-- A pure task that missed creates its entry at TEND, if nothing has touched its argument pages since the hash (R270). -/
def createReuse (t : Task) (s : State) : State :=
  let d := t.die
  match if t.watched then none else t.hash with
  | none => s
  | some h =>
    match reuseVictim s d t.vf with
    | none => s
    | some e =>
      let len := (recArg t.words 5).toNat
      match readResult t s with
      | (.unreadable, s) | (.waits, s) => s
      | (.got bs _, s) =>
        let s := (List.range len).foldl (fun acc k => memPut (frameBase s d e + k) 1 ((bs.getD k 0).zeroExtend 512) acc) s
        let w0 := BitVec.ofNat 64 (1 + 4 * t.vf + 65536 * len + 2 ^ 48 * t.asid.toNat)
        touchReuse d e (fun _ => [w0, h.extractLsb' 0 64, h.extractLsb' 64 64, recArg t.words 0, recArg t.words 1, recArg t.words 2,
          recArg t.words 3, 0]) s

/-- Two ranges of bytes meet; one of length 0 is none (R267). -/
def meets (a b : Word) (c d : Word) : Bool :=
  b != 0 && d != 0 && decide (a.toNat < c.toNat + d.toNat) && decide (c.toNat < a.toNat + b.toNat)
/-- RINV's invalidation, on every die (R271). -/
def invalidateReuse (vf : Nat) (asid : BitVec 16) (base len : Word) (s : State) : State :=
  let hit (e : Reuse) : Bool :=
    if len = 0 then e.vf == vf
    else (e.words.getD 0 0).extractLsb' 48 16 == asid
      && (meets (e.words.getD 3 0) (e.words.getD 4 0) base len || meets (e.words.getD 5 0) (e.words.getD 6 0) base len)
  (List.range 4).foldl (fun acc d => acc.modDie d fun x => { x with reuse := x.reuse.map fun (k, e) =>
    (k, if e.valid && hit e then { e with words := e.words.set 0 (e.words.getD 0 0 &&& ~~~1#64) } else e) }) s

def execRinv (o : S2W) (s : State) : Host.Outcome State Fault Refusal :=
  M.step (do
    let i := Instr.rinv o
    let (xs, take) ← jointOperands i o.gd [o.s1, o.s2] [] false
    checkPureIrrevocable
    take
    modify fun s => invalidateReuse (s.vfOf s.cur.slot) (s.asidOf s.cur.slot) (xs.getD 0 0) (xs.getD 1 0) s
    retireBoth i) s

/-! ## TEND and TABORT (R264) -/

/-- A copy that a body held is not complete. -/
def heldCopies (s : State) (id : Nat) (t : Task) : Bool :=
  (s.tile t.tile).chans.toList.any fun c => (c.fifo ++ c.exec).any fun z => z.body && z.task == id && z.ended.isNone

/-- The task ends: its entry is created, DONE is updated with a timestamp, and it leaves its tile; its dependants may be
placed. -/
def endTask (id : Nat) (ts : Word) (s : State) : State :=
  match s.task? id with
  | none => s
  | some t =>
    let s := if recPure t.words then createReuse t s else s
    freeDependants id (removeTask id t (updateDone t ts s))

/-- Both copies of a redundant task end when one makes the DONE update (R272). -/
def endTwin (id : Nat) (s : State) : State :=
  match (s.task? id).bind (·.twin) with
  | none => s
  | some u => match s.task? u with
    | some t => freeDependants u (removeTask u t s)
    | none => s

/-- A copy's DONE update or abort is compared with the other copy's (R272). -/
def doneGate (w : List Word) : M Unit := do
  let s ← get
  match redGate s.me.task doneKey (s.outgoing w) s with
  | (.wait, s) => do set s; halt
  | (.differ, s) => do set s; redDiffer
  | (_, s) => set s

/-- TEND of the slot that issues, as RETD at depth 0 makes it too. A function of a tile task that is not the last to end
only releases its slot. The last function's TSR is the one that DONE receives (DEDUCED, log 26). -/
def tendNow : M Unit := do
  if uncommitted (← get) then commitNow
  needStoresDone
  let s ← get
  let n := s.cur.slot
  let id := s.me.task
  match s.task? id with
  | none => halt
  | some t =>
    if heldCopies s id t then halt
    if t.slots.length ≤ 1 then
      -- the copy of a result whose page migrates waits (R98, R268)
      if recPure t.words && t.hash.isSome && !t.watched then
        match readResult t s with
        | (.waits, s) => haltWith fun _ => s
        | _ => pure ()
      doneGate [0xD2, recDone t.words, s.me.sys.tsr]
      haltWith fun s => endTask id s.me.sys.tsr (endTwin id s)
    else
      haltWith fun s => releaseSlot n (s.modTask id fun t => { t with slots := dropAll t.slots (fun k => k == n), ended := t.ended ++ [n] })

def execTend (o : N0) (s : State) : Host.Outcome State Fault Refusal :=
  M.step (do
    let _ ← jointOperands (.tend o) o.gd [] [] false
    tendNow) s

def execTabort (o : N0) (s : State) : Host.Outcome State Fault Refusal :=
  M.step (do
    let i := Instr.tabort o
    let _ ← jointOperands i o.gd [] [] false
    let s ← get
    match slotTask s with
    | none => retireBoth i
    | some t =>
      if t.committed then raise i 22 6 0
      doneGate [0xD3, recDone t.words, s.me.sys.tsr]
      haltWith fun s => updateDone t s.me.sys.tsr (discardBody s.me.task false false 0 s)) s

/-! ## Timestamps (R264) -/

def execTsadv (o : S1W) (s : State) : Host.Outcome State Fault Refusal :=
  M.step (do
    let i := Instr.tsadv o
    let (xs, take) ← jointOperands i o.gd [o.s1] [] false
    let v := xs.headD 0
    let s ← get
    let ord := match slotTask s with | some t => recOrd t.words && !t.committed | none => false
    if decide (v < s.me.sys.tsr) || ord then raise i 22 5 0
    take
    actMe fun sl => { sl with sys := { sl.sys with tsr := v } }
    retireBoth i) s

/-- The comparison of two timestamps. -/
def tsCompare (a b : Word) : Word := if a = b then 0 else if a < b then -1 else 1
def execTscmp (o : R3W) (s : State) : Host.Outcome State Fault Refusal :=
  M.step (do
    let i := Instr.tscmp o
    let (xs, take) ← jointOperands i o.gd [o.s1, o.s2] [.w o.d] false
    take
    putW o.d (tsCompare (xs.getD 0 0) (xs.getD 1 0))
    retireBoth i) s

end Sys2Proof.Machine
end

