-- ==== Sys2Proof/Machine/Dispatcher.lean ====
section
/-! DEFINITION. The dispatcher of a die: placement, binding, pre-emption by priority, gangs, redundant copies, bank modes,
watchdogs and partitions (07_tile_array.md R124 to R127, 13_tasks_scheduling.md R251, R255 to R263, R268, R272,
15_traps_preemption.md R309, R310). -/
namespace Sys2Proof.Machine

/-! ## Where a task may go (R126, R251, R257 to R259) -/

/-- The groups of R251 that an instance belongs to: level and number. -/
def groupsOf (ws : List Word) (i : Nat) : List (Nat × Nat) :=
  let g2 := i / (recExt ws 0 + 1)
  let g3 := g2 / (recExt ws 2 + 1)
  [(2, g2), (3, g3), (4, g3 / (recExt ws 3 + 1))]
/-- The domain of a level that holds a tile. -/
def domainAt (lvl t : Nat) : Nat := if lvl = 2 then t else if lvl = 3 then clusterOfTile t else dieOfTile t
/-- The domains fixed for a launch contain the tile; the second copy of a redundant task lies in another tile (DEDUCED, log
27). -/
def domainOk (s : State) (ws : List Word) (i t : Nat) (second : Bool) : Bool :=
  let gs := if second then (groupsOf ws i).drop 1 else groupsOf ws i
  s.domains.all fun (seq, lvl, g, dom) => seq != recSeq ws || !gs.contains (lvl, g) || dom == domainAt lvl t
def fixDomains (ws : List Word) (i t : Nat) (s : State) : State :=
  { s with domains := s.domains ++ (groupsOf ws i).filterMap fun (lvl, g) =>
      if s.domains.any (fun x => x.1 == recSeq ws && x.2.1 == lvl && x.2.2.1 == g) then none
      else some (recSeq ws, lvl, g, domainAt lvl t) }
/-- A domain is no longer fixed when its group has no task and every instance of it waits in the queue, or its launch has
gone. -/
def cleanDomains (s : State) : State :=
  { s with domains := s.domains.filter fun (seq, lvl, g, _) =>
      let mine (ws : List Word) (i : Nat) : Bool := (groupsOf ws i).contains (lvl, g)
      let recs := s.queues.flatMap fun (_, q) => q.recs.filter fun r => recSeq r.words == seq
      s.tasks.any (fun (_, t) => recSeq t.words == seq && mine t.words t.inst)
        || recs.any fun r => (List.range (recInstances r.words)).any fun i => mine r.words i && !r.insts.contains i }

/-- The banks that a new grant may take: those in CACHE mode from bank 2 up that are not changing. -/
def freeBanks (tl : Tile) : List Nat :=
  ((List.range 40).drop 2).filter fun b => bankMode tl b == 0#2 && !tl.toMode.any (fun x => x.1 == b)
/-- The mode that a bank has or is to reach. -/
def finalMode (tl : Tile) (b : Nat) : BitVec 2 := ((tl.toMode.find? fun x => x.1 == b).map (·.2)).getD (bankMode tl b)
/-- R126 admits the grant of a record on a tile, where other gangs hold some banks back. -/
def grantFits (tl : Tile) (vf : Nat) (ws : List Word) (held : Nat) : Bool :=
  if recBanks ws = 0 then true
  else
    match grantOf tl vf (recGroup ws) with
    | some (_, g) =>
      let count (m : BitVec 2) : Nat := ((maskBanks g.mask).filter fun b => finalMode tl b == m).length
      count 1 == recNS ws && count 2 == recNF ws && count 3 == recNE ws
    | none => tl.grants.toList.any (fun g => !g.valid) && decide (recBanks ws + held ≤ (freeBanks tl).length)
/-- The grant of a placed task, made if its group has none: in the free entry of the lowest number (DESIGN CHOICE, log 124). -/
def makeGrant (t vf : Nat) (ws : List Word) (s : State) : State :=
  let tl := s.tile t
  if recBanks ws = 0 || (grantOf tl vf (recGroup ws)).isSome then s
  else
    match ((List.range 8).zip tl.grants.toList).find? fun (_, g) => !g.valid with
    | none => s
    | some (k, _) =>
      let modes : List (BitVec 2) := List.replicate (recNS ws) 1 ++ List.replicate (recNF ws) 2 ++ List.replicate (recNE ws) 3
      let pairs := (freeBanks tl).zip modes
      let mask : BitVec 40 := pairs.foldl (fun acc x => acc ||| (1#40 <<< x.1)) 0
      s.modTile t fun tl => { tl with
        grants := tl.grants.set! k { valid := true, vf := BitVec.ofNat 10 vf, group := recGroup ws, mask := mask },
        toMode := tl.toMode ++ pairs }

/-- No task holds a slot, and none of the gangs. -/
def slotFree (s : State) (gs : List Gang) (n : Nat) : Bool :=
  !(s.slot n).bound && !s.tasks.any (fun (_, t) => t.slots.contains n) && !gs.any (fun g => g.slots.contains n)
/-- A user slot of a core is bound. -/
def coreBound (s : State) (c : Nat) : Bool := (List.range 15).any fun k => (s.slot (16 * c + k)).bound
/-- The NANMODE that the tasks of a core have or will have, none while it holds none: that of its bound slots, of a placed task or
of a gang that reserves a slot of it (R73). -/
def coreNm (s : State) (gs : List Gang) (c : Nat) : Option Bool :=
  if coreBound s c then some (s.core c).nanmode
  else
    match s.tasks.find? fun (_, t) => t.slots.any fun n => coreOfSlot n == c with
    | some (_, t) => some (recNm t.words)
    | none => (gs.find? fun g => g.slots.any fun n => coreOfSlot n == c).bind fun g =>
        ((s.queue g.qid).recs.find? fun r => recSeq r.words == g.seq).map fun r => recNm r.words
/-- The lowest free user slot of a role's core on a tile whose NANMODE agrees (R73, R258). -/
def freeSlot (s : State) (gs : List Gang) (t : Nat) (nm : Bool) (role : Nat) : Option Nat :=
  let c := 3 * t + role
  if ((coreNm s gs c).map (· != nm)).getD false then none
  else ((List.range 15).map (16 * c + ·)).find? (slotFree s gs)

def taskPart (s : State) (t : Task) : Nat := (s.queue (recQid t.words)).part.toNat
def taskPrio (s : State) (t : Task) : Nat := (s.queue (recQid t.words)).prio.toNat
/-- An instance ranks first among the uncommitted tasks of its queue, those that wait among them. -/
def ranksFirst (s : State) (ws : List Word) (i : Nat) : Bool :=
  s.tasks.all (fun (_, u) => recQid u.words != recQid ws || u.committed || !rankBefore u.words u.inst ws i)
    && (s.queue (recQid ws)).recs.all fun r => r.insts.all fun j => !rankBefore r.words j ws i

/-- The slots that an instance takes on a tile of partition p, if it is placeable there (R259). -/
def spotOn (s : State) (gs : List Gang) (p : Nat) (ws : List Word) (i : Nat) (second : Bool) (t : Nat) : Option (List Nat) :=
  let vf := (s.part p).vf.toNat
  let kind := recKind ws
  let onTile := s.tasks.filter fun (_, u) => u.tile == t
  let held : Nat := gs.foldl (fun acc g => acc + (g.banks.filter fun b => b.1 == t).foldl (fun a b => a + b.2) 0) 0
  let ok := !tileFenced s t && !(s.tile t).dead && onTile.all (fun (_, u) => taskPart s u == p)
    && grantFits (s.tile t) vf ws held
    && (kind != 3 || !onTile.any fun (_, u) => recKind u.words == 3)
    && (kind < 2 || onTile.all fun (_, u) => recKind u.words < 2 || !(u.saved || u.slots.any fun n => coreOfSlot n == 3 * t + 2)
          || (u.vf == vf && recGroup u.words == recGroup ws))
    && (!recOrd ws || decide (orderedTasks (s.tasks.filter fun (_, u) => u.die == dieOfTile t) < 256))
    && (!recExh ws || ranksFirst s ws i) && domainOk s ws i t second
  if ok then (recRoles ws).mapM (freeSlot s gs t (recNm ws)) else none

/-- The tiles of a partition on a die, from the one after the last placement (R259). -/
def scanTiles (s : State) (p d : Nat) : List Nat :=
  let ts := partTiles s p d
  match (s.die d).lastTile.get? p with
  | some l => ts.filter (fun t => decide (l < t)) ++ ts.filter (fun t => decide (t ≤ l))
  | none => ts
/-- The first tile on which an instance is placeable. -/
def firstSpot (s : State) (gs : List Gang) (p : Nat) (ws : List Word) (i : Nat) (second : Bool) (ts : List Nat) :
    Option (Nat × List Nat) :=
  ts.findSome? fun t => (spotOn s gs p ws i second t).map fun ns => (t, ns)
/-- Two tiles of a die share a mesh edge. -/
def adjacent (a b : Nat) : Bool :=
  (tileX a == tileX b && (tileY a + 1 == tileY b || tileY b + 1 == tileY a))
    || (tileY a == tileY b && (tileX a + 1 == tileX b || tileX b + 1 == tileX a))
def allGangs (s : State) : List Gang := s.dies.flatMap fun (_, d) => d.gangs

/-- The places of the first instance of a head that is no gang: one tile, or two for a redundant task (R272). -/
def headSpots (s : State) (p d : Nat) (r : QRec) : Option (List (Nat × List Nat)) :=
  match r.insts with
  | [] => none
  | i :: _ =>
    if r.spawner.isSome then none
    else
      let gs := allGangs s
      let ts := scanTiles s p d
      let ws := r.wordsOf i
      if recRed ws then
        ts.findSome? fun t => do
          let ns ← spotOn s gs p ws i false t
          let y ← firstSpot s gs p ws i true (ts.filter fun u => u != t && !adjacent t u)
          return [(t, ns), y]
      else (firstSpot s gs p ws i false ts).map fun x => [x]

/-! ## Placing and binding (R153, R210, R258) -/

/-- Make a task of an instance on a tile: its slots and its grant are its own from now on, and it is bound when the grant's
banks have reached their modes. -/
def placeTask (p : Nat) (r : QRec) (i t : Nat) (ns : List Nat) (hash : Option (BitVec 128)) (s : State) : Nat × State :=
  let vf := (s.part p).vf.toNat
  let id := s.nextTask
  let x : Task := {
    words := r.wordsOf i, inst := i, vf := vf, asid := admAsid s vf, die := dieOfTile t, tile := t, slots := ns, ended := [],
    committed := false, clearing := false, escrow := [], reads := [], spawner := r.spawner, watched := false, hash := hash,
    twin := none, misses := r.misses, out := [], used := [], gifts := [], saved := false, tensors := [] }
  let s := fixDomains r.words i t (makeGrant t vf r.words s)
  let s := s.modDie (dieOfTile t) fun y => { y with lastTile := y.lastTile.set p t }
  (id, { s with tasks := s.tasks.set id x, nextTask := id + 1 })

/-- The registers of a slot at binding: zero but for those of R258. The supervisor shadow bank and the trap registers, which
R153 does not list, keep their values (DEDUCED, log 28). -/
def boundSlot (old : Slot) (id : Nat) (t : Task) : Slot :=
  let args (k : Nat) : Word := if k = 1 then BitVec.ofNat 64 t.inst else if 2 ≤ k then recArg t.words (k - 2) else 0
  let bank : Vector Word 8 := vecOf 8 ((List.range 8).map args) 0
  { Slot.reset with
    bound := true, task := id, ar := { ARegs.reset with lo := bank, sup := old.ar.sup }, xr := { XRegs.reset with g := bank },
    sys := { SysRegs.reset with tsr := recTs t.words }, trap := old.trap }
/-- Bind one slot of a task; the first user slot of a core sets its NANMODE (R73), and constant lines of the address space that
the core holds are dropped (R159). -/
def bindSlot (id : Nat) (t : Task) (n : Nat) (s : State) : State :=
  let s := if coreBound s (coreOfSlot n) then s else s.modCore (coreOfSlot n) fun c => { c with nanmode := recNm t.words }
  let s := s.modSlot n fun sl => { boundSlot sl id t with kmark := s.kpast.length }
  let s := s.modCore (coreOfSlot n) fun c => { c with kcache := dropAll c.kcache (fun l => l.asid == t.asid) }
  let dig := recDigest t.words (coreOfSlot n % 3)
  let s := (List.range 6).foldl (fun acc k => memSetWord (frameKey s n (8 * k)) (dig.getD k 0) acc) s
  askRoot n dig s

/-- A task that is placed and not yet bound. -/
def pendingTask (s : State) (t : Task) : Bool := !t.saved && !t.slots.isEmpty && !t.slots.any fun n => (s.slot n).bound
/-- Its grant's banks have reached their modes (R127), no operation of another group is in the engines (R210), and its cores have
its NANMODE or no bound user slot (R73). -/
def mayBind (s : State) (t : Task) : Bool :=
  let tl := s.tile t.tile
  let owner := some (t.vf, recGroup t.words)
  (recBanks t.words == 0 || match grantOf tl t.vf (recGroup t.words) with
    | some (_, g) => (maskBanks g.mask).all fun b => !tl.toMode.any fun x => x.1 == b
    | none => false)
  && (recKind t.words < 2 || tl.eng.owner == owner || tl.eng.ops.isEmpty)
  && t.slots.all fun n => !coreBound s (coreOfSlot n) || (s.core (coreOfSlot n)).nanmode == recNm t.words
/-- Bind a task: the engines are cleared for a new owner (R210), and a tile task finds its semaphores zero (R161). -/
def bindTask (id : Nat) (s : State) : State :=
  match s.task? id with
  | none => s
  | some t =>
    let owner := some (t.vf, recGroup t.words)
    let s := if 2 ≤ recKind t.words && (s.tile t.tile).eng.owner != owner then
        s.modTile t.tile fun tl => { tl with eng := { Engine.reset with owner := owner } } else s
    let s := if recKind t.words = 3 then clearSems t.tile s else s
    t.slots.foldl (fun acc n => bindSlot id t n acc) s
def bindPending (d : Nat) (s : State) : State :=
  s.tasks.foldl (fun acc (id, t) => if t.die == d && pendingTask acc t && mayBind acc t then bindTask id acc else acc) s

/-! ## Taking the head of a queue (R260, R268) -/

/-- An instance leaves its queue. -/
def takeInst (q : Nat) (seq : Word) (i : Nat) (s : State) : State :=
  s.modQueue q fun x => { x with recs := (x.recs.map fun r =>
    if recSeq r.words == seq then { r with insts := dropAll r.insts (fun j => j == i) } else r).filter fun r => !r.insts.isEmpty }

/-- What comes of a hit's copy: it is made, it fails, it has written to a watched page of the task's own arguments, or it waits
for a page that migrates. -/
inductive FrameCopy where
  | made
  | failed
  | spoilt
  | waits

/-- A hit's copy of its frame to the result, as copy writes (R268, R270). -/
def copyFrame (t : Nat) (asid : BitVec 16) (ws : List Word) : Nat → Nat → Nat → Nat → State → FrameCopy × State
  | 0, _, _, _, s => (.made, s)
  | k + 1, src, dst, n, s =>
    if n = 0 then (.made, s)
    else
      let m := min n (32 - dst % 32)
      match translateNow (dieOfTile t) (BitVec.ofNat 64 dst) asid Access.copyWrite true s with
      | .ok l s =>
        let v := memGet s src m
        let own := l.watch && (rangeTouches (recArg ws 0) (recArg ws 1) (dst / 65536) || rangeTouches (recArg ws 2) (recArg ws 3) (dst / 65536))
        let s := homePut l m v (if l.c then dropCopies l.asid l.vline s else s)
        if own then (.spoilt, s) else copyFrame t asid ws k (src + m) (dst + m) (n - m) s
      | .fault _ _ s => (.failed, s)
      | .miss _ s => (.waits, s)

/-- What the dispatcher does with a pure task: it retires it from the reuse table, runs it with the hash that its entry will
have, if any, or waits. -/
inductive PureStart where
  | retire
  | run (hash : Option (BitVec 128))
  | waits

/-- The lookup of a pure task (R268). A hit whose copy has written to its arguments is abandoned, and what it read of them can
make no entry any more (R270). -/
def lookupPure (p t : Nat) (r : QRec) (i : Nat) (s : State) : PureStart × State :=
  let vf := (s.part p).vf.toNat
  let asid := admAsid s vf
  if !recPure r.words then (.run none, s)
  else
    match pureHash t vf asid r.words i s with
    | (.unreadable, s) => (.run none, s)
    | (.waits, s) => (.waits, s)
    | (.got hs ok, s) =>
      let h : BitVec 128 := BitVec.ofNat 128 (hs.foldr (fun b acc => b.toNat + 256 * acc) 0)
      let d := dieOfTile t
      let miss := if ok then some h else none
      match reuseHit s d vf h (recArg r.words 5) with
      | none => (.run miss, s)
      | some e =>
        let len := (recArg r.words 5).toNat
        match copyFrame t asid r.words (len + 2) (frameBase s d e) (recArg r.words 4).toNat len s with
        | (.failed, s) => (.run miss, s)
        | (.spoilt, s) => (.run none, s)
        | (.waits, s) => (.waits, s)
        | (.made, s) =>
          let s := touchReuse d e (fun ws => ws.set 7 (BitVec.ofNat 64 (min ((ws.getD 7 0).toNat + 1) (2 ^ 32 - 1)))) s
          let x : Task := {
            words := r.words, inst := i, vf := vf, asid := asid, die := d, tile := t, slots := [], ended := [],
            committed := true, clearing := false, escrow := [], reads := [], spawner := none, watched := false, hash := none,
            twin := none, misses := 0, out := [], used := [], gifts := [], saved := false, tensors := [] }
          (.retire, updateDone x (recTs r.words) s)

/-- Place the head of a queue that is no gang; nothing while it waits. -/
def placeHead (p d q : Nat) (s : State) : Option State × State :=
  match (s.queue q).recs.head? with
  | none => (none, s)
  | some r =>
    match r.insts, headSpots s p d r with
    | i :: _, some ((t, ns) :: more) =>
      let (what, s) := lookupPure p t r i s
      let take (s : State) : State := (takeInst q (recSeq r.words) i s).modQueue q fun x => { x with lastDie := d }
      match what with
      | .waits => (none, s)
      | .retire => (some (take s), s)
      | .run hash =>
        let (a, s) := placeTask p r i t ns hash (take s)
        (some (match more with
        | [] => s
        | (u, ms) :: _ =>
          let (b, s) := placeTask p r i u ms hash s
          (s.modTask a fun x => { x with twin := some b }).modTask b fun x => { x with twin := some a }), s)
    | _, _ => (none, s)

/-! ## Gangs (R262) -/

/-- Place as many instances of a gang as fit where some gangs hold their reservations; each is placed within the partition,
on the dispatcher's die first (DEDUCED, log 29). -/
def gangTrial (p d : Nat) (gs : List Gang) (r : QRec) (s : State) : List (Nat × List Nat) × State :=
  r.insts.foldl (fun (acc : List (Nat × List Nat) × State) i =>
    let tiles := (d :: (List.range 4).filter (fun x => x != d)).flatMap fun x => scanTiles acc.2 p x
    match firstSpot acc.2 gs p (r.wordsOf i) i false tiles with
    | none => acc
    | some (t, ns) => (acc.1 ++ [(t, ns)], (placeTask p r i t ns none acc.2).2)) ([], s)

def gangSeq (g : Gang) : Nat := g.seq.toNat
/-- Other gangs than the one with a SEQ: those that are older, or all. -/
def olderGangs (s : State) (seq : Word) : List Gang := (allGangs s).filter fun g => decide (gangSeq g < seq.toNat)
def otherGangs (s : State) (seq : Word) : List Gang := (allGangs s).filter fun g => g.seq != seq
def dropGangs (f : Gang → Bool) (s : State) : State :=
  { s with dies := s.dies.map fun (k, d) => (k, { d with gangs := dropAll d.gangs f }) }
/-- The banks that a gang reserves on a tile. -/
def Gang.banksOn (g : Gang) (t : Nat) : Nat := (g.banks.filter fun b => b.1 == t).foldl (fun acc b => acc + b.2) 0
/-- A reservation can stand beside others: it shares no slot with them, and the free banks of its tiles are enough for all. -/
def Gang.beside (s : State) (taken : List Nat) (kept : List Gang) (g : Gang) : Bool :=
  !g.slots.any (fun n => taken.contains n || kept.any fun y => y.slots.contains n)
    && g.banks.all fun (t, k) => decide (kept.foldl (fun acc y => acc + y.banksOn t) k ≤ (freeBanks (s.tile t)).length)
/-- Put a gang where its SEQ belongs. -/
def insertGang (g : Gang) : List Gang → List Gang
  | [] => [g]
  | x :: xs => if gangSeq g < gangSeq x then g :: x :: xs else x :: insertGang g xs
/-- The reservations that still hold, the older before the younger, beside those of `kept` and the slots that are taken. -/
def keptGangs (s : State) (taken : List Nat) (kept : List Gang) : List Gang :=
  ((allGangs s).foldl (fun acc g => insertGang g acc) []).foldl (fun acc g =>
    if acc.any (fun y => y.seq == g.seq) then acc else if g.beside s taken acc then acc ++ [g] else acc) kept

/-- A gang is placeable when all its instances are. -/
def gangFits (p d : Nat) (r : QRec) (s : State) : Bool :=
  r.spawner.isNone && (gangTrial p d (olderGangs s (recSeq r.words)) r s).1.length == r.insts.length

/-- The reservation of the places of a gang. -/
def reservation (q : Nat) (r : QRec) (spots : List (Nat × List Nat)) (s : State) : Gang :=
  let vf := (s.part (s.queue q).part.toNat).vf.toNat
  let tiles := (spots.map (·.1)).eraseDups.filter fun t => (grantOf (s.tile t) vf (recGroup r.words)).isNone
  { qid := q, seq := recSeq r.words, slots := spots.flatMap (·.2), banks := tiles.map fun t => (t, recBanks r.words) }

/-- Place a whole gang. -/
def placeGang (p d q : Nat) (r : QRec) (s : State) : State :=
  let (spots, s') := gangTrial p d (olderGangs s (recSeq r.words)) r s
  let taken := spots.flatMap (·.2)
  let s := dropGangs (fun x => x.seq == recSeq r.words) s'
  let s := dropGangs (fun x => !(keptGangs s taken []).any fun y => y.seq == x.seq) s
  r.insts.foldl (fun acc i => takeInst q (recSeq r.words) i acc) (s.modQueue q fun x => { x with lastDie := d })

/-- A gang that does not fit reserves what it can. Where only an older gang's reservation stands in its way it releases
everything; a younger gang that cannot stand beside it does. -/
def reserveGang (p d q : Nat) (r : QRec) (s : State) : State :=
  if r.spawner.isSome then s
  else
    let older := olderGangs s (recSeq r.words)
    let (spots, _) := gangTrial p d older r s
    let (free, _) := gangTrial p d [] r s
    let s0 := dropGangs (fun x => x.seq == recSeq r.words) s
    if spots.length < free.length then s0
    else
      let g := reservation q r spots s
      let kept := older.foldl (fun acc y => insertGang y acc) [g]
      (dropGangs (fun x => !(keptGangs s0 [] kept).any fun y => y.seq == x.seq) s0).modDie d fun x => { x with gangs := x.gangs ++ [g] }

/-! ## Pre-emption by priority (R261) -/

/-- The banks of every tile reach the modes that they are changing to. -/
def settleBanks (s : State) : State :=
  { s with tiles := s.tiles.map fun (k, t) =>
      (k, { t with modes := t.toMode.foldl (fun acc x => acc.set! x.1 x.2) t.modes, toMode := [] }) }
/-- How many instances of a head could be placed, of how many that are wanted. -/
def headRoom (p d : Nat) (r : QRec) (s : State) : Nat × Nat :=
  if recGang r.words then
    (if r.spawner.isSome then 0 else (gangTrial p d (olderGangs s (recSeq r.words)) r s).1.length, r.insts.length)
  else (if (headSpots s p d r).isSome then 1 else 0, 1)
/-- The tiles, of those that hold lower-priority bodies, on which discarding these alone would make room for a copy of a redundant
head beside a tile for the other copy, which may have to be cleared too (R261, R272). -/
def pairTiles (p d : Nat) (r : QRec) (low : SMap Task) (s : State) : List Nat :=
  match r.insts with
  | [] => []
  | i :: _ =>
    let gs := allGangs s
    let spot (acc : State) (second : Bool) (t : Nat) : Bool := (spotOn acc gs p (r.wordsOf i) i second t).isSome
    let cleared (ts : List Nat) : State :=
      settleBanks ((low.filter fun (_, u) => ts.contains u.tile).foldl (fun acc (id, _) => discardBody id true false 0 acc) s)
    (low.map fun (_, t) => t.tile).eraseDups.filter fun t =>
      !(spot (settleBanks s) false t && spot (settleBanks s) true t)
        && (scanTiles s p d).any fun u => u != t && !adjacent t u
          && (let acc := cleared [t, u]
              (spot acc false t && spot acc true u) || (spot acc false u && spot acc true t))
/-- The body that a blocked head pre-empts. -/
def victimFor (p d prio : Nat) (r : QRec) (s : State) : Option Nat :=
  let now := settleBanks s
  let (n, want) := headRoom p d r now
  if want ≤ n then none
  else
    let low := s.tasks.filter fun (_, t) => t.die == d && !t.committed && taskPart s t == p && decide (taskPrio s t < prio)
    let tiles := if recRed r.words && !recGang r.words then (if r.spawner.isSome then [] else pairTiles p d r low s)
      else (low.map fun (_, t) => t.tile).eraseDups.filter fun t =>
      let gone := (low.filter fun (_, u) => u.tile == t).foldl (fun acc (id, _) => discardBody id true false 0 acc) s
      decide (n < (headRoom p d r (settleBanks gone)).1)
    ((low.filter fun (_, t) => tiles.contains t.tile).foldl (fun (acc : Option (Nat × Task)) (id, t) =>
      match acc with
      | none => some (id, t)
      | some (k, u) => if u.before t then some (id, t) else some (k, u)) none).map (·.1)

/-! ## The choice of R260 -/

/-- The queues of a partition at a priority that hold records, in QID order. -/
def queuesAt (s : State) (p prio : Nat) : List Nat :=
  s.queues.filterMap fun (q, x) =>
    if x.part.toNat == p && x.prio.toNat == prio && queueOn x && !x.recs.isEmpty then some q else none
def headOf (s : State) (q : Nat) : Option QRec := (s.queue q).recs.head?
def recCost (r : QRec) : Nat :=
  (if recKind r.words = 3 then 3 else 1) * (if recRed r.words then 2 else 1)
    * (if recGang r.words then recInstances r.words else 1)
def headPlaceable (p d : Nat) (s : State) (q : Nat) : Bool :=
  match headOf s q with
  | none => false
  | some r => if recGang r.words then gangFits p d r s else (headSpots s p d r).isSome
def headCost (s : State) (q : Nat) : Nat := ((headOf s q).map recCost).getD 0

/-- A queue that has left E loses its deficit and its visit. -/
def leaveE (d : Nat) (gone : List Nat) (s : State) : State :=
  s.modDie d fun x => { x with deficit := x.deficit.filter (fun y => !gone.contains y.1), visited := dropAll x.visited (fun q => gone.contains q) }

/-- The weighted deficit round of one priority: the queue that places. -/
def chooseQueue (p prio d : Nat) (es : List Nat) : Nat → State → Option Nat × State
  | 0, s => (none, s)
  | k + 1, s =>
    let x := s.die d
    match (es.find? fun q => decide (x.ptr.get (4 * p + prio) 0 ≤ q)).or es.head? with
    | none => (none, s)
    | some q =>
      let def0 := x.deficit.get q 0
      let df := if x.visited.contains q then def0 else def0 + (s.queue q).weight.toNat
      if headCost s q ≤ df then
        (some q, s.modDie d fun y => { y with
          deficit := y.deficit.set q (df - headCost s q), visited := if y.visited.contains q then y.visited else q :: y.visited })
      else
        chooseQueue p prio d es k (s.modDie d fun y => { y with
          deficit := y.deficit.set q df, visited := dropAll y.visited (fun z => z == q), ptr := y.ptr.set (4 * p + prio) ((q + 1) % 1024) })

/-- A body that the dispatcher pre-empts may be discarded now: no slot of it waits for an engine or the conversion unit (R199,
R210), and no handler holds the event (R297). -/
def mayDiscard (s : State) (id : Nat) : Bool :=
  let ok (t : Task) : Bool := !unitBusy s t && !t.slots.any fun n => holdsEvents (s.slot n)
  match s.task? id with
  | none => false
  | some t => ok t && ((t.twin.bind s.task?).map ok).getD true
/-- Pre-empt one body after the other until a head is placeable, or must wait (R261). -/
def preemptFor (p d prio q : Nat) : Nat → State → State
  | 0, s => s
  | k + 1, s =>
    match headOf s q with
    | none => s
    | some r =>
      if headPlaceable p d s q then s
      else
        match victimFor p d prio r s with
        | some id => if mayDiscard s id then preemptFor p d prio q k (discardBody id true false 0 s) else s
        | none => s
/-- A head that is not placeable reserves for its gang and pre-empts. -/
def blockedHead (p d prio : Nat) (s : State) (q : Nat) : State :=
  match headOf s q with
  | none => s
  | some r => preemptFor p d prio q (s.tasks.length + 1) (if recGang r.words then reserveGang p d q r s else s)
/-- A head has room once banks that are changing have changed: bodies that it has pre-empted have left it the room. -/
def roomSoon (p d : Nat) (s : State) (q : Nat) : Bool :=
  match headOf s q with
  | none => false
  | some r => !headPlaceable p d s q && let (n, want) := headRoom p d r (settleBanks s); decide (want ≤ n)

/-- One priority: whether the choice ends here. A head that has pre-empted and only waits for its banks may or may not let lower
priorities go first (free). -/
def dispatchPrio (p d prio : Nat) (s : State) : Bool × State :=
  let qs := queuesAt s p prio
  let leave (es : List Nat) (s : State) : State :=
    leaveE d ((s.queues.filter fun (q, x) => x.part.toNat == p && x.prio.toNat == prio && !es.contains q).map (·.1)) s
  let s := leave (qs.filter (headPlaceable p d s)) s
  let s := (qs.filter fun q => !headPlaceable p d s q).foldl (blockedHead p d prio) s
  let es := qs.filter (headPlaceable p d s)
  let s := leave es s
  let most : Nat := es.foldl (fun acc q => max acc (headCost s q)) 0
  match chooseQueue p prio d es ((most + 2) * (es.length + 1)) s with
  | (none, s) =>
    if qs.any (roomSoon p d s) then
      let (c, s) := s.nextFree
      (c % 2 == 1, s)
    else (false, s)
  | (some q, s') =>
    match headOf s' q with
    | none => (false, s')
    | some r =>
      if recGang r.words then (true, placeGang p d q r s')
      else
        match placeHead p d q s' with
        | (some s', _) => (true, s')
        | (none, s') => (true, s'.modDie d fun x => { x with
            deficit := (s.die d).deficit, visited := (s.die d).visited, ptr := (s.die d).ptr })

/-- One choice of the dispatcher of die d for partition p, with the bindings, held posts and held updates that are due. -/
def dispatch (p d : Nat) (s : State) : State :=
  let s := bindPending d (retryDone d (replyHolds d (retryPosts d (cleanDomains s))))
  if !(s.part p).en then s
  else
    let r := [3, 2, 1, 0].foldl (fun (acc : Bool × State) prio => if acc.1 then acc else dispatchPrio p d prio acc.2) (false, s)
    bindPending d r.2
/-- DISPATCHER_PLACE: `part` is 4 * partition + die. -/
def execDispatcherPlace (part : Nat) (s : State) : Host.Outcome State Fault Refusal := .next (dispatch (part / 4) (part % 4) s)

/-! ## Bank modes (R127) -/

/-- An access in flight names a bank of a tile. -/
def bankInUse (s : State) (t b : Nat) : Bool :=
  let hit (x : Target) : Bool := match x with
    | .scratch t' b' _ => t' == t && b' == b
    | .fifo t' b' _ => t' == t && b' == b
    | _ => false
  s.slots.any (fun (_, sl) => sl.stores.any (fun x => hit x.tgt) || sl.loads.any fun x => hit x.tgt)
    || s.tiles.any fun (_, x) =>
      x.eng.ops.any (fun o => o.tensor.any fun r => r.tile == t && r.banks.contains b)
        || x.conv.any fun o => (o.t ++ o.src).any fun r => r.tile == t && r.banks.contains b

/-- An ESCROW bank that is returning to CACHE may hold an entry still: some task on the tile, whose group has no grant there any
more, has stores in escrow (R127, R132). Which of the departed banks holds them is not said, so all of them wait. -/
def escrowHeld (s : State) (t : Nat) : Bool :=
  s.tasks.any fun (_, u) => u.tile == t && (grantOf (s.tile t) u.vf (recGroup u.words)).isNone
    && (!(escrowLines u.escrow).isEmpty || u.slots.any fun n => (s.slot n).stores.any fun x => x.body && match x.tgt with
          | .mem _ => true
          | _ => false)
/-- The bank is filled with zero, and its new mode takes effect. -/
def enterMode (b : Nat) (m : BitVec 2) (t : Tile) : Tile :=
  { t with
    modes := t.modes.set! b m, toMode := dropAll t.toMode (fun x => x.1 == b), fifos := t.fifos.set b [],
    scratch := t.scratch.filter fun c => c.1 / 8192 != b }
def changeBank (t b : Nat) (s : State) : State :=
  match (s.tile t).toMode.find? fun x => x.1 == b with
  | none => s
  | some (_, m) =>
    if bankMode (s.tile t) b = 0#2 then
      let ls := (s.tile t).l1.filter fun l => l.bank == b
      (ls.foldl (fun acc l => dropL1 t l.asid l.vline acc) s).modTile t (enterMode b m)
    else if bankInUse s t b || (bankMode (s.tile t) b == 3#2 && escrowHeld s t) then s
    else s.modTile t (enterMode b m)
def execBankModeChange (tile bank : Nat) (s : State) : Host.Outcome State Fault Refusal := .next (changeBank tile bank s)

/-! ## Redundant tasks that do not agree in time (R272) -/

/-- A transfer of one copy waits with its bytes for the other copy's. -/
def transfersApart (s : State) (t : Task) (u : Nat) : Bool :=
  channels.any fun c => (chanOf s t.tile c).exec.any fun x =>
    x.ready && x.ended.isNone && match x.twin with
      | some (t', v, p) => v == u && ((otherCopy s c t' u p).map fun y => y.ended.isNone && !(y.ready && y.written == x.written)).getD false
      | none => false
/-- One copy has reached a write that the other has not. -/
def copiesApart (s : State) (t : Task) : Bool :=
  match t.twin with
  | none => false
  | some k =>
    match s.task? k with
    | none => false
    | some u => t.out.any (fun x => (u.out.get? x.1).isNone) || u.out.any (fun x => (t.out.get? x.1).isNone) || transfersApart s t k
def execRedundantMismatch (task : Nat) (s : State) : Host.Outcome State Fault Refusal :=
  .next (match s.task? task with
    | none => s
    | some t =>
      if !copiesApart s t then s
      else
        -- the operation that has waited raises it (R22, R304)
        let u := t.other s
        let lone (a b : SMap Outgoing) : Option Outgoing := (a.find? fun x => (b.get? x.1).isNone).map (·.2)
        let uo : SMap Outgoing := (u.map (·.out)).getD []
        match (lone t.out uo).or (lone uo t.out) with
        | some o => redMismatch task o.slot o.tsr s
        | none =>
          let n := t.slots.headD (48 * t.tile)
          redMismatch task n (s.slot n).sys.tsr s)

/-! ## Watchdog and draining (R309, R310) -/

def inPart (s : State) (p t : Nat) : Bool := (s.prect (4 * p + dieOfTile t)).holds t
/-- A body on a tile that has left its partition, or whose partition drains, is discarded (R257, R310). -/
def leaving (s : State) (t : Task) : Bool :=
  !t.committed && !t.slots.isEmpty
    && (!inPart s (taskPart s t) t.tile || s.parts.any fun (p, x) => x.active && inPart s p t.tile)
/-- Such a body is discarded when it may be: an operation of a unit runs to completion first (R199, R210). -/
def vacate (id : Nat) (s : State) : State :=
  match s.task? id with
  | none => s
  | some t => if leaving s t && mayDiscard s id then discardBody id true false 0 s else s
def vacateAll (s : State) : State := s.tasks.foldl (fun acc (id, _) => vacate id acc) s

/-- The tail of a task reaches its limit. Cycles are not counted, so a tail may expire at any time (log 19). -/
def expire (id : Nat) (s : State) : State :=
  match s.task? id with
  | none => s
  | some t =>
    if !t.committed || t.slots.isEmpty then s
    else
      let p := taskPart s t
      let n := t.slots.headD (48 * t.tile)
      let ts := (s.slot n).sys.tsr
      let s := postOrHold t.die (some t.vf) t.asid (faultEntry (faultWord1 8 0 0 0 n t.vf t.asid) ts 0) (stopTask id s)
      let s := s.modPart p fun x => { x with
        en := false, active := true, expiries := if x.expiries = -1 then -1 else x.expiries + 1 }
      vacateAll s
def execWatchdogExpiry (task : Nat) (s : State) : Host.Outcome State Fault Refusal := .next (expire task s)

/-- A tile at rest is reset at the end of a drain. -/
def drainTile (asid : BitVec 16) (t : Nat) (s : State) : State :=
  let s := (s.tile t).grants.toList.foldl (fun acc g => if g.valid then releaseGrant t g.vf.toNat g.group acc else acc) s
  let s := ((s.tile t).l1.filter fun l => l.asid == asid).foldl (fun acc l => dropL1 t l.asid l.vline acc) s
  let s := clearSems t (s.modTile t fun tl => { tl with eng := Engine.reset })
  { s with slots := s.slots.map fun (n, sl) => (n, if tileOfSlot n = t then { sl with ports := Vector.replicate 4 [] } else sl) }
def drainDone (p : Nat) (s : State) : State :=
  let tiles := (List.range 4).flatMap fun d => partTiles s p d
  let idle (t : Nat) : Bool := (s.tile t).chans.toList.all (fun c => c.fifo.isEmpty && c.exec.isEmpty) && (s.tile t).eng.ops.isEmpty
  if (s.part p).active && tiles.all idle && !s.tasks.any (fun (_, t) => tiles.contains t.tile && !t.slots.isEmpty) then
    let asid := admAsid s (s.part p).vf.toNat
    (tiles.foldl (fun acc t => drainTile asid t acc) s).modPart p fun x => { x with active := false, done := true }
  else s
def execPartitionDrainComplete (part : Nat) (s : State) : Host.Outcome State Fault Refusal := .next (drainDone part s)

/-! ## Rectangles of partitions (R255, R257) -/

def PRect.of (v : Word) : PRect :=
  { x0 := v.extractLsb' 0 4, y0 := v.extractLsb' 4 4, x1 := v.extractLsb' 8 4, y1 := v.extractLsb' 12 4, valid := v.getLsbD 16 }
def PRect.meets (a b : PRect) : Bool :=
  a.valid && b.valid && a.x0 ≤ b.x1 && b.x0 ≤ a.x1 && a.y0 ≤ b.y1 && b.y0 ≤ a.y1
/-- A write of `PRECT`(4n + d). -/
def writePrect (k : Nat) (v : Word) (s : State) : State :=
  let r := PRect.of v
  let clash := (List.range 64).any fun q => q != k / 4 && r.meets (s.prect (4 * q + k % 4))
  if r.x1 < r.x0 ∨ r.y1 < r.y0 ∨ 11#4 < r.y1 ∨ clash then s.modPart (k / 4) fun x => { x with err := true }
  else
    vacateAll { s with prects := s.prects.set k r }
def execPartitionResize (part : Nat) (v : Word) (s : State) : Host.Outcome State Fault Refusal := .next (writePrect part v s)

end Sys2Proof.Machine
end

