-- ==== Sys2Proof/Machine/Links.lean ====
section
/-! DEFINITION. The links of a package: UCIe modules, Aqgal ports, Ethernet and device time (16_links.md R318 to R337), and
their steps. What travels on a link is another unit's; a link's own state and what it brings to this package are here. -/
namespace Sys2Proof.Machine

/-! ## UCIe modules (R318 to R325) -/

def modEnd (d m : Nat) (f : LinkEnd → LinkEnd) (s : State) : State :=
  s.modDie d fun x => { x with links := x.links.set m (f (x.links.get m LinkEnd.reset)) }
/-- Change both ends of a module. -/
def modEnds (m : Nat) (f : LinkEnd → LinkEnd) (s : State) : State :=
  modEnd (moduleEnds m).2 m f (modEnd (moduleEnds m).1 m f s)

/-- Training of a module at a rate begins; while it lasts the module carries no traffic (R321, R326). -/
def train (m : Nat) (rate : BitVec 3) (s : State) : State := modEnds m (fun e => { e with state := 1, target := rate }) s

/-- A write of `LMCTLm` on die d (R321). The counters are zeroed at once, so CCLR reads 0. -/
def writeLmctl (d m : Nat) (v : Word) (s : State) : State :=
  let e := linkEnd s d m
  if e.retrain then s
  else
    let rate := v.extractLsb' 0 3
    let go := v.getLsbD 3 && decide (rate.toNat ≤ 2)
    let bad := v.getLsbD 3 && !decide (rate.toNat ≤ 2)
    let s := modEnd d m (fun e => { e with trate := rate, retrain := go, err := (e.err && !v.getLsbD 5) || bad }) s
    let s := if v.getLsbD 4 then modEnd d m (fun e => { e with crc := 0, rpl := 0 }) s else s
    if go then train m rate s else s

/-- The degradation trap (R325). -/
def degrade (m : Nat) (s : State) : State :=
  let (a, b) := moduleEnds m
  let mark (x : Die) : Die := { x with lmdeg := x.lmdeg ||| (1#48 <<< m) }
  let low := if a < b then a else b
  let x := low / 2
  let s := (s.modDie a mark).modDie b mark
  logEvent 3 (some low) none { s with svcInt := if s.svcInt.contains x then s.svcInt else s.svcInt ++ [x] }

/-- A half of the data lanes holds a retired lane. -/
def LinkEnd.halfLost (e : LinkEnd) (k : Nat) : Bool := e.retired.any fun l => l / 32 == k
/-- Both halves do. -/
def LinkEnd.lost (e : LinkEnd) : Bool := e.halfLost 0 && e.halfLost 1

/-- One end of a module, chosen free: the die that receives. -/
def someEnd (m : Nat) (s : State) : Nat × State :=
  let (k, s) := s.nextFree
  (if k % 2 = 0 then (moduleEnds m).1 else (moduleEnds m).2, s)

/-- LMCTL_RETRAIN and LMCTL_COUNTER_CLEAR: a write of `LMCTL` at the module's first die. -/
def execLmctlRetrain (module : Nat) (v : Word) (s : State) : Host.Outcome State Fault Refusal :=
  .next (if module < 48 then writeLmctl (moduleEnds module).1 module v s else s)
def execLmctlCounterClear (module : Nat) (v : Word) (s : State) : Host.Outcome State Fault Refusal :=
  .next (if module < 48 then writeLmctl (moduleEnds module).1 module v s else s)

/-- An end has no lanes left for even half width: retired lanes lie in both halves, more of them than spare lanes replace. None is
regained before reset (R323). -/
def LinkEnd.dead (e : LinkEnd) : Bool := e.lost && decide (4 < e.retired.length)
/-- Training ends: the module is up (R321), or it has failed for want of lanes (R323). -/
def trained (m : Nat) (s : State) : State :=
  let ends := moduleEnds m
  if (linkEnd s ends.1 m).state ≠ 1#2 then s
  else if (linkEnd s ends.1 m).dead || (linkEnd s ends.2 m).dead then modEnds m (fun e => { e with state := 3, retrain := false }) s
  else modEnds m (fun e => { e with rate := e.target, retrain := false, state := 2 }) s
def execLinkTrainingComplete (module : Nat) (s : State) : Host.Outcome State Fault Refusal :=
  .next (if module < 48 then trained module s else s)

/-- The rate one step down (R324): none below 16 GT/s. -/
def stepDown (r : BitVec 3) : Option (BitVec 3) :=
  if r = 2#3 then some 1 else if r = 1#3 then some 0 else if r = 0#3 then some 3 else if r = 3#3 then some 4 else none

/-- A flit that fails its CRC at one end is counted and replayed; a window over the limit falls back, and RATE shows the lower
rate at once (R322, R324). -/
def crcFailure (m : Nat) (s : State) : State :=
  let (d, s) := someEnd m s
  if (linkEnd s d m).state ≠ 2#2 then s
  else
    let s := modEnd d m (fun e => { e with crc := satAdd e.crc 1, win := satAdd e.win 1, rpl := satAdd e.rpl 1 }) s
    let e := linkEnd s d m
    if e.win ≤ (s.die d).lmthr then s
    else
      let s := modEnds m (fun e => { e with win := 0 }) s
      degrade m (match stepDown e.rate with
        | some r => train m r (modEnds m (fun e => { e with rate := r }) s)
        | none => modEnds m (fun e => { e with state := 3 }) s)
/-- A window of 2^20 cycles ends. -/
def execCrcWindowEnd (module : Nat) (s : State) : Host.Outcome State Fault Refusal :=
  .next (if module < 48 then modEnds module (fun e => { e with win := 0 }) s else s)

/-- A receiving lane is retired (R323). -/
def retireLane (m lane : Nat) (s : State) : State :=
  let (d, s) := someEnd m s
  let e := linkEnd s d m
  if 68 ≤ lane ∨ e.retired.contains lane ∨ e.state = 3#2 then s
  else
    let e' : LinkEnd := { e with last := BitVec.ofNat 7 lane, nret := e.nret + 1, retired := e.retired ++ [lane] }
    let s := modEnd d m (fun _ => e') s
    degrade m (
      if e.spare ≠ 0#3 then train m e.rate (modEnd d m (fun x => { x with spare := x.spare - 1 }) s)
      else if e'.lost then modEnds m (fun x => { x with state := 3, retrain := false }) s
      else train m e.rate (modEnds m (fun x => { x with half := true }) s))
def execLaneRetirement (module lane : Nat) (s : State) : Host.Outcome State Fault Refusal :=
  .next (if module < 48 then retireLane module lane s else s)

/-! ## Aqgal ports (R328 to R331) -/

/-- The requests to other packages that have no response; new ones wait while the port set has changed and some are out
(R330). -/
def settleRemotes (s : State) : State := if s.remotes.any (·.out) then s else sendWaiting { s with remoteWait := false }

/-- A correction of device time (R336) by what a message shows, less the delay that it has had, which is free. -/
def correctTime (src : BitVec 2) (shown : Word) (s : State) : State :=
  let (k, s) := s.nextFree
  let off : BitVec 32 := (shown - s.pkg.dtime).truncate 32 + BitVec.ofNat 32 k
  (tickTime s).modPkg fun p =>
    let good := if off.toInt.natAbs ≤ 20 then min (p.dtgood + 1) 16 else 0
    { p with dtoffs := off, dtsrc := src, dtgood := good, dtlock := decide (16 ≤ good) }

/-- A request has its response: whoever waits finds it, and the memory that it names is as its package had it (R15). -/
def answerRemote (r : RemoteReq) (s : State) : State :=
  let s := otherPackage r.key s
  let rs := if r.req == .nobody then dropAll s.remotes (fun x => x.tag == r.tag)
    else modFirst s.remotes (fun x => x.tag == r.tag) (fun x => { x with answered := true })
  settleRemotes { s with remotes := rs }
/-- A flit that is accepted, by type. The payloads of requests, responses and link control are not given: a response answers
a request that is free to choose. -/
def takeFlit (port : Nat) (ws : List Word) (s : State) : State :=
  match flitType ws with
  | 2 =>
    let open' := s.remotes.filter (·.out)
    let (k, s) := s.nextFree
    (match open'[k % open'.length]? with
     | some r => answerRemote r s
     | none => s)
  | 3 =>
    -- the port that leads towards the master is the lowest of some set of ports
    let (k, s) := s.nextFree
    if s.pkg.dtmaster || k % 2 = 0 then s else correctTime 2 ((flitPayload ws).headD 0) s
  | 4 =>
    let got := (aqPort s port).launch ++ flitPayload ws
    if got.length < 35 then modPort port (fun p => { p with launch := got }) s
    else arriveRecord ((got.getD 32 0).toNat % 1024) (got.take 32) (modPort port (fun p => { p with launch := [] }) s)
  | _ => s

/-- AQGAL_FLIT_RECEIVE (R329). -/
def receiveFlit (port : Nat) (ws : List Word) (s : State) : State :=
  if !portUp s port then s
  else
    let p := aqPort s port
    if !flitGood ws || decide (6 ≤ flitType ws) then modPort port (fun p => { p with crc := satAdd p.crc 1, nak := true }) s
    else if flitSeq ws ≠ p.rxSeq then modPort port (fun p => { p with nak := true }) s
    else
      let acked (f : List Word) : Bool := decide ((flitAck ws - flitSeq f).toNat < 2048)
      takeFlit port ws (modPort port (fun p =>
        let p := { p with rxSeq := p.rxSeq + 1, nak := false, unacked := dropAll p.unacked acked }
        if flitNak ws then p.resend else p) s)
def execAqgalFlitReceive (port : Nat) (flit : List (BitVec 64)) (s : State) : Host.Outcome State Fault Refusal :=
  .next (receiveFlit port flit s)

/-- The die whose slices report to a requester. -/
def reqDie (r : Requester) : Nat :=
  match r with
  | .slot n | .code n | .const n | .pfh n _ | .ipf n _ | .cfetch n _ _ => dieOfSlot n
  | .chan t _ _ => dieOfTile t
  | .disp d => d
  | .walker c => dieOfTile (tileOfCore c)
  | .slice d _ => d
  | .nobody => 0
/-- AQGAL_REQUEST_TIMEOUT (R330): the request with a tag completes with the absent fault. A store or an atomic among them may or
may not have been performed. -/
def remoteTimeout (tag : Nat) (s : State) : State :=
  match s.remotes.find? fun r => r.tag == tag && !r.answered with
  | none => s
  | some r =>
    let s := otherPackage r.key s
    let s := settleRemotes { s with remotes := dropAll s.remotes (fun x => x.tag == tag) }
    if r.req == .nobody then s
    else
      let d := reqDie r.req
      let large := (s.die d).tlb.any fun e => e.large && e.vpage == r.va / 2 ^ 29 && leafKey e.pte true r.va == r.key
      let rep : Report := { req := r.req, vpage := r.va / 65536, code := 4, level := if large then 2 else 3 }
      s.modDie d fun x => { x with reports := x.reports ++ [rep] }
def execAqgalRequestTimeout (k : Nat) (s : State) : Host.Outcome State Fault Refusal := .next (remoteTimeout k s)

/-- A flit that a failed port kept goes out on the port that now serves its line, or on any if it serves none; the port keeps it while
no port is up (R330). -/
def moveFlit (n : Nat) (s : State) (f : List Word) : State :=
  let mine := s.remotes.find? fun r => r.port == n && r.flit == flitPayload f
  match (mine.bind fun r => remotePort s r.key).or ((List.range 64).find? (portUp s)) with
  | none => modPort n (fun p => { p with unacked := p.unacked ++ [f] }) s
  | some k =>
    let s := match mine with
      | some r => { s with remotes := modFirst s.remotes (fun x => x.tag == r.tag) fun x => { x with port := k } }
      | none => s
    sendFlit k (flitType f) (((flitHead f).extractLsb' 4 2).toNat) (flitPayload f) s
/-- The flits that a port has not had acknowledged. -/
def moveFlits (n : Nat) (s : State) : State :=
  let left := (aqPort s n).unacked
  if left.isEmpty then s else left.foldl (moveFlit n) (modPort n (fun p => { p with unacked := [] }) s)
/-- A port leaves the set of those that are up, for a state: requests that are out hold new ones back, and the flits that it
has not had acknowledged go out on others (R330). -/
def portLeaves (n : Nat) (st : BitVec 2) (s : State) : State :=
  moveFlits n (modPort n (fun p => { p with state := st, launch := [] }) { s with remoteWait := s.remotes.any (·.out) })
/-- A port comes up: the flits that ports keep which have failed go out, its own among them, and then the requests that have found
no port. -/
def portComes (n : Nat) (s : State) : State :=
  let s := modPort n (fun p => { p with state := 2 }) { s with remoteWait := s.remotes.any (·.out) }
  sendWaiting ((List.range 64).foldl (fun acc m => if m == n || !portUp acc m then moveFlits m acc else acc) s)
/-- AQGAL_PORT_SET_CHANGE (R330). -/
def portSetChange (n : Nat) (up : Bool) (s : State) : State :=
  if 64 ≤ n ∨ up = portUp s n ∨ (up && !(aqPort s n).en) then s
  else if up then portComes n s
  else portLeaves n 3 s
def execAqgalPortSetChange (port : Nat) (up : Bool) (s : State) : Host.Outcome State Fault Refusal := .next (portSetChange port up s)
/-- A write of `AQCTLn` (R329): a port that is enabled trains until it comes up, and one that is not is down (DESIGN CHOICE, log
101). -/
def writeAqctl (n : Nat) (v : Word) (s : State) : State :=
  let en := v.getLsbD 0
  let p := aqPort s n
  let s := modPort n (fun p => { p with en := en }) s
  if en then (if p.en then s else modPort n (fun p => { p with state := 1 }) s)
  else if portUp s n then portLeaves n 0 s else modPort n (fun p => { p with state := 0 }) s

/-- LAUNCH_FLIT_SEQUENCE (R331): the payload of five launch flits, the record and then the sender's VF. -/
def execLaunchFlitSequence (port : Nat) (record : List (BitVec 64)) (s : State) : Host.Outcome State Fault Refusal :=
  .next (if portUp s port then arriveRecord ((record.getD 32 0).toNat % 1024) (record.take 32) s else s)

/-- SYNC_FLIT_SEND (R336): a port that is up sends the device time; 1,024 flits may wait for acknowledgement. -/
def sendSync (n : Nat) (s : State) : State :=
  let s := tickTime s
  if portRoom s n then sendFlit n 3 3 [s.pkg.dtime, 0, 0, 0, 0, 0, 0] s else s
def execSyncFlitSend (port : Nat) (s : State) : Host.Outcome State Fault Refusal := .next (sendSync port s)

/-! ## Ethernet (R332 to R335) -/

def modQp (q : Nat) (f : QPair → QPair) (s : State) : State :=
  match s.qpairs.get? q with
  | none => s
  | some x => { s with qpairs := s.qpairs.set q (f x) }

/-- Microseconds without credit, counted at a port (R334). -/
def countStall (port n : Nat) (s : State) : State :=
  let k := port % 2
  s.modPkg fun p => { p with etstall := p.etstall.set! k (satAdd (p.etstall.toArray.getD k 0) n) }

/-- A launch record of a launch queue pair; any other message is an admission drop of code 1 (R335). -/
def launchFrom (qp : QPair) (plain : Bool) (bs : List Byte) (s : State) : State :=
  if plain && bs.length = 256 then arriveRecord qp.vf (wordsOfBytes 32 bs) s
  else
    let asid := admAsid s qp.vf
    postOrHold 0 (some qp.vf) asid (faultEntry (faultWord1 4 0 1 0 0 qp.vf asid) (recTs (wordsOfBytes 32 bs)) 0) s
def execLaunchSend (qp : Nat) (record : List (BitVec 64)) (s : State) : Host.Outcome State Fault Refusal :=
  .next (match s.qpairs.get? qp with
    | some x => if x.launch && !x.error then launchFrom x true (bytesOfWords record) s else s
    | none => s)

/-- A queue pair sends a packet: a base transport header with an opcode, then the payload enciphered with the count of the
direction as nonce, its tag, and an ICRC that is free (R333). At 2^48 packets it refuses and raises an event to Dwedar. -/
def sendPacket (q op : Nat) (bs : List Byte) (s : State) : State :=
  match s.qpairs.get? q with
  | none => s
  | some x =>
    if 2 ^ 48 ≤ x.txCount then { s with svcInt := if s.svcInt.contains 0 then s.svcInt else s.svcInt ++ [0] }
    else
      let f := s.free
      let (_, s) := s.nextFree
      let head := BitVec.ofNat 8 op :: (bytesLE 11 (Config.freeWord f 0).toNat)
      let (c, tag) := gcmSeal (bytesLE 32 x.key.toNat) (bytesLE 4 x.salt.toNat ++ bytesLE 8 x.txCount) head bs
      modQp q (fun x => { x with
        txCount := x.txCount + 1, sent := x.sent ++ [head ++ c ++ tag ++ bytesLE 4 (Config.freeWord f 1).toNat] }) s
/-- An acknowledgement, which grants the free receive buffer in units of 4 KiB, or a negative one with a code (R332, R334). -/
def sendAck (q : Nat) (nak : Option Nat) (s : State) : State :=
  let free := ((s.qpairs.get? q).map (·.buffer)).getD 0
  sendPacket q 17 [match nak with | none => BitVec.ofNat 8 (min 31 (free / 4096)) | some c => BitVec.ofNat 8 (96 + c), 0, 0, 0] s
/-- The code of "invalid request" and of a request that memory refuses. -/
def nakInvalid : Nat := 1
def nakAccess : Nat := 2

/-- What follows a SEND's last packet: the message, with its immediate if it has one, is a launch record, or waits for the VF's
software. -/
def endMessage (q : Nat) (qp : QPair) (imm : List Byte) (bs : List Byte) (s : State) : State :=
  if qp.launch then launchFrom qp imm.isEmpty bs (modQp q (fun x => { x with msg := [], buffer := x.buffer + qp.msg.length }) s)
  else modQp q (fun x => { x with
    msg := [], inbox := x.inbox ++ [{ imm := imm, bytes := bs }], buffer := x.buffer - (bs.length - qp.msg.length) }) s

/-- A grant of credit (R334): it ends the microseconds without credit that no probe has counted, of which there are fewer than
64. -/
def takeGrant (q : Nat) (n : Nat) (s : State) : State :=
  match s.qpairs.get? q with
  | none => s
  | some x =>
    let (k, s) := s.nextFree
    let s := if x.credit = 0 then countStall x.port (k % 64) s else s
    modQp q (fun x => { x with credit := 4096 * n }) s

/-- Bytes of a response to a READ of this queue pair's go where its oldest READ has them go. -/
def takeResponse (q : Nat) (bs : List Byte) (s : State) : State :=
  modQp q (fun x => match x.reads with
    | (va, left) :: rest => { x with
        work := x.work ++ [.write va (bs.take left)],
        reads := if left ≤ bs.length then rest else (va + bs.length, left - bs.length) :: rest }
    | [] => x) s

/-- A packet that is authentic, by the opcode of its base transport header (R332). The opcodes, and the order and the places of the
address, length and immediate in a packet, are those of the transport that R332 names; its numbers have their most significant byte
first there, though R6 has every link format little-endian (PRESUMED, log 30). A launch queue pair accepts SENDs alone (R335). -/
def takePacket (q : Nat) (qp : QPair) (op : Nat) (bs : List Byte) (s : State) : State :=
  let imm := if op = 3 ∨ op = 5 ∨ op = 9 then bs.take 4 else if op = 11 then (bs.drop 16).take 4 else []
  let data := bs.drop (if op = 3 ∨ op = 5 ∨ op = 9 then 4 else if op = 6 ∨ op = 10 then 16 else if op = 11 then 20 else 0)
  let note (s : State) : State := if imm.isEmpty then s else modQp q (fun x => { x with work := x.work ++ [.note imm] }) s
  let place (va : Nat) (s : State) : State :=
    modQp q (fun x => { x with wva := va + data.length, work := x.work ++ [.write va data] }) s
  -- a SEND with no payload is a probe
  if op = 4 ∧ bs.isEmpty then sendAck q none s
  else if op = 17 then
    (if (bs.headD 0).toNat / 32 = 0 then takeGrant q ((bs.headD 0).toNat % 32) s else s)
  else if 13 ≤ op ∧ op ≤ 16 then takeResponse q bs s
  else if op = 18 then s
  else if 19 ≤ op ∨ (qp.launch && decide (6 ≤ op)) then sendAck q (some nakInvalid) s
  else
    sendAck q none (match op with
      | 0 | 1 => modQp q (fun x => { x with msg := (if op = 0 then [] else x.msg) ++ data, buffer := x.buffer - data.length }) s
      | 2 | 3 => endMessage q qp imm (qp.msg ++ data) s
      | 4 | 5 => endMessage q { qp with msg := [] } imm data s
      | 6 | 10 | 11 => note (place (natBE (bs.take 8)) s)
      | 7 | 8 | 9 => note (place qp.wva s)
      | _ => modQp q (fun x => { x with work := x.work ++ [.read (natBE (bs.take 8)) (natBE ((bs.drop 12).take 4)) true] }) s)

/-- ROCE_PACKET_RECEIVE (R333): the packet from its base transport header on: the header is authenticated, the payload is
enciphered, and the tag comes before the ICRC. The number of the queue pair has its most significant byte first (PRESUMED, log
30). -/
def receivePacket (port : Nat) (pkt : List Byte) (s : State) : State :=
  let q := natBE ((pkt.drop 5).take 3) % 65536
  match s.qpairs.get? q with
  | none => s
  | some qp =>
    if qp.error || decide (pkt.length < 32) then s
    else
      let body := pkt.drop 12
      let n := body.length - 20
      let nonce := bytesLE 4 qp.salt.toNat ++ bytesLE 8 qp.rxCount
      match gcmOpen (bytesLE 32 qp.key.toNat) nonce (pkt.take 12) (body.take n) ((body.drop n).take 16) with
      | some bs => takePacket q qp ((pkt.headD 0).toNat) bs (modQp q (fun x => { x with fails := 0, rxCount := x.rxCount + 1 }) s)
      | none =>
        let s := modQp q (fun x => { x with fails := x.fails + 1, error := decide (16 ≤ x.fails + 1) }) s
        s.modPkg fun p => { p with etauth := p.etauth.set! (port % 2) (satAdd (p.etauth.toArray.getD (port % 2) 0) 1) }
def execRocePacketReceive (port : Nat) (packet : List (BitVec 8)) (s : State) : Host.Outcome State Fault Refusal :=
  .next (receivePacket port packet s)

/-- The bytes of an RDMA READ that a sender may send now: no more than its credit, a packet of 4 KiB and what is left. -/
def readShare (credit len : Nat) : Nat := min len (min credit 4096)
/-- Read bytes for an RDMA READ; nothing while a page waits or where one cannot be read. -/
def rdmaRead (asid : BitVec 16) : Nat → Nat → Nat → List Byte → State → Except Bool (List Byte) × State
  | 0, _, _, acc, s => (.ok acc, s)
  | k + 1, va, n, acc, s =>
    if n = 0 then (.ok acc, s)
    else
      let m := min n (32 - va % 32)
      match translateNow 0 (BitVec.ofNat 64 va) asid Access.copyRead true s with
      | .ok l s => rdmaRead asid k (va + m) (n - m) (acc ++ bytesLE m (homeGet s l m).toNat) s
      | .fault _ _ s => (.error true, s)
      | .miss _ s => (.error false, s)

/-- A queue pair goes on: it places or sends bytes of its oldest work for its peer, or its VF's software takes a message, which frees
the buffer that it held (R332, R334). -/
def qpairStep (q : Nat) (s : State) : State :=
  match s.qpairs.get? q with
  | none => s
  | some x =>
    let asid := admAsid s x.vf
    let done (w : List QWork) (s : State) : State := modQp q (fun x => { x with work := w ++ x.work.drop 1 }) s
    match x.work with
    | .write va bs :: _ =>
      if bs.isEmpty then done [] s
      else
        let n := min bs.length (32 - va % 32)
        (match translateNow 0 (BitVec.ofNat 64 va) asid Access.copyWrite true s with
         | .ok l s => done [.write (va + n) (bs.drop n)]
             (homePut l n (BitVec.ofNat 512 ((bs.take n).foldr (fun b acc => b.toNat + 256 * acc) 0))
               (if l.c then dropCopies l.asid l.vline s else s))
         | .fault _ _ s => sendAck q (some nakAccess) (done [] s)
         | .miss _ s => s)
    | .note imm :: _ => done [] (modQp q (fun x => { x with inbox := x.inbox ++ [{ imm := imm, bytes := [] }] }) s)
    | .read va len first :: _ =>
      let n := readShare x.credit len
      if n = 0 && len != 0 then s
      else
        (match rdmaRead asid (n / 32 + 2) va n [] s with
         | (.ok bs, s) =>
           let op := if n = len then (if first then 16 else 15) else (if first then 13 else 14)
           done (if n = len then [] else [.read (va + n) (len - n) false])
             (sendPacket q op bs (modQp q (fun x => { x with credit := x.credit - n }) s))
         | (.error true, s) => sendAck q (some nakAccess) (done [] s)
         | (.error false, s) => s)
    | [] => modQp q (fun x => { x with
        inbox := x.inbox.drop 1, buffer := x.buffer + (x.inbox.head?.map (·.bytes.length)).getD 0 }) s

/-- The extended header of a WRITE or a READ: the peer's address, a key that is free, and the length. -/
def retHead (rva len : Nat) (key : Word) : List Byte := (bytesLE 8 rva).reverse ++ bytesLE 4 key.toNat ++ (bytesLE 4 len).reverse
/-- The opcode of a packet: the first of its message or not, and the last or not, with an immediate or none. -/
def packetOp (send first last imm : Bool) : Nat :=
  (if send then 0 else 6) + match first, last with
    | true, true => if imm then 5 else 4
    | true, false => 0
    | false, true => if imm then 3 else 2
    | false, false => 1
/-- A packet of a SEND or a WRITE of software's, with the bytes that the credit allows (R332, R334); a message whose memory cannot be
read ends there. -/
def sendShare (q : Nat) (x : QPair) (send : Bool) (va len rva : Nat) (imm : List Byte) (first : Bool) (more : Nat → QSend) (s : State) :
    State :=
  let done (w : List QSend) (s : State) : State := modQp q (fun x => { x with out := w ++ x.out.drop 1 }) s
  let n := readShare x.credit len
  if n = 0 && len != 0 then s
  else
    match rdmaRead (admAsid s x.vf) (n / 32 + 2) va n [] s with
    | (.ok bs, s) =>
      let last := n == len
      let (k, s) := s.nextFree
      let head := (if send || !first then [] else retHead rva len (Config.freeWord k 0)) ++ (if last then imm else [])
      done (if last then [] else [more n])
        (sendPacket q (packetOp send first last (!imm.isEmpty)) (head ++ bs) (modQp q (fun x => { x with credit := x.credit - n }) s))
    | (.error true, s) => done [] s
    | (.error false, s) => s
/-- A queue pair goes on with what software has given it. -/
def qsendStep (q : Nat) (s : State) : State :=
  match s.qpairs.get? q with
  | none => s
  | some x =>
    if x.error then s
    else match x.out with
      | [] => s
      | .send va len imm first :: _ => sendShare q x true va len 0 imm first (fun n => .send (va + n) (len - n) imm false) s
      | .write va len rva imm first :: _ => sendShare q x false va len rva imm first (fun n => .write (va + n) (len - n) rva imm false) s
      | .read va len rva :: _ =>
        let (k, s) := s.nextFree
        sendPacket q 12 (retHead rva len (Config.freeWord k 0))
          (modQp q (fun x => { x with out := x.out.drop 1, reads := x.reads ++ [(va, len)] }) s)
/-- The software of its VF gives a queue pair something to do: the manual gives no register for it, so what and when is free (R332;
DESIGN CHOICE, log 117). -/
def postSend (q : Nat) (w : QSend) (s : State) : State := modQp q (fun x => { x with out := x.out ++ [w] }) s

/-- CREDIT_PROBE (R334): 64 intervals of 1 µs have passed without credit. A queue pair whose count has reached 2^48 sends
nothing and raises an event to Dwedar (R333). -/
def probe (q : Nat) (s : State) : State :=
  match s.qpairs.get? q with
  | none => s
  | some x =>
    if x.error || x.credit != 0 then s
    else
      let s := countStall x.port 64 s
      let s := if 2 ^ 48 ≤ x.txCount then s else modQp q (fun x => { x with probes := x.probes + 1 }) s
      sendPacket q 4 [] s
def execCreditProbe (qp : Nat) (s : State) : Host.Outcome State Fault Refusal := .next (probe qp s)

/-- Dwedar creates a queue pair with a key, or gives one a new key (R332, R333); an existing one with the same key keeps its
counts, so that no nonce is used twice. -/
def newQpair (q : Nat) (x : QPair) (s : State) : State :=
  match s.qpairs.get? q with
  | some y => if y.key = x.key then s else { s with qpairs := s.qpairs.set q x }
  | none => { s with qpairs := s.qpairs.set q x }

/-! ## Device time (R336) -/

/-- PTP_MESSAGE: the master takes its time by IEEE 1588. -/
def execPtpMessage (time : Word) (s : State) : Host.Outcome State Fault Refusal :=
  .next (if s.pkg.dtmaster then correctTime 1 time s else s)

end Sys2Proof.Machine
end

