-- ==== Sys2Proof/Machine/Reliability.lean ====
section
/-! DEFINITION. Containment, routing repair, error counters, undervolting, snapshots, staged start and attestation
(17_reliability_start.md R338 to R349), and their steps. -/
namespace Sys2Proof.Machine

/-! ## Snapshots (R347) -/

/-- The trigger; it is ignored until the readout of the last one has been cleared. -/
def fireSnap (s : State) : State := s.modPkg fun p => { p with snapDone := true }
/-- A write of `SNAPCTL`. -/
def writeSnapctl (v : Word) (s : State) : State :=
  let s := s.modPkg fun p => { p with snapGo := v.getLsbD 0, snapOnct := v.getLsbD 1, snapDone := p.snapDone && !v.getLsbD 2 }
  if v.getLsbD 0 then fireSnap s else s
def execSnapctlGo (v : Word) (s : State) : Host.Outcome State Fault Refusal := .next (writeSnapctl v s)

/-! ## Containment (R340, R341) -/

/-- A rectangle by its number: 16 * die + k for `CTRECTk`, 64 + tile for a tile that lies in no rectangle. -/
def rectDie (rect : Nat) : Nat := if rect < 64 then rect / 16 else dieOfTile (rect - 64)
def modRect (rect : Nat) (f : CtRect → CtRect) (s : State) : State :=
  s.modDie (rect / 16) fun d => { d with ctrects := d.ctrects.set! (rect % 16) (f (d.ctrects.toArray.getD (rect % 16) CtRect.reset)) }
def rectTiles (s : State) (rect : Nat) : List Nat :=
  if rect < 64 then ((List.range 192).map (192 * (rect / 16) + ·)).filter fun t => (ctRect s rect).covers t else [rect - 64]
def rectFenced (s : State) (rect : Nat) : Bool :=
  if rect < 64 then (ctRect s rect).fenced else (s.die (rectDie rect)).tileFence.contains (rect - 64)

/-- A task with a slot inside ends: a body is discarded and re-queued; a committed task ends with an entry of kind 12, and
its copy if it is redundant. -/
def containTask (id : Nat) (s : State) : State :=
  match s.task? id with
  | none => s
  | some t =>
    if !t.committed then discardBody id true false 0 s
    else
      let n := t.slots.headD (48 * t.tile)
      let words := faultEntry (faultWord1 12 0 0 0 n t.vf t.asid) (s.slot n).sys.tsr 0
      let s := stopTask id s
      let s := match t.twin with | some u => stopTask u s | none => s
      postOrHold t.die (some t.vf) t.asid words s

/-- Scratchpad stores into tiles that are fenced now have been performed where a later instruction of their slot has had an outside
effect, so that none of them is answered negatively any more (R129, R341; DEDUCED, log 34). -/
def settleScratch (tiles : List Nat) (s : State) : State :=
  s.slots.foldl (fun acc (n, _) => tiles.foldl (fun acc t =>
    let sl := acc.slot n
    let here := sl.stores.filter fun x => targetTile x.tgt == some t && decide (x.pos < sl.eff) && x.key.isNone
    (here.takeWhile fun x => owedIn x.data == 0 && match x.tgt with | .scratch _ _ _ => true | _ => false).foldl
      (fun acc x => endStore n x (applyStore n x acc)) acc) acc) s

/-- Steps 1 and 2 of R341. `src` is the tile that consumed poison, or whose router failed, where that is known. -/
def fenceRect (rect : Nat) (src : Option Nat) (s : State) : State :=
  if rectFenced s rect || decide (832 ≤ rect) || (decide (rect < 64) && !(ctRect s rect).valid) then s
  else
    let tiles := rectTiles s rect
    let s := settleScratch tiles s
    let s := if rect < 64 then modRect rect (fun r => { r with fenced := true, resetDone := false, pending := false }) s
             else s.modDie (rectDie rect) fun d => { d with tileFence := d.tileFence ++ [rect - 64] }
    let src := if rect < 64 then src else some (rect - 64)
    let s := logEvent 1 (some (rectDie rect)) (src.map tileOnDie) s
    let s := if s.pkg.snapOnct then fireSnap s else s
    let s := loseMembers tiles s
    (s.tasks.filter fun (_, t) => t.slots.any fun n => tiles.contains (tileOfSlot n)).foldl (fun acc (id, _) => containTask id acc) s
def execContainmentFence (rect : Nat) (s : State) : Host.Outcome State Fault Refusal := .next (fenceRect rect none s)

/-- FENCED clears, and the tiles take placements again. -/
def rejoin (rect : Nat) (s : State) : State :=
  if rect < 64 then modRect rect (fun r => { r with fenced := false, resetDone := false, pending := false }) s
  else s.modDie (rectDie rect) fun d => { d with
    tileFence := dropAll d.tileFence (fun t => t == rect - 64), tileReset := dropAll d.tileReset (fun t => t == rect - 64) }

/-- A tile resets: its cores, copy engine, engines and arrays; its router's table stays. The misses that its walkers hold are
posted again. -/
def resetTile (t : Nat) (s : State) : State :=
  let slots := (List.range 48).map (48 * t + ·)
  let s := slots.foldl (fun acc n => if (acc.slot n).bound then releaseSlot n acc else acc) s
  let s := slots.foldl (fun acc n => if acc.slot n == Slot.reset then acc else acc.setSlot n Slot.reset) s
  let s := (List.range 3).foldl (fun acc r => acc.modCore (3 * t + r) fun _ => Core.reset) s
  let s := s.modTile t fun x => { Tile.reset with rtent := x.rtent, dead := x.dead }
  let s := { s with latent := dropAll s.latent fun e => match e.place with
    | .scratch u _ => u == t
    | .fifo u _ => u == t
    | _ => false }
  s.modDie (dieOfTile t) fun d => { d with misses := d.misses.map fun m => if tileOfCore m.core = t then { m with posted := false } else m }

/-- Step 3 of R341. A write of REJOIN that waits takes effect when it ends. -/
def resetRect (rect : Nat) (s : State) : State :=
  let done := if rect < 64 then (ctRect s rect).resetDone else (s.die (rectDie rect)).tileReset.contains (rect - 64)
  if !rectFenced s rect || done then s
  else
    let tiles := rectTiles s rect
    let s := tiles.foldl (fun acc t => resetTile t acc) s
    let whole := ((List.range 12).map (12 * rectDie rect + ·)).filter fun c => (List.range 16).all fun k => tiles.contains (tileOfCluster c k)
    let s := whole.foldl (fun acc c => acc.modVault c fun v => { v with entries := [] }) s
    let s := postMisses (rectDie rect) s
    if rect < 64 then
      if (ctRect s rect).pending then rejoin rect s else modRect rect (fun r => { r with resetDone := true }) s
    else s.modDie (rectDie rect) fun d => { d with tileReset := d.tileReset ++ [rect - 64] }
def execContainmentReset (rect : Nat) (s : State) : Host.Outcome State Fault Refusal := .next (resetRect rect s)

/-- Two rectangles overlap. -/
def CtRect.meets (a b : CtRect) : Bool :=
  a.valid && b.valid && a.x0 ≤ b.x1 && b.x0 ≤ a.x1 && a.y0 ≤ b.y1 && b.y0 ≤ a.y1
/-- A write of `CTRECTk` of die d (R340). -/
def writeCtrect (d k : Nat) (v : Word) (s : State) : State :=
  let rect := 16 * d + k
  let old := ctRect s rect
  let new : CtRect := { old with
    x0 := v.extractLsb' 0 4, y0 := v.extractLsb' 4 4, x1 := v.extractLsb' 8 4, y1 := v.extractLsb' 12 4, valid := v.getLsbD 16,
    rejoin := v.getLsbD 18 }
  let clash := (List.range 16).any fun j => j != k && new.meets (ctRect s (16 * d + j))
  let change := decide ({ new with rejoin := old.rejoin } ≠ old)
  if clash || decide (new.x1 < new.x0) || decide (new.y1 < new.y0) || (old.fenced && change) then s
  else
    let s := modRect rect (fun _ => { new with pending := old.pending || (old.fenced && new.rejoin && !old.resetDone) }) s
    if old.fenced && new.rejoin && old.resetDone then rejoin rect s else s
/-- CTRECT_REJOIN: a write of the rectangle's register; a tile that lies in no rectangle rejoins by bit 18 too (DEDUCED, log
31). -/
def execCtrectRejoin (rect : Nat) (v : Word) (s : State) : Host.Outcome State Fault Refusal :=
  .next (if rect < 64 then writeCtrect (rect / 16) (rect % 16) v s
    else if v.getLsbD 18 && (s.die (rectDie rect)).tileReset.contains (rect - 64) then rejoin rect s else s)

/-- ROUTER_LINK_FAILURE (R343): the tile is dead, its rectangle is fenced, and Dwedar begins to repair the die. -/
def routerFails (t : Nat) (s : State) : State :=
  if 768 ≤ t then s
  else
    let s := s.modTile t fun x => { x with dead := true }
    let s := s.modDie (dieOfTile t) fun x => { x with mend := x.mend.or (some []) }
    fenceRect (rectOf s t) (some t) (logEvent 2 (some (dieOfTile t)) (some (tileOnDie t)) s)
def execRouterLinkFailure (tile : Nat) (s : State) : Host.Outcome State Fault Refusal := .next (routerFails tile s)

/-- The partitions that are enabled and have a rectangle on a die. -/
def enabledOn (s : State) (d : Nat) : List Nat :=
  (s.parts.filter fun (p, x) => x.en && (s.prect (4 * p + d)).valid).map (·.1)
/-- Every tile's copy channels are idle, the routers hold nothing, and no request waits at a slice (R343, step 2). -/
def dieQuiet (s : State) (d : Nat) : Bool :=
  (s.tiles.all fun (t, x) => dieOfTile t != d || x.chans.toList.all fun c => c.fifo.isEmpty && c.exec.isEmpty)
    && (s.flights.all fun f => dieOfSlot f.dest != d && dieOfSlot f.sender != d) && (s.die d).misses.isEmpty
    && s.slots.all fun (n, sl) => dieOfSlot n != d || (sl.loads.isEmpty && sl.stores.isEmpty)
/-- No west-first route reaches a tile, or leaves it: every router beside it is dead (DEDUCED, log 72). -/
def shutIn (s : State) (t : Nat) : Bool := [0#3, 1#3, 2#3, 3#3].all fun p => ((nextRouter t p).map fun u => (s.tile u).dead).getD true
/-- Dwedar's repair of a die (R343): it disables the die's partitions; when the die is quiet it writes every table with routes that
avoid the dead routers, marks the tiles that none reaches, and enables the partitions again. Placement leaves dead tiles out. -/
def mendStep (d : Nat) (s : State) : State :=
  match (s.die d).mend with
  | none => s
  | some ps =>
    let on := enabledOn s d
    if !on.isEmpty then
      (on.foldl (fun acc p => acc.modPart p fun x => { x with en := false }) s).modDie d fun x => { x with mend := some (ps ++ on) }
    else if !dieQuiet s d then s
    else
      let tiles := (List.range 192).map (192 * d + ·)
      let s := (tiles.filter fun t => shutIn s t && !(s.tile t).dead).foldl (fun acc t => acc.modTile t fun x => { x with dead := true }) s
      let s : State := { s with tiles := s.tiles.map fun (t, x) => (t, if dieOfTile t = d then { x with rtent := [] } else x) }
      let s := s.modDie d fun x => { x with mend := none, routes := some (deadOn s d) }
      ps.foldl (fun acc p => acc.modPart p fun x => { x with en := true }) s

/-! ## Errors (R344) -/

/-- The sector at an address is held in the repair way of the slice that R106 names for it, and its DRAM sector is never
accessed. -/
def pinnedSector (s : State) (addr : Nat) : Bool :=
  let d := homeDie addr
  (repairOf s d (repairSlice addr)).pins.contains (addr / 32)
/-- An array takes an error; a DRAM sector that is pinned is never accessed again, and the other places need something to spoil. -/
def strike (e : ArrayErr) (s : State) : State :=
  let void : Bool := match e.place with
    | .dram q => pinnedSector s (32 * q)
    | .fifo t b => ((s.tile t).fifos.get b []).isEmpty
    | .l1 t a v _ => (findLine (s.tile t).l1 a v).isNone
    | .escrow id n p => ((s.task? id).map fun t => !t.escrow.any fun e => e.slot == n && e.pos == p).getD true
    | .slice d a v _ => (findLine (s.die d).lines a v).isNone
    | .vault c k => !(s.vault c).entries.any fun e => e.slot == k
    | _ => false
  if void then s else { s with latent := s.latent ++ [e] }

/-- A flit passes its CRC. Whether it holds part of a sector with a corruption that has escaped is free; the check of the next sector
that crosses the module finds it (R322; DEDUCED, log 96). Other traffic is protected by the CRC alone. -/
def passFlit (module : Nat) (s : State) : State :=
  let (k, s) := s.nextFree
  if k % 2 = 0 then s else strike { place := .flit module, bad := k / 2 % 2 == 1 } s
/-- UCIE_FLIT_RECEIVE (R322, R324). -/
def execUcieFlitReceive (module : Nat) (crcOk : Bool) (s : State) : Host.Outcome State Fault Refusal :=
  .next (if 48 ≤ module then s else if crcOk then passFlit module s else crcFailure module s)

/-- SCRUBBING: an error that no access found, counted as unattributable; one that cannot be corrected poisons its sector. -/
def scrub (bad : Bool) (addr : Nat) (s : State) : State :=
  if isDram addr && pinnedSector s addr then s
  else
    let s := sense 1024 (ErrAt.inDram addr) s
    let s := if bad then countUncorr 1024 s else countCorr 1024 1 s
    if bad && isDram addr then poisonAt { place := .dram (addr / 32), bad := true } s else s
def execScrubbing (uncorrectable : Bool) (addr : Nat) (s : State) : Host.Outcome State Fault Refusal := .next (scrub uncorrectable addr s)

/-! ## Undervolting (R345) -/

/-- Dwedar sets the threshold PFT of an array (R345). -/
def setPft (array n : Nat) (s : State) : State :=
  { s with volts := s.volts.set array { s.volts.get array Volt.reset with pft := n } }

/-- The end of a window of 2^30 cycles for an array. Whether the controller lowers an array whose rate is low is free. -/
def windowEnd (v : Volt) (errors choice : Nat) : Volt × Bool :=
  let hold := v.hold - 1
  if v.pft < errors then
    if v.below then ({ v with below := false, prevBelow := true, windows := 0, hold := 16 }, false)
    else if v.prevBelow || v.windows == 0 then ({ v with prevBelow := false, windows := v.windows + 1, hold := hold }, false)
    else ({ v with windows := v.windows + 1, predicted := true, retired := v.retired || choice % 2 == 1, hold := hold }, true)
  else if v.below then (v, false)
  else ({ v with prevBelow := false, windows := v.windows + 1, below := v.hold == 0 && choice % 2 == 1, hold := hold }, false)
/-- The failing sectors of an array are pinned: writes of SRPCTL and SRPADD follow for a free sector (R106). The manual does not
number the arrays (log 110). -/
def pinFailing (s : State) : State :=
  let (a, s) := s.nextFree
  let q := a % 2 ^ 35
  let d := homeDie (32 * q)
  let base := 0xFF * 2 ^ 40 + d * 2 ^ 36 + 0x20 * 2 ^ 28 + repairSlice (32 * q) * 2 ^ 20
  { s with turns := s.turns ++ [.write base 1, .write (base + 8) (BitVec.ofNat 64 (32 * q + 2 ^ 63))] }
/-- UNDERVOLT_WINDOW_END. A declaration pins failing sectors or retires the array, which is free. -/
def execUndervoltWindowEnd (array errors : Nat) (s : State) : Host.Outcome State Fault Refusal :=
  .next (
    let (k, s) := s.nextFree
    let (v, declared) := windowEnd (s.volts.get array Volt.reset) errors k
    let s := { s with volts := s.volts.set array v }
    if !declared then s
    else
      let s := logEvent 5 none none s
      if k % 2 = 1 then s else pinFailing s)

/-! ## Staged start (R348) -/

/-- POWER_GOOD: start begins at stage 1. -/
def execPowerGood (s : State) : Host.Outcome State Fault Refusal :=
  .next (if s.stage = 0 then { s with power := true, stage := 1 } else s)

/-- What the end of a stage leaves (R294, R348): the repair list reinstalled (R106), the modules trained and the routes written (R343), the
translation file system checked. -/
def stageDone (k : Nat) (s : State) : State :=
  match k with
  | 3 => s.repairs.foldl (fun acc q =>
      acc.modDie (homeDie (32 * q)) fun x =>
        let i := repairSlice (32 * q)
        let r := x.repair.get i Repair.reset
        { x with repair := x.repair.set i { r with en := true, pins := if 2048 ≤ r.pins.length then r.pins else r.pins ++ [q] } }) s
  | 4 =>
    let s := (List.range 48).foldl (fun acc m => modEnds m (fun e => { e with state := 2 }) acc) s
    (List.range 4).foldl (fun acc d => acc.modDie d fun x => { x with routes := some (deadOn acc d) }) s
  | 5 => { s with objects := s.objects.filter fun o => o.place != .storage || o.meas == s.dwedar }
  | _ => s
def execStartStageComplete (s : State) : Host.Outcome State Fault Refusal :=
  .next (if s.stage = 0 ∨ 7 ≤ s.stage ∨ s.halted then s
    else
      let s' := stageDone s.stage (logEvent 7 none none s)
      { s' with stage := s.stage + 1 })
/-- START_STAGE_FAILURE: start halts at the stage. -/
def execStartStageFailure (reason : Word) (s : State) : Host.Outcome State Fault Refusal :=
  let _ := reason
  .next (if s.stage = 0 ∨ 7 ≤ s.stage ∨ s.halted then s else { logEvent 8 none none s with halted := true })

/-- THERMAL_TRIP (R346). -/
def execThermalTrip (info : Word) (s : State) : Host.Outcome State Fault Refusal :=
  let _ := info
  .next (logEvent 9 none none s)

/-- POWER_LOSS (R346): everything but the storage port's contents, Dwedar's image and its repair list is lost. -/
def execPowerLoss (s : State) : Host.Outcome State Fault Refusal :=
  .next { State.reset with
    power := false, free := s.free, repairs := s.repairs, dwedar := s.dwedar, objects := s.objects.filter fun o => o.place == .storage }

/-! ## Attestation (R349) -/

/-- What a measurement of a VF covers: its admission entry and its queue pairs. Its number, its
port and its kind stand for a queue pair (DESIGN CHOICE, log 111). -/
def measured (s : State) (vf : Nat) : List Word :=
  (List.range 8).map (admWord s vf)
    ++ (s.qpairs.filter fun q => q.2.vf == vf).map fun q =>
      BitVec.ofNat 64 q.1 ||| bitAt 16 (q.2.port == 1) ||| bitAt 17 q.2.launch
/-- The report for a nonce; the VF that it is about is free. Every number in it is little-endian (R6). -/
def attest (nonce : List Byte) (s : State) : State :=
  let (v, s) := s.nextFree
  let vf := v % 1024
  let body := bytesLE 4 s.pkg.ident.toNat ++ nonce ++ bytesLE 48 s.dwedar.toNat
    ++ bytesLE 48 (Config.attestMeasure vf (measured s vf)).toNat ++ List.replicate 12 0#8
  let (r, q) := Config.attestSign body
  { s with reports := s.reports ++ [body ++ bytesLE 48 r ++ bytesLE 48 q] }
/-- ATTESTATION_CHALLENGE: it is answered once stage 2 has been reached. -/
def execAttestationChallenge (nonce : List (BitVec 8)) (s : State) : Host.Outcome State Fault Refusal :=
  .next (if nonce.length = 48 ∧ 3 ≤ s.stage then attest nonce s else s)

end Sys2Proof.Machine
end

