-- ==== Sys2Proof/Machine/Registers.lean ====
section
/-! DEFINITION. Reads and writes of register space, register by register (05_memory_path.md R86, R103 to R106, 07_tile_array.md
R124, R125, R135, 08_core.md R152, 13_tasks_scheduling.md R255, R256, R269, 14_digest_code.md R276, R286,
15_traps_preemption.md R303, R307, R310, 16_links.md R320, R329, R334, R336, 17_reliability_start.md R340, R342, R344, R346,
R347), and the steps that a write starts. RO fields ignore writes, W1C bits are cleared by ones, and reserved fields read as
zero (00_scope.md R9). -/
namespace Sys2Proof.Machine

/-! ## Translation invalidations (R103, R104) -/

def txGo (p : Pkg) : Bool := p.txcmd.getLsbD 3
def txKind (p : Pkg) : Nat := (p.txcmd.extractLsb' 0 2).toNat
/-- A write of `TXCMD`: ignored while GO reads 1; KIND 3 sets ERR and starts nothing. -/
def writeTxcmd (v : Word) (s : State) : State :=
  if txGo s.pkg then s
  else
    let go := v.getLsbD 3 && v.extractLsb' 0 2 != 3#2
    let err := (s.pkg.txcmd.getLsbD 4 && !v.getLsbD 4) || (v.getLsbD 3 && v.extractLsb' 0 2 == 3#2)
    s.modPkg fun p => { p with txcmd := keepBits 0 2 v ||| bitAt 3 go ||| bitAt 4 err }
/-- The three kinds of invalidation by page, by address space and of everything are writes of `TXCMD`. -/
def execTxcmdInvalidatePage (v : Word) (s : State) : Host.Outcome State Fault Refusal := .next (writeTxcmd v s)
def execTxcmdInvalidateAsid (v : Word) (s : State) : Host.Outcome State Fault Refusal := .next (writeTxcmd v s)
def execTxcmdInvalidateAll (v : Word) (s : State) : Host.Outcome State Fault Refusal := .next (writeTxcmd v s)

/-- Whether an invalidation names an address of an address space that a page of 512 MiB or of 64 KiB maps. -/
def txNames (p : Pkg) (asid : BitVec 16) (va : Nat) (large : Bool) : Bool :=
  match txKind p with
  | 0 => asid == p.txasid && if large then va / 2 ^ 29 == p.txva.toNat / 2 ^ 29 else va / 65536 == p.txva.toNat / 65536
  | 1 => asid == p.txasid
  | _ => true
def txEntry (p : Pkg) (e : TEntry) : Bool := txNames p e.asid (e.vpage * if e.large then 2 ^ 29 else 65536) e.large
/-- Some access that was translated before has not been performed. The size of a page whose code is on its way, or whose miss is out, is
not held, and the larger counts. -/
def txInFlight (s : State) : Bool :=
  let named (l : Loc) : Bool := txNames s.pkg l.asid l.va l.large
  s.slots.any (fun (_, sl) =>
    sl.loads.any (fun x => match x.tgt with | .mem l => named l | _ => false)
      || sl.stores.any fun x => match x.tgt with | .mem l => named l | _ => false)
    || s.cores.any (fun (_, c) => c.ifills.any fun f => txNames s.pkg f.asid (128 * f.vline) true)
    || s.tasks.any fun (_, t) => t.escrow.any fun e => named e.loc
/-- A half that waits on the state of a full/empty word has not made its access, which is translated anew (R104). -/
def wakeFull (s : State) : State :=
  { s with slots := s.slots.map fun (n, sl) => (n, match sl.awai with
    | .fullKeep _ | .fullEmpty _ _ => if isWalker n then sl else { sl with awai := .none }
    | _ => sl) }
/-- INVALIDATION_COMPLETE: no slice holds a matching entry, with WB no matching line either, and installs of earlier misses
will be discarded. -/
def endInvalidation (s : State) : State :=
  if !txGo s.pkg || txInFlight s then s
  else
    let p := s.pkg
    let s := (List.range 4).foldl (fun acc d =>
      let acc := acc.modDie d fun x => { x with
        tlb := dropAll x.tlb (txEntry p),
        misses := x.misses.map fun m => if m.posted && txNames p m.asid m.va true then { m with stale := true } else m }
      if p.txcmd.getLsbD 2 then
        ((acc.die d).lines.filter fun l => txNames p l.asid (128 * l.vline) l.large).foldl (fun acc l => dropSliceLine d l.asid l.vline acc) acc
      else acc) s
    wakeFull (s.modPkg fun p => { p with txcmd := p.txcmd &&& ~~~8#64 })
def execInvalidationComplete (s : State) : Host.Outcome State Fault Refusal := .next (endInvalidation s)

/-! ## First-level flushes (R135) -/

/-- A write of a tile's `L1CTL`: ignored while GO reads 1; a reserved KIND sets ERR. -/
def writeL1ctl (t : Nat) (v : Word) (s : State) : State :=
  let old := (s.tile t).l1ctl
  if old.getLsbD 2 then s
  else
    let bad := v.getLsbD 2 && decide (2 ≤ (v.extractLsb' 0 2).toNat)
    let err := (old.getLsbD 3 && !v.getLsbD 3) || bad
    s.modTile t fun x => { x with
      l1ctl := keepBits 0 1 v ||| bitAt 2 (v.getLsbD 2 && !bad) ||| bitAt 3 err ||| keepBits 16 31 v }
def execL1ctlFlushAsid (tile : Nat) (v : Word) (s : State) : Host.Outcome State Fault Refusal := .next (writeL1ctl tile v s)
def execL1ctlFlushTile (tile : Nat) (v : Word) (s : State) : Host.Outcome State Fault Refusal := .next (writeL1ctl tile v s)
/-- L1_FLUSH_COMPLETE: every selected line has been written back and dropped. -/
def endFlush (t : Nat) (s : State) : State :=
  let c := (s.tile t).l1ctl
  if !c.getLsbD 2 then s
  else
    let ls := (s.tile t).l1.filter fun l => c.extractLsb' 0 2 == 1#2 || l.asid == c.extractLsb' 16 16
    (ls.foldl (fun acc l => dropL1 t l.asid l.vline acc) s).modTile t fun x => { x with l1ctl := x.l1ctl &&& ~~~4#64 }
def execL1FlushComplete (tile : Nat) (s : State) : Host.Outcome State Fault Refusal := .next (endFlush tile s)

/-! ## Repair ways (R106) -/

def modRepair (d i : Nat) (f : Repair → Repair) (s : State) : State :=
  s.modDie d fun x => { x with repair := x.repair.set i (f (x.repair.get i Repair.reset)) }
/-- A write of `SRPCTL`: EN gives way 15 of the slice to repair, whose lines are written back and dropped; a write that would
clear EN while sectors are pinned is ignored. -/
def writeSrpctl (d i : Nat) (v : Word) (s : State) : State :=
  let r := repairOf s d i
  if !v.getLsbD 0 && r.en && !r.pins.isEmpty then s
  else
    let out := if v.getLsbD 0 && !r.en then (s.die d).lines.filter fun l => sliceOf (128 * l.vline) == i && l.bank == 15 else []
    modRepair d i (fun r => { r with en := v.getLsbD 0, full := r.full && !v.getLsbD 13 })
      (out.foldl (fun acc l => dropSliceLine d l.asid l.vline acc) s)
def execSrpctlEnable (die slice : Nat) (v : Word) (s : State) : Host.Outcome State Fault Refusal := .next (writeSrpctl die slice v s)
/-- A write of `SRPADD`: a way that has not been given to repair pins nothing (DEDUCED, log 32). A write made while GO still
reads 1 pins too, a sector that is pinned already is counted again, and a sector that another slice holds is counted and
redirects nothing; the rule says nothing of any of these (DESIGN CHOICE, log 94). -/
def writeSrpadd (d i : Nat) (v : Word) (s : State) : State :=
  let r := repairOf s d i
  let sect := v.extractLsb' 5 43
  if !v.getLsbD 63 || !r.en then modRepair d i (fun r => { r with sect := sect }) s
  else if 2048 ≤ r.pins.length then modRepair d i (fun r => { r with sect := sect, full := true }) s
  else modRepair d i (fun r => { r with sect := sect, go := true, pins := r.pins ++ [sect.toNat] }) s
def execSrpaddPin (die slice : Nat) (v : Word) (s : State) : Host.Outcome State Fault Refusal := .next (writeSrpadd die slice v s)
/-- SECTOR_PIN_COMPLETE: the copy is done. It has corrected the errors of the sector, and one that cannot be corrected is pinned
poisoned (R106); Dwedar keeps the sector in its list. -/
def endPin (d i : Nat) (s : State) : State :=
  let r := repairOf s d i
  if !r.go then s
  else
    let q := r.pins.getLastD 0
    let s := sense unattributed (fun e => e == .dram q) s
    logEvent 6 (some d) none (modRepair d i (fun r => { r with go := false })
      { s with repairs := if s.repairs.contains q then s.repairs else s.repairs ++ [q] })
def execSectorPinComplete (die slice : Nat) (s : State) : Host.Outcome State Fault Refusal := .next (endPin die slice s)

/-! ## Fault queues and pre-emption requests (R303, R307) -/

/-- A post that a slot holds is tried again. -/
def retrySlot (n : Nat) (s : State) : State :=
  match (s.slot n).post with
  | none => s
  | some p =>
    match post (dieOfSlot n) p.posting s with
    | .held q s => s.modSlot n fun sl => { sl with post := some { p with posting := q } }
    | .made key s => s.modSlot n fun sl => { sl with post := none, awai := .faultWord key p.code, xwai := .faultWord key p.code }
/-- Every post that is held is tried again (R303). -/
def retryAll (s : State) : State :=
  let s := (List.range 4).foldl (fun acc d => retryPosts d acc) s
  let s := s.tiles.foldl (fun acc (t, _) => channels.foldl (fun acc c => retryChan t c acc) acc) s
  s.slots.foldl (fun acc (n, _) => retrySlot n acc) s
def writePfqbase (v : Word) (s : State) : State := retryAll (s.modPkg fun p => { p with pfqbase := keepBits 6 47 v })
def execPfqbaseWrite (v : Word) (s : State) : Host.Outcome State Fault Refusal := .next (writePfqbase v s)

/-- The request is taken: its bit clears. -/
def takePreq (n : Nat) (s : State) : State :=
  s.modCore (coreOfSlot n) fun c => { c with preq := c.preq &&& ~~~(1#15 <<< laneOfSlot n) }
/-- A requested slot whose task is uncommitted: the body is discarded and re-queued, once no handler holds the event (R297) and
no slot of the task waits for an engine or the conversion unit (R199, R210). -/
def preemptBody (n : Nat) (s : State) : State :=
  match s.taskOf n with
  | some t => if preDue s n && !t.committed && !holdsEvents (s.slot n) && !unitBusy s t then discardBody (s.slot n).task true false 0 (takePreq n s) else s
  | none => s
def writePreq (core : Nat) (v : Word) (s : State) : State :=
  let s := s.modCore core fun c => { c with preq := v.extractLsb' 0 15 }
  (List.range 15).foldl (fun acc k => preemptBody (16 * core + k) acc) s
def execPreqWrite (core : Nat) (v : Word) (s : State) : Host.Outcome State Fault Refusal := .next (writePreq core v s)

/-! ## Writes -/

/-- A write of a register of register space. -/
def writeReg (r : RegId) (v : Word) (s : State) : State :=
  match r with
  | .astbase => s.modPkg fun p => { p with astbase := keepBits 0 0 v ||| keepBits 20 47 v }
  | .txcmd => writeTxcmd v s
  | .txasid => s.modPkg fun p => { p with txasid := v.extractLsb' 0 16 }
  | .txva => s.modPkg fun p => { p with txva := keepBits 16 54 v }
  | .ownbase d => s.modPkg fun p => { p with ownbase := p.ownbase.set! d (keepBits 16 47 v) }
  | .migbase d => s.modPkg fun p => { p with migbase := p.migbase.set! d (keepBits 16 47 v) }
  | .frmbase d => s.modPkg fun p => { p with frmbase := p.frmbase.set! d (keepBits 12 47 v) }
  | .btbase => s.modPkg fun p => { p with btbase := keepBits 0 0 v ||| keepBits 17 47 v }
  | .pfqbase => writePfqbase v s
  | .admbase => s.modPkg fun p => { p with admbase := keepBits 0 0 v ||| keepBits 16 47 v }
  | .pqbase => s.modPkg fun p => { p with pqbase := keepBits 30 47 v }
  | .pctl n => s.modPart n fun x => { x with vf := v.extractLsb' 0 10, en := v.getLsbD 10, err := x.err && !v.getLsbD 11 }
  | .prect n => writePrect n v s
  | .pqcfg n => s.modQueue n fun q => { q with
      part := v.extractLsb' 0 6, prio := v.extractLsb' 6 2, weight := v.extractLsb' 8 8, ord := v.getLsbD 16, en := v.getLsbD 17 }
  | .pwd n => s.modPart n fun x => { x with done := x.done && !v.getLsbD 1 }
  | .chva => s.modPkg fun p => { p with chva := keepBits 16 54 v }
  | .featen => s.modPkg fun p => { p with featen := v.extractLsb' 0 4 }
  | .xvmin => s.modPkg fun p => { p with xvmin := v.extractLsb' 0 32 }
  | .vklbase => s.modPkg fun p => { p with vklbase := keepBits 12 47 v }
  | .cnbr n => s.modPkg fun p => { p with cnbr := p.cnbr.set! n (keepBits 0 8 v ||| keepBits 63 63 v) }
  | .snapctl => writeSnapctl v s
  | .bbidx => s.modPkg fun p => { p with bbidx := v.extractLsb' 0 12 }
  | .aqtmo => s.modPkg fun p => { p with aqtmo := v.extractLsb' 0 32 }
  | .dtctl => s.modPkg fun p => { p with dtmaster := v.getLsbD 0 }
  | .aqctl n => writeAqctl n v s
  | .rustbase d =>
    if (s.die d).reuse.any fun (_, e) => e.valid then s else s.modDie d fun x => { x with rustbase := keepBits 30 47 v }
  | .ruidx d => s.modDie d fun x => { x with ruidx := v.extractLsb' 0 14 }
  | .lmthr d => s.modDie d fun x => { x with lmthr := v.extractLsb' 0 16 }
  | .lmdeg d => s.modDie d fun x => { x with lmdeg := x.lmdeg &&& ~~~(v.extractLsb' 0 48) }
  | .ctrect d k => writeCtrect d k v s
  | .lmctl d m => writeLmctl d m v s
  | .l1ctl t => writeL1ctl t v s
  | .rtent t u => if 5 ≤ (v.extractLsb' 0 3).toNat then s else s.modTile t fun x => { x with rtent := x.rtent.set u (v.extractLsb' 0 3) }
  | .preq c => writePreq c v s
  | .srpctl d i => writeSrpctl d i v s
  | .srpadd d i => writeSrpadd d i v s
  | .vlim c => writeVlim c v s
  | .pqstat _ | .errcnt _ | .bbdata _ | .dtime | .dtstat | .etstat _ | .aqstat _ | .rudata _ _ | .lmstat _ _ | .lmcrc _ _
  | .lmrpl _ _ | .lmret _ _ | .bmode _ _ | .bgkey _ _ | .bgmask _ _ | .slotstat _ => s

/-- REGISTER_WRITE (R9): a write at a physical address of register space; where no register stands it has no effect. -/
def execRegisterWrite (addr : Nat) (v : Word) (s : State) : Host.Outcome State Fault Refusal :=
  .next (match regAt addr with | some r => writeReg r v s | none => s)

end Sys2Proof.Machine
end

