-- ==== Sys2Proof/Machine/Async.lean ====
section
/-! DEFINITION. Asynchronous events at an instruction boundary (02_idioms.md R31, 06_copy_engines.md R116, R117, 12_consistency.md
R241, 15_traps_preemption.md R297, R306, R307) and the steps that deliver them. -/
namespace Sys2Proof.Machine

/-! ## What is due -/

/-- Events 2 to 5 of R297, in their order, and the scratch fault of an access in flight that a fenced rectangle has answered
(R341; DEDUCED, log 34). -/
inductive Due where
  | preempt
  | byteCount (va : Word) (detail : BitVec 32)
  | semaphore (n : BitVec 5)
  | scratch (va : Word)
  | completion (c : Completion)
deriving DecidableEq, Repr

/-- The first event that is due to a slot. A completion waits for the end of a completion handler (R31); those of different
channels are entered in the order in which they came (DESIGN CHOICE, log 102). -/
def dueFirst (s : State) (n : Nat) : Option Due :=
  let sl := s.slot n
  if !sl.bound || holdsEvents sl then none
  else if preDue s n then some .preempt
  else match sl.bcDue with
    | (va, d) :: _ => some (.byteCount va d)
    | [] => match sl.semDue with
      | some k => some (.semaphore k)
      | none => match sl.scDue with
        | some va => some (.scratch va)
        | none => if sl.inUi then none else sl.done.head?.map .completion

/-! ## The boundary (R297, R307) -/

/-- A slot has not entered its root function yet (R258). -/
def awaitsRoot (s : State) (n : Nat) : Bool :=
  (s.vault (clusterOfSlot n)).fetches.any fun f => f.waiters.any fun w => w.slot == n && w.why == .root

/-- The entries of lq on which the execute half waits are on their way: their loads and atomics wait for no data of the slot's. -/
def lqComing (s : State) (n k : Nat) : Bool :=
  let sl := s.slot n
  decide (k ≤ sl.lq.length) && (sl.lq.take k).all fun e => e.word.isSome
    || (sl.loads.any fun x => x.pos == e.pos && !behindOwed s n x.pos x.tgt x.size.bytes)
    || sl.stores.any fun x => x.pos == e.pos && owedIn x.data == 0
/-- The value of the instruction with index `p`, for which the access half waits, depends on data that the slot still owes (R26). -/
def valueOwed (s : State) (n p : Nat) : Bool :=
  let sl := s.slot n
  sl.loads.any (fun x => x.pos == p && behindOwed s n p x.tgt x.size.bytes) || sl.stores.any fun x => x.pos == p && owedIn x.data != 0
/-- A half is parked, and what it has issued itself does not serve it. -/
def stuck (s : State) (n : Nat) (h : Half) : Bool :=
  let sl := s.slot n
  match sl.waitOf h with
  | .none => false
  | .lqEmpty k => !lqComing s n k
  | .branchEmpty => !acquirePending sl (max sl.ar.pos sl.xr.pos)
  | _ => true
/-- What the slot has issued and will complete, or trap at, by itself: the event waits for it. -/
def stillGoing (s : State) (n : Nat) : Bool :=
  let sl := s.slot n
  let unit (w : Wait) : Bool := w == .engine || w == .conversion
  unit sl.awai || unit sl.xwai || lateBefore s n (max sl.ar.pos sl.xr.pos) || sl.stores.any (fun x => (x.push n).isSome && pushReady s n x)
    || match sl.awai with | .load p => !valueOwed s n p | _ => false
/-- The indexes of issued instructions whose effect has not taken place and waits for data or for room: a load for whose value the
half waits, a push, a BCPOST and a scratchpad access (R307). -/
def heldBack (sl : Slot) : List Nat :=
  (match sl.awai with | .load p => [p] | _ => [])
    ++ (sl.stores.filter fun x => x.op == .bcPost || (targetTile x.tgt).isSome).map (·.pos)
    ++ (sl.loads.filter fun x => (targetTile x.tgt).isSome).map (·.pos)

/-- The index of the instruction before which an event is taken, if the slot has come there. The halves have come to one instruction,
or the one that lags is parked: then it is that half's instruction (R31, R307). An instruction past which the halves have moved and
whose effect has not taken place is left unissued where the slot can go back to it. A slot in scout mode is not there yet, and a
branch target that R183 rejects traps first (DEDUCED, log 92). -/
def asyncAt (s : State) (n : Nat) : Option Nat :=
  let sl := s.slot n
  let a := sl.ar.pos
  let x := sl.xr.pos
  let first : Option Nat :=
    if sl.scout.isSome || awaitsRoot s n || stillGoing s n then none
    else if a = x then (if sl.ar.bad || sl.xr.bad then none else some a)
    else if a < x then (if stuck s n .access then some a else none)
    else if stuck s n .execute then some x else none
  first.map fun f => (heldBack sl).foldl (fun acc p => if p < acc ∧ sl.canBack p then p else acc) f

/-- A parked WAITE for which an event is due completes before the event is taken (R316). -/
def passWaite (due : Bool) (sl : Slot) : Slot :=
  if due ∧ sl.ar.pos = sl.xr.pos ∧ (sl.awai = .waite ∨ sl.xwai = .waite) then sl.advanceBoth (nextPc sl.ar.pc 8) else sl

/-- Both halves stand at the instruction with index `F`, which has not been issued, and wait for nothing. A post that the slot has
not made goes on at its dispatcher (R303). -/
def settleAt (n F : Nat) (s : State) : State :=
  let due := waiteDue s n
  let s := match (s.slot n).post with
    | some p => holdPosting (dieOfSlot n) p.posting s
    | none => s
  let s := leaveQueues n (s.modSlot n fun sl =>
    let sl := passWaite due (sl.backTo F)
    { sl with
      awai := .none, xwai := .none, held := none, post := none })
  s.modVault (clusterOfSlot n) fun v => { v with
    fetches := v.fetches.map fun f => { f with waiters := dropAll f.waiters (fun w => w.slot == n) } }

/-! ## Delivery -/

/-- Enter the completion handler (R31). -/
def enterCompletion (n : Nat) (c : Completion) (s : State) : State :=
  s.modSlot n fun sl =>
    let p := max sl.ar.pos sl.xr.pos + 1
    let head : List Word := [c.id.zeroExtend 64, BitVec.ofNat 64 c.ch, c.ts, c.status]
    { sl with
      inUi := true, uipca := sl.ar.pc, uipcx := sl.xr.pc, done := sl.done.drop 1, ckpts := [],
      ar := { sl.ar with pos := p, pc := sl.sys.uivec, bad := false, shadow := vecOf 8 (head ++ sl.ar.shadow.toList.drop 4) 0 },
      xr := { sl.xr with pos := p, pc := sl.sys.uivec, bad := false } }

/-- Take an event before the instruction with index `F`. An asynchronous event has no instruction (R299). -/
def takeEvent (n : Nat) (d : Due) (F : Nat) (s : State) : State :=
  let s := settleAt n F s
  let pc := (s.slot n).ar.pc
  match d with
  | .preempt => enterHandler n 26 0 0 pc 0 (takePreq n s)
  | .byteCount va k => enterHandler n 14 k.toNat 0 pc va (s.modSlot n fun sl => { sl with bcDue := sl.bcDue.drop 1 })
  | .semaphore k => enterHandler n 21 k.toNat 0 pc 0 (s.modSlot n fun sl => { sl with semDue := none })
  | .scratch va =>
    -- the instruction that made the access is past, and the record does not hold it
    let (k, s) := s.nextFree
    enterHandler n 15 5 (Config.freeWord k 0) pc va (s.modSlot n fun sl => { sl with scDue := none })
  | .completion c => enterCompletion n c s

/-- The step that delivers an event, if it is the first that is due and the slot is at its boundary. -/
def deliver (n : Nat) (p : Due → Bool) (s : State) : State :=
  match dueFirst s n, asyncAt s n with
  | some d, some F => if p d then takeEvent n d F s else s
  | _, _ => s

def execCompletionInterrupt (slot : Nat) (s : State) : Host.Outcome State Fault Refusal :=
  .next (deliver slot (fun d => match d with | .completion _ => true | _ => false) s)
def execByteCountTrapDelivery (slot : Nat) (s : State) : Host.Outcome State Fault Refusal :=
  .next (deliver slot (fun d => match d with | .byteCount _ _ => true | _ => false) s)
def execSemaphoreOverflowDelivery (slot : Nat) (s : State) : Host.Outcome State Fault Refusal :=
  .next (deliver slot (fun d => match d with | .semaphore _ => true | _ => false) s)
/-- PREEMPTION_TRAP (R307): a body is discarded at once; a tail traps at the boundary. -/
def execPreemptionTrap (slot : Nat) (s : State) : Host.Outcome State Fault Refusal :=
  .next (match s.taskOf slot with
    | some t => if t.committed then deliver slot (fun d => d == .preempt) s else preemptBody slot s
    | none => s)

/-- The step that delivers the event; the scratch fault has none of its own. -/
def dueStep (n : Nat) : Due → Option Instr
  | .preempt => some (.preemptionTrap n)
  | .byteCount _ _ => some (.byteCountTrapDelivery n)
  | .semaphore _ => some (.semaphoreOverflowDelivery n)
  | .scratch _ => none
  | .completion _ => some (.completionInterrupt n)

end Sys2Proof.Machine
end

