-- ==== Sys2Proof/Machine/ScalarFloat.lean ====
section
/-! DEFINITION. The scalar floating instructions 0x60 to 0x6B (10_vector_conversion.md R187, R189 to R192, R197). -/
namespace Sys2Proof
open Machine

def FTy.fmt : FTy → Fmt | .f32 => .f32 | .f16 => .f16 | .bf16 => .bf16

namespace Machine

/-! ## Operations on codes, shared with the vector unit (R189) -/

/-- The value of the low bits of a word in a format (R191). -/
def Fmt.ofWord (f : Fmt) (nm : Bool) (x : Word) : Val := f.decode nm (x.toNat % 2 ^ f.width)
/-- A floating operation: the exact value of decoded operands, rounded once by RoundNE (R189). -/
def fop (f : Fmt) (nm : Bool) (op : List Val → Val) (xs : List Word) : Word :=
  BitVec.ofNat 64 (f.rne nm (op (xs.map (f.ofWord nm))))

/-- The operations of one, two and three values (R190). -/
def val1 (op : Val → Val) (xs : List Val) : Val := op (xs.getD 0 .nan)
def val2 (op : Val → Val → Val) (xs : List Val) : Val := op (xs.getD 0 .nan) (xs.getD 1 .nan)
def val3 (op : Val → Val → Val → Val) (xs : List Val) : Val := op (xs.getD 0 .nan) (xs.getD 1 .nan) (xs.getD 2 .nan)
def Val.sub (x y : Val) : Val := x.add y.neg

/-- `Convert` of R197: one element between two types; a draw is used by `.RSR` alone. -/
def convert (dt st : ETy) (nm : Bool) (rnd : Rnd) (sat : Bool) (r : Nat) (x : Nat) : Nat :=
  dt.fmt.encode nm rnd sat r (st.fmt.decode nm (x % 2 ^ st.bits))
/-- One draw of the slot's generator when the mode is `.RSR` (R77). -/
def draw (rnd : Rnd) : M Nat := do
  if rnd == .rsr then
    actMe fun sl => { sl with xr := { sl.xr with srgen := srDraw sl.xr.srgen } }
    return (← getMe).xr.srgen.toNat
  else return 0

/-! ## Shapes -/

/-- A scalar floating instruction of the execute stream with a W destination. -/
def floatW (i : Instr) (g : Guard) (ty : FTy) (d : WReg) (srcs : List WReg) (op : List Val → Val) (s : State) :
    Host.Outcome State Fault Refusal :=
  compute i g .execute d srcs (fop ty.fmt (s.core s.myCore).nanmode op) s
def float3 (i : Instr) (o : F3) (op : Val → Val → Val) (s : State) : Host.Outcome State Fault Refusal :=
  floatW i o.gd o.ty o.d [o.s1, o.s2] (val2 op) s
def float2 (i : Instr) (o : F2) (op : Val → Val) (s : State) : Host.Outcome State Fault Refusal :=
  floatW i o.gd o.ty o.d [o.s1] (val1 op) s

/-! ## Meanings (R191) -/

def execFadd (o : F3) (s : State) : Host.Outcome State Fault Refusal := float3 (.fadd o) o (fun x y => x.add y) s
def execFsub (o : F3) (s : State) : Host.Outcome State Fault Refusal := float3 (.fsub o) o (fun x y => x.sub y) s
def execFmul (o : F3) (s : State) : Host.Outcome State Fault Refusal := float3 (.fmul o) o (fun x y => x.mul y) s
def execFdiv (o : F3) (s : State) : Host.Outcome State Fault Refusal := float3 (.fdiv o) o (fun x y => x.div y) s
def execFmin (o : F3) (s : State) : Host.Outcome State Fault Refusal := float3 (.fmin o) o (fun x y => x.min y) s
def execFmax (o : F3) (s : State) : Host.Outcome State Fault Refusal := float3 (.fmax o) o (fun x y => x.max y) s
def execFfma (o : F4) (s : State) : Host.Outcome State Fault Refusal :=
  floatW (.ffma o) o.gd o.ty o.d [o.s1, o.s2, o.s3] (val3 fun x y z => x.fma y z) s
def execFsqrt (o : F2) (s : State) : Host.Outcome State Fault Refusal := float2 (.fsqrt o) o (fun x => x.sqrt) s
def execFabs (o : F2) (s : State) : Host.Outcome State Fault Refusal := float2 (.fabs o) o (fun x => x.abs) s
def execFneg (o : F2) (s : State) : Host.Outcome State Fault Refusal := float2 (.fneg o) o (fun x => x.neg) s

/-- FCMP (R192). -/
def execFcmp (o : FcmpR) (s : State) : Host.Outcome State Fault Refusal :=
  M.step (do
    let i := Instr.fcmp o
    let f := mkForm i o.gd .execute
    begin f false
    let cs ← prepare f [.w o.s1, .w o.s2] [.p o.d] (retire i)
    let x ← takeW cs o.s1
    let y ← takeW cs o.s2
    let nm := (s.core s.myCore).nanmode
    putP o.d (o.cond.holdsVal (o.ty.fmt.ofWord nm x) (o.ty.fmt.ofWord nm y))
    retire i) s

/-- The result of FCVT in its destination: sign-extended for a signed integer type (R197). -/
def fcvtResult (dt : ETy) (y : Nat) : Word :=
  if dt.signed then (BitVec.ofNat dt.bits y).signExtend 64 else (BitVec.ofNat dt.bits y).zeroExtend 64
/-- FCVT (R197). -/
def execFcvt (o : FcvtR) (s : State) : Host.Outcome State Fault Refusal :=
  M.step (do
    let i := Instr.fcvt o
    let f := mkForm i o.gd .execute
    begin f false
    let cs ← prepare f [.w o.s1] [.w o.d] (retire i)
    let x ← takeW cs o.s1
    let r ← draw o.rnd
    putW o.d (fcvtResult o.dt (convert o.dt o.st (s.core s.myCore).nanmode o.rnd o.sat r x.toNat))
    retire i) s

end Machine
end Sys2Proof
end

