-- ==== Sys2Proof/Machine/Tensor.lean ====
section
/-! DEFINITION. Tensors: entries of the tensor table, their checks at issue, and their elements in SCRATCH banks
(04_numbers.md R67, R78, R79, R82 to R84, 10_vector_conversion.md R199 to R202). -/
namespace Sys2Proof.Machine

/-! ## Fields of an entry (R82) -/

def TRef.word (r : TRef) (k : Nat) : Word := r.words.getD k 0
def TRef.cls (r : TRef) : Nat := ((r.word 0).extractLsb' 0 4).toNat
def TRef.e (r : TRef) : Nat := ((r.word 0).extractLsb' 4 4).toNat
def TRef.m (r : TRef) : Nat := ((r.word 0).extractLsb' 8 4).toNat
def TRef.bias (r : TRef) : Int := ((r.word 0).extractLsb' 12 8).toInt
/-- Rank - 1. -/
def TRef.rank (r : TRef) : Nat := ((r.word 0).extractLsb' 20 2).toNat
def TRef.bse (r : TRef) : Bool := (r.word 0).getLsbD 25
def TRef.valid (r : TRef) : Bool := (r.word 0).getLsbD 26
def TRef.scale (r : TRef) : Int := ((r.word 0).extractLsb' 32 16).toInt
def TRef.bsid (r : TRef) : Nat := ((r.word 0).extractLsb' 48 8).toNat
def TRef.aw (r : TRef) : Nat := ((r.word 0).extractLsb' 56 4).toNat
def TRef.off (r : TRef) : Nat := ((r.word 1).extractLsb' 0 19).toNat
def TRef.loc (r : TRef) : Nat := ((r.word 1).extractLsb' 19 4).toNat
/-- Size - 1 of a dimension. -/
def TRef.dim (r : TRef) (k : Nat) : Nat := ((r.word 2).extractLsb' (16 * k) 16).toNat
def TRef.stride (r : TRef) (k : Nat) : Int := (r.word (2 + k)).toInt

/-- The format of an element (R68 to R70, R82); aligned blocks have none. -/
def TRef.fmt (r : TRef) : Fmt :=
  match r.cls with
  | 0 => if r.e = 0 then (if r.m = 0 then .e0m0 r.bias else .fixed true (1 + r.m) r.bias) else .narrow true r.e r.m r.bias
  | 1 => if r.e = 0 then .fixed false r.m r.bias else .narrow false r.e r.m r.bias
  | 2 => .f32
  | 3 => .f16
  | 4 => .bf16
  | 6 => .fixed true 64 0
  | _ => .fixed true 32 0

/-- The bits that an index of dimension 0 takes: an element's width, or an aligned block (R79). -/
def TRef.step (r : TRef) : Nat := if r.cls = 7 then 8 * (8 + 8 * r.aw) else r.fmt.width
/-- Bytes of a row. -/
def TRef.rowBytes (r : TRef) : Nat := ((r.dim 0 + 1) * r.step + 7) / 8

/-- The indices of dimensions 1 to 3. -/
structure RowIx where
  i1 : Nat
  i2 : Nat
  i3 : Nat
deriving DecidableEq, Repr

/-- The rows of a tensor, in row-major order. -/
def TRef.rows (r : TRef) : List RowIx :=
  (List.range (r.dim 3 + 1)).flatMap fun c => (List.range (r.dim 2 + 1)).flatMap fun b =>
    (List.range (r.dim 1 + 1)).map fun a => { i1 := a, i2 := b, i3 := c }
/-- Where a row begins: a byte offset on the tile (R17, R82). -/
def TRef.rowAt (r : TRef) (x : RowIx) : Int := r.off + r.stride 1 * x.i1 + r.stride 2 * x.i2 + r.stride 3 * x.i3

/-! ## Checks at issue (R83) -/

/-- Check 2: the class, its format, and the fields that it ignores. No check asks LOC and the strides of an aligned block to be
multiples of 8 (R79): such a block is read and written at the bytes that they give (DEDUCED, log 103). -/
def TRef.classOk (r : TRef) : Bool :=
  let ignored := r.e = 0 ∧ r.m = 0 ∧ r.bias = 0
  match r.cls with
  | 0 => decide (1 + r.e + r.m ≤ 8 ∧ r.aw = 0)
  | 1 => decide (1 ≤ r.e + r.m ∧ r.e + r.m ≤ 8 ∧ r.aw = 0)
  | 7 => decide (2 ≤ r.aw ∧ r.aw ≤ 8 ∧ ignored)
  | c => decide (c < 7 ∧ ignored ∧ r.aw = 0)
/-- Check 3: a dimension above the rank has one index. -/
def TRef.ranksOk (r : TRef) : Bool := (List.range 4).all fun k => decide (k ≤ r.rank ∨ r.dim k = 0)
/-- Check 4: every byte of every row lies in the SCRATCH banks, which are the first logical banks of the grant (R128). -/
def TRef.inScratch (r : TRef) : Bool :=
  r.rows.all fun x => decide (0 ≤ r.rowAt x) && decide (r.rowAt x + r.rowBytes ≤ 8192 * r.banks.length)

/-- The SCRATCH banks of a (VF, GROUP) on a tile, in the order of R128. -/
def scratchBanks (s : State) (t vf : Nat) (group : BitVec 16) : List Nat :=
  if tileFenced s t then []
  else match grantOf (s.tile t) vf group with
    | none => []
    | some (_, g) => (logicalBanks (s.tile t) g).filter fun b => bankMode (s.tile t) b == 1#2

/-- The entry of the issuing task's tensor table (R82), as an instruction of slot n reads it. -/
def tensorRef (s : State) (n id : Nat) : TRef :=
  let words := match s.taskOf n with
    | some t => t.tensors.get id (List.replicate 8 0)
    | none => List.replicate 8 0
  let r : TRef := { words := words, tile := 0, banks := [] }
  let t := tileOfCluster (clusterOfTile (tileOfSlot n)) r.loc
  { words := words, tile := t, banks := scratchBanks s t (s.vfOf n) (s.groupOf n) }

/-- Checks 1 to 4: the detail of the first that fails. -/
def TRef.bad (r : TRef) : Option Nat :=
  if !r.valid then some 1
  else if !r.classOk then some 2
  else if !r.ranksOk then some 3
  else if !r.inScratch then some 4
  else none
/-- Check 5: the block-scale tensor of an entry. -/
def TRef.scaleOk (r b : TRef) : Bool :=
  b.bad.isNone && b.cls == 1 && b.e == 8 && b.m == 0 && b.rank == r.rank && decide (b.dim 0 = r.dim 0 / 32)
    && b.dim 1 == r.dim 1 && b.dim 2 == r.dim 2 && b.dim 3 == r.dim 3

/-- A tensor that an instruction of slot n names, with its block-scale tensor, or the detail of the tensor fault (R83,
R200). `accept` is check 6. -/
def namedTensor (s : State) (n : Nat) (id : Word) (accept : TRef → Bool) : Except Nat (List TRef) :=
  let r := tensorRef s n (id.extractLsb' 0 8).toNat
  match r.bad with
  | some d => .error d
  | none =>
    let b := tensorRef s n r.bsid
    if r.bse && !r.scaleOk b then .error 5
    else if !accept r then .error 6
    else .ok (if r.bse then [r, b] else [r])

/-- Classes 0x0 to 0x6. -/
def plainClass (r : TRef) : Bool := decide (r.cls ≤ 6)
def blockClass (r : TRef) : Bool := r.cls == 7

/-- No tensor: what a list that names none answers. -/
def noTensor : TRef := { words := [], tile := 0, banks := [] }
def mainOf (rs : List TRef) : TRef := rs.headD noTensor

/-! ## Bytes and bits in SCRATCH (R67) -/

/-- A byte at an offset of the banks. -/
def scrGet (s : State) (r : TRef) (a : Int) : Nat :=
  match r.banks[a.toNat / 8192]? with
  | some b => (s.tile r.tile).scratch.readNat (8192 * b + a.toNat % 8192) 1
  | none => 0
def scrPut (r : TRef) (a : Int) (x : Nat) (s : State) : State :=
  match r.banks[a.toNat / 8192]? with
  | some b => putScratch r.tile (8192 * b + a.toNat % 8192) 1 (x % 256) s
  | none => s
/-- A byte that an operation writes, where others have written since it began: it finally holds one of the values, a free
choice (R201, R216). -/
def keepRaces (s0 : State) (s : State) : State :=
  s0.past.foldl (fun acc e =>
    let t := e.1 / 2 ^ 19
    let off := e.1 % 2 ^ 19
    let was := (s0.tile t).scratch.readNat off 1
    if was = (acc.tile t).scratch.readNat off 1 then acc
    else
      let (c, acc) := acc.nextFree
      if c % 2 = 0 then acc else putScratch t off 1 was acc) s

/-- The place of an offset of the banks: of `State.past`, and of an error. -/
def TRef.place (r : TRef) (a : Int) : Nat := 2 ^ 19 * r.tile + 8192 * (r.banks[a.toNat / 8192]?).getD 0 + a.toNat % 8192

/-- The work of an operation whose time began at a place of `State.past`: it sees what has been written since. One of an engine
reads each byte of its operands once (R216); a unit's destination elements choose apart (R201). -/
def during {α : Type} (once : Bool) (mark : Nat) (m : M α) : M α := fun s =>
  let back (t : State) : State := { t with past := s.past ++ t.past.drop (s.past.length - mark), seen := none }
  match m { s with past := s.past.drop mark, seen := if once then some [] else none } with
  | .ok x t => .ok x (back t)
  | .error e t => .error e (back t)
/-- When no unit works any more, nothing is kept. -/
def settlePast (s : State) : State := if unitsWork s then s else { s with past := [] }

/-- A byte that an operation reads: one of the values that it has held since the operation began, among them those that the
operation itself has written, a free choice for each byte (R201, R216). `s0` is the state before the operation, which is
without effect if it meets poison (R339). -/
def readByte (s0 : State) (r : TRef) (a : Int) : M Nat := do
  let s ← get
  let p := r.place a
  match s.seen.bind fun xs => xs.find? fun e => e.1 == p with
  | some e => return e.2
  | none => do
    if !s.latent.isEmpty then
      let at' := ErrAt.inScratch (p / 2 ^ 19) (p % 2 ^ 19) 1
      set (sense (s.vfOf s.cur.slot) at' s)
      if spoiled (← get) at' then haltWith fun _ => consumePoison s0.cur.slot (s0.me.posOf .execute) s0
    let s ← get
    let x := scrGet s0 r a
    let y := scrGet s r a
    let olds := (s.past.filter fun e => e.1 == p).map (·.2.toNat)
    let keep (v : Nat) : M Nat := do
      modify fun s => { s with seen := s.seen.map fun xs => (p, v) :: xs }
      return v
    if x = y ∧ olds.isEmpty then keep y
    else
      let (c, s) := s.nextFree
      set s
      let all := x :: y :: olds
      keep (all.getD (c % all.length) y)

/-- w bits from a bit position of a row. -/
def readBits (s0 : State) (r : TRef) (row : Int) (bit w : Nat) : M Nat := do
  let bs ← (List.range ((bit % 8 + w + 7) / 8)).mapM fun (i : Nat) => readByte s0 r (row + (bit / 8 + i : Nat))
  return bs.foldr (fun b acc => b + 256 * acc) 0 / 2 ^ (bit % 8) % 2 ^ w

/-- Write w bits at a bit position of a row; every other bit of the bytes is kept. -/
def writeBits (r : TRef) (row : Int) (bit w x : Nat) (s : State) : State :=
  (List.range ((bit % 8 + w + 7) / 8)).foldl (fun acc i =>
    let a : Int := row + (bit / 8 + i : Nat)
    let m := (2 ^ w - 1) * 2 ^ (bit % 8) / 256 ^ i % 256
    let v := x % 2 ^ w * 2 ^ (bit % 8) / 256 ^ i % 256
    let old : BitVec 8 := BitVec.ofNat 8 (scrGet acc r a)
    scrPut r a ((old &&& ~~~BitVec.ofNat 8 m ||| BitVec.ofNat 8 v).toNat) acc) s

/-! ## Elements -/

def elemCode (s0 : State) (r : TRef) (x : RowIx) (i0 : Nat) : M Nat := readBits s0 r (r.rowAt x) (i0 * r.step) r.step
/-- The block-scale byte of an element; without one, the byte of the exponent 0 (R78). -/
def scaleByte (s0 : State) (rs : List TRef) (x : RowIx) (i0 : Nat) : M Nat :=
  match rs with
  | _ :: b :: _ => elemCode s0 b x (i0 / 32)
  | _ => return 127
/-- The value of an element (R78). -/
def elemValue (s0 : State) (nm : Bool) (rs : List TRef) (x : RowIx) (i0 : Nat) : M Val := do
  let r := mainOf rs
  let b ← scaleByte s0 rs x i0
  if b = 255 then return .nan
  else
    let c ← elemCode s0 r x i0
    return (r.fmt.decode nm c).scale (r.scale + b - 127)
/-- The code of a value in a tensor whose block byte is b, as CVT converts (R202). -/
def convCode (r : TRef) (nm : Bool) (rnd : Rnd) (sat : Bool) (d b : Nat) (v : Val) : Nat :=
  if b = 255 then r.fmt.nanCode else r.fmt.encode nm rnd sat d (v.scale (-(r.scale + b - 127)))
/-- Write an element. The padding after the last element of a row is written as zero (R67). -/
def putElem (r : TRef) (x : RowIx) (i0 c : Nat) (s : State) : State :=
  let bit := i0 * r.step
  let n := if i0 = r.dim 0 then 8 * r.rowBytes - bit else r.step
  writeBits r (r.rowAt x) bit n (c % 2 ^ r.step) s

/-- The elements of a tensor in row-major order. -/
def TRef.elems (r : TRef) : List (RowIx × Nat) := r.rows.flatMap fun x => (List.range (r.dim 0 + 1)).map fun i => (x, i)

/-! ## Before the instructions of 0xA0 to 0xA8 and 0xB8 to 0xC3 (R50, R208, R219) -/

/-- Rule 3 of R50: every earlier store of the slot has been performed at its bank or slice. -/
def needStored : M Unit := do
  needEarlier
  let s ← get
  let F := s.me.posOf .execute
  let owed := match s.taskOf s.cur.slot with
    | some t => t.committed && t.escrow.any (fun e => e.slot == s.cur.slot && decide (e.pos < F))
    | none => false
  holdUnless (!owed && !s.me.stores.any fun x => !x.body && decide (x.pos < F))

/-- A trap after the sources were taken: the instruction has no effect, and they are given back (R296). -/
def raiseFrom {α : Type} (s0 : State) (i : Instr) (kind detail : Nat) (tva : Word) : M α := do
  set s0
  raise i kind detail tva

/-- A tensor that the instruction names (R83): the tensor fault is kind 16 of R298. -/
def useTensor (s0 : State) (i : Instr) (id : Word) (accept : TRef → Bool) : M (List TRef) := do
  let s ← get
  match namedTensor s s.cur.slot id accept with
  | .ok rs => return rs
  | .error d => raiseFrom s0 i 16 d 0

end Sys2Proof.Machine
end

