-- ==== Sys2Proof/Machine/Vector.lean ====
section
/-! DEFINITION. The vector instructions 0x70 to 0x9D (10_vector_conversion.md R187 to R198): lane operations, lane movement,
reductions and masks. -/
namespace Sys2Proof.Machine

/-! ## Lanes (R188) -/

/-- Lane i of a value, of b bits. -/
def lane (b : Nat) (v : VWord) (i : Nat) : Nat := (v.extractLsb' (b * i) b).toNat
/-- A value from its lanes, lane 0 first; the rest is zero. -/
def ofLanes (b : Nat) (xs : List Nat) : VWord := BitVec.ofNat 512 (xs.foldr (fun x acc => x % 2 ^ b + 2 ^ b * acc) 0)

/-- What a lane operation sees: the core's NANMODE, its whole sources, the mask, and the number of the lane. -/
structure LaneIn where
  nm  : Bool
  vs  : List VWord
  msk : Word
  i   : Nat

def LaneIn.src (x : LaneIn) (b k : Nat) : Nat := lane b (x.vs.getD k 0) x.i

/-- A lane-wise instruction with a mask and Z (R188): a masked-off lane is zero or keeps what it was. `sel` says that the
mask selects and every lane is written (R193). -/
def laneRun (i : Instr) (g : Guard) (ty : ETy) (msk : MReg) (z sel : Bool) (d : VReg) (srcs : List VReg)
    (op : LaneIn → Nat) (s : State) : Host.Outcome State Fault Refusal :=
  M.step (do
    let f := mkForm i g .execute
    begin f false
    let keeps := !sel && !z && msk != 0#3 && d != .q
    let cs ← prepare f (srcs.map .v ++ [.m msk] ++ if keeps then [.v d] else []) [.v d] (retire i)
    let _ := cs
    let vs ← srcs.mapM takeV
    let sl ← getMe
    let m := sl.readM msk
    let old := match d with | .v n => sl.readV n | .q => 0
    let nm := (s.core s.myCore).nanmode
    let lanes := (List.range ty.lanes).map fun i =>
      if sel || m.getLsbD i then op { nm := nm, vs := vs, msk := m, i := i }
      else if z || d == .q then 0
      else lane ty.bits old i
    putV d (ofLanes ty.bits lanes)
    retire i) s

def lanes3 (i : Instr) (o : V3) (op : LaneIn → Nat) (s : State) : Host.Outcome State Fault Refusal :=
  laneRun i o.gd o.ty o.msk o.z false o.d [o.s1, o.s2] op s
def lanes2 (i : Instr) (o : V2) (op : LaneIn → Nat) (s : State) : Host.Outcome State Fault Refusal :=
  laneRun i o.gd o.ty o.msk o.z false o.d [o.s1] op s
def lanes4 (i : Instr) (o : V4) (op : LaneIn → Nat) (s : State) : Host.Outcome State Fault Refusal :=
  laneRun i o.gd o.ty o.msk o.z false o.d [o.s1, o.s2, o.s3] op s

/-! ## Lane results (R190) -/

/-- The value of a code of a type. -/
def ETy.val (ty : ETy) (nm : Bool) (x : Nat) : Val := ty.fmt.decode nm x
/-- A lane operation on numbers: values for a floating type, integers that wrap for another. -/
def arith2 (ty : ETy) (f : Val → Val → Val) (n : Int → Int → Int) (x : LaneIn) : Nat :=
  let a := x.src ty.bits 0
  let b := x.src ty.bits 1
  if ty.isFloat then ty.fmt.rne x.nm (f (ETy.val ty x.nm a) (ETy.val ty x.nm b))
  else
    let int (c : Nat) : Int := if ty.signed then (BitVec.ofNat ty.bits c).toInt else c
    (n (int a) (int b) % 2 ^ ty.bits).toNat
def arith1 (ty : ETy) (f : Val → Val) (n : Int → Int) (x : LaneIn) : Nat :=
  let a := x.src ty.bits 0
  if ty.isFloat then ty.fmt.rne x.nm (f (ETy.val ty x.nm a))
  else
    let int (c : Nat) : Int := if ty.signed then (BitVec.ofNat ty.bits c).toInt else c
    (n (int a) % 2 ^ ty.bits).toNat
/-- A lane operation on floating types alone. -/
def float1 (ty : ETy) (f : Val → Val) (x : LaneIn) : Nat := arith1 ty f (fun n => n) x
def floatThree (ty : ETy) (f : Val → Val → Val → Val) (x : LaneIn) : Nat :=
  let v (k : Nat) : Val := ETy.val ty x.nm (x.src ty.bits k)
  ty.fmt.rne x.nm (f (v 0) (v 1) (v 2))
/-- A bitwise operation on a lane. -/
def bits2 (ty : ETy) (f : VWord → VWord → VWord) (x : LaneIn) : Nat := lane ty.bits (f (x.vs.getD 0 0) (x.vs.getD 1 0)) x.i
/-- A shift by the lane of s2 as an unsigned count (R190). -/
def shiftLane (ty : ETy) (f : BitVec ty.bits → Nat → BitVec ty.bits) (x : LaneIn) : Nat :=
  (f (BitVec.ofNat ty.bits (x.src ty.bits 0)) (min (x.src ty.bits 1) ty.bits)).toNat

def execVadd (o : V3) (s : State) : Host.Outcome State Fault Refusal :=
  lanes3 (.vadd o) o (arith2 o.ty (fun x y => x.add y) (fun a b => a + b)) s
def execVsub (o : V3) (s : State) : Host.Outcome State Fault Refusal :=
  lanes3 (.vsub o) o (arith2 o.ty (fun x y => x.sub y) (fun a b => a - b)) s
def execVmul (o : V3) (s : State) : Host.Outcome State Fault Refusal :=
  lanes3 (.vmul o) o (arith2 o.ty (fun x y => x.mul y) (fun a b => a * b)) s
def execVdiv (o : V3) (s : State) : Host.Outcome State Fault Refusal :=
  lanes3 (.vdiv o) o (arith2 o.ty (fun x y => x.div y) (fun a _ => a)) s
def execVmin (o : V3) (s : State) : Host.Outcome State Fault Refusal :=
  lanes3 (.vmin o) o (arith2 o.ty (fun x y => x.min y) (fun a b => min a b)) s
def execVmax (o : V3) (s : State) : Host.Outcome State Fault Refusal :=
  lanes3 (.vmax o) o (arith2 o.ty (fun x y => x.max y) (fun a b => max a b)) s
def execVfma (o : V4) (s : State) : Host.Outcome State Fault Refusal :=
  lanes4 (.vfma o) o (floatThree o.ty (fun x y z => x.fma y z)) s
def execVfms (o : V4) (s : State) : Host.Outcome State Fault Refusal :=
  lanes4 (.vfms o) o (floatThree o.ty (fun x y z => x.fma y z.neg)) s
def execVfnma (o : V4) (s : State) : Host.Outcome State Fault Refusal :=
  lanes4 (.vfnma o) o (floatThree o.ty (fun x y z => (x.mul y).neg.add z)) s
def execVsqrt (o : V2) (s : State) : Host.Outcome State Fault Refusal := lanes2 (.vsqrt o) o (float1 o.ty (fun x => x.sqrt)) s
/-- VABS and VNEG (R190): the least value of a signed type stays, and an unsigned type's VABS is s1. -/
def execVabs (o : V2) (s : State) : Host.Outcome State Fault Refusal :=
  lanes2 (.vabs o) o (arith1 o.ty (fun x => x.abs) (fun a => a.natAbs)) s
def execVneg (o : V2) (s : State) : Host.Outcome State Fault Refusal :=
  lanes2 (.vneg o) o (arith1 o.ty (fun x => x.neg) (fun a => -a)) s
def execVrcp (o : V2) (s : State) : Host.Outcome State Fault Refusal := lanes2 (.vrcp o) o (float1 o.ty (fun x => x.recip)) s
def execVrsq (o : V2) (s : State) : Host.Outcome State Fault Refusal := lanes2 (.vrsq o) o (float1 o.ty (fun x => x.rsqrt)) s
def execVexp (o : V2) (s : State) : Host.Outcome State Fault Refusal := lanes2 (.vexp o) o (float1 o.ty (fun x => x.exp2)) s
def execVlog (o : V2) (s : State) : Host.Outcome State Fault Refusal := lanes2 (.vlog o) o (float1 o.ty (fun x => x.log2)) s
def execVand (o : V3) (s : State) : Host.Outcome State Fault Refusal := lanes3 (.vand o) o (bits2 o.ty (fun x y => x &&& y)) s
def execVor (o : V3) (s : State) : Host.Outcome State Fault Refusal := lanes3 (.vor o) o (bits2 o.ty (fun x y => x ||| y)) s
def execVxor (o : V3) (s : State) : Host.Outcome State Fault Refusal := lanes3 (.vxor o) o (bits2 o.ty (fun x y => x ^^^ y)) s
def execVnot (o : V2) (s : State) : Host.Outcome State Fault Refusal := lanes2 (.vnot o) o (bits2 o.ty (fun x _ => ~~~x)) s
def execVshl (o : V3) (s : State) : Host.Outcome State Fault Refusal :=
  lanes3 (.vshl o) o (shiftLane o.ty (fun a c => a <<< c)) s
def execVshr (o : V3) (s : State) : Host.Outcome State Fault Refusal :=
  lanes3 (.vshr o) o (shiftLane o.ty (fun a c => a >>> c)) s
def execVsar (o : V3) (s : State) : Host.Outcome State Fault Refusal :=
  lanes3 (.vsar o) o (shiftLane o.ty (fun a c => a.sshiftRight c)) s

/-! ## Lane movement (R193, R194) -/

def execVsel (o : VselR) (s : State) : Host.Outcome State Fault Refusal :=
  laneRun (.vsel o) o.gd o.ty o.msk false true o.d [o.s1, o.s2]
    (fun x => if x.msk.getLsbD x.i then x.src o.ty.bits 0 else x.src o.ty.bits 1) s
def execVmov (o : V2) (s : State) : Host.Outcome State Fault Refusal := lanes2 (.vmov o) o (fun x => x.src o.ty.bits 0) s
def execVperm (o : V3) (s : State) : Host.Outcome State Fault Refusal :=
  lanes3 (.vperm o) o (fun x => lane o.ty.bits (x.vs.getD 0 0) (x.src o.ty.bits 1 % o.ty.lanes)) s
def execVshuf (o : V3) (s : State) : Host.Outcome State Fault Refusal :=
  lanes3 (.vshuf o) o (fun x =>
    let b := o.ty.bits
    let q := 128 / b
    let k := x.src b 1
    if 2 ^ (b - 1) ≤ k then 0 else lane b (x.vs.getD 0 0) (q * (x.i / q) + k % q)) s
def execVrot (o : VrotR) (s : State) : Host.Outcome State Fault Refusal :=
  laneRun (.vrot o) o.gd o.ty o.msk o.z false o.d [o.s1]
    (fun x => lane o.ty.bits (x.vs.getD 0 0) ((x.i + o.imm.toNat) % o.ty.lanes)) s
def execVzip (o : V3) (s : State) : Host.Outcome State Fault Refusal :=
  lanes3 (.vzip o) o (fun x => lane o.ty.bits (x.vs.getD (x.i % 2) 0) (x.i / 2)) s
def execVunzip (o : V3) (s : State) : Host.Outcome State Fault Refusal :=
  lanes3 (.vunzip o) o (fun x =>
    let n := o.ty.lanes
    if x.i < n / 2 then lane o.ty.bits (x.vs.getD 0 0) (2 * x.i) else lane o.ty.bits (x.vs.getD 1 0) (2 * x.i - n)) s

/-- VBCAST: the low lane of a W source in every lane. -/
def execVbcast (o : VbcR) (s : State) : Host.Outcome State Fault Refusal :=
  M.step (do
    let i := Instr.vbcast o
    let f := mkForm i o.gd .execute
    begin f false
    let keeps := !o.z && o.msk != 0#3 && o.d != .q
    let cs ← prepare f ([.w o.s1, .m o.msk] ++ if keeps then [.v o.d] else []) [.v o.d] (retire i)
    let x ← takeW cs o.s1
    let sl ← getMe
    let m := sl.readM o.msk
    let old := match o.d with | .v n => sl.readV n | .q => 0
    putV o.d (ofLanes o.ty.bits ((List.range o.ty.lanes).map fun i =>
      if m.getLsbD i then x.toNat else if o.z || o.d == .q then 0 else lane o.ty.bits old i))
    retire i) s

/-- VINS: D is read after S1, and the other lanes are kept (R194). -/
def execVins (o : VinsR) (s : State) : Host.Outcome State Fault Refusal :=
  M.step (do
    let i := Instr.vins o
    let f := mkForm i o.gd .execute
    begin f false
    let cs ← prepare f [.w o.s1, .v o.d] [.v o.d] (retire i)
    let x ← takeW cs o.s1
    let old ← takeV o.d
    putV o.d (ofLanes 64 (((List.range 8).map (lane 64 old)).set o.lane.toNat x.toNat))
    retire i) s
def execVext (o : VextR) (s : State) : Host.Outcome State Fault Refusal :=
  M.step (do
    let i := Instr.vext o
    let f := mkForm i o.gd .execute
    begin f false
    let _ ← prepare f [.v o.s1] [.w o.d] (retire i)
    let v ← takeV o.s1
    putW o.d (BitVec.ofNat 64 (lane 64 v o.lane.toNat))
    retire i) s

/-! ## Conversion (R197) -/

/-- The codes of VCVT, with one draw for each converted element in ascending order. -/
def vcvtLanes (o : VcvtR) (nm : Bool) (v : VWord) : List Nat → M (List Nat)
  | [] => return []
  | i :: is => do
    let r ← draw o.rnd
    let xs ← vcvtLanes o nm v is
    return convert o.dt o.st nm o.rnd o.sat r (lane o.st.bits v i) :: xs
def execVcvt (o : VcvtR) (s : State) : Host.Outcome State Fault Refusal :=
  M.step (do
    let i := Instr.vcvt o
    let f := mkForm i o.gd .execute
    begin f false
    let _ ← prepare f [.v o.s1] [.v o.d] (retire i)
    let v ← takeV o.s1
    let xs ← vcvtLanes o (s.core s.myCore).nanmode v (List.range (512 / max o.st.bits o.dt.bits))
    putV o.d (ofLanes o.dt.bits xs)
    retire i) s

/-! ## Comparison (R192) -/

/-- A condition on two lanes of a type. -/
def laneHolds (c : Cond) (ty : ETy) (nm : Bool) (x y : Nat) : Bool :=
  if ty.isFloat then c.holdsVal (ETy.val ty nm x) (ETy.val ty nm y)
  else c.holds (BitVec.ofNat ty.bits x) (BitVec.ofNat ty.bits y)
/-- A mask from its bits, zero at and above n. -/
def ofBits (bs : List Bool) : Word := BitVec.ofNat 64 (bs.foldr (fun b acc => b.toNat + 2 * acc) 0)
def execVcmp (o : VcmpR) (s : State) : Host.Outcome State Fault Refusal :=
  M.step (do
    let i := Instr.vcmp o
    let f := mkForm i o.gd .execute
    begin f false
    let keeps := !o.z && o.msk != 0#3
    let _ ← prepare f ([.v o.s1, .v o.s2, .m o.msk] ++ if keeps then [.m o.d] else []) [.m o.d] (retire i)
    let x ← takeV o.s1
    let y ← takeV o.s2
    let sl ← getMe
    let m := sl.readM o.msk
    let old := sl.readM o.d
    let nm := (s.core s.myCore).nanmode
    putM o.d (ofBits ((List.range o.ty.lanes).map fun i =>
      if m.getLsbD i then laneHolds o.cond o.ty nm (lane o.ty.bits x i) (lane o.ty.bits y i)
      else if o.z then false else old.getLsbD i))
    retire i) s

/-! ## Reductions (R80, R195) -/

/-- One level of the tree: neighbours are combined. -/
def pairUp {α : Type} (f : α → α → α) : List α → List α
  | a :: b :: rest => f a b :: pairUp f rest
  | l => l
/-- The tree over at most 2^k entries. -/
def treeOf {α : Type} (f : α → α → α) : Nat → List α → List α
  | 0, l => l
  | k + 1, l => treeOf f k (pairUp f l)

/-- A value as binary32 holds it. -/
def to32 (nm : Bool) (x : Val) : Val := Fmt.f32.decode nm (Fmt.f32.rne nm x)
/-- A sum of VRADD and VDOT: ⊕ over the tree. -/
def sumTree (nm : Bool) (xs : List Val) : Val := (treeOf (fun a b => to32 nm (a.add b)) 6 xs).headD .nan
/-- A binary32 in [31:0] of D. -/
def word32 (nm : Bool) (x : Val) : Word := BitVec.ofNat 64 (Fmt.f32.rne nm x)
/-- An integer result: sign- or zero-extended, or the low 64 bits of the exact sum. -/
def wordInt (n : Int) : Word := BitVec.ofInt 64 n

/-- An integer lane by its type. -/
def laneInt (ty : ETy) (c : Nat) : Int := if ty.signed then (BitVec.ofNat ty.bits c).toInt else c
/-- The least and the greatest value of an integer type. -/
def ETy.least (ty : ETy) : Int := if ty.signed then -(2 ^ (ty.bits - 1)) else 0
def ETy.most (ty : ETy) : Int := if ty.signed then 2 ^ (ty.bits - 1) - 1 else 2 ^ ty.bits - 1

/-- VRADD's result from the lanes that enter, in lane order with those masked off as `none`. -/
def radd (ty : ETy) (nm : Bool) (xs : List (Option Nat)) : Word :=
  if ty.isFloat then word32 nm (sumTree nm (xs.map fun x => match x with | some c => ETy.val ty nm c | none => .fin true 0 0))
  else wordInt (xs.foldl (fun acc x => acc + (match x with | some c => laneInt ty c | none => 0)) 0)
/-- VRMAX's and VRMIN's. -/
def rmax (ty : ETy) (nm : Bool) (xs : List (Option Nat)) : Word :=
  if ty.isFloat then
    word32 nm ((treeOf Val.max 6 (xs.map fun x => match x with | some c => ETy.val ty nm c | none => .inf true)).headD .nan)
  else wordInt (xs.foldl (fun acc x => max acc (match x with | some c => laneInt ty c | none => ETy.least ty)) (ETy.least ty))
def rmin (ty : ETy) (nm : Bool) (xs : List (Option Nat)) : Word :=
  if ty.isFloat then
    word32 nm ((treeOf Val.min 6 (xs.map fun x => match x with | some c => ETy.val ty nm c | none => .inf false)).headD .nan)
  else wordInt (xs.foldl (fun acc x => min acc (match x with | some c => laneInt ty c | none => ETy.most ty)) (ETy.most ty))
/-- VDOT's, from pairs of lanes: a floating product is rounded to binary32. -/
def dot (ty : ETy) (nm : Bool) (xs : List (Option (Nat × Nat))) : Word :=
  if ty.isFloat then
    word32 nm (sumTree nm (xs.map fun x => match x with
      | some (a, b) => to32 nm ((ETy.val ty nm a).mul (ETy.val ty nm b))
      | none => .fin true 0 0))
  else wordInt (xs.foldl (fun acc x => acc + (match x with | some (a, b) => laneInt ty a * laneInt ty b | none => 0)) 0)

/-- The lanes of a value that enter a reduction. -/
def entering (ty : ETy) (m : Word) (v : VWord) : List (Option Nat) :=
  (List.range ty.lanes).map fun i => if m.getLsbD i then some (lane ty.bits v i) else none

def reduce (i : Instr) (o : VredR) (op : ETy → Bool → List (Option Nat) → Word) (s : State) :
    Host.Outcome State Fault Refusal :=
  M.step (do
    let f := mkForm i o.gd .execute
    begin f false
    let _ ← prepare f [.v o.s1, .m o.msk] [.w o.d] (retire i)
    let v ← takeV o.s1
    let m := (← getMe).readM o.msk
    putW o.d (op o.ty (s.core s.myCore).nanmode (entering o.ty m v))
    retire i) s
def execVradd (o : VredR) (s : State) : Host.Outcome State Fault Refusal := reduce (.vradd o) o radd s
def execVrmax (o : VredR) (s : State) : Host.Outcome State Fault Refusal := reduce (.vrmax o) o rmax s
def execVrmin (o : VredR) (s : State) : Host.Outcome State Fault Refusal := reduce (.vrmin o) o rmin s
def execVdot (o : VdotR) (s : State) : Host.Outcome State Fault Refusal :=
  M.step (do
    let i := Instr.vdot o
    let f := mkForm i o.gd .execute
    begin f false
    let _ ← prepare f [.v o.s1, .v o.s2, .m o.msk] [.w o.d] (retire i)
    let x ← takeV o.s1
    let y ← takeV o.s2
    let m := (← getMe).readM o.msk
    let pairs := (List.range o.ty.lanes).map fun i =>
      if m.getLsbD i then some (lane o.ty.bits x i, lane o.ty.bits y i) else none
    putW o.d (dot o.ty (s.core s.myCore).nanmode pairs)
    retire i) s

/-! ## Masks (R196) -/

/-- The low n bits of a mask. -/
def lowBits (ty : ETy) (m : Word) : Word := m &&& BitVec.ofNat 64 (2 ^ ty.lanes - 1)
/-- An instruction on mask registers, given the low bits of its sources. -/
def maskRun (i : Instr) (g : Guard) (ty : ETy) (d : Opnd) (srcs : List MReg) (put : List Word → M Unit) (s : State) :
    Host.Outcome State Fault Refusal :=
  M.step (do
    let f := mkForm i g .execute
    begin f false
    let _ ← prepare f (srcs.map .m) [d] (retire i)
    let sl ← getMe
    put (srcs.map fun n => lowBits ty (sl.readM n))
    retire i) s
def mask3 (i : Instr) (o : M3) (op : Word → Word → Word) (s : State) : Host.Outcome State Fault Refusal :=
  maskRun i o.gd o.ty (.m o.d) [o.s1, o.s2] (fun xs => putM o.d (op (xs.getD 0 0) (xs.getD 1 0))) s
def execMand (o : M3) (s : State) : Host.Outcome State Fault Refusal := mask3 (.mand o) o (fun x y => x &&& y) s
def execMor (o : M3) (s : State) : Host.Outcome State Fault Refusal := mask3 (.mor o) o (fun x y => x ||| y) s
def execMxor (o : M3) (s : State) : Host.Outcome State Fault Refusal := mask3 (.mxor o) o (fun x y => x ^^^ y) s
def execMnot (o : M2) (s : State) : Host.Outcome State Fault Refusal :=
  maskRun (.mnot o) o.gd o.ty (.m o.d) [o.s1] (fun xs => putM o.d (lowBits o.ty (~~~(xs.getD 0 0)))) s
def execMpop (o : MW) (s : State) : Host.Outcome State Fault Refusal :=
  maskRun (.mpop o) o.gd o.ty (.w o.d) [o.s1] (fun xs =>
    putW o.d (BitVec.ofNat 64 ((List.range 64).filter fun i => (xs.getD 0 0).getLsbD i).length)) s
def execMfirst (o : MW) (s : State) : Host.Outcome State Fault Refusal :=
  maskRun (.mfirst o) o.gd o.ty (.w o.d) [o.s1] (fun xs =>
    putW o.d (BitVec.ofNat 64 (((List.range 64).find? fun i => (xs.getD 0 0).getLsbD i).getD o.ty.lanes))) s
def execMtop (o : MP) (s : State) : Host.Outcome State Fault Refusal :=
  maskRun (.mtop o) o.gd o.ty (.p o.d) [o.s1] (fun xs => putP o.d (xs.getD 0 0 != 0)) s

end Sys2Proof.Machine
end

