-- ==== Sys2Proof/Machine/Convert.lean ====
section
/-! DEFINITION. The conversion instructions 0xA0 to 0xA8 and the conversion unit (10_vector_conversion.md R199 to R208,
R374). A unit operation works when it completes, on the values that bytes have held since it became the unit's oldest (log 22). -/
namespace Sys2Proof.Machine

/-! ## Issue of a unit operation (R199, R200) -/

/-- The operation enters the unit's queue, and the execute half waits for it. -/
def enterUnit (i : Instr) (op : ConvOp) : M Unit := do
  modify fun s => s.modTile s.myTile fun t => { t with
    conv := t.conv ++ [op], convMark := if t.conv.isEmpty then s.past.length else t.convMark }
  retire i
  actMe fun sl => sl.setWait .execute .conversion

/-- An operation of the slot that issues, with no operands yet. -/
def newConv (s : State) (kind : ConvKind) : ConvOp :=
  { kind := kind, slot := s.cur.slot, task := s.me.task, rnd := .rne, sat := false, t := [], src := [], index := 0, vec := 0,
    vdest := none, nm := (s.core s.myCore).nanmode, srgen := s.me.xr.srgen, got := none }

/-- The dimensions of two tensors agree from dimension k on, and so do their ranks. -/
def sameShape (k : Nat) (t u : TRef) : Bool := t.rank == u.rank && (List.range 4).all fun j => decide (j < k ∨ t.dim j = u.dim j)
/-- The agreement of ALIGN: blocks of t hold the elements of s (R204). -/
def blocksAgree (t u : TRef) : Bool := sameShape 1 t u && decide (t.dim 0 = u.dim 0 / 64)

/-- A unit operation of two tensors: D names the destination and S1 the source. -/
def convTwo (i : Instr) (o : T2C) (kind : ConvKind) (acceptT acceptS : TRef → Bool) (agree : TRef → TRef → Bool) (s : State) :
    Host.Outcome State Fault Refusal :=
  M.step (do
    let f := mkForm i o.gd .execute
    begin f true
    needStored
    let cs ← prepare f [.w o.s1, .w o.t] [] (retire i)
    let s0 ← get
    let a ← takeW cs o.s1
    let b ← takeW cs o.t
    let t ← useTensor s0 i b acceptT
    let src ← useTensor s0 i a acceptS
    if !agree (mainOf t) (mainOf src) then raiseFrom s0 i 16 7 0
    enterUnit i { newConv s0 kind with rnd := o.rnd, sat := o.sat, t := t, src := src }) s

def execCvt (o : T2C) (s : State) : Host.Outcome State Fault Refusal :=
  convTwo (.cvt o) o .cvt plainClass plainClass (sameShape 0) s
def execAlign (o : T2C) (s : State) : Host.Outcome State Fault Refusal :=
  convTwo (.align o) o .align blockClass plainClass blocksAgree s
def execDealign (o : T2C) (s : State) : Host.Outcome State Fault Refusal :=
  convTwo (.dealign o) o .dealign plainClass blockClass (fun t u => blocksAgree u t) s
def execBscale (o : T2C) (s : State) : Host.Outcome State Fault Refusal :=
  convTwo (.bscale o) o .bscale (fun r => plainClass r && r.bse) plainClass (sameShape 0) s

/-- The element index of CVLD and CVST (R205). -/
def indexRow (x : Word) : RowIx :=
  { i1 := (x.extractLsb' 16 16).toNat, i2 := (x.extractLsb' 32 16).toNat, i3 := (x.extractLsb' 48 16).toNat }
def indexCol (x : Word) : Nat := (x.extractLsb' 0 16).toNat
/-- An index within the dimensions up to the rank, and zero above it; a dimension above the rank has the size 1. -/
def indexOk (r : TRef) (x : Word) : Bool :=
  (List.range 4).all fun k => decide ((x.extractLsb' (16 * k) 16).toNat ≤ r.dim k)

def execCvld (o : CvldR) (s : State) : Host.Outcome State Fault Refusal :=
  M.step (do
    let i := Instr.cvld o
    let f := mkForm i o.gd .execute
    begin f true
    needStored
    let cs ← prepare f [.w o.s1, .w o.s2] [.v o.d] (retire i)
    let s0 ← get
    let a ← takeW cs o.s1
    let x ← takeW cs o.s2
    let t ← useTensor s0 i a plainClass
    if !indexOk (mainOf t) x then raiseFrom s0 i 16 7 0
    enterUnit i { newConv s0 .cvld with t := t, index := x, vdest := some o.d }) s
def execCvst (o : CvstR) (s : State) : Host.Outcome State Fault Refusal :=
  M.step (do
    let i := Instr.cvst o
    let f := mkForm i o.gd .execute
    begin f true
    needStored
    let cs ← prepare f [.w o.s1, .v o.s2, .w o.t] [] (retire i)
    let s0 ← get
    let x ← takeW cs o.s1
    let v ← takeV o.s2
    let b ← takeW cs o.t
    let t ← useTensor s0 i b plainClass
    if !indexOk (mainOf t) x then raiseFrom s0 i 16 7 0
    enterUnit i { newConv s0 .cvst with t := t, index := x, vec := v }) s

/-! ## The work of the unit -/

/-- n draws of the generator and the state that they leave; no mode but `.RSR` draws (R77). -/
def drawList (rnd : Rnd) : Nat → BitVec 32 → List Nat × BitVec 32
  | 0, g => ([], g)
  | n + 1, g =>
    if rnd == .rsr then
      let g := srDraw g
      let (ds, h) := drawList rnd n g
      (g.toNat :: ds, h)
    else ((List.replicate (n + 1) 0), g)

/-- CVT (R202). -/
def workCvt (op : ConvOp) : M (BitVec 32) := do
  let s0 ← get
  let t := mainOf op.t
  let (ds, g) := drawList op.rnd t.elems.length op.srgen
  (t.elems.zip ds).forM fun ((x, i0), d) => do
    let v ← elemValue s0 op.nm op.src x i0
    let b ← scaleByte s0 op.t x i0
    modify (putElem t x i0 (convCode t op.nm op.rnd op.sat d b v))
  return g

/-- The block-scale byte of a block (R203): the least power of two that brings the largest finite magnitude within F. A
format whose F is zero needs the largest byte (DEDUCED, log 23). -/
def blockScale (r : TRef) (nm : Bool) (vs : List Val) : Nat :=
  if vs.any Val.isNan then 255
  else
    let mx := vs.foldl (fun (acc : Val) v => match v with | .fin _ _ _ => acc.max v.abs | _ => acc) (.fin false 0 0)
    match mx.scale (-r.scale), r.fmt.largest nm with
    | .fin _ 0 _, _ => 127
    | .fin _ m e, .fin _ n f =>
      if n = 0 then 254
      else
        let k : Int := (m.log2 : Int) + e - n.log2 - f
        let k := if Val.lt (.fin false n (f + k)) (.fin false m e) then k + 1 else k
        (min (max (127 + k) 0) 254).toNat
    | _, _ => 127
/-- BSCALE (R203). -/
def workBscale (op : ConvOp) : M (BitVec 32) := do
  let s0 ← get
  let t := mainOf op.t
  let bs := op.t.getD 1 noTensor
  let (ds, g) := drawList op.rnd t.elems.length op.srgen
  let n := t.dim 0 + 1
  ((List.range t.rows.length).zip t.rows).forM fun (k, x) =>
    (List.range (t.dim 0 / 32 + 1)).forM fun b => do
      let is := (List.range (min 32 (n - 32 * b))).map fun j => 32 * b + j
      let vs ← is.mapM (elemValue s0 op.nm op.src x)
      let c := blockScale t op.nm vs
      modify (putElem bs x b c)
      (is.zip vs).forM fun (i0, v) =>
        modify (putElem t x i0 (convCode t op.nm op.rnd op.sat (ds.getD (k * n + i0) 0) c v))
  return g

/-- `AlignBlock` of R79 with a rounding mode: the shared exponent, NAN, and the mantissa codes. `big` is the largest finite
value of the source format. -/
def alignBlock (w : Nat) (nm : Bool) (rnd : Rnd) (big : Val) (vs : List Val) (ds : List Nat) : Int × Bool × List Nat :=
  if vs.any Val.isNan || (nm && vs.any fun v => match v with | .inf _ => true | _ => false) then
    (0, true, vs.map fun _ => 0)
  else
    let vs := vs.map fun v => match v with
      | .inf neg => if neg then big.neg else big
      | v => v
    let mx := vs.foldl (fun (acc : Val) v => acc.max v.abs) (.fin false 0 0)
    let X : Int := match mx with
      | .fin _ m e => if m = 0 then 0 else (m.log2 : Int) + e - (w - 2)
      | _ => 0
    let X := min (max X (-32768)) 32767
    (X, false, (vs.zip ds).map fun (v, d) => (Fmt.fixed true w 0).encode nm rnd true d (v.scale (-X)))
/-- Write a block (R79). -/
def putBlock (r : TRef) (x : RowIx) (b : Nat) (X : Int) (nan : Bool) (qs : List Nat) (s : State) : State :=
  let bit := b * r.step
  let h := (X % 2 ^ 16).toNat + (if nan then 2 ^ 16 else 0) + 2 ^ 20 * r.aw
  let s := writeBits r (r.rowAt x) bit 64 h s
  ((List.range 64).zip qs).foldl (fun acc (j, q) => writeBits r (r.rowAt x) (bit + 64 + j * r.aw) r.aw q acc) s
/-- ALIGN (R204). -/
def workAlign (op : ConvOp) : M (BitVec 32) := do
  let s0 ← get
  let t := mainOf op.t
  let src := mainOf op.src
  let (ds, g) := drawList op.rnd (64 * t.elems.length) op.srgen
  ((List.range t.elems.length).zip t.elems).forM fun (k, x, b) => do
    let vs ← (List.range 64).mapM fun j =>
      if 64 * b + j ≤ src.dim 0 then elemValue s0 op.nm op.src x (64 * b + j) else return .fin false 0 0
    let (X, nan, qs) := alignBlock t.aw op.nm op.rnd (src.fmt.largest op.nm) vs ((ds.drop (64 * k)).take 64)
    modify (putBlock t x b X nan qs)
  return g

/-- The header of a block: its exponent and NAN. Its W is not read: the entry's AW gives the width (DEDUCED, log 104). -/
def blockHead (s0 : State) (r : TRef) (x : RowIx) (b : Nat) : M (Int × Bool) := do
  let h ← readBits s0 r (r.rowAt x) (b * r.step) 64
  return ((BitVec.ofNat 16 h).toInt, h / 2 ^ 16 % 2 == 1)
/-- A mantissa of a block. -/
def blockMant (s0 : State) (r : TRef) (x : RowIx) (b j : Nat) : M Int := do
  let q ← readBits s0 r (r.rowAt x) (b * r.step + 64 + j * r.aw) r.aw
  return (BitVec.ofNat r.aw q).toInt
/-- DEALIGN (R204). -/
def workDealign (op : ConvOp) : M (BitVec 32) := do
  let s0 ← get
  let t := mainOf op.t
  let src := mainOf op.src
  let (ds, g) := drawList op.rnd t.elems.length op.srgen
  (t.elems.zip ds).forM fun ((x, i0), d) => do
    let (X, nan) ← blockHead s0 src x (i0 / 64)
    let q ← blockMant s0 src x (i0 / 64) (i0 % 64)
    let b ← scaleByte s0 op.t x i0
    modify (putElem t x i0 (convCode t op.nm op.rnd op.sat d b (if nan then .nan else (Val.ofInt q).scale X)))
  return g

/-- CVLD's register value (R205). -/
def workCvld (op : ConvOp) : M VWord := do
  let s0 ← get
  let t := mainOf op.t
  let ls ← (List.range 16).mapM fun j => do
    let i0 := indexCol op.index + j
    if i0 ≤ t.dim 0 then
      let v ← elemValue s0 op.nm op.t (indexRow op.index) i0
      return Fmt.f32.rne op.nm v
    else return 0
  return ofLanes 32 ls
/-- CVST's writes, in ascending order (R205). -/
def workCvst (op : ConvOp) : M Unit := do
  let s0 ← get
  let t := mainOf op.t
  (List.range 16).forM fun j => do
    let i0 := indexCol op.index + j
    if i0 ≤ t.dim 0 then
      let b ← scaleByte s0 op.t (indexRow op.index) i0
      let v := Fmt.f32.decode op.nm (lane 32 op.vec j)
      modify (putElem t (indexRow op.index) i0 (convCode t op.nm .rne false 0 b v))

/-- The work of an operation: the generator state that it leaves, and CVLD's value. -/
def convWork (op : ConvOp) : M (BitVec 32 × VWord) := do
  match op.kind with
  | .cvt => return (← workCvt op, 0)
  | .bscale => return (← workBscale op, 0)
  | .align => return (← workAlign op, 0)
  | .dealign => return (← workDealign op, 0)
  | .cvst => do
    workCvst op
    return (op.srgen, 0)
  | .cvld => return (op.srgen, ← workCvld op)
/-- The unit's oldest operation reads its sources and writes its destination, on what bytes have held since it began (R201). -/
def convDo (tile : Nat) (op : ConvOp) : M (BitVec 32 × VWord) :=
  match op.got with
  | some x => return x
  | none => do
    modify fun s => { s with cur := { slot := op.slot, half := .execute } }
    during false ((← get).tile tile).convMark (do
      let s0 ← get
      let x ← convWork op
      modify (keepRaces s0)
      return x)
/-- It does so some time before it is complete. -/
def convRead (tile : Nat) : M Unit := do
  match ((← get).tile tile).conv with
  | [] => pure ()
  | op :: rest => do
    let x ← convDo tile op
    modify fun s => s.modTile tile fun t => { t with conv := { op with got := some x } :: rest }

/-- The slot of an operation still runs the task that issued it. -/
def stillMine (s : State) (slot task : Nat) : Bool := (s.slot slot).bound && (s.slot slot).task == task

/-- CONVERSION_UNIT_COMPLETE (R199, R374): the unit's oldest operation does its work and is complete; its parked execute half
is released. -/
def execConversionUnitComplete (tile : Nat) (s : State) : Host.Outcome State Fault Refusal :=
  M.step (do
    match (s.tile tile).conv with
    | [] => pure ()
    | op :: rest =>
      let (g, v) ← convDo tile op
      modify fun s => settlePast (s.modTile tile fun t => { t with conv := rest, convMark := s.past.length })
      modify fun s => { s with cur := { slot := op.slot, half := .execute } }
      if stillMine (← get) op.slot op.task then
        match op.vdest with
        | some d => putV d v
        | none => pure ()
        actMe fun sl => ({ sl with xr := { sl.xr with srgen := g } } : Slot).setWait .execute .none) s

/-! ## SEED, VPACK and VUNPK (R206, R207) -/

def execSeed (o : S1W) (s : State) : Host.Outcome State Fault Refusal :=
  M.step (do
    let i := Instr.seed o
    let f := mkForm i o.gd .execute
    begin f false
    needStored
    let cs ← prepare f [.w o.s1] [] (retire i)
    let x ← takeW cs o.s1
    actMe fun sl => { sl with xr := { sl.xr with srgen := srWrite (x.truncate 32) } }
    retire i) s

/-- The formats of VPACK and VUNPK: narrow, without block scales. -/
def packClass (r : TRef) : Bool := decide (r.cls ≤ 1) && !r.bse

/-- Codes of the lanes of VPACK, one draw for each. -/
def packLanes (t : TRef) (nm sat : Bool) (rnd : Rnd) (v : VWord) : List Nat → M (List Nat)
  | [] => return []
  | j :: js => do
    let r ← draw rnd
    let cs ← packLanes t nm sat rnd v js
    return t.fmt.encode nm rnd sat r ((Fmt.f32.decode nm (lane 32 v j)).scale (-t.scale)) :: cs
def execVpack (o : VpackR) (s : State) : Host.Outcome State Fault Refusal :=
  M.step (do
    let i := Instr.vpack o
    let f := mkForm i o.gd .execute
    begin f false
    needStored
    let cs ← prepare f [.v o.s1, .w o.s2] [.v o.d] (retire i)
    let s0 ← get
    let v ← takeV o.s1
    let a ← takeW cs o.s2
    let t := mainOf (← useTensor s0 i a packClass)
    let xs ← packLanes t (s0.core s0.myCore).nanmode o.sat o.rnd v (List.range 16)
    putV o.d (ofLanes t.fmt.width xs)
    retire i) s
def execVunpk (o : VunpkR) (s : State) : Host.Outcome State Fault Refusal :=
  M.step (do
    let i := Instr.vunpk o
    let f := mkForm i o.gd .execute
    begin f false
    needStored
    let cs ← prepare f [.v o.s1, .w o.s2] [.v o.d] (retire i)
    let s0 ← get
    let v ← takeV o.s1
    let a ← takeW cs o.s2
    let t := mainOf (← useTensor s0 i a packClass)
    let nm := (s0.core s0.myCore).nanmode
    putV o.d (ofLanes 32 ((List.range 16).map fun j =>
      Fmt.f32.rne nm ((t.fmt.decode nm (lane t.fmt.width v j)).scale t.scale)))
    retire i) s

end Sys2Proof.Machine
end

