-- ==== Sys2Proof/Machine/Digest.lean ====
section
/-! DEFINITION. The digest call instructions 0xE0 to 0xE6 (08_core.md R155, 14_digest_code.md R276 to R284). -/
namespace Sys2Proof.Machine

/-! ## Digests -/

/-- A digest's operand: a constant window, or an address in a register. -/
inductive DigestAt where
  | window (win : BitVec 3) (off : BitVec 17)
  | reg (r : WReg)
def DigestAt.of : WReg → DigestAt
  | .const w k => .window w k
  | r => .reg r
def DigestAt.srcs : DigestAt → List WReg
  | .window _ _ => []
  | .reg r => [r]

/-- Scout mode ends at the instruction (R284). -/
def leaveScout : M Unit := haltWith fun s => endScout s.cur.slot s

/-- One word of a digest, read as a load of the slot; it is not recorded, and no purity check is made. -/
def digestWord (i : Instr) (va : Word) : M Word := do
  let l ← homeLoc i va Access.load leaveScout
  let s ← get
  let n := s.cur.slot
  let pos := s.me.ar.pos
  holdUnless (!mustWait s n pos l 8)
  let (v, bad, s) := readMem n pos l 8 s
  set s
  checkPoison bad
  return v.truncate 64
/-- The digest at an address. -/
def readDigest (i : Instr) (da : Word) : M (List Word) :=
  (List.range 6).mapM fun k => digestWord i (da + BitVec.ofNat 64 (8 * k))
/-- The digest of an instruction and its address (R278): the words of a window are read as constants are, one after the
other from the operand's address. -/
def operandDigest (i : Instr) (at' : DigestAt) (xs : List Word) : M (Word × List Word) := do
  match at' with
  | .window w k => do
    let da := (← getMe).constAddr w k
    let dig ← (List.range 6).mapM fun j => constWord i (da + BitVec.ofNat 64 (8 * j)) leaveScout
    return (da, dig)
  | .reg _ => do
    let da := xs.headD 0
    if da.toNat % 8 ≠ 0 then raise i 5 3 da
    let dig ← readDigest i da
    return (da, dig)

/-! ## Code faults (R284) -/

/-- The words of an instruction, which a parked call keeps (R275). -/
def Instr.words (i : Instr) : Word × Word := ((encode i).word, (encode i).ext.zeroExtend 64)

/-- The code fault: the fetch starts, and both halves park on it before any effect. In scout mode the fetch starts and the
mode ends. -/
def codeFault {α : Type} (i : Instr) (why : FetchFor) (da : Word) (dig : List Word) : M α := do
  let s ← get
  let n := s.cur.slot
  let c := clusterOfSlot n
  if s.me.scout.isSome then
    haltWith fun s => endScout n (startFetch c (s.vfOf n) (s.asidOf n) (dieOfSlot n) dig none none s).2
  meetAt
  let s ← get
  let (id, s) := startFetch c (s.vfOf n) (s.asidOf n) (dieOfSlot n) dig none (some { slot := n, why := why, da := da }) s
  let keep : Option (Word × Word) := if why == .call then some (Instr.words i) else none
  haltWith fun _ => trimVault c (s.modSlot n fun sl => { sl with awai := .code id, xwai := .code id, held := keep })

/-- The entry that holds a digest's code, or the code fault. An entry that is met in scout mode ends it. -/
def needCode (i : Instr) (why : FetchFor) (da : Word) (dig : List Word) : M VaultEntry := do
  let s ← get
  let n := s.cur.slot
  match vaultLookup s (clusterOfSlot n) (s.vfOf n) dig with
  | none => codeFault i why da dig
  | some e => do
    if s.me.scout.isSome then leaveScout
    return e

/-! ## Frames (R276, R277) -/

/-- A frame size from its code (R277). -/
def frameSize (c : BitVec 2) : Nat := 8 * c.toNat
def depthOf (sl : Slot) : Nat := sl.sys.cfp.toNat
/-- Word k of the frame record at an offset. -/
def frameWord (s : State) (n off k : Nat) : Word := memWord s (frameKey s n (off + 8 * k))
def setFrameWord (n off k : Nat) (v : Word) (s : State) : State := memSetWord (frameKey s n (off + 8 * k)) v s
/-- The short tag of the current function. -/
def currentTag (s : State) (n : Nat) : Word :=
  match currentEntry s n with
  | some e => e.digest.headD 0
  | none => ((digestNow s n (s.slot n).sys.cfda).bind (·.head?)).getD 0
/-- The frame size of the current function: its entry's, or, when a call found the entry evicted, the live frame's or that
of the function's translation in a heap. -/
def currentFrame (s : State) (n : Nat) : Nat :=
  match currentEntry s n with
  | some e => frameSize e.frame
  | none =>
    let off := depthOf (s.slot n)
    if 64 < off then frameSize ((frameWord s n (off - 32) 0).extractLsb' 12 2)
    else
      match (digestNow s n (s.slot n).sys.cfda).bind fun dig => offered s (dieOfSlot n) dig nativeKind with
      | none => 0
      | some o => match parseHeader fun k => o.wordAt s (256 + k) with
        | some h => frameSize h.frame
        | none => 0

/-- The record that a call pushes. -/
def frameRecord (s : State) (n : Nat) (rp : BitVec 12) (e : VaultEntry) : List Word :=
  let sl := s.slot n
  let w0 : Word := rp.zeroExtend 64 ||| (e.frame.zeroExtend 64 <<< 12) ||| (sl.sys.rots.zeroExtend 64 <<< 14)
    ||| (sl.xr.rb.zeroExtend 64 <<< 16) ||| ((sl.sys.cfh &&& 0x3F#64) <<< 20) ||| (sl.sys.cfh &&& 0xFFFFFFFF00000000#64)
  [w0, currentTag s n, sl.sys.cfda, e.digest.headD 0]

/-! ## Calls (R278) -/

/-- The slot goes on in a function: `CFDA`, `CFH` and windows, the window base, the rotating region, and both halves at an
address. -/
def goTo (n : Nat) (e : VaultEntry) (da : Word) (wbase : BitVec 32) (rots : BitVec 2) (rb : BitVec 4) (pc : Nat) (s : State) :
    State :=
  (enterEntry n e da s).modSlot n fun sl =>
    let sl : Slot := { sl with sys := { sl.sys with wbase := wbase, rots := rots }, xr := { sl.xr with rb := rb } }
    sl.advanceBoth (BitVec.ofNat 64 pc)

/-- The uppermost f entries of a window are fresh: each is zero or what its entry of the stack held, a free choice (R34). -/
def freshen (n f : Nat) (s : State) : State :=
  let (c, s) := s.nextFree
  s.modSlot n fun sl =>
    let first := sl.sys.wbase.toNat + 32 - f
    { sl with xr := { sl.xr with
      stack := (List.range f).foldl (fun st k => if c.testBit k then st.set! ((first + k) % 128) 0#64 else st) sl.xr.stack } }

/-- The spill trap (R155), where the window moves up from `low` by F. -/
def checkSpill (i : Instr) (low : Int) (f : Nat) : M Unit := do
  let sl ← getMe
  let beyond : Int := low + f + 32 - (sl.sys.rslow.toNat + 128)
  if 0 < beyond then raise i 7 beyond.toNat 0
/-- The fill trap (R155), where the window is to lie at `base`. -/
def checkFill (i : Instr) (base : Int) : M Unit := do
  let short : Int := Int.ofNat (← getMe).sys.rslow.toNat - base
  if 0 < short then raise i 8 short.toNat 0

/-- CALLD and CALLDR, from the digest's operand and the return point; `ok` says that the operand is of the class that R278
asks for, which is tested after the guard (R284). -/
def callDigest (i : Instr) (g : Guard) (at' : DigestAt) (rp : BitVec 12) (ok : Bool) (s : State) :
    Host.Outcome State Fault Refusal :=
  M.step (do
    let (xs, take) ← jointOperands i g at'.srcs [] true
    if !ok then raise i 3 1 0
    let (da, dig) ← operandDigest i at' xs
    let e ← needCode i .call da dig
    let f := frameSize e.frame
    checkSpill i (← getMe).sys.wbase.toNat f
    if depthOf (← getMe) = 4096 then raise i 9 0 0
    take
    modify fun s =>
      let n := s.cur.slot
      let sl := s.slot n
      let off := depthOf sl
      let ws := frameRecord s n rp e
      let s := (List.range 4).foldl (fun acc k => setFrameWord n off k (ws.getD k 0) acc) s
      let s := s.modSlot n fun sl => { sl with sys := { sl.sys with cfp := sl.sys.cfp + 32 } }
      freshen n f (goTo n e da (sl.sys.wbase + BitVec.ofNat 32 f) e.rot 0 (e.code + e.entry) s)) s

def execCalld (o : CalldOps) (s : State) : Host.Outcome State Fault Refusal :=
  match o.s1 with
  | .const w k => callDigest (.calld o) o.gd (.window w k) o.rp true s
  | _ => callDigest (.calld o) o.gd (.window 0 0) o.rp false s
def execCalldr (o : CalldrOps) (s : State) : Host.Outcome State Fault Refusal := callDigest (.calldr o) o.gd (.reg o.s1) o.rp true s

/-- TAILD (R280): the window moves from where the current function's caller has it. Where it would fall below `RSLOW` the fill
trap keeps the invariant of R154 (DEDUCED, log 93). -/
def execTaild (o : S1W) (s : State) : Host.Outcome State Fault Refusal :=
  M.step (do
    let i := Instr.taild o
    let at' := DigestAt.of o.s1
    let (xs, take) ← jointOperands i o.gd at'.srcs [] true
    let (da, dig) ← operandDigest i at' xs
    let e ← needCode i .call da dig
    let f := frameSize e.frame
    let s ← get
    let fcur := currentFrame s s.cur.slot
    checkSpill i (Int.ofNat s.me.sys.wbase.toNat - Int.ofNat fcur) f
    checkFill i (Int.ofNat s.me.sys.wbase.toNat - Int.ofNat fcur + Int.ofNat f)
    take
    modify fun s =>
      let n := s.cur.slot
      let sl := s.slot n
      let off := depthOf sl
      let s := if 64 < off then
          let w := frameWord s n (off - 32) 0
          setFrameWord n (off - 32) 0 ((w &&& ~~~0x3000#64) ||| (e.frame.zeroExtend 64 <<< 12)) s
        else s
      freshen n (f - fcur) (goTo n e da (sl.sys.wbase - BitVec.ofNat 32 fcur + BitVec.ofNat 32 f) e.rot 0 (e.code + e.entry) s)) s

/-! ## RETD (R279) -/

/-- The caller's entry: by slot and serial, else by tag and full digest, else the code fault. -/
def callerEntry (i : Instr) (off : Nat) : M VaultEntry := do
  let s ← get
  let n := s.cur.slot
  let w0 := frameWord s n off 0
  let da := frameWord s n off 2
  match (s.vault (clusterOfSlot n)).entries.find? fun e =>
      e.named (s.vfOf n) ((w0.extractLsb' 20 6).toNat) (w0.extractLsb' 32 32) with
  | some e => return e
  | none => do
    let dig ← if da.getLsbD 63 then pure (frameDigest s n (da.extractLsb' 0 12).toNat) else readDigest i da
    let s ← get
    match vaultLookup s (clusterOfSlot n) (s.vfOf n) dig with
    | some e => if e.digest.headD 0 = frameWord s n off 1 then return e else codeFault i .ret da dig
    | none => codeFault i .ret da dig

/-- The return into an entry: the frame at an offset is popped. -/
def returnTo (n : Nat) (e : VaultEntry) (off : Nat) (wbase : BitVec 32) (pc : Nat) (s : State) : State :=
  let w0 := frameWord s n off 0
  goTo n e (frameWord s n off 2) wbase (w0.extractLsb' 14 2) (w0.extractLsb' 16 4) pc
    (s.modSlot n fun sl => { sl with sys := { sl.sys with cfp := BitVec.ofNat 64 off } })

def execRetd (o : N0) (s : State) : Host.Outcome State Fault Refusal :=
  M.step (do
    let i := Instr.retd o
    let _ ← jointOperands i o.gd [] [] true
    let sl ← getMe
    if depthOf sl = 64 then
      if sl.scout.isSome then leaveScout
      tendNow
    let off := depthOf sl - 32
    let e ← callerEntry i off
    if sl.scout.isSome then leaveScout
    let s ← get
    let n := s.cur.slot
    let fcur := currentFrame s n
    checkFill i (Int.ofNat sl.sys.wbase.toNat - Int.ofNat fcur)
    let w0 := frameWord s n off 0
    let rp := (w0.extractLsb' 0 12).toNat
    match e.rpmap[rp]? with
    | none => raise i 1 3 0
    | some at0 => modify (returnTo n e off (sl.sys.wbase - BitVec.ofNat 32 fcur) (e.code + at0))) s

/-! ## CFETCH, VEVICT and VPROBE (R281 to R283) -/

/-- Where word k of the digest at `da` lies, for a read that raises nothing (KIND 4, R97): its place in the page that has just
been installed, or what the slice holds; a miss of it is posted, with the words that have been read. -/
def quietWord (n : Nat) (da : Word) (page : Option Loc) (ws : List Word) (s : State) : Option Loc × State :=
  let va := da + BitVec.ofNat 64 (8 * ws.length)
  if va.toNat % 8 ≠ 0 || va.extractLsb' 55 9 != 0#9 then (none, s)
  else match page.filter fun l => l.va / 65536 == va.toNat / 65536 with
    | some l => (some (l.at va.toNat), s)
    | none =>
      let user := !(s.slot n).super
      match lookupT (dieOfSlot n) va.toNat (s.asidOf n) Access.prefetch user s with
      | .ok l s => (some l, s)
      | .fault _ _ s => (none, s)
      | .miss conf s => (none, addMiss (dieOfSlot n) (.cfetch n da.toNat ws) (coreOfSlot n) va.toNat (s.asidOf n) Access.prefetch
          conf user s)
/-- The words of a digest from those that have been read on, `k` of them; nothing when one cannot be read now. -/
def quietFrom (n : Nat) (da : Word) (page : Option Loc) : Nat → List Word → State → Option (List Word) × State
  | 0, ws, s => (some ws, s)
  | k + 1, ws, s =>
    match quietWord n da page ws s with
    | (none, s) => (none, s)
    | (some l, s) =>
      let (v, bad, s) := readMem n (s.slot n).ar.pos l 8 s
      if bad then (none, s) else quietFrom n da page k (ws ++ [v.truncate 64]) s
/-- A digest read that raises nothing. -/
def quietDigest (n : Nat) (da : Word) (s : State) : Option (List Word) × State := quietFrom n da none 6 [] s

/-- CFETCH has its digest: the fetch starts unless the code is resident (R281). -/
def prefetchDigest (n : Nat) : Option (List Word) × State → State
  | (none, s) => s
  | (some dig, s) =>
    let c := clusterOfSlot n
    if (vaultLookup s c (s.vfOf n) dig).isSome then s
    else (startFetch c (s.vfOf n) (s.asidOf n) (dieOfSlot n) dig none none s).2

/-- CFETCH: the fetch starts unless the code is resident; every failure is dropped. -/
def execCfetch (o : S1W) (s : State) : Host.Outcome State Fault Refusal :=
  M.step (do
    let i := Instr.cfetch o
    let at' := DigestAt.of o.s1
    let (xs, take) ← jointOperands i o.gd at'.srcs [] false
    let da := match at' with
      | .window w k => (s.slot s.cur.slot).constAddr w k
      | .reg _ => xs.headD 0
    take
    modify fun s => prefetchDigest s.cur.slot (quietDigest s.cur.slot da s)
    retireBoth i) s

def execVevict (o : S1W) (s : State) : Host.Outcome State Fault Refusal :=
  M.step (do
    let i := Instr.vevict o
    let at' := DigestAt.of o.s1
    let (xs, take) ← jointOperands i o.gd at'.srcs [] false
    let (_, dig) ← operandDigest i at' xs
    take
    modify fun s =>
      let n := s.cur.slot
      let c := clusterOfSlot n
      match vaultLookup s c (s.vfOf n) dig with
      | some e => if pinned s c e then s else evictEntry c e s
      | none => s
    retireBoth i) s

/-- The word of VPROBE (R283). -/
def probeWord (s : State) (n : Nat) (dig : List Word) : Word :=
  let c := clusterOfSlot n
  let fetching := (s.vault c).fetches.any fun f => f.vf == s.vfOf n && f.digest == dig
  let f : Word := if fetching then 0x100#64 else 0
  match vaultLookup s c (s.vfOf n) dig with
  | none => f
  | some e => f ||| 1#64 ||| BitVec.ofNat 64 (2 * (e.slot % 64)) ||| (if pinned s c e then 0x80#64 else 0)
      ||| (e.serial.zeroExtend 64 <<< 32)

def execVprobe (o : R2W) (s : State) : Host.Outcome State Fault Refusal :=
  M.step (do
    let i := Instr.vprobe o
    let (xs, take) ← jointOperands i o.gd [o.s1] [.w o.d] false
    let da := xs.headD 0
    if da.toNat % 8 ≠ 0 then raise i 5 3 da
    let dig ← readDigest i da
    take
    let s ← get
    putW o.d (probeWord s s.cur.slot dig)
    retireBoth i) s

end Sys2Proof.Machine
end

