-- ==== Sys2Proof/Machine/Fetch.lean ====
section
/-! DEFINITION. Demand fetches, the instruction cache and decoding (03_encoding.md R38, R39, R57, 09_scalar_instructions.md
R183 to R185, 14_digest_code.md R274, 22_program_fetch_fault.md R369). -/
namespace Sys2Proof.Machine

/-! ## The instruction cache (R184) -/

def findI (s : State) (c : Nat) (asid : BitVec 16) (vline : Nat) : Option ILine :=
  (s.core c).icache.find? fun l => l.asid == asid && l.vline == vline

/-- A demand fetch hits a line: it is used. -/
def useI (c : Nat) (asid : BitVec 16) (vline : Nat) (s : State) : State :=
  let s := { s with clock := s.clock + 1 }
  s.modCore c fun x => { x with
    icache := modFirst x.icache (fun l => l.asid == asid && l.vline == vline) fun l => { l with used := s.clock } }

/-- The bytes of a code line as memory has them: the slice's copy, or the home's. -/
def lineBytes (s : State) (d : Nat) (asid : BitVec 16) (vline key : Nat) : BitVec 1024 :=
  match findLine (s.die d).lines asid vline with
  | some l => l.data
  | none => (homeLine s asid vline key).1
/-- The byte of a function's code at an address, from the vault where it is resident (R274). -/
def vaultByte (s : State) (c vf a : Nat) : Option Byte :=
  (s.vault c).entries.findSome? fun e =>
    if e.vf == vf && decide (e.code ≤ a) && decide (a < e.code + e.codelen) then some (e.bytes.getD (a - e.code) 0) else none
/-- The bytes of a code line: the vault serves those of resident code, and the slice the others (R274). -/
def codeBytes (s : State) (c d vf : Nat) (asid : BitVec 16) (vline key : Nat) : BitVec 1024 :=
  let rest := lineBytes s d asid vline key
  BitVec.ofNat 1024 (natBE ((List.range 128).reverse.map fun k =>
    (vaultByte s c vf (128 * vline + k)).getD (rest.extractLsb' (8 * k) 8)))

/-- A line enters the cache in place of the least recently used way of its set; a line that no demand has used counts as
used before every other (DEDUCED, log 18). -/
def putI (c : Nat) (x : ILine) (s : State) : State :=
  s.modCore c fun k =>
    let set := k.icache.filter fun l => l.vline % 64 == x.vline % 64
    let old := set.foldl (fun acc l => match acc with
      | none => some l
      | some y => if l.used < y.used then some l else some y) (none : Option ILine)
    let ls := if set.length < 4 then k.icache else match old with
      | some y => dropAll k.icache (fun l => l == y)
      | none => k.icache
    { k with icache := ls ++ [x] }

/-- A fill reads a line of a vault's code and finds its errors. R339 names no consumer of poisoned code: one that cannot be corrected is
counted each time, and the bytes stand (log 95). -/
def senseVault (c vf a : Nat) (s : State) : State :=
  if s.latent.isEmpty then s
  else (s.vault c).entries.foldl (fun acc e =>
    if e.vf == vf && codeLine e (a / 128) then
      let at' := ErrAt.inVault c e.slot
      let acc := sense vf at' acc
      if spoiled acc at' then countUncorr vf acc else acc
    else acc) s

/-- INSTRUCTION_LINE_FILL: the fill number `line` of a core arrives whole (R369). -/
def fillArrives (core line : Nat) (s : State) : State :=
  match (s.core core).ifills[line]? with
  | none => s
  | some f =>
    let s := { s with clock := s.clock + 1 }
    let tile := tileOfCore core
    let s := senseVault (clusterOfTile tile) f.vf (128 * f.vline) s
    let data := codeBytes s (clusterOfTile tile) (dieOfTile tile) f.vf f.asid f.vline f.key
    putI core { asid := f.asid, vline := f.vline, key := f.key, data := data, used := if f.demand then s.clock else 0 }
      (s.modCore core fun k => { k with ifills := k.ifills.eraseIdx line })
def execInstructionLineFill (core line : Nat) (s : State) : Host.Outcome State Fault Refusal := .next (fillArrives core line s)

/-! ## Demand fetches (R184, R185) -/

/-- A fault of an instruction fetch at the address that a half demands (R185, R369): no scout mode, one page. -/
def fetchFault {α : Type} (code lvl va : Nat) : M α := do
  let s ← get
  if s.me.scout.isSome then haltWith (endScout s.cur.slot)
  if s.me.super || isWalker s.cur.slot then raiseAt 0 6 (code + 16 * lvl) (BitVec.ofNat 64 va)
  meetAt
  actMe (startScout 0 code lvl va 3)
  haltWith fun s => endScout s.cur.slot s

/-- What a demand finds when its translation succeeds: the function must be resident (R274), and is fetched if it is not. A handler's code
that lies in no translation is read where it stands (DEDUCED, log 121). -/
def demandCode (pc : Word) : M Unit := do
  let s ← get
  let n := s.cur.slot
  if (codeAt s n pc).isNone then
    match codeHolder s pc.toNat with
    | none => if s.me.super then pure () else raiseAt 0 1 3 pc
    | some (o, _) =>
      if s.me.scout.isSome then haltWith (endScout n)
      let (id, s) := startFetch (clusterOfSlot n) (s.vfOf n) (s.asidOf n) (dieOfSlot n) o.digest (some pc.toNat)
        (some { slot := n, why := .demand, da := 0 }) s
      set s
      park (.code id)

/-- A fill in flight serves a demand (R369). -/
def markDemand (c : Nat) (asid : BitVec 16) (vline : Nat) (s : State) : State :=
  s.modCore c fun k => { k with ifills := modFirst k.ifills (fun f => f.asid == asid && f.vline == vline) fun f =>
    { f with demand := true } }

/-- The demand of the half that issues for the line of its next instruction: the line's bytes, or the end of the step. -/
def demandLine : M (BitVec 1024) := do
  let s ← get
  let n := s.cur.slot
  let h := s.cur.half
  let pc := s.me.pcOf h
  if s.me.badOf h then raiseAt 0 1 3 pc
  let c := s.myCore
  let asid := s.asidOf n
  match findI s c asid (vlineOf pc.toNat) with
  | some l => do
    demandCode pc
    modify (useI c asid (vlineOf pc.toNat))
    return l.data
  | none =>
    if (s.core c).ifills.any (fun f => f.asid == asid && f.vline == vlineOf pc.toNat) then
      haltWith (markDemand c asid (vlineOf pc.toNat))
    if pc.extractLsb' 55 9 ≠ 0#9 then fetchFault 3 1 pc.toNat
    let user := !s.me.super
    match lookupT s.myDie pc.toNat asid Access.fetch user s with
    | .ok l s => do
      set s
      if isRegSpace l.key then fetchFault 4 (if l.large then 2 else 3) pc.toNat
      demandCode pc
      match if isRemote l.key then takeReport s.myDie (.code n) l.va s else (none, s) with
      | (some r, s) => do
        set s
        fetchFault r.code.toNat r.level.toNat pc.toNat
      | (none, s) =>
        match awaitRemote (.code n) l.va l.key s with
        | (some s, _) => haltWith fun _ => startFill n l true s
        | (none, s) => haltWith fun _ => s
    | .fault code lv s => do
      set s
      fetchFault code lv pc.toNat
    | .miss conf t =>
      match takeReport s.myDie (.code n) pc.toNat t with
      | (some r, t) => do
        set t
        fetchFault r.code.toNat r.level.toNat pc.toNat
      | (none, t) => haltWith fun _ => addMiss s.myDie (.code n) c pc.toNat asid Access.fetch conf user t

/-- DEMAND_FETCH: a half asks for the line of its next instruction. -/
def execDemandFetch (slot : Nat) (half : Half) (s : State) : Host.Outcome State Fault Refusal :=
  M.step (do
    modify fun s => { s with cur := { slot := slot, half := half } }
    let sl ← getMe
    if sl.bound && sl.waitOf half == .none then
      let _ ← demandLine
      pure ()
    else pure ()) s

/-! ## Decoding (R57) -/

/-- The two words that hold an instruction at an address of its line; what lies past its 32-byte block is never part of
it. -/
def wordsAt (data : BitVec 1024) (pc : Word) : Word × Word :=
  let off := 8 * (pc.toNat % 128)
  (data.extractLsb' off 64, data.extractLsb' (off + 64) 64)

/-- The words of the instruction at which the half that issues stands: those that a parked call has kept (R275), or those of
its line. -/
def fetchWords : M (Word × Word) := do
  let s ← get
  match s.me.held with
  | some w => return w
  | none => do
    let data ← demandLine
    return wordsAt data (s.me.pcOf s.cur.half)

/-- Decode, or take the trap of the first check of R57 that fails; the traps name the detail that R57 gives. -/
def decodeAt (w : Word × Word) : M Instr := do
  let s ← get
  match decode ((s.me.pcOf s.cur.half).toNat % 32) w.1 w.2 with
  | .ok i => return i
  | .error (.illegal d) => raiseAt w.1 1 d 0
  | .error e =>
    -- the role check comes before the checks of reserved bits and classes
    match (match decodeRaw s.myRole (Raw.ofBits w.1 w.2) with | .error x => x | .ok _ => e) with
    | .illegal d => raiseAt w.1 1 d 0
    | .role d => raiseAt w.1 4 d 0
    | .reserved b => raiseAt w.1 2 b 0
    | .opclass f => raiseAt w.1 3 f 0

end Sys2Proof.Machine
end

