-- ==== Sys2Proof/Machine/Installs.lean ====
section
/-! DEFINITION. The install records that a slice receives, and what they let go on (05_memory_path.md R97 to R99, R104,
14_digest_code.md R281). -/
namespace Sys2Proof.Machine

/-- The waiters of a miss that a leaf serves: prefetches fill their lines, and CFETCH goes on with its digest, if the leaf
lets them (R145, R186, R281). The others ask again. -/
def wakeWaiter (pte : Word) (l : Loc) (r : Requester) (s : State) : State :=
  let may (n : Nat) (a : Access) : Bool := !permBad pte a (!(s.slot n).super) && isDram l.key && s.asidOf n == l.asid
  match r with
  | .pfh n va => if l.c && may n Access.prefetch then fillL1 (tileOfSlot n) (l.at va) s else s
  | .ipf n va => if may n Access.prefetchX then startFill n (l.at va) false s else s
  | .cfetch n da ws =>
    if may n Access.prefetch then prefetchDigest n (quietFrom n (BitVec.ofNat 64 da) (some l) (6 - ws.length) ws s) else s
  | _ => s

/-- A waiter of a miss whose leaf has failed a check of another access: a prefetch, or CFETCH's, misses anew for its own access. A
slot or a transfer asks again by itself. -/
def askAgain (d : Nat) (m : Miss) (r : Requester) (s : State) : State :=
  let again (n va : Nat) (a : Access) : State :=
    if s.asidOf n == m.asid then addMiss d r (coreOfSlot n) va m.asid a false (!(s.slot n).super) s else s
  match r with
  | .pfh n va => again n va Access.prefetch
  | .ipf n va => again n va Access.prefetchX
  | .cfetch n da _ => again n da Access.prefetch
  | _ => s

/-- The slice receives an install record (R99). A record whose miss an invalidation has overtaken is discarded and the miss
is posted again (R104). A reserved status counts as code 3. A failure of a prefetch is dropped. -/
def receiveInstall (d : Nat) (w0 w1 w2 : Word) (s : State) : State :=
  let sl := (w2.extractLsb' 16 6).toNat
  let tag := w2.extractLsb' 32 16
  let mine (m : Miss) : Bool := m.slice == sl && m.tag == tag && m.posted
  match (s.die d).misses.find? mine with
  | none => s
  | some m =>
    if m.stale then
      postMisses d (s.modDie d fun x => x.modMiss mine fun m => { m with posted := false, stale := false })
    else
      let s := s.modDie d fun x => { x with misses := dropAll x.misses mine }
      let status := (w2.extractLsb' 48 4).toNat
      let lvl := (w2.extractLsb' 52 2).toNat
      let report (code lvl : Nat) (who : List Requester) (s : State) : State :=
        s.modDie d fun x => { x with reports := x.reports ++ who.filterMap fun r => match r with
          | .pfh _ _ => none
          | .ipf _ _ => none
          | .cfetch _ _ _ => none
          | r => some { req := r, vpage := m.va / 65536, code := BitVec.ofNat 4 code, level := BitVec.ofNat 2 lvl } }
      if status ≠ 0 then report (if status ≤ 7 then status else 3) lvl m.waiters s
      else
        match installLeaf d w0 (physKey w1) (if lvl = 2 then 2 else 3) m.va m.asid m.access m.user s with
        | .ok l s => m.waiters.foldl (fun acc r => wakeWaiter w0 l r acc) s
        | .fault c lv s => (m.waiters.drop 1).foldl (fun acc r => askAgain d m r acc) (report c lv (m.waiters.take 1) s)
        | .miss _ s => s.modDie d fun x => { x with misses := m :: x.misses, installs := x.installs ++ [(sl, w0, w1, w2)] }

/-- The oldest install record of a slice arrives (R99). -/
def execInstallRecordReceive (die slice : Nat) (s : State) : Host.Outcome State Fault Refusal :=
  .next (match (s.die die).installs.find? (fun r => r.1 == slice) with
    | none => s
    | some (_, w0, w1, w2) =>
      receiveInstall die w0 w1 w2
        (s.modDie die fun x => { x with installs := x.installs.eraseP (fun r => r.1 == slice) }))

end Sys2Proof.Machine
end

