-- ==== Sys2Proof/Machine/Integer.lean ====
section
/-! DEFINITION. Integer arithmetic, logic, shifts, moves, compares and predicates (09_scalar_instructions.md R167 to R176). -/
namespace Sys2Proof.Machine

/-! ## Results -/

/-- The high half of a product (R167). -/
def mulHigh (x y : Word) : Word := ((x.signExtend 128 * y.signExtend 128) >>> 64).truncate 64
def mulHighU (x y : Word) : Word := ((x.zeroExtend 128 * y.zeroExtend 128) >>> 64).truncate 64
/-- Quotients truncate toward zero, and a remainder takes the sign of the dividend (R168). -/
def divS (x y : Word) : Word := if y = 0 then -1 else BitVec.ofInt 64 (x.toInt.tdiv y.toInt)
def divU (x y : Word) : Word := if y = 0 then -1 else x / y
def remS (x y : Word) : Word := if y = 0 then x else BitVec.ofInt 64 (x.toInt.tmod y.toInt)
def remU (x y : Word) : Word := if y = 0 then x else x % y
/-- A count is bits [5:0] of its word (R170); that of an immediate has no others (R164). -/
def shlW (x y : Word) : Word := x <<< (y.toNat % 64)
def shrW (x y : Word) : Word := x >>> (y.toNat % 64)
def sarW (x y : Word) : Word := x.sshiftRight (y.toNat % 64)
/-- The counts of BITC (R172). -/
def bitCount (op : BitcOp) (x : Word) : Word :=
  match op with
  | .clz => BitVec.ofNat 64 (if x = 0 then 64 else 63 - x.toNat.log2)
  | .ctz => BitVec.ofNat 64 (((List.range 64).find? fun i => x.getLsbD i).getD 64)
  | .pop => BitVec.ofNat 64 ((List.range 64).filter fun i => x.getLsbD i).length
/-- Position and length of a field from the packed immediate (R173). -/
def fieldPos (imm : Word) : Nat := imm.toNat % 64
def fieldLen (imm : Word) : Nat := imm.toNat / 64 % 64 + 1
def extract (sx : Bool) (x imm : Word) : Word :=
  let n := fieldLen imm
  let f := x.extractLsb' (fieldPos imm) n
  if sx then f.signExtend 64 else f.zeroExtend 64
def insert (old x imm : Word) : Word :=
  let m : Word := BitVec.ofNat 64 (2 ^ fieldLen imm - 1) <<< fieldPos imm
  (old &&& ~~~m) ||| ((x <<< fieldPos imm) &&& m)

/-! ## Shapes -/

/-- Shape R3: two sources (R63, R162). -/
def int3 (i : Instr) (o : R3W) (op : Word → Word → Word) (s : State) : Host.Outcome State Fault Refusal :=
  compute i o.gd (aluStream [o.d, o.s1, o.s2]) o.d [o.s1, o.s2] (fun xs => op (xs.getD 0 0) (xs.getD 1 0)) s
/-- Shape RI: a source and an immediate. -/
def intI (i : Instr) (o : RIW) (op : Word → Word → Word) (s : State) : Host.Outcome State Fault Refusal :=
  compute i o.gd (aluStream [o.d, o.s1]) o.d [o.s1] (fun xs => op (xs.getD 0 0) o.imm) s

/-- An instruction of the execute stream that writes a predicate. -/
def computeP (i : Instr) (g : Guard) (d : PReg) (srcs : List Opnd) (op : Slot → List Word → Bool) (s : State) :
    Host.Outcome State Fault Refusal :=
  M.step (do
    let f := mkForm i g .execute
    begin f false
    let cs ← prepare f srcs [.p d] (retire i)
    let xs ← srcs.mapM fun x => match x with
      | .w r => takeW cs r
      | _ => pure 0
    putP d (op (← get).me xs)
    retire i) s

/-! ## Meanings -/

def execAdd (o : R3W) (s : State) : Host.Outcome State Fault Refusal := int3 (.add o) o (fun x y => x + y) s
def execSub (o : R3W) (s : State) : Host.Outcome State Fault Refusal := int3 (.sub o) o (fun x y => x - y) s
def execMul (o : R3W) (s : State) : Host.Outcome State Fault Refusal := int3 (.mul o) o (fun x y => x * y) s
def execMulh (o : R3W) (s : State) : Host.Outcome State Fault Refusal := int3 (.mulh o) o (fun x y => mulHigh x y) s
def execMulhu (o : R3W) (s : State) : Host.Outcome State Fault Refusal := int3 (.mulhu o) o (fun x y => mulHighU x y) s
def execDiv (o : R3W) (s : State) : Host.Outcome State Fault Refusal := int3 (.div o) o (fun x y => divS x y) s
def execDivu (o : R3W) (s : State) : Host.Outcome State Fault Refusal := int3 (.divu o) o (fun x y => divU x y) s
def execRem (o : R3W) (s : State) : Host.Outcome State Fault Refusal := int3 (.rem o) o (fun x y => remS x y) s
def execRemu (o : R3W) (s : State) : Host.Outcome State Fault Refusal := int3 (.remu o) o (fun x y => remU x y) s
def execAnd (o : R3W) (s : State) : Host.Outcome State Fault Refusal := int3 (.and o) o (fun x y => x &&& y) s
def execOr (o : R3W) (s : State) : Host.Outcome State Fault Refusal := int3 (.or o) o (fun x y => x ||| y) s
def execXor (o : R3W) (s : State) : Host.Outcome State Fault Refusal := int3 (.xor o) o (fun x y => x ^^^ y) s
def execShl (o : R3W) (s : State) : Host.Outcome State Fault Refusal := int3 (.shl o) o (fun x y => shlW x y) s
def execShr (o : R3W) (s : State) : Host.Outcome State Fault Refusal := int3 (.shr o) o (fun x y => shrW x y) s
def execSar (o : R3W) (s : State) : Host.Outcome State Fault Refusal := int3 (.sar o) o (fun x y => sarW x y) s

def execAddi (o : RIW) (s : State) : Host.Outcome State Fault Refusal := intI (.addi o) o (fun x y => x + y) s
def execSubi (o : RIW) (s : State) : Host.Outcome State Fault Refusal := intI (.subi o) o (fun x y => x - y) s
def execAndi (o : RIW) (s : State) : Host.Outcome State Fault Refusal := intI (.andi o) o (fun x y => x &&& y) s
def execOri (o : RIW) (s : State) : Host.Outcome State Fault Refusal := intI (.ori o) o (fun x y => x ||| y) s
def execXori (o : RIW) (s : State) : Host.Outcome State Fault Refusal := intI (.xori o) o (fun x y => x ^^^ y) s
def execShli (o : RIW) (s : State) : Host.Outcome State Fault Refusal := intI (.shli o) o (fun x y => shlW x y) s
def execShri (o : RIW) (s : State) : Host.Outcome State Fault Refusal := intI (.shri o) o (fun x y => shrW x y) s
def execSari (o : RIW) (s : State) : Host.Outcome State Fault Refusal := intI (.sari o) o (fun x y => sarW x y) s

/-- MOV and MOVI (R171). -/
def execMov (o : R2W) (s : State) : Host.Outcome State Fault Refusal :=
  compute (.mov o) o.gd (aluStream [o.d, o.s1]) o.d [o.s1] (fun xs => xs.getD 0 0) s
def execMovi (o : I1W) (s : State) : Host.Outcome State Fault Refusal :=
  compute (.movi o) o.gd (aluStream [o.d]) o.d [] (fun _ => o.imm) s
/-- CMP and CMPI (R174). -/
def execCmp (o : CmpR) (s : State) : Host.Outcome State Fault Refusal :=
  computeP (.cmp o) o.gd o.d [.w o.s1, .w o.s2] (fun _ xs => o.cond.holds (xs.getD 0 0) (xs.getD 1 0)) s
def execCmpi (o : CmpI) (s : State) : Host.Outcome State Fault Refusal :=
  computeP (.cmpi o) o.gd o.d [.w o.s1] (fun _ xs => o.cond.holds (xs.getD 0 0) o.imm) s
/-- PLOG (R175). -/
def execPlog (o : PlogR) (s : State) : Host.Outcome State Fault Refusal :=
  computeP (.plog o) o.gd o.d [.p o.s1, .p o.s2] (fun sl _ => o.op.apply (sl.readP o.s1) (sl.readP o.s2)) s
/-- SEL (R176): both sources are taken whatever the predicate holds. -/
def execSel (o : SelR) (s : State) : Host.Outcome State Fault Refusal :=
  M.step (do
    let i := Instr.sel o
    let f := mkForm i o.gd .execute
    begin f false
    let cs ← prepare f [.w o.s1, .w o.s2, .p o.pn] [.w o.d] (retire i)
    let x ← takeW cs o.s1
    let y ← takeW cs o.s2
    putW o.d (if (← get).me.readP o.pn then x else y)
    retire i) s
def execBitc (o : BitcR) (s : State) : Host.Outcome State Fault Refusal :=
  compute (.bitc o) o.gd (aluStream [o.d, o.s1]) o.d [o.s1] (fun xs => bitCount o.op (xs.getD 0 0)) s
def execExtr (o : ExtrI) (s : State) : Host.Outcome State Fault Refusal :=
  compute (.extr o) o.gd (aluStream [o.d, o.s1]) o.d [o.s1] (fun xs => extract o.sx (xs.getD 0 0) o.imm) s
/-- INSR reads D after S1 (R173). -/
def execInsr (o : RIW) (s : State) : Host.Outcome State Fault Refusal :=
  compute (.insr o) o.gd (aluStream [o.d, o.s1]) o.d [o.s1, o.d] (fun xs => insert (xs.getD 1 0) (xs.getD 0 0) o.imm) s

end Sys2Proof.Machine
end

