-- ==== Sys2Proof/Machine/Matrix.lean ====
section
/-! DEFINITION. The matrix engine and the grammar unit: issue, start, semaphore post and completion of their operations
(11_matrix_grammar.md R209 to R229). An operation
works when it posts or completes, on the values that bytes have held since it started (log 22). -/
namespace Sys2Proof.Machine

/-! ## Fields of the accumulator descriptor (R213) -/

def dRow (w : Word) : Nat := (w.extractLsb' 0 4).toNat
def dNrow (w : Word) : Nat := (w.extractLsb' 4 4).toNat
def dCol (w : Word) : Nat := (w.extractLsb' 8 11).toNat
def dGfirst (w : Word) : Nat := (w.extractLsb' 19 5).toNat
def dNgrp (w : Word) : Nat := (w.extractLsb' 24 5).toNat
def dEadj (w : Word) : Int := (w.extractLsb' 32 16).toInt
def dFlt (w : Word) : Bool := w.getLsbD 48
/-- The bits that an instruction uses. -/
def maskMma : Word := 0x1FFFFFFF#64
def maskMload : Word := 0x1FF80000#64
def maskAsto : Word := 0x1FFFF0007FFFF#64
def maskGeval : Word := 0x7FFFF#64
/-- The column operand of ACLR and AMASK. -/
def maskCols : Word := 0x7FF07FF#64

def State.engine (s : State) (t : Nat) : Engine := (s.tile t).eng
def modEngine (t : Nat) (f : Engine → Engine) (s : State) : State := s.modTile t fun x => { x with eng := f x.eng }

/-! ## Order of the operations (R215) -/

/-- The operations of a stream. -/
def EngOp.streamed (o : EngOp) : Bool :=
  match o.kind with
  | .mload | .mma | .mmaf | .asto | .geval => true
  | _ => false
/-- The rectangle of entries that an operation writes, or that ARD reads: first and last row and column. A GEVAL's last
column is known when it starts; until it is complete it counts to the end. -/
def EngOp.region (o : EngOp) : Option (Nat × Nat × Nat × Nat) :=
  let rows := (dRow o.desc, dRow o.desc + dNrow o.desc)
  match o.kind with
  | .mma | .mmaf => some (rows.1, rows.2, dCol o.desc, dCol o.desc + 64 * (dNgrp o.desc + 1) - 1)
  | .geval => some (rows.1, rows.2, dCol o.desc, 1535)
  | .aclr => some (rows.1, rows.2, (o.arg.extractLsb' 0 11).toNat, (o.arg.extractLsb' 0 11).toNat + (o.arg.extractLsb' 16 11).toNat)
  | .ard => some (rows.1, rows.1, 16 * (o.desc.toNat / 16 % 128), 16 * (o.desc.toNat / 16 % 128) + 15)
  | _ => none
def EngOp.meets (a b : EngOp) : Bool :=
  match a.region, b.region with
  | some (r, q, c, d), some (r', q', c', d') => decide (r ≤ q' ∧ r' ≤ q ∧ c ≤ d' ∧ c' ≤ d)
  | _, _ => false
def EngOp.writes (o : EngOp) : Bool :=
  match o.kind with
  | .mma | .mmaf | .geval | .aclr => true
  | _ => false
/-- ACLR and ARD. -/
def EngOp.direct (o : EngOp) : Bool := o.kind == .aclr || o.kind == .ard
/-- GRULE, GCLR and GRD. -/
def EngOp.table (o : EngOp) : Bool := o.kind == .grule || o.kind == .gclr || o.kind == .grd
/-- The two use one group (R215 item 2). -/
def EngOp.shareGroup (a b : EngOp) : Bool :=
  decide (dGfirst a.desc ≤ dGfirst b.desc + dNgrp b.desc ∧ dGfirst b.desc ≤ dGfirst a.desc + dNgrp a.desc)
def EngOp.reads (o : EngOp) : Bool := o.kind == .mma || o.kind == .mmaf

/-- The earlier-issued, incomplete operation a comes before p. -/
def EngOp.before (a p : EngOp) : Bool :=
  a.kind == .mgrp || p.kind == .mgrp || (a.streamed && p.streamed && a.strm == p.strm)
    || (p.direct && a.writes && a.meets p) || (a.direct && p.writes && a.meets p)
    || (p.table && a.kind == .geval) || (p.kind == .geval && a.table)
/-- The two never run together. -/
def EngOp.excludes (a p : EngOp) : Bool :=
  (a.kind == .geval && p.kind == .geval)
    || (((a.kind == .mload && p.reads) || (a.reads && p.kind == .mload)) && a.shareGroup p)
/-- An operation may start, given those issued before it and all that have started. -/
def mayStart (earlier all : List EngOp) (p : EngOp) : Bool :=
  !earlier.any (·.before p) && !all.any fun a => a.started && a.excludes p

/-! ## Values (R214) -/

/-- A code of integer mode as an integer. -/
def intCode (r : TRef) (c : Nat) : Int :=
  if r.cls = 1 then c else if r.m = 0 then 1 - 2 * (c : Int) else (BitVec.ofNat (1 + r.m) c).toInt
def intClass (r : TRef) : Bool := decide (r.cls ≤ 1 ∧ r.e = 0) && !r.bse
def alignedClass (r : TRef) : Bool := r.cls == 7 && !r.bse
def EngOp.rowOn (o : EngOp) (row : Nat) : Bool := o.rows.getLsbD row
def EngOp.colOn (o : EngOp) (col : Nat) : Bool := decide (o.collo.toNat ≤ col ∧ col ≤ o.colhi.toNat)
def Engine.entry (e : Engine) (row col : Nat) : BitVec 32 := e.acc.get (1536 * row + col) 0
def Engine.setEntry (e : Engine) (row col : Nat) (v : BitVec 32) : Engine := { e with acc := e.acc.set (1536 * row + col) v }
/-- A cell by the mode of its group. -/
def Engine.cellInt (e : Engine) (g mac k n : Nat) : Int :=
  let c := e.cells.get (4096 * mac + 64 * k + n) 0
  if e.modes.get g .none = .intU then c.toNat else c.toInt

/-! ## The work of the operations -/

/-- The row of a tensor of rank 1 or 2. -/
def rowOf (k : Nat) : RowIx := { i1 := k, i2 := 0, i3 := 0 }

/-- MLOAD (R221). -/
def workMload (tile : Nat) (o : EngOp) : M Unit := do
  let s0 ← get
  let b := mainOf o.tensor
  let G := (s0.engine tile).g
  (List.range (dNgrp o.desc + 1)).forM fun j => do
    let g := dGfirst o.desc + j
    (List.range G).forM fun p =>
      (List.range 64).forM fun n => do
        let mac := G * g + p
        let col := 64 * j + n
        if b.cls = 7 then
          if p ≤ b.dim 0 ∧ col ≤ b.dim 1 then
            let h ← blockHead s0 b (rowOf col) p
            modify (modEngine tile fun e => { e with exps := e.exps.set (64 * mac + n) h })
            (List.range 64).forM fun kk => do
              let q ← blockMant s0 b (rowOf col) p kk
              modify (modEngine tile fun e => { e with cells := e.cells.set (4096 * mac + 64 * kk + n) (BitVec.ofInt 8 q) })
          else
            modify (modEngine tile fun e => { e with exps := e.exps.set (64 * mac + n) (0, false) })
            (List.range 64).forM fun kk =>
              modify (modEngine tile fun e => { e with cells := e.cells.set (4096 * mac + 64 * kk + n) 0 })
        else
          (List.range 64).forM fun kk => do
            let k := 64 * p + kk
            let q : Int ← if k ≤ b.dim 0 ∧ col ≤ b.dim 1 then do
                let c ← elemCode s0 b (rowOf col) k
                pure (intCode b c)
              else pure 0
            modify (modEngine tile fun e => { e with cells := e.cells.set (4096 * mac + 64 * kk + n) (BitVec.ofInt 8 q) })
    modify (modEngine tile fun e => { e with
      modes := e.modes.set g (if b.cls = 7 then .flt else if b.cls = 0 then .intS else .intU) })

/-- The columns of MMA and MMAF: column, group and cell column. -/
def EngOp.cols (o : EngOp) : List (Nat × Nat × Nat) :=
  (List.range (dNgrp o.desc + 1)).flatMap fun j =>
    (List.range 64).map fun n => (dCol o.desc + 64 * j + n, dGfirst o.desc + j, n)

/-- MMA (R222): each entry is added to once. -/
def workMma (tile : Nat) (o : EngOp) : M (List (Nat × AccAdd)) := do
  let s0 ← get
  let e := s0.engine tile
  let a := mainOf o.tensor
  let rows ← (List.range (dNrow o.desc + 1)).mapM fun i => do
    let row := dRow o.desc + i
    if o.rowOn row then
      let qa ← (List.range (a.dim 0 + 1)).mapM fun k => do return intCode a (← elemCode s0 a (rowOf i) k)
      return (o.cols.filter fun c => o.colOn c.1).map fun (col, g, n) =>
        (1536 * row + col, AccAdd.int (((List.range qa.length).zip qa).foldl
          (fun t (k, q) => t + q * e.cellInt g (e.g * g + k / 64) (k % 64) n) 0))
    else return []
  return rows.flatten

/-- MMAF (R223): each K-slice is one rounded addition. -/
def workMmaf (tile : Nat) (o : EngOp) : M (List (Nat × AccAdd)) := do
  let s0 ← get
  let e := s0.engine tile
  let a := mainOf o.tensor
  let rows ← (List.range (dNrow o.desc + 1)).mapM fun i => do
    let row := dRow o.desc + i
    if o.rowOn row then
      let slices ← (List.range (a.dim 0 + 1)).mapM fun p => do
        let (X, nan) ← blockHead s0 a (rowOf i) p
        let qa ← (List.range 64).mapM (blockMant s0 a (rowOf i) p)
        return (o.cols.filter fun c => o.colOn c.1).map fun (col, g, n) =>
          let mac := e.g * g + p
          let (Xb, nanB) := e.exps.get (64 * mac + n) (0, false)
          (1536 * row + col, if nan || nanB then AccAdd.nan
            else AccAdd.slice (((List.range 64).zip qa).foldl
              (fun t (k, q) => t + q * (e.cells.get (4096 * mac + 64 * k + n) 0).toInt) 0) (X + Xb) o.nm)
      return slices.flatten
    else return []
  return rows.flatten

/-! ## Additions of the streams (R215 items 3 and 4) -/

def AccAdd.apply (a : AccAdd) (old : BitVec 32) : BitVec 32 :=
  match a with
  | .int v => old + BitVec.ofInt 32 v
  | .nan => BitVec.ofNat 32 Fmt.f32.nanCode
  | .slice p x nm => BitVec.ofNat 32 (Fmt.f32.rne nm ((Fmt.f32.decode nm old.toNat).add ((Val.ofInt p).scale x)))
  | .row y nm => BitVec.ofNat 32 (fadd32 nm old.toNat y)
/-- An entry takes a value; what it held is kept while an ASTO runs. -/
def Engine.putAt (e : Engine) (k : Nat) (v : BitVec 32) : Engine :=
  { e with
    acc := e.acc.set k v,
    accPast := if e.ops.any fun o => o.started && o.kind == .asto then e.accPast ++ [(k, e.acc.get k 0)] else e.accPast }
/-- One addition, indivisible. -/
def Engine.addAt (e : Engine) (k : Nat) (a : AccAdd) : Engine := e.putAt k (a.apply (e.acc.get k 0))
/-- The additions into an entry that operations other than number `num` have still to make. -/
def Engine.others (e : Engine) (num k : Nat) : List (Nat × Nat × AccAdd) := e.adds.filter fun x => x.1 != num && x.2.1 == k
/-- Of these, n are made: each operation's own in their order, and the operation a free choice each time. -/
def letOthers (tile num k : Nat) : Nat → M Unit
  | 0 => pure ()
  | n + 1 => do
    let (c, s) := (← get).nextFree
    set s
    let xs := (s.engine tile).others num k
    let who := (xs.map (·.1)).eraseDups
    match xs.find? fun x => who[c % who.length]? == some x.1 with
    | none => pure ()
    | some x => do
      modify (modEngine tile fun e => { e with adds := e.adds.erase x }.addAt k x.2.2)
      letOthers tile num k n
/-- Additions of other streams come in here, as many as may. -/
def interleave (tile num k : Nat) : M Unit := do
  let s ← get
  let n := ((s.engine tile).others num k).length
  if n ≠ 0 then
    let (c, s) := s.nextFree
    set s
    letOthers tile num k (c % (n + 1))
/-- The additions of an operation, in its own order. -/
def addAll (tile num : Nat) : List (Nat × AccAdd) → M Unit
  | [] => pure ()
  | (k, a) :: rest => do
    interleave tile num k
    modify (modEngine tile fun e => e.addAt k a)
    addAll tile num rest

/-- An entry as an ASTO reads it: a value that it has held at some moment since the ASTO started. -/
def readAcc (tile : Nat) (o : EngOp) (k : Nat) : M (BitVec 32) := do
  interleave tile o.num k
  let s ← get
  let e := s.engine tile
  let now := e.acc.get k 0
  let olds := ((e.accPast.drop o.accMark).filter fun x => x.1 == k).map (·.2)
  if olds.isEmpty then return now
  else
    let (c, s) := s.nextFree
    set s
    return (now :: olds).getD (c % (olds.length + 1)) now

/-- ASTO (R224). -/
def workAsto (tile : Nat) (o : EngOp) : M Unit := do
  let s0 ← get
  let t := mainOf o.tensor
  t.elems.forM fun (x, c) => do
    let a ← readAcc tile o (1536 * (dRow o.desc + x.i1) + dCol o.desc + c)
    let v := if dFlt o.desc then Fmt.f32.decode o.nm a.toNat else Val.ofInt a.toInt
    let b ← scaleByte s0 o.tensor x c
    modify (putElem t x c (convCode t o.nm .rne true 0 b (v.scale (dEadj o.desc))))

/-- ACLR (R225): the mask does not apply. -/
def clearEntries (tile : Nat) (o : EngOp) : M Unit :=
  match o.region with
  | some (r, q, c, d) => modify (modEngine tile fun e =>
      (List.range (q - r + 1)).foldl (fun acc i => (List.range (d - c + 1)).foldl
        (fun acc j => acc.putAt (1536 * (r + i) + (c + j)) 0) acc) e)
  | none => pure ()
/-- ARD's value (R225). -/
def readEntries (e : Engine) (o : EngOp) : VWord :=
  ofLanes 32 ((List.range 16).map fun j => (e.entry (dRow o.desc) (16 * (o.desc.toNat / 16 % 128) + j)).toNat)
/-- MGRP's effect (R220). -/
def setGrouping (v : Nat) (e : Engine) : Engine := { e with g := v, cells := [], exps := [], modes := [] }

/-! ## The grammar unit (R226 to R229) -/

/-- Symbol k of the block that the engine holds, as it is when it is read. -/
def symbolAt (s0 : State) (r : TRef) (e : Engine) (k : Nat) : M Nat := do
  let was := (← get).seen
  modify fun s => { s with seen := none }
  let x ← readBits s0 r (e.base + 16 + 4 * (e.nrule + e.nout) : Nat) (32 * k) 32
  modify fun s => { s with seen := was }
  return x
/-- A symbol's term (R228): a symbol that fails check 5 or 6 contributes +0. -/
def termOf (s0 : State) (o : EngOp) (e : Engine) (limit v : Nat) (vals : List Nat) (c : Nat) : M Nat := do
  if c / 2 ^ 31 = 1 then
    if c / 2 ^ 12 % 2 ^ 19 = 0 ∧ c % 2 ^ 12 < limit then return vals.getD (c % 2 ^ 12) 0 else return 0
  else if c / 2 ^ 16 < e.ncol then
    let x ← elemValue s0 o.nm o.tensor (rowOf v) (c / 2 ^ 16)
    return Fmt.f32.rne o.nm (x.mul (Fmt.bf16.decode o.nm (c % 2 ^ 16)))
  else return 0
/-- Fold of R228: the symbols of an entry from first to last. -/
def foldEntry (s0 : State) (o : EngOp) (e : Engine) (limit v : Nat) (vals : List Nat) (en : RuleEntry) : M Nat := do
  let ks := (List.range en.len).map fun j => en.start + j
  match ks with
  | [] => return 0
  | k :: rest => do
    let t ← termOf s0 o e limit v vals (← symbolAt s0 (mainOf o.tensor) e k)
    rest.foldlM (fun t k => do return fadd32 o.nm t (← termOf s0 o e limit v vals (← symbolAt s0 (mainOf o.tensor) e k))) t

def ruleAt (e : Engine) (k : Nat) : RuleEntry := e.rules.get k { start := 0, len := 0, depth := 0 }
/-- GEVAL (R228). -/
def workGeval (tile : Nat) (o : EngOp) : M (List (Nat × AccAdd)) := do
  let s0 ← get
  let e := s0.engine tile
  let rows ← (List.range (dNrow o.desc + 1)).mapM fun v => do
    let vals ← (List.range e.nrule).foldlM (fun (vals : List Nat) q => do
      return vals ++ [← foldEntry s0 o e q v vals (ruleAt e q)]) []
    let row := dRow o.desc + v
    let adds ← (List.range e.nout).mapM fun i => do
      let y ← foldEntry s0 o e e.nrule v vals (ruleAt e (e.nrule + i))
      let col := dCol o.desc + i
      return if o.rowOn row && o.colOn col then [(1536 * row + col, AccAdd.row y o.nm)] else []
    modify (modEngine tile fun e => { e with
      vals := ((List.range vals.length).zip vals).foldl (fun acc (q, x) => acc.set q (BitVec.ofNat 32 x)) e.vals })
    return adds.flatten
  return rows.flatten

/-- A failed check of GRULE: the detail and the directory index. -/
abbrev GRes (α : Type) := Except (Nat × Nat) α

/-- n bytes of the block from an offset, little-endian, where `g` gives each byte. -/
def blockWord (g : Nat → Nat) (off n : Nat) : Nat := (List.range n).foldr (fun i acc => g (off + i) + 256 * acc) 0
/-- A directory entry. -/
def dirEntry (g : Nat → Nat) (k : Nat) : Nat := blockWord g (16 + 4 * k) 4

/-- Checks 5 and 6 on the symbols of an entry (R227): the greatest depth that it references. -/
def checkSymbols (g : Nat → Nat) (n ncol limit idx : Nat) (depths : List Nat) (en : RuleEntry) : GRes Nat :=
  (List.range en.len).foldlM (fun (d : Nat) j =>
    let c := blockWord g (16 + 4 * (n + en.start + j)) 4
    if c / 2 ^ 31 = 1 then
      if c / 2 ^ 12 % 2 ^ 19 = 0 ∧ c % 2 ^ 12 < limit then .ok (max d (depths.getD (c % 2 ^ 12) 0)) else .error (2, idx)
    else if c / 2 ^ 16 < ncol then .ok d
    else .error (3, idx)) 0

/-- Checks 4 to 6 of R227 on the directory and the symbols, and the table that GRULE loads: entries with their depths. -/
def checkBlock (g : Nat → Nat) (nrule nout ncol nsym : Nat) : GRes (List RuleEntry) := do
  let n := nrule + nout
  let ents ← (List.range n).mapM fun k =>
    let d := dirEntry g k
    let en : RuleEntry := { start := d % 2 ^ 18, len := d / 2 ^ 18 % 2 ^ 12, depth := 0 }
    if d / 2 ^ 30 = 0 ∧ en.start + en.len ≤ nsym then (.ok en : GRes RuleEntry) else .error (4, k)
  let depths ← (List.range nrule).foldlM (fun (ds : List Nat) q => do
    let d ← checkSymbols g n ncol q q ds (ents.getD q { start := 0, len := 0, depth := 0 })
    if 15 < d + 1 then throw (1, q)
    return ds ++ [d + 1]) []
  let rows ← (List.range nout).mapM fun i => do
    let d ← checkSymbols g n ncol nrule (nrule + i) depths (ents.getD (nrule + i) { start := 0, len := 0, depth := 0 })
    return d + 1
  return (ents.zip (depths ++ rows)).map fun (en, d) => { en with depth := d }

/-- Bytes of the block, each read once (R216, R227). -/
def readBlock (s0 : State) (r : TRef) (base off n : Nat) : M (List Nat) :=
  (List.range n).mapM fun i => readByte s0 r ((base + off + i : Nat) : Int)
/-- The checks of R227, and the engine with the table that GRULE loads. -/
def loadGrammar (tile : Nat) (o : EngOp) : M (GRes (Engine → Engine)) := do
  let s0 ← get
  let r : TRef := { words := [], tile := tile, banks := scratchBanks s0 tile o.vf o.group }
  let size := 8192 * r.banks.length
  let base := (o.desc.extractLsb' 0 19).toNat
  if o.desc.extractLsb' 23 41 ≠ 0#41 ∨ (o.desc.extractLsb' 19 4).toNat ≠ tileInCluster tile ∨ size < base + 16 then
    return .error (5, 0)
  let head ← readBlock s0 r base 0 16
  let w0 := blockWord (head.getD · 0) 0 8
  let w1 := blockWord (head.getD · 0) 8 8
  let nrule := w0 % 2 ^ 13
  let nout := w0 / 2 ^ 13 % 2 ^ 12
  let ncol := w0 / 2 ^ 25 % 2 ^ 16
  let nsym := w1 % 2 ^ 18
  if w0 / 2 ^ 41 ≠ 0 ∨ w1 / 2 ^ 18 ≠ 0 ∨ 4096 < nrule ∨ nout = 0 ∨ 1536 < nout ∨ ncol = 0 ∨ 32768 < ncol ∨ 4096 < nrule + nout then
    return .error (4, 0)
  if size < base + 16 + 4 * (nrule + nout + nsym) then return .error (5, 0)
  let body := (head ++ (← readBlock s0 r base 16 (4 * (nrule + nout + nsym)))).toArray
  return (checkBlock (body.getD · 0) nrule nout ncol nsym).map fun ents e => { e with
    rules := ((List.range ents.length).zip ents).foldl (fun (acc : SMap RuleEntry) (k, en) => acc.set k en) e.rules,
    base := base, gvalid := true, nrule := nrule, nout := nout, ncol := ncol, nsym := nsym }

/-! ## Checks at start (R219) -/

/-- The trap that a starting operation raises: kind 17, the matrix fault, or 18, the grammar fault, with its detail. -/
def startFault (e : Engine) (o : EngOp) : Option (Nat × Nat) :=
  let t := mainOf o.tensor
  let groups := (List.range (dNgrp o.desc + 1)).map fun j => dGfirst o.desc + j
  let inGroups := decide (dGfirst o.desc + dNgrp o.desc < 24 / e.g)
  match o.kind with
  | .mload =>
    if !inGroups then some (17, 2)
    else if (if t.cls = 7 then e.g else 64 * e.g) < t.dim 0 + 1 ∨ 64 * (dNgrp o.desc + 1) < t.dim 1 + 1 then some (17, 3)
    else none
  | .mma =>
    if !inGroups then some (17, 2)
    else if groups.any (fun g => e.modes.get g .none != .intS && e.modes.get g .none != .intU) then some (17, 4)
    else if 64 * e.g < t.dim 0 + 1 then some (17, 3)
    else none
  | .mmaf =>
    if !inGroups then some (17, 2)
    else if groups.any (fun g => e.modes.get g .none != .flt) then some (17, 4)
    else if e.g < t.dim 0 + 1 then some (17, 3)
    else none
  | .geval =>
    if !e.gvalid then some (18, 6)
    else if 1536 < dCol o.desc + e.nout then some (17, 1)
    else if t.dim 0 + 1 ≠ e.ncol then some (17, 3)
    else none
  | _ => none

/-! ## Issue -/

/-- What the queues, ports and links have given since a state, to be given back at a fault of the start. -/
def tookPorts (s0 s : State) (rs : List WReg) : List (WReg × List PortWord) :=
  let gone (a b : List PortWord) : List PortWord := a.take (a.length - b.length)
  rs.eraseDups.filterMap fun r => match r with
    | .mp n => some (r, gone (s0.me.portOf n.toNat) (s.me.portOf n.toNat))
    | .lkw => some (r, gone (s0.tile s0.myTile).lkw (s.tile s.myTile).lkw)
    | .lke => some (r, gone (s0.tile s0.myTile).lke (s.tile s.myTile).lke)
    | _ => none
/-- Give them back. -/
def giveBack (o : EngOp) (s : State) : State :=
  let n := o.slot
  let s := s.modSlot n fun sl => { sl with lq := o.lqTook ++ sl.lq }
  o.portTook.foldl (fun acc (r, ws) => match r with
    | .mp k => acc.modSlot n fun sl => { sl with ports := sl.ports.set! k.toNat (ws ++ sl.portOf k.toNat) }
    | .lkw => acc.modTile (tileOfSlot n) fun t => { t with lkw := ws ++ t.lkw }
    | .lke => acc.modTile (tileOfSlot n) fun t => { t with lke := ws ++ t.lke }
    | _ => acc) s

/-- An operation of the slot that issues (R212). `s0` is the state before its sources were taken, and `rs` names them. -/
def newOp (s0 : State) (i : Instr) (kind : EngKind) (rs : List WReg) : M EngOp := do
  let s ← get
  let e := s.engine s.myTile
  return {
    kind := kind, slot := s.cur.slot, task := s.me.task, vf := s.vfOf s.cur.slot, group := s.groupOf s.cur.slot, insn := i.word,
    next := nextPc s.me.xr.pc i.bytes, desc := 0, arg := 0, tensor := [], strm := 0, sem := none, tsr := s.me.sys.tsr,
    nm := (s.core s.myCore).nanmode, rows := e.rows, collo := e.collo, colhi := e.colhi, wdest := none, vdest := none,
    lqTook := s0.me.lq.take (lqNeed (rs.map .w)), portTook := tookPorts s0 s rs, started := false, read := false, semDone := false,
    num := e.count, mark := 0, accMark := 0 }

/-- The operation is issued, and the execute half waits for it at its instruction (R212, R219). -/
def enqueue (op : EngOp) : M Unit := do
  modify fun s => modEngine s.myTile (fun e => { e with ops := e.ops ++ [op], count := e.count + 1 }) s
  actMe fun sl => sl.setWait .execute .engine

/-- An instruction of shape T2: its descriptor and its tensor, in the fields that it names, and the checks at issue in the
order of R219. `used` holds the descriptor bits that it uses. -/
def engineTwo (i : Instr) (o : T2X) (kind : EngKind) (descInD : Bool) (used : Word) (accept : TRef → Bool)
    (region : Word → TRef → Bool) (shape : Word → TRef → Bool) (s : State) : Host.Outcome State Fault Refusal :=
  M.step (do
    let f := mkForm i o.gd .execute
    begin f true
    needStored
    let cs ← prepare f [.w o.s1, .w o.t] [] (retire i)
    let s0 ← get
    let a ← takeW cs o.s1
    let b ← takeW cs o.t
    let desc := if descInD then b else a
    let ts ← useTensor s0 i (if descInD then a else b) accept
    let t := mainOf ts
    if desc &&& ~~~used ≠ 0 then raiseFrom s0 i 17 6 0
    if !region desc t then raiseFrom s0 i 17 1 0
    if t.loc ≠ tileInCluster s0.myTile then raiseFrom s0 i 17 7 0
    if 1 < t.rank ∨ !shape desc t then raiseFrom s0 i 17 3 0
    let op ← newOp s0 i kind [o.s1, o.t]
    enqueue { op with desc := desc, tensor := ts, strm := o.strm, sem := o.sem }) s

/-- The limits of R213 that are checked at issue. -/
def rowsFit (d : Word) : Bool := decide (dRow d + dNrow d ≤ 15)
def mmaFits (d : Word) : Bool := rowsFit d && decide (dCol d % 64 = 0 ∧ dCol d + 64 * (dNgrp d + 1) ≤ 1536)
/-- One row of a tensor for each accumulator row (R214). -/
def rowsAgree (d : Word) (t : TRef) : Bool := t.dim 1 == dNrow d

def execMload (o : T2X) (s : State) : Host.Outcome State Fault Refusal :=
  engineTwo (.mload o) o .mload true maskMload (fun r => intClass r || r.cls == 7) (fun _ _ => true) (fun _ _ => true) s
def execMma (o : T2X) (s : State) : Host.Outcome State Fault Refusal :=
  engineTwo (.mma o) o .mma true maskMma intClass (fun d _ => mmaFits d) rowsAgree s
def execMmaf (o : T2X) (s : State) : Host.Outcome State Fault Refusal :=
  engineTwo (.mmaf o) o .mmaf true maskMma alignedClass (fun d _ => mmaFits d) rowsAgree s
def execAsto (o : T2X) (s : State) : Host.Outcome State Fault Refusal :=
  engineTwo (.asto o) o .asto false maskAsto plainClass
    (fun d t => rowsFit d && decide (dCol d + t.dim 0 + 1 ≤ 1536)) rowsAgree s
def execGeval (o : T2X) (s : State) : Host.Outcome State Fault Refusal :=
  engineTwo (.geval o) o .geval true maskGeval plainClass (fun d _ => rowsFit d) rowsAgree s

/-- GRULE (R227): its checks are made when it takes effect. -/
def execGrule (o : S1W) (s : State) : Host.Outcome State Fault Refusal :=
  M.step (do
    let i := Instr.grule o
    let f := mkForm i o.gd .execute
    begin f true
    needStored
    let cs ← prepare f [.w o.s1] [] (retire i)
    let s0 ← get
    let a ← takeW cs o.s1
    let op ← newOp s0 i .grule [o.s1]
    enqueue { op with desc := a }) s

/-- What ACLR, ARD, MGRP, GCLR and GRD do once their wait is over; the operation's slot is the one that issues, and `mine`
says that it still runs the task. -/
def directEffect (tile : Nat) (o : EngOp) (mine : Bool) : M Unit := do
  match o.kind with
  | .aclr => clearEntries tile o
  | .mgrp => modify (modEngine tile (setGrouping o.desc.toNat))
  | .gclr => modify (modEngine tile fun e => { e with gvalid := false, vals := [] })
  | .ard =>
    match mine, o.vdest with
    | true, some d => putV d (readEntries ((← get).engine tile) o)
    | _, _ => pure ()
  | .grd =>
    match mine, o.wdest with
    | true, some d => putW d ((((← get).engine tile).vals.get (o.desc.toNat % 4096) 0).zeroExtend 64)
    | _, _ => pure ()
  | _ => pure ()

/-- Such an instruction takes effect at once when nothing comes before it, and parks with cause 4 otherwise. -/
def runOrWait (i : Instr) (op : EngOp) : M Unit := do
  let s ← get
  let ops := (s.engine s.myTile).ops
  if mayStart ops ops op then do
    directEffect s.myTile op true
    retire i
  else enqueue op

/-- An instruction on registers that acts on the engines directly. -/
def engineDirect (i : Instr) (g : Guard) (srcs : List WReg) (dsts : List Opnd) (check : List Word → Option Nat)
    (run : EngOp → List Word → M Unit) (kind : EngKind) (s : State) : Host.Outcome State Fault Refusal :=
  M.step (do
    let f := mkForm i g .execute
    begin f true
    needStored
    let cs ← prepare f (srcs.map .w) dsts (retire i)
    let s0 ← get
    let xs ← srcs.mapM (takeW cs)
    match check xs with
    | some d => raiseFrom s0 i 17 d 0
    | none => do
      let op ← newOp s0 i kind srcs
      run op xs) s

def execMgrp (o : S1W) (s : State) : Host.Outcome State Fault Refusal :=
  engineDirect (.mgrp o) o.gd [o.s1] []
    (fun xs => let v := (xs.getD 0 0).toNat
      if 32 ≤ v then some 6 else if [1, 2, 3, 4, 6, 8, 12, 24].contains v then none else some 5)
    (fun op xs => runOrWait (.mgrp o) { op with desc := xs.getD 0 0 }) .mgrp s
def execAclr (o : S2W) (s : State) : Host.Outcome State Fault Refusal :=
  engineDirect (.aclr o) o.gd [o.s1, o.s2] []
    (fun xs => let a := xs.getD 0 0
      let b := xs.getD 1 0
      if 256 ≤ a.toNat ∨ b &&& ~~~maskCols ≠ 0 then some 6
      else if 15 < dRow a + dNrow a ∨ 1535 < (b.extractLsb' 0 11).toNat + (b.extractLsb' 16 11).toNat then some 1
      else none)
    (fun op xs => runOrWait (.aclr o) { op with desc := xs.getD 0 0, arg := xs.getD 1 0 }) .aclr s
/-- AMASK (R225) never parks: it affects the operations issued after it. -/
def execAmask (o : S2W) (s : State) : Host.Outcome State Fault Refusal :=
  engineDirect (.amask o) o.gd [o.s1, o.s2] []
    (fun xs => let a := xs.getD 0 0
      let b := xs.getD 1 0
      if 65536 ≤ a.toNat ∨ b &&& ~~~maskCols ≠ 0 then some 6
      else if (b.extractLsb' 16 11).toNat < (b.extractLsb' 0 11).toNat ∨ 1535 < (b.extractLsb' 16 11).toNat then some 1
      else none)
    (fun _ xs => do
      modify fun s => modEngine s.myTile (fun e => { e with
        rows := (xs.getD 0 0).extractLsb' 0 16, collo := (xs.getD 1 0).extractLsb' 0 11,
        colhi := (xs.getD 1 0).extractLsb' 16 11 }) s
      retire (.amask o)) .aclr s
def execArd (o : ArdR) (s : State) : Host.Outcome State Fault Refusal :=
  engineDirect (.ard o) o.gd [o.s1] [.v o.d]
    (fun xs => let v := (xs.getD 0 0).toNat
      if 2048 ≤ v then some 6 else if 95 < v / 16 then some 1 else none)
    (fun op xs => runOrWait (.ard o) { op with desc := xs.getD 0 0, vdest := some o.d }) .ard s
def execGclr (o : N0) (s : State) : Host.Outcome State Fault Refusal :=
  engineDirect (.gclr o) o.gd [] [] (fun _ => none) (fun op _ => runOrWait (.gclr o) op) .gclr s
def execGrd (o : R2W) (s : State) : Host.Outcome State Fault Refusal :=
  engineDirect (.grd o) o.gd [o.s1] [.w o.d] (fun _ => none)
    (fun op xs => runOrWait (.grd o) { op with desc := xs.getD 0 0, wdest := some o.d }) .grd s

/-! ## Start, semaphore post and completion (R215 to R219) -/

/-- The operations that may start, by their place in issue order. -/
def startable (e : Engine) : List Nat :=
  (List.range e.ops.length).filter fun k => match e.ops[k]? with
    | some p => !p.started && mayStart (e.ops.take k) e.ops p
    | none => false
/-- Those that have started and may be complete: a semaphore has been posted first. -/
def completable (e : Engine) : List Nat :=
  (List.range e.ops.length).filter fun k => match e.ops[k]? with
    | some p => p.started && (p.sem.isNone || p.semDone)
    | none => false
/-- Those whose semaphore post is due. -/
def postable (e : Engine) : List Nat :=
  (List.range e.ops.length).filter fun k => match e.ops[k]? with
    | some p => p.started && p.sem.isSome && !p.semDone
    | none => false
/-- Those that have started and not read their operands yet. -/
def readable (e : Engine) : List Nat :=
  (List.range e.ops.length).filter fun k => match e.ops[k]? with
    | some p => p.started && p.streamed && !p.read
    | none => false
/-- One of several, at the free choice of the machine. -/
def chooseOp (ks : List Nat) (e : Engine) : M (Option (Nat × EngOp)) := do
  match ks with
  | [k] => return e.ops[k]?.map fun op => (k, op)
  | _ => do
    let (c, s) := (← get).nextFree
    set s
    return ks[c % ks.length]?.bind fun k => e.ops[k]?.map fun op => (k, op)
def setOp (tile k : Nat) (f : EngOp → EngOp) (s : State) : State :=
  modEngine tile (fun e => { e with ops := match e.ops[k]? with | some op => e.ops.set k (f op) | none => e.ops }) s
def removeOp (tile k : Nat) (s : State) : State := modEngine tile (fun e => { e with ops := e.ops.eraseIdx k }) s

/-- An operation is refused when it starts: precise at its instruction, which has no effect (R219). -/
def faultOp (tile k : Nat) (op : EngOp) (kind detail : Nat) : M Unit := do
  modify (removeOp tile k)
  if stillMine (← get) op.slot op.task then
    modify (giveBack op)
    actMe fun sl => sl.setWait .execute .none
    raiseAt op.insn kind detail 0
  else pure ()

/-- GRD's destination port or link has room again. -/
def destReady (s : State) (op : EngOp) : Bool :=
  match op.wdest with
  | some (.mp k) =>
    let w := (s.slot op.slot).mpdstOf k
    !(mpValid w && portFull s (mpDest op.slot w))
  | some .lkw => !linkFull s (tileOfSlot op.slot) true
  | some .lke => !linkFull s (tileOfSlot op.slot) false
  | _ => true

/-- ENGINE_OPERATION_START (R215, R219). GRULE makes the table invalid and goes on to read its block (R227). -/
def execEngineOperationStart (tile : Nat) (s : State) : Host.Outcome State Fault Refusal :=
  M.step (do
    let e := s.engine tile
    match ← chooseOp (startable e) e with
    | none => pure ()
    | some (k, op) =>
      holdUnless (destReady (← get) op)
      modify fun s => { s with cur := { slot := op.slot, half := .execute } }
      let mine := stillMine s op.slot op.task
      let pass : M Unit := do if mine then actMe fun sl => sl.advance .execute op.next else pure ()
      if op.streamed then
        match startFault e op with
        | some (kind, d) => faultOp tile k op kind d
        | none => do
          pass
          if mine then actMe fun sl => sl.setWait .execute .engine
          modify fun s => setOp tile k (fun o => { o with
            started := true, mark := s.past.length, accMark := (s.engine tile).accPast.length }) s
      else if op.kind == .grule then
        modify (modEngine tile fun e => { e with gvalid := false })
        modify fun s => setOp tile k (fun o => { o with started := true, mark := s.past.length }) s
      else
        modify (removeOp tile k)
        directEffect tile op mine
        pass) s

/-- When no ASTO runs any more, nothing is kept of the entries. -/
def settleAcc (e : Engine) : Engine :=
  if e.ops.any fun o => o.started && o.kind == .asto then e else { e with accPast := [] }

/-- The work of an operation that has started, but for the additions that it answers. -/
def workOf (tile : Nat) (op : EngOp) : M (List (Nat × AccAdd)) := do
  modify fun s => { s with cur := { slot := op.slot, half := .execute } }
  let none' (m : M Unit) : M (List (Nat × AccAdd)) := do
    m
    return []
  during true op.mark (do
    let s0 ← get
    let adds ← match op.kind with
      | .mload => none' (workMload tile op)
      | .mma => workMma tile op
      | .mmaf => workMmaf tile op
      | .asto => none' (workAsto tile op)
      | .geval => workGeval tile op
      | _ => return []
    modify (keepRaces s0)
    return adds)

/-- The operation of place k reads its operands, if it has not done so: what it adds is held until it is added, among the additions of
other streams (R215 item 3). -/
def engineWork (tile k : Nat) (op : EngOp) : M Unit := do
  if op.read then pure ()
  else do
    let adds ← workOf tile op
    modify (modEngine tile fun e => { e with adds := e.adds ++ adds.map fun a => (op.num, a) })
    modify (setOp tile k fun o => { o with read := true })
/-- Some operation that has started does so. -/
def engineRead (tile : Nat) : M Unit := do
  let e := (← get).engine tile
  match ← chooseOp (readable e) e with
  | none => pure ()
  | some (k, op) => engineWork tile k op

/-- ENGINE_SEM_POST (R217): the operation has made its last read, or ASTO its last write, and posts. A full semaphore is
left as it is, and the slot traps when it resumes (R241). -/
def execEngineSemPost (tile : Nat) (s : State) : Host.Outcome State Fault Refusal :=
  M.step (do
    let e := s.engine tile
    match ← chooseOp (postable e) e with
    | none => pure ()
    | some (k, op) =>
      engineWork tile k op
      modify (setOp tile k fun o => { o with semDone := true })
      match op.sem with
      | none => pure ()
      | some n => do
        -- the semaphores of a task that has ended are gone (R161)
        if ((← get).task? op.task).isNone then return ()
        let (ovf, s') := postSem tile n.toNat op.tsr (← get)
        set s'
        if ovf && stillMine s' op.slot op.task then modify (State.modSlot op.slot fun sl => { sl with semDue := some n })) s

/-- GRULE has read its block: it loads the table, or traps at its instruction (R227). -/
def completeGrule (tile k : Nat) (op : EngOp) : M Unit := do
  modify fun s => { s with cur := { slot := op.slot, half := .execute } }
  match ← during true op.mark (loadGrammar tile op) with
  | .error (d, idx) => do
    modify (modEngine tile fun e => { e with gfault := BitVec.ofNat 3 d, gidx := BitVec.ofNat 12 idx })
    faultOp tile k op 18 d
  | .ok f => do
    modify (modEngine tile f)
    modify (removeOp tile k)
    if stillMine (← get) op.slot op.task then
      actMe fun sl => (sl.advance .execute op.next).setWait .execute .none

/-- ENGINE_OPERATION_COMPLETE (R218): the parked half is released. -/
def execEngineOperationComplete (tile : Nat) (s : State) : Host.Outcome State Fault Refusal :=
  M.step (do
    let e := s.engine tile
    match ← chooseOp (completable e) e with
    | none => pure ()
    | some (k, op) =>
      if op.kind == .grule then
        completeGrule tile k op
        modify settlePast
      else
        engineWork tile k op
        let adds := (((← get).engine tile).adds.filter fun a => a.1 == op.num).map (·.2)
        modify (modEngine tile fun e => { e with adds := dropAll e.adds fun a => a.1 == op.num })
        addAll tile op.num adds
        modify fun s => settlePast (modEngine tile settleAcc (removeOp tile k s))
        if stillMine (← get) op.slot op.task then modify (State.modSlot op.slot fun sl => sl.setWait .execute .none)) s

end Sys2Proof.Machine
end

