-- ==== Sys2Proof/Machine/System.lean ====
section
/-! DEFINITION. System registers, traps made by instructions, context images and tensor-table moves, 0xE8 to 0xF3
(04_numbers.md R73, R77, 08_core.md R155, R156, 11_matrix_grammar.md R211, 15_traps_preemption.md R301, R308, R311 to R317), and
the steps that a write of a system register makes. -/
namespace Sys2Proof.Machine

/-! ## Classes (R301) -/

def superReg : SysReg → Bool
  | .slotstat | .rslow | .rsidx | .rsdata | .tvec | .tcause | .tinsn | .tpc | .tva | .tstat => true
  | _ => false
def superWriteReg : SysReg → Bool
  | .tsr | .vlim => true
  | _ => false
def walkerReg : SysReg → Bool
  | .wmb0 | .wmb1 | .win0 | .win1 | .win2 => true
  | _ => false
/-- The slot runs at supervisor privilege. -/
def privileged (s : State) : Bool := s.me.super || isWalker s.cur.slot
/-- The role whose core owns a channel (R109). -/
def chanRole (c : Nat) : Role := if c < 4 then .m else if c < 6 then .v else .a

/-- The slot may not name the register. -/
def outOfClass (s : State) (r : SysReg) (write : Bool) : Bool :=
  (walkerReg r && !isWalker s.cur.slot) || ((superReg r || (write && superWriteReg r)) && !privileged s)
/-- The privilege trap of R301, whose detail is the number. -/
def checkClass (i : Instr) (r : SysReg) (write : Bool) : M Unit := do
  if outOfClass (← get) r write then raise i 23 r.num.toNat 0 else pure ()
/-- A supervisor instruction in a user slot (R317). -/
def checkSuper (i : Instr) : M Unit := do
  if privileged (← get) then pure () else raise i 23 0 0

/-- A joint instruction up to its operands, with the checks of R317 that come before any operand is taken. -/
def systemOperands (i : Instr) (g : Guard) (srcs : List WReg) (dsts : List Opnd) (check : M Unit) : M (List Word × M Unit) := do
  begin (mkForm i g .joint) true
  needEarlier
  waits (srcs.map .w) dsts
  check
  let cs ← prepare (mkForm i g .joint) (srcs.map .w) dsts (haltWith fun s => endScout s.cur.slot s)
  let xs ← peekAll cs srcs
  return (xs, do let _ ← srcs.mapM (takeW cs))

/-! ## Reads (R311) -/

/-- `WDCNT` has fallen by a free number of cycles since it was last seen; it has not reached zero, or the task would have
expired (R309). -/
def countDown (n : Nat) (s : State) : State :=
  let (k, s) := s.nextFree
  match s.taskOf n with
  | some t =>
    if t.committed then s.modSlot n fun sl =>
      { sl with sys := { sl.sys with wdcnt := BitVec.ofNat 32 (max (min sl.sys.wdcnt.toNat 1) (sl.sys.wdcnt.toNat - k)) } }
    else s
  | none => s

/-- The slot's task belongs to the owner of the engine state (R210). -/
def ownsEngine (s : State) (n : Nat) : Bool := (s.engine (tileOfSlot n)).owner == some (s.vfOf n, s.groupOf n)
/-- `MXSTAT`, `MXGMODE`, `AMSKROW` and `AMSKCOL` (R211). -/
def mxstat (e : Engine) : Word :=
  let busy : Nat := (List.range 8).foldl (fun acc k =>
    if e.ops.any (fun o => o.streamed && o.strm.toNat == k) then acc + 2 ^ k else acc) 0
  fieldAt 0 (e.g % 32) ||| fieldAt 8 busy ||| bitAt 16 e.gvalid ||| fieldAt 17 e.gfault.toNat ||| fieldAt 20 e.gidx.toNat
    ||| fieldAt 32 (e.nrule % 8192)
def gmodeCode : GMode → Nat | .none => 0 | .intS => 1 | .intU => 2 | .flt => 3
def mxgmode (e : Engine) : Word :=
  (List.range 24).foldl (fun acc g => acc ||| fieldAt (2 * g) (gmodeCode (e.modes.get g .none))) 0
def amskcol (e : Engine) : Word := fieldAt 0 e.collo.toNat ||| fieldAt 16 e.colhi.toNat

/-- The value of a system register of slot n. `WIN2` is written to send a record, and what a read of it gives is free. -/
def readSys (n : Nat) (r : SysReg) (s : State) : Word :=
  let sl := s.slot n
  let c := s.core (coreOfSlot n)
  let e := s.engine (tileOfSlot n)
  let mine (w : Word) : Word := if ownsEngine s n then w else 0
  match r with
  | .nanmode => bitAt 0 c.nanmode
  | .tsr => sl.sys.tsr
  | .uivec => sl.sys.uivec
  | .srgen => sl.xr.srgen.zeroExtend 64
  | .semts => sl.sys.semts
  | .slotstat => slotstat s n
  | .wdcnt => sl.sys.wdcnt.zeroExtend 64
  | .cwin k => sl.sys.cwin.toArray.getD k.toNat 0
  | .cdone k => (chanOf s (tileOfSlot n) k.toNat).cdone.zeroExtend 64
  | .mpdst k => sl.mpdstOf k
  | .wbase => sl.sys.wbase.zeroExtend 64
  | .rslow => sl.sys.rslow.zeroExtend 64
  | .rsidx => sl.sys.rsidx.zeroExtend 64
  | .rsdata => sl.xr.stack.toArray.getD sl.sys.rsidx.toNat 0
  | .cfp => sl.sys.cfp
  | .cfda => sl.sys.cfda
  | .cfh => sl.sys.cfh
  | .qpend => sl.sys.qpend
  | .relpend => sl.sys.relpend
  | .qpbuf k => sl.sys.qpbuf.toArray.getD k.toNat 0
  | .mxstat => mine (mxstat e)
  | .mxgmode => mine (mxgmode e)
  | .amskrow => mine (fieldAt 0 e.rows.toNat)
  | .amskcol => mine (amskcol e)
  | .wmb0 => c.wmb0.getD 0
  | .wmb1 => c.wmb1.getD 0
  | .win0 => c.win0
  | .win1 => c.win1
  | .win2 => Config.freeWord s.free 0
  | .vlim => (s.vault (clusterOfTile (tileOfSlot n))).vlim.zeroExtend 64
  | .tvec => c.tvec
  | .tcause => sl.trap.tcause
  | .tinsn => sl.trap.tinsn
  | .tpc => sl.trap.tpc
  | .tva => sl.trap.tva
  | .tstat => bitAt 0 sl.trap.tstat

/-- What a read does first: the walker's mailbox gives its oldest message, and a read of `WMB1` removes it (R97); counters go
on. A word of a mailbox that holds no message is free. -/
def readSysFirst (r : SysReg) : M Unit := do
  let s ← get
  let n := s.cur.slot
  match r with
  | .wdcnt => modify (countDown n)
  | .win2 => modify fun s => s.nextFree.2
  | .wmb0 => match (s.core s.myCore).mailbox with
    | [] => park .mailbox
    | m :: _ => modify fun s => s.modCore s.myCore fun c => { c with wmb0 := some m.1 }
  | .wmb1 => match (s.core s.myCore).mailbox with
    | [] => do
      let (_, s) := s.nextFree
      set (s.modCore s.myCore fun c => { c with wmb1 := some (Config.freeWord s.free 1) })
    | _ => modify fun s => readWmb1 s.myCore s
  | _ => pure ()

/-- The role trap of a channel that the core does not own (R301). -/
def checkChannel (i : Instr) (r : SysReg) : M Unit := do
  match r with
  | .cdone c => if chanRole c.toNat ≠ (← get).myRole then raise i 4 0xE9 0
  | _ => pure ()

def execMfsr (o : MfsrOps) (s : State) : Host.Outcome State Fault Refusal :=
  M.step (do
    let i := Instr.mfsr o
    let _ ← systemOperands i o.gd [] [.w o.d] (do checkClass i o.reg false; checkChannel i o.reg)
    readSysFirst o.reg
    let s ← get
    putW o.d (readSys s.cur.slot o.reg s)
    retireBoth i) s

/-! ## Writes (R311) -/

/-- The invariant of the register stack (R154). -/
def stackOk (wbase rslow : BitVec 32) : Bool := decide (rslow.toNat ≤ wbase.toNat) && decide (wbase.toNat + 32 ≤ rslow.toNat + 128)
/-- A write of `RSLOW` (R155): ignored when it would break the invariant of R154; entries newly admitted at the top become
zero. -/
def writeRslow (n : Nat) (v : Word) (s : State) : State :=
  s.modSlot n fun sl =>
    let new := (v.extractLsb' 0 32).toNat
    let old := sl.sys.rslow.toNat
    if stackOk sl.sys.wbase (v.extractLsb' 0 32) then
      let first := max (old + 128) new
      let stack := (List.range (new + 128 - first)).foldl (fun acc k => acc.set! ((first + k) % 128) 0#64) sl.xr.stack
      { sl with sys := { sl.sys with rslow := BitVec.ofNat 32 new }, xr := { sl.xr with stack := stack } }
    else sl
def execRslowWrite (slot : Nat) (v : Word) (s : State) : Host.Outcome State Fault Refusal := .next (writeRslow slot v s)

/-- Another user slot of the core is bound (R73). -/
def otherBound (s : State) (n : Nat) : Bool :=
  (List.range 15).any fun k => 16 * coreOfSlot n + k != n && (s.slot (16 * coreOfSlot n + k)).bound
def writeNanmode (n : Nat) (v : Word) (s : State) : State := s.modCore (coreOfSlot n) fun c => { c with nanmode := v.getLsbD 0 }
/-- NANMODE_WRITE: a refused write traps in the slot that makes it; the instruction that the record names is free. -/
def execNanmodeWrite (slot : Nat) (v : Word) (s : State) : Host.Outcome State Fault Refusal :=
  .next (if otherBound s slot then
      let (k, s) := s.nextFree
      enterHandler slot 10 0x300 (Config.freeWord k 0) (s.slot slot).ar.pc 0 s
    else writeNanmode slot v s)

def writeSrgen (n : Nat) (v : Word) (s : State) : State :=
  s.modSlot n fun sl => { sl with xr := { sl.xr with srgen := srWrite (v.truncate 32) } }
def execSrgenWrite (slot : Nat) (v : Word) (s : State) : Host.Outcome State Fault Refusal := .next (writeSrgen slot v s)

/-- What a write of `MPDST` stores over an old value (R156). -/
def mpdstValue (old v : Word) : Word :=
  let bad := v.extractLsb' 4 2 == 3#2 || v.extractLsb' 0 4 == 15#4 || decide (191 < (v.extractLsb' 8 8).toNat)
  keepBits 0 17 v ||| bitAt 62 (old.getLsbD 62 && !v.getLsbD 62) ||| bitAt 63 (v.getLsbD 63 && !bad)
def writeMpdst (n k : Nat) (v : Word) (s : State) : State :=
  s.modSlot n fun sl => { sl with sys := { sl.sys with mpdst := sl.sys.mpdst.set! k (mpdstValue (sl.sys.mpdst.toArray.getD k 0) v) } }
def execMpdstWrite (slot n : Nat) (v : Word) (s : State) : Host.Outcome State Fault Refusal := .next (writeMpdst slot n v s)

/-- A write of a system register of slot n; a register that is RO for its writer keeps its value (R9, R301). -/
def writeSys (n : Nat) (r : SysReg) (v : Word) (s : State) : State :=
  let sys (f : SysRegs → SysRegs) : State := s.modSlot n fun sl => { sl with sys := f sl.sys }
  match r with
  | .nanmode => writeNanmode n v s
  | .tsr => sys fun x => { x with tsr := v }
  | .uivec => sys fun x => { x with uivec := v }
  | .srgen => writeSrgen n v s
  | .cwin k => sys fun x => { x with cwin := x.cwin.set! k.toNat (keepBits 3 54 v) }
  | .mpdst k => writeMpdst n k.toNat v s
  | .rslow => writeRslow n v s
  | .rsidx => sys fun x => { x with rsidx := v.extractLsb' 0 7 }
  | .rsdata => s.modSlot n fun sl => { sl with xr := { sl.xr with stack := sl.xr.stack.set! sl.sys.rsidx.toNat v } }
  | .win0 => s.modCore (coreOfSlot n) fun c => { c with win0 := v }
  | .win1 => s.modCore (coreOfSlot n) fun c => { c with win1 := v }
  | .win2 => sendInstall (coreOfSlot n) v s
  | .vlim => writeVlim (clusterOfTile (tileOfSlot n)) v s
  | .tvec => s.modCore (coreOfSlot n) fun c => { c with tvec := keepBits 2 54 v }
  | .semts | .slotstat | .wdcnt | .cdone _ | .wbase | .cfp | .cfda | .cfh | .qpend | .relpend | .qpbuf _ | .mxstat | .mxgmode
  | .amskrow | .amskcol | .wmb0 | .wmb1 | .tcause | .tinsn | .tpc | .tva | .tstat => s

def execMtsr (o : MtsrOps) (s : State) : Host.Outcome State Fault Refusal :=
  M.step (do
    let i := Instr.mtsr o
    let (xs, take) ← systemOperands i o.gd [o.s1] [] (checkClass i o.reg true)
    let s ← get
    if o.reg = .nanmode ∧ otherBound s s.cur.slot then raise i 10 0x300 0
    take
    modify fun s => writeSys s.cur.slot o.reg (xs.headD 0) s
    retireBoth i) s

/-! ## TRAP and BKPT (R312), the returns (R31, R313), WAITE and SNAP (R316) -/

/-- The trap of TRAP and BKPT: the slot resumes after the instruction. -/
def trapAfter (i : Instr) (g : Guard) (kind detail : Nat) (s : State) : Host.Outcome State Fault Refusal :=
  M.step (do
    let _ ← systemOperands i g [] [] (pure ())
    haltWith fun s => enterHandler s.cur.slot kind detail i.word (nextPc s.me.ar.pc i.bytes) 0 s) s
def execTrap (o : KTrap) (s : State) : Host.Outcome State Fault Refusal := trapAfter (.trap o) o.gd 24 o.n.toNat s
def execBkpt (o : N0) (s : State) : Host.Outcome State Fault Refusal := trapAfter (.bkpt o) o.gd 25 0 s

/-- Leave the completion handler: the user bank returns, and the halves resume where they were interrupted. -/
def leaveCompletion (n : Nat) (s : State) : State :=
  s.modSlot n fun sl =>
    let p := max sl.ar.pos sl.xr.pos + 1
    { sl with
      inUi := false, uiHold := false, ar := { sl.ar with pos := p, pc := sl.uipca, bad := false },
      xr := { sl.xr with pos := p, pc := sl.uipcx, bad := false }, awai := .none, xwai := .none, ckpts := [] }
def execUiret (o : N0) (s : State) : Host.Outcome State Fault Refusal :=
  M.step (do
    let i := Instr.uiret o
    let _ ← systemOperands i o.gd [] [] (pure ())
    let sl ← getMe
    if sl.super || !sl.inUi then raise i 1 4 0
    modify fun s => leaveCompletion s.cur.slot s) s
def execTret (o : N0) (s : State) : Host.Outcome State Fault Refusal :=
  M.step (do
    let i := Instr.tret o
    let _ ← systemOperands i o.gd [] [] (checkSuper i)
    modify fun s => leaveHandler s.cur.slot (s.modMe fun sl => { sl with awai := .none, xwai := .none })) s

def execWaite (o : N0) (s : State) : Host.Outcome State Fault Refusal :=
  M.step (do
    let i := Instr.waite o
    let _ ← systemOperands i o.gd [] [] (pure ())
    let s ← get
    if !waiteDue s s.cur.slot then park .waite
    retireBoth i) s
def execSnap (o : N0) (s : State) : Host.Outcome State Fault Refusal :=
  M.step (do
    let i := Instr.snap o
    let _ ← systemOperands i o.gd [] [] (checkSuper i)
    modify fireSnap
    retireBoth i) s

/-! ## Context images (R308) -/

def imageMagic : Nat := 0x58544358
/-- The bytes of an image before the frame area. -/
def imageBytes : Nat := 3152
def bqTypeCode : BqType → Nat | .outcome => 0 | .guard => 1 | .release => 2 | .acquire => 3
def bqTypeOf (k : Nat) : BqType := if k = 0 then .outcome else if k = 1 then .guard else if k = 2 then .release else .acquire
def bqWord (e : BqEntry) : Word := fieldAt 0 (if e.value then 1 else 0) ||| fieldAt 1 (bqTypeCode e.type) ||| (e.offset <<< 32)
def bqOfWord (w : Word) : BqEntry :=
  { pos := 0, type := bqTypeOf (w.extractLsb' 1 2).toNat, value := w.getLsbD 0, offset := w >>> 32 }
/-- A list of words filled up with others. -/
def padWords (n : Nat) (ws : List Word) (fill : Nat → Word) : List Word := (List.range n).map fun k => ws.getD k (fill k)

/-- The first two words of an image. -/
def imageHead (s : State) (n : Nat) : List Word :=
  let sl := s.slot n
  [fieldAt 0 imageMagic ||| fieldAt 32 (s.vfOf n % 1024) ||| fieldAt 42 (coreOfSlot n % 3)
     ||| bitAt 44 (s.core (coreOfSlot n)).nanmode ||| bitAt 45 sl.trap.tstat ||| fieldAt 46 (s.groupOf n).toNat,
   fieldAt 0 sl.lq.length ||| fieldAt 6 sl.sq.length ||| fieldAt 11 sl.bqa.length ||| fieldAt 15 sl.bqx.length
     ||| fieldAt 19 sl.sys.rots.toNat ||| fieldAt 21 sl.xr.rb.toNat ||| fieldAt 25 (sl.xr.p.toNat / 2) ||| fieldAt 32 sl.sys.rsidx.toNat]

/-- The words of an image before the frame area. The interrupted positions of a slot that runs no completion handler and the
unused entries of sq and of the branch queues, which the manual does not give, are free. -/
def imageWords (s : State) (n : Nat) : List Word :=
  let sl := s.slot n
  let x := sl.sys
  let free (k : Nat) : Nat → Word := fun j => Config.freeWord s.free (64 * k + j)
  imageHead s n
    ++ [sl.ctxa, sl.ctxx, if sl.trap.tstat then sl.uipca else free 0 0, if sl.trap.tstat then sl.uipcx else free 0 1]
    ++ [x.tsr, sl.xr.srgen.zeroExtend 64, x.wdcnt.zeroExtend 64, x.uivec, x.semts, fieldAt 0 x.wbase.toNat ||| fieldAt 32 x.rslow.toNat]
    ++ x.cwin.toList ++ x.mpdst.toList ++ x.qpend :: x.qpbuf.toList ++ [x.cfp, x.cfda, x.cfh]
    ++ sl.ar.lo.toList.drop 1 ++ sl.ar.user.toList ++ sl.ar.shadow.toList ++ sl.xr.g.toList.drop 1 ++ sl.xr.m.toList.drop 1
    ++ sl.xr.v.toList.flatMap (fun v => valueWords v 8) ++ sl.xr.stack.toList
    ++ padWords 32 (sl.lq.map fun e => e.word.getD 0) (fun _ => 0) ++ padWords 16 (sl.sq.map (·.word)) (free 1)
    ++ padWords 8 (sl.bqa.map bqWord) (free 2) ++ padWords 8 (sl.bqx.map bqWord) (free 3) ++ [x.relpend]

/-- The bytes of the frame area that an image holds. -/
def frameLen (cfp : Word) : Nat := min (cfp.toNat % 8192) 4096

/-- The address of an image in the physical form of R96; a fault of its accesses is a double trap, as the slot is a handler. -/
def imageKey (i : Instr) (a : Word) (len : Nat) : M Nat := do
  let va := a &&& ~~~1#64
  if va.extractLsb' 58 6 ≠ 0#6 then raise i 6 (3 + 16) va
  let key := physKey va
  if !isDram key || !isDram (key + len - 1) then raise i 6 (4 + 48) va
  return key
/-- The operand of CSAVE and CREST. -/
def imageOperand (i : Instr) (o : S1W) : M (Word × M Unit) := do
  let (xs, take) ← systemOperands i o.gd [o.s1] [] (checkSuper i)
  let a := xs.headD 0
  if a.extractLsb' 1 5 ≠ 0#5 then raise i 5 4 a
  return (a, take)

/-- Every access of the user context has been performed, and lq holds only filled entries (R314). -/
def contextQuiet (s : State) (n : Nat) : Bool :=
  let sl := s.slot n
  sl.loads.isEmpty && sl.stores.isEmpty && sl.lq.all (fun e => e.word.isSome)
    && !((s.taskOf n).map fun t => t.escrow.any fun e => e.slot == n).getD false

/-- Write the image of slot n at a key. -/
def saveImage (n key : Nat) (s : State) : State :=
  let s := countDown n s
  let ws := imageWords s n
  let len := frameLen (s.slot n).sys.cfp
  let s := s.nextFree.2
  let s := ((List.range ws.length).zip ws).foldl (fun acc x => memPut (key + 8 * x.1) 8 (x.2.zeroExtend 512) acc) s
  (List.range len).foldl (fun acc k => memPut (key + imageBytes + k) 1 (memGet acc (frameKey acc n k) 1) acc) s

/-- The slot leaves its task, whose context is saved: it keeps its grant and its tensor table. -/
def saveSlot (n : Nat) (s : State) : State :=
  releaseSlot n (s.modTask (s.slot n).task fun t => { t with saved := true, slots := dropAll t.slots (fun k => k == n) })

def execCsave (o : S1W) (s : State) : Host.Outcome State Fault Refusal :=
  M.step (do
    let i := Instr.csave o
    let (a, take) ← imageOperand i o
    if uncommitted (← get) then haltWith fun s => discardBody s.me.task true false 0 s
    let s ← get
    let n := s.cur.slot
    let key ← imageKey i a (imageBytes + frameLen s.me.sys.cfp)
    holdUnless (contextQuiet s n)
    take
    modify (saveImage n key)
    if a.getLsbD 0 then modify (saveSlot n) else retireBoth i) s

/-- Word k of an image. -/
def imageWord (s : State) (key k : Nat) : Word := memWord s (key + 8 * k)
def imageRange (s : State) (key k n : Nat) : List Word := (List.range n).map fun j => imageWord s key (k + j)

/-- The slot with the user context of an image. An image whose `RSLOW` breaks the invariant of R154 leaves it at `WBASE`
(DESIGN CHOICE, log 93), and reserved fields of registers stay 0. -/
def loadContext (s : State) (key : Nat) (sl : Slot) : Slot :=
  let w := imageWord s key
  let r := imageRange s key
  let vec (k n : Nat) : Vector Word n := vecOf n (r k n) 0
  let count (lo len : Nat) : Nat := ((w 1).extractLsb' lo len).toNat
  let mp (k : Nat) : Word := let v := w (20 + k); mpdstValue v (v &&& ~~~(1#64 <<< 62))
  let sqn := min (count 6 5) 16
  let wbase : BitVec 32 := (w 11).truncate 32
  let rslow := (w 11).extractLsb' 32 32
  { sl with
    ctxa := w 2, ctxx := w 3, uipca := w 4, uipcx := w 5, trap := { sl.trap with tstat := (w 0).getLsbD 45 },
    ar := { sl.ar with lo := vecOf 8 (0 :: r 36 7) 0, user := vec 43 8, shadow := vec 51 8 },
    xr := { sl.xr with
      g := vecOf 8 (0 :: r 59 7) 0, m := vecOf 8 (0 :: r 66 7) 0, v := vecOf 16 ((List.range 16).map fun k => wordsValue (r (73 + 8 * k) 8)) 0,
      stack := vec 201 128, p := BitVec.ofNat 8 (2 * count 25 7), rb := BitVec.ofNat 4 (count 21 4), srgen := srWrite ((w 7).truncate 32),
      sqPushed := sqn },
    sys := { sl.sys with
      tsr := w 6, wdcnt := (w 8).truncate 32, uivec := w 9, semts := w 10, wbase := wbase, rslow := if stackOk wbase rslow then rslow else wbase,
      rsidx := BitVec.ofNat 7 (count 32 7), rots := BitVec.ofNat 2 (count 19 2),
      cwin := mapVec (keepBits 3 54) (vec 12 8), mpdst := vecOf 4 ((List.range 4).map mp) 0, qpend := w 24 &&& 0xFFFFFFFF00000007#64, qpbuf := vec 25 8,
      cfp := keepBits 0 12 (w 33), cfda := w 34, cfh := w 35 &&& 0xFFFFFFFF0000003F#64,
      relpend := keepBits 0 0 (w 393) ||| keepBits 3 54 (w 393) },
    lq := (r 329 (min (count 0 6) 32)).map (fun x => ({ pos := 0, word := some x } : LqEntry)),
    sq := (r 361 sqn).map (fun x => ({ pos := 0, word := x } : SqEntry)), sqTaken := 0,
    bqa := (r 377 (min (count 11 4) 8)).map bqOfWord, bqx := (r 385 (min (count 15 4) 8)).map bqOfWord }

/-- The saved task whose context the slot takes over: its VF, GROUP, TS and DONE are those of the slot's task (DEDUCED, log 33).
Its tensor table stays on the tile with the task that goes on. -/
def takeOverSaved (n : Nat) (s : State) : State :=
  match s.taskOf n with
  | none => s
  | some t =>
    match s.tasks.find? fun (_, u) => u.saved && u.slots.isEmpty && u.tile == t.tile && u.vf == t.vf
        && recGroup u.words == recGroup t.words && recTs u.words == recTs t.words && recDone u.words == recDone t.words with
    | none => s
    | some (k, u) =>
      let s := s.modTask (s.slot n).task fun t => { t with tensors := u.tensors }
      { s with tasks := s.tasks.erase k }

/-- Replace the user context of slot n, its frame area among it. -/
def restoreImage (n key : Nat) (s : State) : State :=
  let w := imageWord s key
  let len := frameLen (w 33)
  let s' := (List.range len).foldl (fun acc k => memPut (frameKey acc n k) 1 (memGet s (key + imageBytes + k) 1) acc)
    (s.modSlot n (loadContext s key))
  trimVault (clusterOfSlot n) (takeOverSaved n (s'.modCore (coreOfSlot n) fun c => { c with nanmode := (w 0).getLsbD 44 }))

def execCrest (o : S1W) (s : State) : Host.Outcome State Fault Refusal :=
  M.step (do
    let i := Instr.crest o
    let (a, take) ← imageOperand i o
    let key ← imageKey i a imageBytes
    let s ← get
    let n := s.cur.slot
    let w := imageWord s key 0
    let len := imageBytes + frameLen (imageWord s key 33)
    if !isDram (key + len - 1) then raise i 6 (4 + 48) (a &&& ~~~1#64)
    checkPoison ((List.range (len / 32 + 1)).any fun k => s.poison.contains (key / 32 + k))
    if w.extractLsb' 0 32 ≠ BitVec.ofNat 32 imageMagic ∨ (w.extractLsb' 32 10).toNat ≠ s.vfOf n % 1024
        ∨ (w.extractLsb' 42 2).toNat ≠ coreOfSlot n % 3 ∨ w.extractLsb' 46 16 ≠ s.groupOf n then raise i 30 1 0
    if w.getLsbD 44 ≠ (s.core s.myCore).nanmode ∧ otherBound s n then raise i 30 2 0
    take
    modify (restoreImage n key)
    retireBoth i) s

/-! ## The tensor table (R315) -/

/-- Reserved bits of an entry are written as zero (R82). -/
def tensorMask (k : Nat) (w : Word) : Word :=
  match k with
  | 0 => w &&& 0x0FFFFFFF063FFFFF#64
  | 1 => w &&& 0x7FFFFF#64
  | 6 | 7 => 0
  | _ => w

/-- The entry's number, and the address with its alignment trap, scratch fault and format fault. -/
def tensorOperands (i : Instr) (o : S2W) (store : Bool) : M (Nat × Word × Option Buffer × M Unit) := do
  let (xs, take) ← systemOperands i o.gd [o.s1, o.s2] [] (pure ())
  let a := xs.getD 1 0
  if a.toNat % 64 ≠ 0 then raise i 5 4 a
  let b ← recordScratch i a
  match b with
  | some (.scratch t k off) => checkPureTile (.scratch t k off)
  | _ => do
    checkVirt i a (if store then Access.store else Access.load) (do take; retireBoth i)
    checkPure store a.toNat 64
  return ((xs.getD 0 0).toNat % 256, a, b, take)

def execTtld (o : S2W) (s : State) : Host.Outcome State Fault Refusal :=
  M.step (do
    let i := Instr.ttld o
    let (id, a, b, take) ← tensorOperands i o false
    let b ← recordPiece i a b take
    let s ← get
    match b with
    | .mem l =>
      if !s.me.super then
        match recordRead s s.me.task l.asid l.va with
        | some s => set s
        | none => haltWith fun s => discardBody s.me.task true false 0 s
    | _ => pure ()
    let ws ← readPieces s.cur.slot s.me.ar.pos [b]
    take
    modify fun s => s.modTask s.me.task fun t =>
      { t with tensors := t.tensors.set id ((List.range 8).map fun k => tensorMask k (ws.getD k 0)) }
    retireBoth i) s

def execTtst (o : S2W) (s : State) : Host.Outcome State Fault Refusal :=
  M.step (do
    let i := Instr.ttst o
    let (id, a, b, take) ← tensorOperands i o true
    let skip : M Unit := do
      take
      retireBoth i
    let s ← get
    let data := (tensorRef s s.cur.slot id).words.map DataWord.val
    match b with
    | some (.scratch t k off) => do
      take
      pushStore i .st (.scratch t k off) .v data false false none .discard
    | _ => do
      let here : Loc := { key := 0, va := a.toNat, asid := s.asidOf s.cur.slot, large := false, scope := 0, c := false, w := false, watch := false }
      if inBody s && !escrowRoom s s.cur.slot here then escrowFull
      let tgt ← virtTarget i a .v Access.store skip
      let pend ← useRelpend a.toNat 64 true
      take
      pushStore i .st tgt .v data false false pend .discard
    retireBoth i) s

end Sys2Proof.Machine
end

