-- ==== Sys2Proof/Machine/Pipeline.lean ====
section
/-! DEFINITION. The steps of a slot's accesses after issue: load data returns, stores are performed, words arrive at ports and
links, parked halves become eligible, and fault-queue entries are replied to (01_operand_journey.md R19, 02_idioms.md R26, R36,
03_encoding.md R50, 07_tile_array.md R130, R131, 08_core.md R151, R157, R158, 15_traps_preemption.md R305). -/
namespace Sys2Proof.Machine

/-! ## Traps after issue (R26, R129, R296) -/

/-- The instruction with index `p`, which has issued, traps: every later instruction is undone, and the handler is entered with
the address of the instruction (R296). -/
def raiseLate (n p kind detail : Nat) (insn tva : Word) (s : State) : State :=
  let s := leaveQueues n (s.modSlot n fun sl => sl.backTo p)
  enterHandler n kind detail insn (s.slot n).ar.pc tva s

/-! ## Load data (R19) -/

/-- A load's data may return: every earlier acquire has taken effect, and the slot's own earlier accesses that it must follow
are done (R26, R130, R239). -/
def loadReady (s : State) (n : Nat) (x : PLoad) : Bool :=
  let sl := s.slot n
  let m := x.size.bytes
  !acquirePending sl x.pos && !sl.loads.any (fun y => decide (y.pos < x.pos) && y.tgt.meets x.tgt y.size.bytes m)
    && match x.tgt with
      | .mem l => !mustWait s n x.pos l m
      | tgt => !sl.stores.any fun y => decide (y.pos < x.pos) && y.tgt.meets tgt y.bytes m

/-- The words of a load arrive. -/
def giveLoad (n : Nat) (x : PLoad) (v : VWord) (s : State) : State :=
  s.modSlot n fun sl =>
    let sl := (sl.deliver x.pos x.dest (loadWords x.size x.sx v)).freeLoad x.pos
    let sl := { sl with loads := dropAll sl.loads (fun y => y.pos == x.pos) }
    if x.acq then sl.acquired x.pos else sl

/-- The bytes of a load from memory: the value, whether it is poisoned, and the state after. An acquire reads at the home and
then discards stale copies (R235). -/
def loadMem (n : Nat) (x : PLoad) (l : Loc) (s : State) : VWord × Bool × State :=
  let t := tileOfSlot n
  if x.acq then
    let s := toHome t l s
    (ownBytes s n x.pos l x.size.bytes (homeGet s l x.size.bytes), homePoison s l x.size.bytes,
     acquireWord x.binds t l.asid (l.va - l.va % 8) s)
  else readMem n x.pos l x.size.bytes s

/-- The address by which slot n reached a target, for TVA (R17, R299); the free value `k` where the grant of a bank is gone. -/
def faultVa (s : State) (n k : Nat) : Target → Word
  | .mem l => BitVec.ofNat 64 l.va
  | .fifo _ _ va => va
  | .scratch t b off =>
    match grantOf (s.tile t) (s.vfOf n) (s.groupOf n) with
    | some (_, g) => BitVec.ofNat 64 (2 ^ 19 * tileInCluster t + 2 ^ 13 * (logicalBanks (s.tile t) g).findIdx (fun x => x == b) + off)
    | none => Config.freeWord k 1
  | .phys key => BitVec.ofNat 64 key
  | .reg _ va => BitVec.ofNat 64 va

/-- A scratchpad load finds its tile fenced (R129, R341): the scratch fault is taken at its instruction, after the earlier ones
that may still trap. Where the slot can no longer go back there, because an event has been taken since, the fault is due at the
next boundary and what the destination holds is free (log 91). -/
def fencedLoad (n : Nat) (x : PLoad) (s : State) : State :=
  let sl := s.slot n
  if sl.canBack x.pos then
    if lateBefore s n x.pos then s
    else
      let (k, s) := s.nextFree
      raiseLate n x.pos 15 5 x.insn (faultVa s n k x.tgt) s
  else if sl.xr.pos < x.pos then s
  else
    let (k, s) := s.nextFree
    giveLoad n x ((Config.freeWord k 0).zeroExtend 512) (s.modSlot n fun sl => { sl with scDue := some (faultVa s n k x.tgt) })

/-- A push that has been made waits no more (R131). -/
def donePush (n : Nat) (x : PStore) (s : State) : State :=
  match x.push n with
  | some (t, w) => (leaveFifo t w s).modSlot n fun sl => match sl.awai with | .fifoPush _ _ _ => { sl with awai := .none } | _ => sl
  | none => s

/-- A store finds its tile fenced, or no path to its page (R129, R326, R341): the scratch fault is taken at its instruction where
the slot can go back there, and at the next boundary where it cannot (log 34). -/
def fencedStore (n : Nat) (x : PStore) (s : State) : State :=
  let sl := s.slot n
  let (k, s) := s.nextFree
  let va := faultVa s n k x.tgt
  if sl.canBack x.pos && !x.body then
    if lateBefore s n x.pos then s else raiseLate n x.pos 15 5 x.insn va s
  else endStore n x (donePush n x (s.modSlot n fun sl => { sl with scDue := some va }))

/-- Load data returns, if it may. -/
def returnLoad (n : Nat) (x : PLoad) (s : State) : State :=
  if !loadReady s n x then s
  else
    match x.tgt with
    | .mem l =>
      if if x.acq then homeCut s (tileOfSlot n) l else reachCut s (tileOfSlot n) l then fencedLoad n x s
      else match if (s.slot n).super then some s else recordRead s (s.slot n).task l.asid l.va with
      | none => discardBody (s.slot n).task true false 0 s
      | some s =>
        let (v, bad, s) := loadMem n x l s
        if bad then consumePoison n x.pos s else giveLoad n x v s
    | .scratch t b off =>
      if tileLost s (tileOfSlot n) t then fencedLoad n x s
      else
        let (v, bad, s) := getScratch (s.vfOf n) t (8192 * b + off) x.size.bytes s
        if bad then consumePoison n x.pos s else giveLoad n x (BitVec.ofNat 512 v) s
    | .phys key =>
      -- the walker's own load: an error is unattributable, and poison ends the walk (R338, R344)
      let s := senseWalker key s
      if s.poison.contains (key / 32) then endWalk (coreOfSlot n) 3 (s.modSlot n fun sl => sl.undoFrom 0)
      else giveLoad n x (memGet s key x.size.bytes) s
    | .reg pa _ =>
      if regCut s (tileOfSlot n) pa then fencedLoad n x s
      else match regAt pa with
      | some r => let (v, s) := loadReg (s.vfOf n) r s; giveLoad n x (v.zeroExtend 512) s
      | none => giveLoad n x 0 s
    | .fifo _ _ _ => s
/-- LOAD_DATA_RETURN: of the load number k among those of the slot that are on their way. -/
def execLoadDataReturn (slot k : Nat) (s : State) : Host.Outcome State Fault Refusal :=
  .next (match (s.slot slot).loads[k]? with
    | some x => returnLoad slot x s
    | none => s)

/-! ## Stores (R26, R50) -/

/-- A store has left the slot: its data has come, and neither a release, nor room in a FIFO bank, nor checks that are still to
be made keep it (R26). It may not have been performed yet. -/
def PStore.left (x : PStore) (sl : Slot) : Bool :=
  owedIn x.data == 0 && x.op != .bcPost && relReady sl x && match x.tgt with | .fifo _ _ _ => false | _ => true
/-- What R130 and R239 order between an earlier store and a later one; two to one byte keep their order at every SCOPE (DESIGN
CHOICE, log 107). -/
def storesOrdered (y x : PStore) : Bool := y.acq || y.tgt.meets x.tgt y.bytes x.bytes

/-- A store may be performed: its data has come, both halves have issued what comes before it, every earlier store has left,
and what must come before it is done (R26, R50, R239, R339). -/
def storeReady (s : State) (n : Nat) (x : PStore) : Bool :=
  let sl := s.slot n
  let escrow := ((s.taskOf n).map fun t => t.committed && t.escrow.any fun e => e.slot == n && decide (e.pos < x.pos)).getD false
  owedIn x.data == 0 && decide (x.pos ≤ sl.xr.pos) && !acquirePending sl x.pos && !postPending sl x.pos && !escrow
    && !openAccess s n x.pos && !sl.loads.any (fun y => decide (y.pos < x.pos) && y.tgt.meets x.tgt y.size.bytes x.bytes)
    && relReady sl x && !sl.stores.any fun y => decide (y.pos < x.pos) && (!y.left sl || storesOrdered y x)

/-- A store of a body goes to escrow in program order, with or without its data (R132). -/
def escrowHead (n : Nat) (x : PStore) (s : State) : State :=
  match x.tgt with
  | .mem l =>
    -- one that comes after a commit is compared on its own (R272)
    let late := ((s.taskOf n).map (·.committed)).getD false
    settleEscrow (s.slot n).task (s.modTask (s.slot n).task fun t => { t with escrow := t.escrow ++ [{ x.escrow n l with gate := late }] })
  | _ => s

/-- A BCPOST has made its checks: a trap is taken at its instruction, or at the next boundary where the slot can no longer go back
there (R26, R144). The instruction counts among a redundant copy's outgoing operations all the same. -/
def endPost (n : Nat) (x : PStore) (detail : Nat) (s : State) : State :=
  let va := faultVa s n 0 x.tgt
  let count (s : State) : State := if x.key.isSome then s.modSlot n fun sl => sl.outCount .access else s
  if detail = 0 then endStore n x s
  else if (s.slot n).canBack x.pos then count (raiseLate n x.pos 14 detail x.insn va s)
  else endStore n x (s.modSlot n fun sl => { sl with bcDue := sl.bcDue ++ [(va, BitVec.ofNat 32 detail)] })
/-- A BCPOST makes its checks and its post. -/
def performPost (n : Nat) (x : PStore) (s : State) : Nat × State := postAt n x.tgt ((dataWords x.data).getD 0 0) x.binds s

/-- The store takes effect. An atomic that meets poison consumes it. -/
def applyHead (n : Nat) (x : PStore) (s : State) : State :=
  match x.tgt, x.op with
  | _, .bcPost => let (detail, s) := performPost n x s; endPost n x detail s
  | .mem l, .atom _ =>
    let s := toHome (tileOfSlot n) l s
    if homePoison s l x.size.bytes then consumePoison n x.pos s else endStore n x (applyStore n x s)
  | _, _ => endStore n x (applyStore n x s)

/-- A push without room parks its slot (R131, R151). -/
def waitPush (n : Nat) (x : PStore) (s : State) : State :=
  match x.push n with
  | some (t, w) => (waitFifo t w s).modSlot n fun sl => if sl.awai == .none then { sl with awai := .fifoPush t w.bank w.count } else sl
  | none => s

/-- A store of a body may go to escrow, which it does in program order: no earlier instruction of the slot can trap or consume
poison any more, or is an acquire that has not taken effect (R296, R339, R239). -/
def escrowMay (s : State) (n : Nat) (x : PStore) : Bool :=
  let sl := s.slot n
  decide (x.pos ≤ sl.xr.pos) && !openAccess s n x.pos && !lateAccess s n x.pos && !acquirePending sl x.pos && !postPending sl x.pos
    && !sl.stores.any fun y => y.body && decide (y.pos < x.pos)
/-- A store may be performed, or may go to escrow. -/
def mayLeave (s : State) (n : Nat) (x : PStore) : Bool := if x.body then escrowMay s n x else storeReady s n x
/-- The store of a slot that is performed next: which of those that may be is free, where there are several. -/
def nextStore (n : Nat) (s : State) : Option PStore × State :=
  match (s.slot n).stores.filter (mayLeave s n) with
  | [] => (none, s)
  | [x] => (some x, s)
  | xs => let (k, s) := s.nextFree; (xs[k % xs.length]?, s)

/-- A store of a slot is performed, or waits. -/
def performStore (n : Nat) (x : PStore) (s : State) : State :=
  let sl := s.slot n
  let fenced := x.cut s n
  if !mayLeave s n x then s
  else if x.body then endStore n x (escrowHead n x s)
  else if fenced then fencedStore n x s
  else if !pushReady s n x then waitPush n x s
  else
    let id := sl.task
    let gated := ((s.taskOf n).map (·.committed)).getD false && leavesTile n x.tgt
    match if gated then x.compare id n s else (Gate.go, s) with
    | (.wait, s) => s
    | (.differ, s) => redMismatch id n x.tsr s
    | (.taken r, s) =>
      match x.tgt, x.op with
      | _, .bcPost => endPost n x (r.headD 0).toNat s
      | _, _ => endStore n x (donePush n x (s.modSlot n fun sl => sl.deliver x.pos x.dest r))
    | (.go, s) =>
      let old : List Word := match x.tgt, x.op with
        | .mem l, .atom _ => [(homeGet (toHome (tileOfSlot n) l s) l x.size.bytes).truncate 64]
        | _, .bcPost => [BitVec.ofNat 64 (performPost n x s).1]
        | _, _ => []
      let s := donePush n x (applyHead n x s)
      if gated then x.performed id old s else s
/-- A store of slot n waits in the escrow of its task, which has committed, for no more than its turn or the other copy. -/
def escrowWaits (s : State) (n : Nat) : Bool :=
  ((s.taskOf n).map fun t => t.committed && t.escrow.any fun e => e.slot == n && owedIn e.data == 0).getD false
/-- STORE_PERFORMED: a store of the slot is performed, or escrow that waits is tried again. Stores leave in program order (R26); the order in which they are performed
is otherwise free where R239 gives none. -/
def execStorePerformed (slot : Nat) (s : State) : Host.Outcome State Fault Refusal :=
  .next (match nextStore slot s with
    | (some x, s) => performStore slot x s
    | (none, s) => settleEscrow (s.slot slot).task s)

/-! ## Ports and links (R157, R158) -/

/-- A word reaches its destination, or is discarded and sets DROP in the register that it was sent through. -/
def arrive (f : Flight) (s : State) : State :=
  let s := { s with flights := s.flights.erase f }
  if (s.slot f.dest).bound && s.vfOf f.dest == f.vf && !tileLost s (tileOfSlot f.sender) (tileOfSlot f.dest) && !tileCut s (dieOfSlot f.sender) (tileOfSlot f.dest) then
    s.modSlot f.dest fun sl => { sl with ports := sl.ports.set! f.dport (sl.portOf f.dport ++ [f.word]) }
  else
    s.modSlot f.sender fun sl => { sl with sys := { sl.sys with
      mpdst := sl.sys.mpdst.set! f.port (sl.sys.mpdst.toArray.getD f.port 0 ||| (1#64 <<< 62)) } }
/-- PORT_WORD_ARRIVAL: words of one sender arrive in order, and which sender's comes first is free (R36). -/
def execPortWordArrival (slot port : Nat) (s : State) : Host.Outcome State Fault Refusal :=
  .next (
    let fs := s.flights.filter fun f => f.dest == slot && f.dport == port
    let who := (fs.map fun f => (f.sender, f.port)).eraseDups
    let (k, s) := if who.length ≤ 1 then (0, s) else s.nextFree
    match fs.find? fun f => who[k % who.length]? == some (f.sender, f.port) with
    | some f => arrive f s
    | none => s)

/-- LINK_WORD_ARRIVAL: at a tile's `lkw` or `lke`. -/
def execLinkWordArrival (tile : Nat) (west : Bool) (s : State) : Host.Outcome State Fault Refusal :=
  .next (s.modTile tile fun t =>
    if west then { t with lkw := t.lkw ++ t.lkwFly.take 1, lkwFly := t.lkwFly.drop 1 }
    else { t with lke := t.lke ++ t.lkeFly.take 1, lkeFly := t.lkeFly.drop 1 })

/-! ## Replies to fault-queue entries (R305) -/

def clearWaits (sl : Slot) : Slot := { sl with awai := .none, xwai := .none }

/-- A slot reacts to the reply word of its entry, of kind 1 or 3. A slot that had not entered its root function asks for it
anew. -/
def react (n : Nat) (status : Nat) (code : Bool) (s : State) : State :=
  let sl := s.slot n
  if status = 0 then
    let s := s.modSlot n clearWaits
    if code && sl.sys.cfh == 0 then askRoot n (frameDigest s n 0) s else s
  else if status = 1 ∧ !code then
    let w1 := sl.fentry.getD 0 0
    enterHandler n 6 ((w1.extractLsb' 8 4).toNat + 16 * (w1.extractLsb' 12 2).toNat) sl.finsn sl.ar.pc sl.fva
      (s.modSlot n clearWaits)
  else stopTask sl.task s

/-- The slots and the transfers that wait on a reply word. -/
def waitsOn (sl : Slot) (key : Nat) : Option Bool :=
  match sl.awai with
  | .faultWord k code => if k = key then some code else none
  | _ => none
def replyAll (key : Nat) (s : State) : State :=
  let status := (memWord s key).toNat % 16
  let s := s.slots.foldl (fun acc (n, _) => match waitsOn (acc.slot n) key with
    | some code => react n status code acc
    | none => acc) s
  let s := s.tiles.foldl (fun acc (t, tl) => channels.foldl (fun acc c =>
    ((tl.chans.toArray.getD c Channel.reset).exec.filter fun x => x.fault == some key).foldl (fun acc x => replyTransfer t c x status acc)
      acc) acc) s
  (List.range 4).foldl (fun acc d => replyHolds d acc) s
/-- FAULT_ENTRY_REPLY: word 0 of an entry is filled, and whoever waits on it goes on. -/
def execFaultEntryReply (key : Nat) (word0 : Word) (s : State) : Host.Outcome State Fault Refusal :=
  .next (replyAll key (setFE key true (memSetWord key word0 s)))

/-! ## Parked halves (R151) -/

/-- The cause of a parked half of slot n has been served. -/
def served (s : State) (n : Nat) (h : Half) : Bool :=
  let sl := s.slot n
  let t := tileOfSlot n
  match sl.waitOf h with
  | .none | .load _ | .conversion | .engine | .fifoPush _ _ _ => false
  | .faultPost => sl.post.isSome
  | .xlat => !((s.die (dieOfSlot n)).misses.any fun m => m.waiters.any (Requester.ofSlot n))
      && !s.remotes.any fun r => r.req.ofSlot n && !r.answered
  | .storeData => !sl.stores.any fun y => behindOwed s n y.pos y.tgt y.bytes
  | .copyRoom c => decide ((chanOf s t c).fifo.length < 8)
  | .copyId c id => idComplete (chanOf s t c) (BitVec.ofNat 32 id)
  | .lqEmpty k => decide (k ≤ sl.lq.length) && (sl.lq.take k).all fun e => e.word.isSome
  | .branchEmpty => !(sl.bqIn h).isEmpty
  | .portEmpty k => !(sl.portOf k).isEmpty
  | .linkEmpty west => if west then !(s.tile t).lkw.isEmpty else !(s.tile t).lke.isEmpty
  | .mailbox => !(s.core (coreOfSlot n)).mailbox.isEmpty
  | .waite => waiteDue s n
  | .fifoPop u b k => tileLost s t u || fifoReady s u { bank := b, slot := n, half := h, push := false, count := k }
  | .fullKeep l => ((s.taskOf n).map fun x => !x.committed && x.escrow.any fun e => overlaps e.loc.key 8 l.key 8).getD false || isRemote l.key
  | .fullEmpty key full =>
    feFull s key == full || isRemote key || ((s.taskOf n).map fun x => !x.committed && x.escrow.any fun e => overlaps e.loc.key 8 key 8).getD false
  | .semaphore k => decide ((semOf (s.tile t) k).count ≠ 0) && match (s.tile t).semWait.find? (fun w => w.1 == k) with
      | some w => w.2 == n
      | none => true
  | .faultWord key _ => feFull s key
  | .code id => !(s.vault (clusterOfSlot n)).fetches.any fun f => f.id == id
  | .lqRoom k => decide (sl.lq.length + k ≤ 32)
  | .sqRoom k => decide (sl.sq.length + k ≤ 16)
  | .branchRoom => decide ((sl.bqOut h).length < 8)
  | .portRoom k => let w := sl.mpdstOf (BitVec.ofNat 2 k); !(mpValid w && portFull s (mpDest n w))
  | .linkRoom west => !linkFull s t west
  | .queueRoom q => decide ((s.queue q).recs.length < 4096)
  | .meeting => sl.posOf (otherHalf h) == sl.posOf h && (sl.waitOf (otherHalf h)).mayMeet

/-- SLOT_UNPARK. A slot that waits on the reply word of a fault-queue entry reacts to it, and one that has still to post tries
again when it may. -/
def execSlotUnpark (slot : Nat) (half : Half) (s : State) : Host.Outcome State Fault Refusal :=
  .next (
    if !served s slot half then s
    else match (s.slot slot).waitOf half with
      | .faultPost => retrySlot slot s
      | .faultWord key code => react slot ((memWord s key).toNat % 16) code s
      | _ => s.modSlot slot fun sl => sl.setWait half .none)

end Sys2Proof.Machine
end

