-- ==== Sys2Proof/Machine/Dispatch.lean ====
section
/-! DEFINITION. The meaning of every instruction and device step: one arm per constructor of Instr. -/
namespace Sys2Proof.Machine

def exec (i : Instr) (s : State) : Host.Outcome State Fault Refusal :=
  match i with
  | .nop o => Sys2Proof.Machine.execNop o s
  | .reservedOpcode w => Sys2Proof.Machine.execReservedOpcode w s
  | .br o => Sys2Proof.Machine.execBr o s
  | .bz o => Sys2Proof.Machine.execBz o s
  | .bnz o => Sys2Proof.Machine.execBnz o s
  | .bp o => Sys2Proof.Machine.execBp o s
  | .bnp o => Sys2Proof.Machine.execBnp o s
  | .beq o => Sys2Proof.Machine.execBeq o s
  | .bne o => Sys2Proof.Machine.execBne o s
  | .blt o => Sys2Proof.Machine.execBlt o s
  | .bge o => Sys2Proof.Machine.execBge o s
  | .bltu o => Sys2Proof.Machine.execBltu o s
  | .bgeu o => Sys2Proof.Machine.execBgeu o s
  | .loopr o => Sys2Proof.Machine.execLoopr o s
  | .brx o => Sys2Proof.Machine.execBrx o s
  | .ipf o => Sys2Proof.Machine.execIpf o s
  | .add o => Sys2Proof.Machine.execAdd o s
  | .sub o => Sys2Proof.Machine.execSub o s
  | .addi o => Sys2Proof.Machine.execAddi o s
  | .subi o => Sys2Proof.Machine.execSubi o s
  | .mul o => Sys2Proof.Machine.execMul o s
  | .mulh o => Sys2Proof.Machine.execMulh o s
  | .mulhu o => Sys2Proof.Machine.execMulhu o s
  | .div o => Sys2Proof.Machine.execDiv o s
  | .divu o => Sys2Proof.Machine.execDivu o s
  | .rem o => Sys2Proof.Machine.execRem o s
  | .remu o => Sys2Proof.Machine.execRemu o s
  | .and o => Sys2Proof.Machine.execAnd o s
  | .or o => Sys2Proof.Machine.execOr o s
  | .xor o => Sys2Proof.Machine.execXor o s
  | .andi o => Sys2Proof.Machine.execAndi o s
  | .ori o => Sys2Proof.Machine.execOri o s
  | .xori o => Sys2Proof.Machine.execXori o s
  | .shl o => Sys2Proof.Machine.execShl o s
  | .shr o => Sys2Proof.Machine.execShr o s
  | .sar o => Sys2Proof.Machine.execSar o s
  | .shli o => Sys2Proof.Machine.execShli o s
  | .shri o => Sys2Proof.Machine.execShri o s
  | .sari o => Sys2Proof.Machine.execSari o s
  | .mov o => Sys2Proof.Machine.execMov o s
  | .movi o => Sys2Proof.Machine.execMovi o s
  | .cmp o => Sys2Proof.Machine.execCmp o s
  | .cmpi o => Sys2Proof.Machine.execCmpi o s
  | .plog o => Sys2Proof.Machine.execPlog o s
  | .sel o => Sys2Proof.Machine.execSel o s
  | .bitc o => Sys2Proof.Machine.execBitc o s
  | .extr o => Sys2Proof.Machine.execExtr o s
  | .insr o => Sys2Proof.Machine.execInsr o s
  | .ld o => Sys2Proof.Machine.execLd o s
  | .ldx o => Sys2Proof.Machine.execLdx o s
  | .st o => Sys2Proof.Machine.execSt o s
  | .stx o => Sys2Proof.Machine.execStx o s
  | .ldfe o => Sys2Proof.Machine.execLdfe o s
  | .ldff o => Sys2Proof.Machine.execLdff o s
  | .stf o => Sys2Proof.Machine.execStf o s
  | .sete o => Sys2Proof.Machine.execSete o s
  | .aadd o => Sys2Proof.Machine.execAadd o s
  | .afadd o => Sys2Proof.Machine.execAfadd o s
  | .amin o => Sys2Proof.Machine.execAmin o s
  | .amax o => Sys2Proof.Machine.execAmax o s
  | .aand o => Sys2Proof.Machine.execAand o s
  | .aor o => Sys2Proof.Machine.execAor o s
  | .axor o => Sys2Proof.Machine.execAxor o s
  | .aswp o => Sys2Proof.Machine.execAswp o s
  | .acas o => Sys2Proof.Machine.execAcas o s
  | .pfh o => Sys2Proof.Machine.execPfh o s
  | .lds o => Sys2Proof.Machine.execLds o s
  | .sts o => Sys2Proof.Machine.execSts o s
  | .ldsx o => Sys2Proof.Machine.execLdsx o s
  | .stsx o => Sys2Proof.Machine.execStsx o s
  | .cflush o => Sys2Proof.Machine.execCflush o s
  | .cinv o => Sys2Proof.Machine.execCinv o s
  | .bcpost o => Sys2Proof.Machine.execBcpost o s
  | .bcrd o => Sys2Proof.Machine.execBcrd o s
  | .cpy o => Sys2Proof.Machine.execCpy o s
  | .cpynb o => Sys2Proof.Machine.execCpynb o s
  | .cwait o => Sys2Proof.Machine.execCwait o s
  | .ctest o => Sys2Proof.Machine.execCtest o s
  | .coll o => Sys2Proof.Machine.execColl o s
  | .collnb o => Sys2Proof.Machine.execCollnb o s
  | .cstat o => Sys2Proof.Machine.execCstat o s
  | .bind o => Sys2Proof.Machine.execBind o s
  | .unbind o => Sys2Proof.Machine.execUnbind o s
  | .qput o => Sys2Proof.Machine.execQput o s
  | .qget o => Sys2Proof.Machine.execQget o s
  | .sempost o => Sys2Proof.Machine.execSempost o s
  | .semwait o => Sys2Proof.Machine.execSemwait o s
  | .acq o => Sys2Proof.Machine.execAcq o s
  | .rel o => Sys2Proof.Machine.execRel o s
  | .fadd o => Sys2Proof.Machine.execFadd o s
  | .fsub o => Sys2Proof.Machine.execFsub o s
  | .fmul o => Sys2Proof.Machine.execFmul o s
  | .ffma o => Sys2Proof.Machine.execFfma o s
  | .fdiv o => Sys2Proof.Machine.execFdiv o s
  | .fsqrt o => Sys2Proof.Machine.execFsqrt o s
  | .fmin o => Sys2Proof.Machine.execFmin o s
  | .fmax o => Sys2Proof.Machine.execFmax o s
  | .fcmp o => Sys2Proof.Machine.execFcmp o s
  | .fcvt o => Sys2Proof.Machine.execFcvt o s
  | .fabs o => Sys2Proof.Machine.execFabs o s
  | .fneg o => Sys2Proof.Machine.execFneg o s
  | .vadd o => Sys2Proof.Machine.execVadd o s
  | .vsub o => Sys2Proof.Machine.execVsub o s
  | .vmul o => Sys2Proof.Machine.execVmul o s
  | .vfma o => Sys2Proof.Machine.execVfma o s
  | .vfms o => Sys2Proof.Machine.execVfms o s
  | .vfnma o => Sys2Proof.Machine.execVfnma o s
  | .vdiv o => Sys2Proof.Machine.execVdiv o s
  | .vsqrt o => Sys2Proof.Machine.execVsqrt o s
  | .vmin o => Sys2Proof.Machine.execVmin o s
  | .vmax o => Sys2Proof.Machine.execVmax o s
  | .vabs o => Sys2Proof.Machine.execVabs o s
  | .vneg o => Sys2Proof.Machine.execVneg o s
  | .vand o => Sys2Proof.Machine.execVand o s
  | .vor o => Sys2Proof.Machine.execVor o s
  | .vxor o => Sys2Proof.Machine.execVxor o s
  | .vnot o => Sys2Proof.Machine.execVnot o s
  | .vshl o => Sys2Proof.Machine.execVshl o s
  | .vshr o => Sys2Proof.Machine.execVshr o s
  | .vsar o => Sys2Proof.Machine.execVsar o s
  | .vcmp o => Sys2Proof.Machine.execVcmp o s
  | .vsel o => Sys2Proof.Machine.execVsel o s
  | .vmov o => Sys2Proof.Machine.execVmov o s
  | .vbcast o => Sys2Proof.Machine.execVbcast o s
  | .vins o => Sys2Proof.Machine.execVins o s
  | .vext o => Sys2Proof.Machine.execVext o s
  | .vperm o => Sys2Proof.Machine.execVperm o s
  | .vshuf o => Sys2Proof.Machine.execVshuf o s
  | .vrot o => Sys2Proof.Machine.execVrot o s
  | .vzip o => Sys2Proof.Machine.execVzip o s
  | .vunzip o => Sys2Proof.Machine.execVunzip o s
  | .vcvt o => Sys2Proof.Machine.execVcvt o s
  | .vrcp o => Sys2Proof.Machine.execVrcp o s
  | .vrsq o => Sys2Proof.Machine.execVrsq o s
  | .vexp o => Sys2Proof.Machine.execVexp o s
  | .vlog o => Sys2Proof.Machine.execVlog o s
  | .vradd o => Sys2Proof.Machine.execVradd o s
  | .vrmax o => Sys2Proof.Machine.execVrmax o s
  | .vrmin o => Sys2Proof.Machine.execVrmin o s
  | .vdot o => Sys2Proof.Machine.execVdot o s
  | .mand o => Sys2Proof.Machine.execMand o s
  | .mor o => Sys2Proof.Machine.execMor o s
  | .mxor o => Sys2Proof.Machine.execMxor o s
  | .mnot o => Sys2Proof.Machine.execMnot o s
  | .mpop o => Sys2Proof.Machine.execMpop o s
  | .mfirst o => Sys2Proof.Machine.execMfirst o s
  | .mtop o => Sys2Proof.Machine.execMtop o s
  | .cvt o => Sys2Proof.Machine.execCvt o s
  | .align o => Sys2Proof.Machine.execAlign o s
  | .dealign o => Sys2Proof.Machine.execDealign o s
  | .bscale o => Sys2Proof.Machine.execBscale o s
  | .seed o => Sys2Proof.Machine.execSeed o s
  | .vpack o => Sys2Proof.Machine.execVpack o s
  | .vunpk o => Sys2Proof.Machine.execVunpk o s
  | .cvld o => Sys2Proof.Machine.execCvld o s
  | .cvst o => Sys2Proof.Machine.execCvst o s
  | .mload o => Sys2Proof.Machine.execMload o s
  | .mma o => Sys2Proof.Machine.execMma o s
  | .mmaf o => Sys2Proof.Machine.execMmaf o s
  | .aclr o => Sys2Proof.Machine.execAclr o s
  | .ard o => Sys2Proof.Machine.execArd o s
  | .asto o => Sys2Proof.Machine.execAsto o s
  | .mgrp o => Sys2Proof.Machine.execMgrp o s
  | .amask o => Sys2Proof.Machine.execAmask o s
  | .grule o => Sys2Proof.Machine.execGrule o s
  | .geval o => Sys2Proof.Machine.execGeval o s
  | .gclr o => Sys2Proof.Machine.execGclr o s
  | .grd o => Sys2Proof.Machine.execGrd o s
  | .tspawn o => Sys2Proof.Machine.execTspawn o s
  | .tcommit o => Sys2Proof.Machine.execTcommit o s
  | .tend o => Sys2Proof.Machine.execTend o s
  | .tabort o => Sys2Proof.Machine.execTabort o s
  | .tsadv o => Sys2Proof.Machine.execTsadv o s
  | .tscmp o => Sys2Proof.Machine.execTscmp o s
  | .rinv o => Sys2Proof.Machine.execRinv o s
  | .calld o => Sys2Proof.Machine.execCalld o s
  | .calldr o => Sys2Proof.Machine.execCalldr o s
  | .retd o => Sys2Proof.Machine.execRetd o s
  | .taild o => Sys2Proof.Machine.execTaild o s
  | .cfetch o => Sys2Proof.Machine.execCfetch o s
  | .vevict o => Sys2Proof.Machine.execVevict o s
  | .vprobe o => Sys2Proof.Machine.execVprobe o s
  | .mtsr o => Sys2Proof.Machine.execMtsr o s
  | .mfsr o => Sys2Proof.Machine.execMfsr o s
  | .trap o => Sys2Proof.Machine.execTrap o s
  | .uiret o => Sys2Proof.Machine.execUiret o s
  | .tret o => Sys2Proof.Machine.execTret o s
  | .csave o => Sys2Proof.Machine.execCsave o s
  | .crest o => Sys2Proof.Machine.execCrest o s
  | .ttld o => Sys2Proof.Machine.execTtld o s
  | .ttst o => Sys2Proof.Machine.execTtst o s
  | .waite o => Sys2Proof.Machine.execWaite o s
  | .bkpt o => Sys2Proof.Machine.execBkpt o s
  | .snap o => Sys2Proof.Machine.execSnap o s
  | .demandFetch slot half => Sys2Proof.Machine.execDemandFetch slot half s
  | .instructionLineFill core line => Sys2Proof.Machine.execInstructionLineFill core line s
  | .loadDataReturn slot k => Sys2Proof.Machine.execLoadDataReturn slot k s
  | .wmb0Read core => Sys2Proof.Machine.execWmb0Read core s
  | .wmb1Read core => Sys2Proof.Machine.execWmb1Read core s
  | .win2Write core => Sys2Proof.Machine.execWin2Write core s
  | .installRecordReceive die slice => Sys2Proof.Machine.execInstallRecordReceive die slice s
  | .clearingQueueRelease part => Sys2Proof.Machine.execClearingQueueRelease part s
  | .transferStart tile ch => Sys2Proof.Machine.execTransferStart tile ch s
  | .transferComplete tile ch id => Sys2Proof.Machine.execTransferComplete tile ch id s
  | .transferFault tile ch id => Sys2Proof.Machine.execTransferFault tile ch id s
  | .collectiveMatchComplete group k => Sys2Proof.Machine.execCollectiveMatchComplete group k s
  | .completionInterrupt slot => Sys2Proof.Machine.execCompletionInterrupt slot s
  | .byteCountTrapDelivery slot => Sys2Proof.Machine.execByteCountTrapDelivery slot s
  | .semaphoreOverflowDelivery slot => Sys2Proof.Machine.execSemaphoreOverflowDelivery slot s
  | .portWordArrival slot port => Sys2Proof.Machine.execPortWordArrival slot port s
  | .linkWordArrival tile west => Sys2Proof.Machine.execLinkWordArrival tile west s
  | .slotUnpark slot half => Sys2Proof.Machine.execSlotUnpark slot half s
  | .faultEntryReply key word0 => Sys2Proof.Machine.execFaultEntryReply key word0 s
  | .engineOperationStart tile => Sys2Proof.Machine.execEngineOperationStart tile s
  | .engineSemPost tile => Sys2Proof.Machine.execEngineSemPost tile s
  | .engineOperationComplete tile => Sys2Proof.Machine.execEngineOperationComplete tile s
  | .conversionUnitComplete tile => Sys2Proof.Machine.execConversionUnitComplete tile s
  | .dispatcherPlace part => Sys2Proof.Machine.execDispatcherPlace part s
  | .bankModeChange tile bank => Sys2Proof.Machine.execBankModeChange tile bank s
  | .redundantMismatch task => Sys2Proof.Machine.execRedundantMismatch task s
  | .watchdogExpiry task => Sys2Proof.Machine.execWatchdogExpiry task s
  | .partitionDrainComplete part => Sys2Proof.Machine.execPartitionDrainComplete part s
  | .preemptionTrap slot => Sys2Proof.Machine.execPreemptionTrap slot s
  | .codeFetchInstall cluster k => Sys2Proof.Machine.execCodeFetchInstall cluster k s
  | .mintPublish k => Sys2Proof.Machine.execMintPublish k s
  | .codeFetchFailure cluster k => Sys2Proof.Machine.execCodeFetchFailure cluster k s
  | .invalidationComplete => Sys2Proof.Machine.execInvalidationComplete s
  | .l1FlushComplete tile => Sys2Proof.Machine.execL1FlushComplete tile s
  | .sectorPinComplete die slice => Sys2Proof.Machine.execSectorPinComplete die slice s
  | .containmentFence rect => Sys2Proof.Machine.execContainmentFence rect s
  | .containmentReset rect => Sys2Proof.Machine.execContainmentReset rect s
  | .linkTrainingComplete module => Sys2Proof.Machine.execLinkTrainingComplete module s
  | .aqgalRequestTimeout k => Sys2Proof.Machine.execAqgalRequestTimeout k s
  | .syncFlitSend port => Sys2Proof.Machine.execSyncFlitSend port s
  | .creditProbe qp => Sys2Proof.Machine.execCreditProbe qp s
  | .startStageComplete => Sys2Proof.Machine.execStartStageComplete s
  | .storePerformed slot => Sys2Proof.Machine.execStorePerformed slot s
  | .collectiveMemberLost group k => Sys2Proof.Machine.execCollectiveMemberLost group k s
  | .pfqbaseWrite v => Sys2Proof.Machine.execPfqbaseWrite v s
  | .launchRecordArrival aqgal record => Sys2Proof.Machine.execLaunchRecordArrival aqgal record s
  | .preqWrite core v => Sys2Proof.Machine.execPreqWrite core v s
  | .partitionResize part v => Sys2Proof.Machine.execPartitionResize part v s
  | .vlimWrite cluster v => Sys2Proof.Machine.execVlimWrite cluster v s
  | .txcmdInvalidatePage v => Sys2Proof.Machine.execTxcmdInvalidatePage v s
  | .txcmdInvalidateAsid v => Sys2Proof.Machine.execTxcmdInvalidateAsid v s
  | .txcmdInvalidateAll v => Sys2Proof.Machine.execTxcmdInvalidateAll v s
  | .l1ctlFlushAsid tile v => Sys2Proof.Machine.execL1ctlFlushAsid tile v s
  | .l1ctlFlushTile tile v => Sys2Proof.Machine.execL1ctlFlushTile tile v s
  | .srpctlEnable die slice v => Sys2Proof.Machine.execSrpctlEnable die slice v s
  | .srpaddPin die slice v => Sys2Proof.Machine.execSrpaddPin die slice v s
  | .rslowWrite slot v => Sys2Proof.Machine.execRslowWrite slot v s
  | .nanmodeWrite slot v => Sys2Proof.Machine.execNanmodeWrite slot v s
  | .srgenWrite slot v => Sys2Proof.Machine.execSrgenWrite slot v s
  | .mpdstWrite slot n v => Sys2Proof.Machine.execMpdstWrite slot n v s
  | .registerWrite addr v => Sys2Proof.Machine.execRegisterWrite addr v s
  | .ctrectRejoin rect v => Sys2Proof.Machine.execCtrectRejoin rect v s
  | .routerLinkFailure tile => Sys2Proof.Machine.execRouterLinkFailure tile s
  | .lmctlRetrain module v => Sys2Proof.Machine.execLmctlRetrain module v s
  | .lmctlCounterClear module v => Sys2Proof.Machine.execLmctlCounterClear module v s
  | .ucieFlitReceive module crcOk => Sys2Proof.Machine.execUcieFlitReceive module crcOk s
  | .crcWindowEnd module => Sys2Proof.Machine.execCrcWindowEnd module s
  | .laneRetirement module lane => Sys2Proof.Machine.execLaneRetirement module lane s
  | .aqgalFlitReceive port flit => Sys2Proof.Machine.execAqgalFlitReceive port flit s
  | .aqgalPortSetChange port up => Sys2Proof.Machine.execAqgalPortSetChange port up s
  | .launchFlitSequence port record => Sys2Proof.Machine.execLaunchFlitSequence port record s
  | .rocePacketReceive port packet => Sys2Proof.Machine.execRocePacketReceive port packet s
  | .launchSend qp record => Sys2Proof.Machine.execLaunchSend qp record s
  | .ptpMessage time => Sys2Proof.Machine.execPtpMessage time s
  | .undervoltWindowEnd array errors => Sys2Proof.Machine.execUndervoltWindowEnd array errors s
  | .snapctlGo v => Sys2Proof.Machine.execSnapctlGo v s
  | .powerGood => Sys2Proof.Machine.execPowerGood s
  | .startStageFailure reason => Sys2Proof.Machine.execStartStageFailure reason s
  | .attestationChallenge nonce => Sys2Proof.Machine.execAttestationChallenge nonce s
  | .thermalTrip info => Sys2Proof.Machine.execThermalTrip info s
  | .powerLoss => Sys2Proof.Machine.execPowerLoss s
  | .scrubbing uncorrectable addr => Sys2Proof.Machine.execScrubbing uncorrectable addr s

end Sys2Proof.Machine
end

