-- ==== Sys2Proof/Machine/Schedule.lean ====
section
/-! DEFINITION. What moves next (00_scope.md R3, 08_core.md R147 to R149): an issue of a half or a step of a device. The order
is a free choice, since no cycle counts are modelled (log 19). -/
namespace Sys2Proof.Machine

/-! ## Issue (R147 to R149) -/

/-- The half that has gone ahead issues nothing more until an event that is due has been taken (R297). -/
def aheadOfEvent (s : State) (n : Nat) (h : Half) : Bool :=
  (dueFirst s n).isSome && decide ((s.slot n).posOf (otherHalf h) < (s.slot n).posOf h)
/-- A half may take a turn: the slot is bound, it is not parked, and the cores are released (R148, R348). The walker runs nothing
but Dwedar's routine, whose turns are the steps of `coreTurns` (R96, R147). -/
def canIssue (s : State) (n : Nat) (h : Half) : Bool :=
  (s.slot n).bound && decide (6 ≤ s.stage) && (s.slot n).waitOf h == .none && !aheadOfEvent s n h
/-- The next instruction of a half has been fetched, or is known to trap there (R148, R183). -/
def fetched (s : State) (n : Nat) (h : Half) : Bool :=
  let sl := s.slot n
  sl.held.isSome || sl.badOf h || (findI s (coreOfSlot n) (s.asidOf n) (vlineOf (sl.pcOf h).toNat)).isSome

/-- An issue, up to the instruction that is to run: the demand, the decoding, and the checkpoint that an earlier
instruction's trap may need. -/
def issuePart (n : Nat) (h : Half) : M Instr := do
  modify fun s => { s with cur := { slot := n, half := h } }
  holdUnless (canIssue (← get) n h)
  let w ← fetchWords
  let i ← decodeAt w
  actMe fun sl => sl.keepCkpt h i
  return i

/-! ## Where an instruction is run first -/

/-- The half that runs an instruction (R48, R162): the access half unless it belongs to the execute stream. -/
def runsIn (i : Instr) : Half :=
  let r := encode i
  let op := r.op.toNat
  let acc : Bool := match opRow r with
    | some (sh, _) => (fieldClasses sh.fields r).any (fun t => t.2 == .acc)
    | none => false
  if op = 1 then (if r.gp = 0#3 then .access else .execute)
  else if (2 ≤ op ∧ op ≤ 0x0D) ∨ (0x10 ≤ op ∧ op ≤ 0x2F) then (if acc then .access else .execute)
  else if 0x60 ≤ op ∧ op ≤ 0xC3 then .execute
  else .access

/-! ## Turns and pointers (R147, R149, R151) -/

/-- The pointer of a half moves past the slot that takes the turn, but for the walker (R149). -/
def turnTaken (n : Nat) (s : State) (h : Half) : State :=
  if isWalker n then s
  else s.modCore (coreOfSlot n) fun c =>
    let k := (laneOfSlot n + 1) % 15
    match h with
    | .access => { c with rotA := k, lastA := (laneOfSlot n :: c.lastA).take 7 }
    | .execute => { c with rotX := k, lastX := (laneOfSlot n :: c.lastX).take 7 }
/-- The instruction at which a half stands has taken its turn already: it parked after it, and goes on without another (R151). -/
def Slot.tookOf (sl : Slot) : Half → Bool | .access => sl.tookA | .execute => sl.tookX
def Slot.setTook (sl : Slot) (h : Half) (b : Bool) : Slot :=
  match h with | .access => { sl with tookA := b } | .execute => { sl with tookX := b }
/-- Neither half stands at an instruction that has taken its turn. -/
def clearTook (n : Nat) (s : State) : State := s.modSlot n fun sl => { sl with tookA := false, tookX := false, refused := 0 }
/-- The halves for which an issue of an instruction by a half counts: both for a joint instruction, and none where the half
passes over it (R48, R51, R147). -/
def issueHalves (i : Instr) (h : Half) : List Half :=
  let op := (encode i).op.toNat
  if op = 0 then []
  else if op ≤ 0x0D then [h]
  else if 0xD0 ≤ op ∧ op ≤ 0xF7 then [.access, .execute]
  else if runsIn i = h then [h] else []
/-- A cause that arises after the instruction has taken its turn (R151). -/
def Wait.postIssue (w : Wait) : Bool := match w with | .fifoPop _ _ _ => true | w => w.cause == 1 || (3 ≤ w.cause && w.cause ≤ 5)
/-- The half of slot n has issued what it stood at: it has moved on, has parked after its turn, or has trapped. -/
def issued (n : Nat) (h : Half) (s t : State) : Bool :=
  (t.slot n).posOf h != (s.slot n).posOf h || ((t.slot n).waitOf h).postIssue || (t.slot n).super != (s.slot n).super
/-- The pointers after a turn of a half of slot n that led from `s` to `t` and counts for the halves `hs`, if it had not taken its
turn before. -/
def afterTurn (n : Nat) (h : Half) (hs : List Half) (s t : State) : State :=
  if issued n h s t then
    let stays := (t.slot n).posOf h == (s.slot n).posOf h && (t.slot n).super == (s.slot n).super
    (if (s.slot n).tookOf h then t else hs.foldl (turnTaken n) t).modSlot n fun sl =>
      if stays then sl.setTook h true else { sl.setTook h false with refused := if h == .access then 0 else sl.refused }
  else t
/-- The pointers after an issue of `i` by a half of slot n. -/
def afterIssue (n : Nat) (h : Half) (i : Instr) (s t : State) : State := afterTurn n h (issueHalves i h) s t

/-- The instruction at which a half stands, where it has been fetched and decodes. -/
def standsAt (s : State) (n : Nat) (h : Half) : Option Instr :=
  let sl := s.slot n
  let pc := sl.pcOf h
  let ws := sl.held.or ((findI s (coreOfSlot n) (s.asidOf n) (vlineOf pc.toNat)).map fun l => wordsAt l.data pc)
  ws.bind fun w => match decode (pc.toNat % 32) w.1 w.2 with | .ok i => some i | .error _ => none
/-- A half goes on without a turn: it passes over an instruction of the other stream, or its instruction has taken its turn
before it parked (R147, R151). -/
def needsNoTurn (s : State) (n : Nat) (h : Half) : Bool :=
  (s.slot n).tookOf h || match standsAt s n h with
    | some i => !(issueHalves i h).contains h
    | none => false
/-- The half issues the instruction that its demand finds, and the pointers move if it has taken its turn. -/
def issueTurn (n : Nat) (h : Half) (s : State) : Host.Outcome State Fault Refusal :=
  match issuePart n h s with
  | .ok i s => match exec i s with
    | .next t => .next (afterIssue n h i s t)
    | stop => stop
  | .error _ t => .next (afterTurn n h [h] s t)
/-- An attempt of a half would take the turn: the instruction does not wait, unissued or parked, where it stands (R151). -/
def issues (s : State) (n : Nat) (h : Half) : Bool :=
  match issuePart n h s with
  | .ok i t => match exec i t with
    | .next u => issued n h t u
    | _ => true
  | .error _ t => issued n h s t
/-- A half of a slot is eligible but for the spacing rule (R148). An attempt that takes no turn moves no pointer, and a slot that waits
keeps no other from its turn. -/
def eligible (s : State) (h : Half) (n : Nat) : Bool :=
  canIssue s n h && fetched s n h && !needsNoTurn s n h && (dueFirst s n).isNone && issues s n h
/-- The members of a list up to the first of which p does not hold. -/
def upTo {α : Type} (p : α → Bool) : List α → List α
  | [] => []
  | x :: xs => if p x then x :: upTo p xs else [x]
/-- The slots of a core that may take the turn of a half: in the order of the scan from the pointer (R149), up to the first eligible
one that has let 7 turns of the half pass since its own. Cycles are not counted, so the spacing rule may or may not hold back one
that has not (log 19). -/
def turnOrder (s : State) (c : Nat) (h : Half) : List Nat :=
  let x := s.core c
  let (ptr, last) := match h with | .access => (x.rotA, x.lastA) | .execute => (x.rotX, x.lastX)
  let scan := (List.range 15).map fun k => 16 * c + (ptr + k) % 15
  upTo (fun n => last.contains (laneOfSlot n)) (scan.filter (eligible s h))
/-- A bank of the tile may serve the access half's instruction, and so may refuse it, seven times at the most (R136). -/
def mayForfeit (s : State) (n : Nat) : Bool :=
  decide ((s.slot n).refused < 7) && match standsAt s n .access with
    | some (.ld _) | some (.ldx _) | some (.st _) | some (.stx _)
    | some (.lds _) | some (.ldsx _) | some (.sts _) | some (.stsx _) => true
    | _ => false
/-- A turn is forfeited: it counts for the pointer as an issue would, and the instruction stays (R136, R149). -/
def forfeit (n : Nat) (s : State) : State := (turnTaken n s .access).modSlot n fun sl => { sl with refused := sl.refused + 1 }

/-! ## The choice -/

def whenever {α : Type} (b : Bool) (xs : List α) : List α := if b then xs else []

/-- The turns of a core's two halves. -/
def halfTurns (s : State) (c : Nat) : List Turn :=
  (turnOrder s c .access).flatMap (fun n => Turn.issue n .access :: whenever (mayForfeit s n) [Turn.forfeit n])
    ++ (turnOrder s c .execute).map (fun n => Turn.issue n .execute)
/-- What a slot and its accesses may do of themselves, without a turn of the core, once start has released the cores (R348, stage 5): an issue of a half, or of the event that is due at its boundary. -/
def slotTurns (s : State) (n : Nat) : List Turn :=
  let sl := s.slot n
  let halves : List Half := [.access, .execute]
  let events := match dueFirst s n, asyncAt s n with
    | some _, some _ => [Turn.issue n .access]
    | _, _ => []
  (if events.isEmpty then (halves.filter fun h => canIssue s n h && !eligible s h n).map
      fun h => if fetched s n h then Turn.issue n h else .event (.demandFetch n h)
    else whenever (decide (6 ≤ s.stage)) events)
    ++ ((List.range sl.loads.length).map fun k => .event (.loadDataReturn n k))
    ++ whenever (sl.stores.any (mayLeave s n) || escrowWaits s n) [.event (.storePerformed n)]
    ++ (halves.filter fun h => served s n h).map (fun h => .event (.slotUnpark n h))
    ++ whenever (preDue s n && ((s.taskOf n).map fun t => !t.committed).getD false) [.event (.preemptionTrap n)]

/-- Cores: line fills and the walker (R97, R369). -/
def coreTurns (s : State) (c : Nat) (x : Core) : List Turn :=
  let free := decide (6 ≤ s.stage) && (s.slot (16 * c + 15)).awai == .none
  ((List.range x.ifills.length).map fun k => .event (.instructionLineFill c k))
    ++ whenever (free && x.wmb0.isNone) [.event (.wmb0Read c)]
    ++ whenever (free && x.wmb0.isSome && x.wmb1.isNone) [.event (.wmb1Read c)]
    ++ whenever (free && x.wmb0.isSome && x.wmb1.isSome) [.event (.win2Write c)]

/-- Tiles: copies, engines, conversion, banks, links. -/
def tileTurns (t : Nat) (x : Tile) : List Turn :=
  (channels.flatMap fun c =>
    let ch := x.chans.toArray.getD c Channel.reset
    whenever (!(ch.fifo.isEmpty && ch.exec.isEmpty)) [.event (.transferStart t c)]
      ++ (ch.exec.filter fun z => z.started && z.ended.isNone).map (fun z => .event (.transferComplete t c z.id.toNat))
      ++ (ch.exec.filter fun z => z.coll && z.started && z.ended.isNone).map
          fun z => .event (.collectiveMatchComplete (descGroup z.desc) z.seq))
    ++ whenever (!(startable x.eng).isEmpty) [.event (.engineOperationStart t)]
    ++ whenever (!(readable x.eng).isEmpty) [.engineRead t]
    ++ whenever (x.conv.head?.any fun o => o.got.isNone) [.convRead t]
    ++ whenever (!(postable x.eng).isEmpty) [.event (.engineSemPost t)]
    ++ whenever (!(completable x.eng).isEmpty) [.event (.engineOperationComplete t)]
    ++ whenever (!x.conv.isEmpty) [.event (.conversionUnitComplete t)]
    ++ x.toMode.map (fun b => .event (.bankModeChange t b.1))
    ++ whenever (x.l1ctl.getLsbD 2) [.event (.l1FlushComplete t)]
    ++ whenever (!x.lkwFly.isEmpty) [.event (.linkWordArrival t true)]
    ++ whenever (!x.lkeFly.isEmpty) [.event (.linkWordArrival t false)]

/-- Dies: install records, repair, containment, link training, and Dwedar's repair of the mesh. -/
def dieTurns (d : Nat) (x : Die) : List Turn :=
  (x.installs.map fun r => .event (.installRecordReceive d r.1))
    ++ (x.repair.filter fun r => r.2.go).map (fun r => .event (.sectorPinComplete d r.1))
    ++ ((List.range 16).filter fun k => let r := x.ctrects.toArray.getD k CtRect.reset; r.fenced && !r.resetDone).map
        (fun k => .event (.containmentReset (16 * d + k)))
    ++ (x.tileFence.filter fun t => !x.tileReset.contains t).map (fun t => .event (.containmentReset (64 + t)))
    ++ (x.links.filter fun l => l.2.state == 1#2).map (fun l => .event (.linkTrainingComplete l.1))
    ++ whenever x.mend.isSome [.mend d]

/-- Tasks, partitions and code. -/
def taskTurns (s : State) : List Turn :=
  (s.parts.flatMap fun (p, x) =>
    ((List.range 4).map fun d => Turn.event (.dispatcherPlace (4 * p + d)))
      ++ whenever (s.tasks.any fun t => t.2.clearing) [.event (.clearingQueueRelease p)]
      ++ whenever x.active [.event (.partitionDrainComplete p)])
    ++ (s.tasks.filter fun t => t.2.committed && !t.2.slots.isEmpty).map (fun t => .event (.watchdogExpiry t.1))
    ++ (s.tasks.filter fun t => copiesApart s t.2).map (fun t => .event (.redundantMismatch t.1))
    ++ (s.tasks.filter fun t => leaving s t.2 && mayDiscard s t.1).map (fun t => .vacate t.1)
    ++ (s.vaults.flatMap fun (c, v) => v.fetches.flatMap fun f =>
      Turn.event (.codeFetchInstall c f.id) :: whenever f.minting [.event (.mintPublish f.id), .event (.codeFetchFailure c f.id)])

/-- The package: invalidations, its links to others, and staged start. -/
def packageTurns (s : State) : List Turn :=
  whenever (txGo s.pkg) [.event .invalidationComplete]
    ++ (s.remotes.filter fun r => !r.answered).map (fun r => .event (.aqgalRequestTimeout r.tag))
    ++ (s.ports.filter fun p => portUp s p.1).map (fun p => .event (.syncFlitSend p.1))
    ++ s.qpairs.flatMap (fun q => [.event (.creditProbe q.1), .qpair q.1, .qsend q.1])
    ++ s.flights.map (fun f => .event (.portWordArrival f.dest f.dport))
    ++ whenever (s.stage == 0) [.event .powerGood]
    ++ whenever (decide (1 ≤ s.stage ∧ s.stage ≤ 6) && !s.halted) [.event .startStageComplete]

/-- The member of a list that a number selects. -/
def pickFrom {α : Type} (k : Nat) (xs : List α) : Option α := xs[k % xs.length]?
/-- An error strikes an array: which one and where is free (R87, R338; DESIGN CHOICE, log 95). -/
def freeStrike (s : State) : Turn × State :=
  let (k, s) := s.nextFree
  let (a, s) := s.nextFree
  let (b, s) := s.nextFree
  let sector := k / 16 % 4
  let place : ErrAt := match k % 8 with
    | 1 => .scratch (a % 768) (b % 40960)
    | 2 => .fifo (a % 768) (b % 40)
    | 3 => ((pickFrom b (s.die (a % 4)).lines).map fun l => ErrAt.slice (a % 4) l.asid l.vline sector).getD (.dram (a % 2 ^ 35))
    | 4 => ((pickFrom b (s.tile (a % 768)).l1).map fun l => ErrAt.l1 (a % 768) l.asid l.vline sector).getD (.dram (a % 2 ^ 35))
    | 5 => ((pickFrom a s.tasks).bind fun x => (pickFrom b x.2.escrow).map fun e => ErrAt.escrow x.1 e.slot e.pos).getD (.dram (a % 2 ^ 35))
    | 6 => ((pickFrom b (s.vault (a % 48)).entries).map fun e => ErrAt.vault (a % 48) e.slot).getD (.dram (a % 2 ^ 35))
    | _ => .dram (a % 2 ^ 35)
  (.strike { place := place, bad := k / 8 % 2 == 1 }, s)

/-- Everything that may move now of itself. -/
def candidates (s : State) : List Turn :=
  s.slots.flatMap (fun x => slotTurns s x.1) ++ (s.slots.map fun x => coreOfSlot x.1).eraseDups.flatMap (halfTurns s)
    ++ s.cores.flatMap (fun x => coreTurns s x.1 x.2) ++ s.tiles.flatMap (fun x => tileTurns x.1 x.2)
    ++ s.dies.flatMap (fun x => dieTurns x.1 x.2) ++ taskTurns s ++ packageTurns s

/-- Dwedar creates a queue pair, or gives one a key: which one, and what it is given, is free (R332, R333). -/
def freeQpair (s : State) : Turn × State :=
  let f := s.free
  let (k, s) := s.nextFree
  let w := Config.freeWord f
  (.newQpair (k % 65536) { QPair.reset with
    vf := (w 0).toNat % 1024, key := (w 1) ++ (w 2) ++ (w 3) ++ (w 4), salt := (w 5).truncate 32, launch := (w 6).getLsbD 0,
    buffer := (w 7).toNat, port := (w 6).toNat / 2 % 2 }, s)

/-- A VF's software gives a queue pair a SEND, a WRITE or a READ: which is free (R332). -/
def freeQsend (s : State) : Turn × State :=
  let f := s.free
  let (k, s) := s.nextFree
  let w := Config.freeWord f
  let q := ((pickFrom k s.qpairs).map (·.1)).getD 0
  let va := (w 0).toNat
  let len := (w 1).toNat
  let imm := if (w 2).getLsbD 0 then bytesLE 4 (w 3).toNat else []
  (.qpost q (match (w 4).toNat % 3 with
    | 0 => .send va len imm true
    | 1 => .write va len (w 5).toNat imm true
    | _ => .read va len (w 5).toNat), s)

/-- Dwedar sets the threshold of an array, which R345 gives no register: which and to what is free. -/
def freePft (s : State) : Turn × State :=
  let (k, s) := s.nextFree
  let (n, s) := s.nextFree
  (.pft k n, s)

/-- A code object is published or withdrawn: which is free (R287, R359). -/
def freeObject (s : State) : Turn × State :=
  let f := s.free
  let (k, s) := s.nextFree
  let w := Config.freeWord f
  if k % 2 = 0 then (.withdraw (k / 2 % s.objects.length), s)
  else
    let place : Place := match (w 0).toNat % 6 with | 4 => .neighbour ((w 1).truncate 9) | 5 => .storage | d => .heap d
    let kind : CodeKind := match (w 2).toNat % 3 with | 0 => .translation | 1 => .fat | _ => .selser
    (.publish place kind ((List.range 6).map fun i => w (3 + i))
      ((List.range ((w 9).toNat % 2 ^ 20)).map fun i => (w (10 + i / 8)).extractLsb' (8 * (i % 8)) 8), s)

/-- What moves next: a free choice among what may move, an error of an array, an act of Dwedar's, or one of software that serves a
queue pair. -/
def nextTurn (s : State) : Option Turn × State :=
  let cs := candidates s
  let (c, s) := s.nextFree
  let k := c % (cs.length + 5)
  if k = cs.length then
    let (t, s) := freeStrike s
    (some t, s)
  else if k = cs.length + 1 then
    let (t, s) := freeQpair s
    (some t, s)
  else if k = cs.length + 2 then
    let (t, s) := freePft s
    (some t, s)
  else if k = cs.length + 3 then
    let (t, s) := freeQsend s
    (some t, s)
  else if k = cs.length + 4 then
    let (t, s) := freeObject s
    (some t, s)
  else (cs[k]?, s)

end Sys2Proof.Machine
end

