-- ==== Sys2Proof/Machine/Step.lean ====
section
/-! DEFINITION. The step of a package: what moves next, and an instruction placed where the next step fetches it. -/
namespace Sys2Proof.Machine

/-- The state after a synchronous trap of the instruction at a boundary, which comes before any event (R297). -/
def trapFirst (n : Nat) (s : State) : Host.Outcome State Fault Refusal → Option State
  | .next t => if (t.slot n).super && !(s.slot n).super then some t else none
  | _ => none
/-- The slot stands at its boundary with an event due: the event is taken, unless the instruction there traps. -/
def boundary (n : Nat) (d : Due) (F : Nat) (s : State) : Host.Outcome State Fault Refusal :=
  match (trapFirst n s (issueTurn n .access s)).or (trapFirst n s (issueTurn n .execute s)) with
  | some t => .next t
  | none => match dueStep n d with
    | some i => exec i (clearTook n s)
    | none => .next (takeEvent n d F (clearTook n s))

/-- One turn: a half issues, an event is taken, or a device takes a step of its own. -/
def runTurn (t : Turn) (s : State) : Host.Outcome State Fault Refusal :=
  match t with
  | .forfeit n => .next (forfeit n s)
  | .event i => exec i s
  | .write pa v => execRegisterWrite pa v s
  | .strike e => .next (strike e s)
  | .fence r t => .next (fenceRect r (some t) s)
  | .mend d => .next (mendStep d s)
  | .vacate id => .next (vacate id s)
  | .engineRead t => M.step (engineRead t) s
  | .convRead t => M.step (convRead t) s
  | .qpair q => .next (qpairStep q s)
  | .qsend q => .next (qsendStep q s)
  | .qpost q w => .next (postSend q w s)
  | .publish p k dig bs => .next (publish p k dig bs s)
  | .withdraw k => .next (withdraw k s)
  | .newQpair q x => .next (newQpair q x s)
  | .pft k n => .next (setPft k n s)
  | .issue n h =>
    match dueFirst s n, asyncAt s n with
    | some d, some b => boundary n d b s
    | _, _ => issueTurn n h s

/-- Without power nothing runs (R346) but the step that brings it back (R348). -/
def unpowered (t : Option Turn) : Bool := match t with | some (.event .powerGood) => false | _ => true

/-- One step. -/
def step (s : State) : Host.Outcome State Fault Refusal :=
  if !s.power && unpowered s.turns.head? then .fault .noPower
  else match s.turns with
    | t :: rest => runTurn t { s with turns := rest }
    | [] =>
      match nextTurn s with
      | (some t, s) => runTurn t s
      | (none, s) => .next s

/-- The package with an instruction placed for its next step: start has ended, a core task is bound to slot 0 of the core of
die 0, tile 0 that may run the instruction, its function is resident, and the line at address 0 of the core's instruction
cache holds the instruction (log 20). -/
def State.withFetchWord (s : State) (nbits w : Nat) : State :=
  let x := w % 2 ^ nbits
  let i := (decodeTableWord nbits w).getD (.nop { gd := { p := 0, neg := false }, len := .l64 })
  let role : Role := if !i.roleBad .a then .a else if !i.roleBad .m then .m else .v
  let c := roleNum role
  let n := 16 * c
  let task : Task := {
    words := List.replicate 32 0, inst := 0, vf := 0, asid := 0, die := 0, tile := 0, slots := [n], ended := [],
    committed := false, clearing := false, escrow := [], reads := [], spawner := none, watched := false, hash := none,
    twin := none, misses := 0, out := [], used := [], gifts := [], saved := false, tensors := [] }
  let e : VaultEntry := {
    slot := 0, vf := 0, digest := List.replicate 6 0, serial := 1, base := 0, code := 0, entry := 0, codelen := 128, frame := 1,
    rot := 0, rpmap := [0], win := 0, winoff := List.replicate 8 0, used := 0, units := 1, bytes := bytesLE 128 x }
  let line : ILine := { asid := 0, vline := 0, key := 0, data := BitVec.ofNat 1024 x, used := 0 }
  let s : State := { s with power := true, stage := 7, tasks := s.tasks.set 1 task, turns := [.issue n (runsIn i)] }
  let s := s.modVault 0 fun v => { v with entries := [e] }
  let s := s.modCore c fun k => { k with icache := [line] }
  s.setSlot n { Slot.reset with bound := true, task := 1, sys := { SysRegs.reset with cfda := 0x8000000000000000#64, cfh := cfhWord 0 1 } }

end Sys2Proof.Machine
end

