-- ==== Sys2Proof/Safety.lean ====
section
/-! DEFINITION. What a safe run is, and the terms in which statements about steps are made: when an instruction is taken up,
when its operands are ready and what they are. -/
namespace Sys2Proof.Safety
open Machine

/-- The form that every byte memory of the package keeps: addresses rise and no listed byte is the background. -/
def memoriesOk (s : State) : Bool := s.mem.wf && s.tiles.all fun t => t.2.scratch.wf

/-! ## When the half that issues takes an instruction up -/

/-- The half that issues executes the instruction: its core may run it, the half is one that its stream names, its guard
passes, the tokens that it needs are there, and the slot is not in scout mode (03_encoding.md R46, R48, R50, R51). -/
def takesUp (f : Form) (s : State) : Bool :=
  let sl := s.me
  let h := s.cur.half
  !f.instr.roleBad s.myRole && sl.scout.isNone && match f.stream with
    | .skip => false
    | .each => true
    | .branch _ => true
    | .execute => h == .execute && sl.guardPasses f.guard
    | .joint => sl.posOf (otherHalf h) == sl.posOf h && (sl.waitOf (otherHalf h)).mayMeet && sl.guardPasses f.guard
    | .access =>
      h == .access
        && (if guardFixed f.guard then !f.guard.neg && (!f.rel || !(sl.bqIn .access).isEmpty)
            else ((sl.bqIn .access).head?.map (·.value)).getD false && (!f.rel || decide (2 ≤ (sl.bqIn .access).length)))
        && (!f.acq || decide ((sl.bqOut .access).length < 8))

/-! ## Operands -/

/-- The word at an address of a constant window has one value: no store to a byte of it since the task was placed is kept, and no
cache holds one dirty (08_core.md R159). -/
def constFixed (s : State) (va : Word) : Bool :=
  (List.range 8).all fun i => (olderBytes s s.cur.slot (s.asidOf s.cur.slot) (va.toNat + i)).isEmpty
    && (dirtyBytes s (s.asidOf s.cur.slot) (va.toNat + i)).isEmpty
/-- The line of the core's constant cache that holds a constant operand, whose word has one value and is not poisoned (08_core.md
R159). -/
def constHit (s : State) (win : BitVec 3) (off : BitVec 17) : Option KLine :=
  ((s.core s.myCore).kcache.find? fun x =>
    x.asid == s.asidOf s.cur.slot && x.vline == (s.me.constAddr win off).toNat / 128).filter fun x =>
      !poisonHit x.poison ((s.me.constAddr win off).toNat % 128) 8 && constFixed s (s.me.constAddr win off)
/-- The words of constant operands that the cache holds. -/
def constWords (s : State) : List Opnd → List (WReg × Word)
  | [] => []
  | .w (.const w k) :: xs =>
    (.const w k, match constHit s w k with
      | some x => x.data.extractLsb' (8 * ((s.me.constAddr w k).toNat % 128)) 64
      | none => 0) :: constWords s xs
  | _ :: xs => constWords s xs

/-- Every constant operand lies in the constant cache. -/
def constsCached (s : State) (srcs : List Opnd) : Bool :=
  srcs.all fun x => match x with | .w (.const w k) => (constHit s w k).isSome | _ => true

/-- No source or destination has to wait (08_core.md R151): the words that the sources take are there, and there is room
for those that the destinations push. -/
def roomAndWords (s : State) (srcs dsts : List Opnd) : Bool :=
  let sl := s.me
  decide (lqNeed srcs ≤ sl.lq.length) && (sl.lq.take (lqNeed srcs)).all (fun e => e.word.isSome)
    && (List.range 4).all (fun k => decide (portNeed srcs (BitVec.ofNat 2 k) ≤ (sl.portOf k).length))
    && decide (linkNeed srcs true ≤ (s.tile s.myTile).lkw.length) && decide (linkNeed srcs false ≤ (s.tile s.myTile).lke.length)
    && (sqNeed dsts == 0 || decide (sl.sq.length + sqNeed dsts ≤ 16))
    && (portDest dsts).all (fun k => mpValid (sl.mpdstOf k) && !portFull s (mpDest s.cur.slot (sl.mpdstOf k)))
    && !(dsts.contains (.w .lkw) && linkFull s s.myTile true) && !(dsts.contains (.w .lke) && linkFull s s.myTile false)

/-- An effect outside the slot may take place (15_traps_preemption.md R295): every earlier instruction has issued and can no
longer trap or consume poison (17_reliability_start.md R339), every earlier acquire has taken effect (12_consistency.md R239),
and no earlier scratchpad store is under way that an effect has still to pass (07_tile_array.md R129). -/
def earlierDone (s : State) : Bool :=
  let sl := s.me
  let p := sl.posOf s.cur.half
  decide (p ≤ sl.posOf (otherHalf s.cur.half)) && !openAccess s s.cur.slot p && !acquirePending sl p && !postPending sl p && !sl.passes p
    && match sl.awai with | .load q => decide (p ≤ q) | _ => true

/-- The operands are ready: nothing waits, constants are at hand, port and link words have the core's NANMODE (04_numbers.md
R74), and where a port or a link takes part its effect may leave the slot (13_tasks_scheduling.md R267). -/
def operandsReady (s : State) (srcs dsts : List Opnd) : Bool :=
  roomAndWords s srcs dsts && constsCached s srcs
    && (firstMismatch (s.core s.myCore).nanmode srcs s.me.ports.toList (s.tile s.myTile).lkw (s.tile s.myTile).lke).isNone
    && (!usesPorts srcs dsts || (earlierDone s && !isPure s))

/-- The words of W-class sources in the order in which they are taken, and the state after that (03_encoding.md R44). -/
def taken (s : State) (srcs : List WReg) : List Word × State :=
  match srcs.mapM (takeW (constWords s (srcs.map .w))) s with
  | .ok xs t => (xs, t)
  | .error _ t => ([], t)

/-- The values of V-class sources in their order, and the state after they are taken. -/
def takenV (s : State) (srcs : List VReg) : List VWord × State :=
  match srcs.mapM takeV s with
  | .ok xs t => (xs, t)
  | .error _ t => ([], t)

/-- What ends an instruction of one stream: a store of its result, and the step to the next instruction. -/
def andOn (f : Form) (put : M Unit) : State → State :=
  M.state (do put; if f.stream == .access then finishAccess f else retire f.instr)
/-- The next state of an instruction that writes a W-class destination after its sources. -/
def wrote (f : Form) (d : WReg) (v : Word) : State → State := andOn f (putW d v)
/-- The same of a V-class destination, of a predicate and of a mask. -/
def wroteV (f : Form) (d : VReg) (v : VWord) : State → State := andOn f (putV d v)
def wroteP (f : Form) (d : PReg) (b : Bool) : State → State := andOn f (putP d b)
def wroteM (f : Form) (d : MReg) (v : Word) : State → State := andOn f (putM d v)

/-! ## Instructions on registers -/

/-- A register that no queue, port, link or constant window stands behind. -/
def plain : WReg → Bool
  | .w _ => true
  | .g _ => true
  | .a _ => true
  | _ => false

/-- The guard, stream, destination and sources of the instructions whose only results are one W-class destination and the
step to the next instruction: 0x10 to 0x28 and 0x2D to 0x2F (R162), and the scalar floating ones but FCMP and FCVT (R191). -/
def registerForm (i : Instr) : Option (Guard × Stream × WReg × List WReg) :=
  let int3 (o : R3W) := some (o.gd, aluStream [o.d, o.s1, o.s2], o.d, [o.s1, o.s2])
  let intI (o : RIW) := some (o.gd, aluStream [o.d, o.s1], o.d, [o.s1])
  let flt3 (o : F3) := some (o.gd, Stream.execute, o.d, [o.s1, o.s2])
  let flt2 (o : F2) := some (o.gd, Stream.execute, o.d, [o.s1])
  match i with
  | .add o => int3 o
  | .sub o => int3 o
  | .mul o => int3 o
  | .mulh o => int3 o
  | .mulhu o => int3 o
  | .div o => int3 o
  | .divu o => int3 o
  | .rem o => int3 o
  | .remu o => int3 o
  | .and o => int3 o
  | .or o => int3 o
  | .xor o => int3 o
  | .shl o => int3 o
  | .shr o => int3 o
  | .sar o => int3 o
  | .addi o => intI o
  | .subi o => intI o
  | .andi o => intI o
  | .ori o => intI o
  | .xori o => intI o
  | .shli o => intI o
  | .shri o => intI o
  | .sari o => intI o
  | .insr o => some (o.gd, aluStream [o.d, o.s1], o.d, [o.s1, o.d])
  | .mov o => some (o.gd, aluStream [o.d, o.s1], o.d, [o.s1])
  | .movi o => some (o.gd, aluStream [o.d], o.d, [])
  | .bitc o => some (o.gd, aluStream [o.d, o.s1], o.d, [o.s1])
  | .extr o => some (o.gd, aluStream [o.d, o.s1], o.d, [o.s1])
  | .fadd o => flt3 o
  | .fsub o => flt3 o
  | .fmul o => flt3 o
  | .fdiv o => flt3 o
  | .fmin o => flt3 o
  | .fmax o => flt3 o
  | .fsqrt o => flt2 o
  | .fabs o => flt2 o
  | .fneg o => flt2 o
  | .ffma o => some (o.gd, .execute, o.d, [o.s1, o.s2, o.s3])
  | _ => none

/-! ## Streams, guards and tokens -/

/-- How each instruction stands to the two halves but for branches, NOP and those of `registerForm`: its guard, its stream and the
classes of R50 (03_encoding.md R46, R48, R50, R51). -/
def formOf (i : Instr) : Option Form :=
  let ex (g : Guard) : Option Form := some (mkForm i g .execute)
  let ac (g : Guard) : Option Form := some (mkForm i g .access)
  let rel (g : Guard) (r : Bool) : Option Form := some { mkForm i g .access with rel := r }
  let acq (g : Guard) (a : Bool) : Option Form := some { mkForm i g .access with acq := a }
  let atom (g : Guard) (o : Order) : Option Form := some { mkForm i g .access with rel := ordRel o, acq := ordAcq o }
  let jn (g : Guard) : Option Form := some (mkForm i g .joint)
  match i with
  | .cmp o => ex o.gd
  | .cmpi o => ex o.gd
  | .plog o => ex o.gd
  | .sel o => ex o.gd
  | .fcmp o => ex o.gd
  | .fcvt o => ex o.gd
  | .vadd o | .vsub o | .vmul o | .vdiv o | .vmin o | .vmax o | .vand o | .vor o | .vxor o | .vshl o | .vshr o | .vsar o | .vperm o
  | .vshuf o | .vzip o | .vunzip o => ex o.gd
  | .vfma o | .vfms o | .vfnma o => ex o.gd
  | .vsqrt o | .vabs o | .vneg o | .vnot o | .vmov o | .vrcp o | .vrsq o | .vexp o | .vlog o => ex o.gd
  | .vcmp o => ex o.gd
  | .vsel o => ex o.gd
  | .vbcast o => ex o.gd
  | .vins o => ex o.gd
  | .vext o => ex o.gd
  | .vrot o => ex o.gd
  | .vcvt o => ex o.gd
  | .vradd o | .vrmax o | .vrmin o => ex o.gd
  | .vdot o => ex o.gd
  | .mand o | .mor o | .mxor o => ex o.gd
  | .mnot o => ex o.gd
  | .mpop o | .mfirst o => ex o.gd
  | .mtop o => ex o.gd
  | .cvt o | .align o | .dealign o | .bscale o => ex o.gd
  | .seed o | .mgrp o | .grule o => ex o.gd
  | .vpack o => ex o.gd
  | .vunpk o => ex o.gd
  | .cvld o => ex o.gd
  | .cvst o => ex o.gd
  | .mload o | .mma o | .mmaf o | .asto o | .geval o => ex o.gd
  | .aclr o | .amask o => ex o.gd
  | .ard o => ex o.gd
  | .gclr o => ex o.gd
  | .grd o => ex o.gd
  | .ipf o => ac o.gd
  | .ld o | .lds o => acq o.gd o.acq
  | .ldx o | .ldsx o => acq o.gd o.acq
  | .ldfe o | .ldff o => acq o.gd o.acq
  | .st o | .sts o => rel o.gd o.rel
  | .stx o | .stsx o => rel o.gd o.rel
  | .stf o => rel o.gd o.rel
  | .sete o => rel o.gd o.rel
  | .aadd o | .afadd o | .amin o | .amax o | .aand o | .aor o | .axor o | .aswp o => atom o.gd o.ord
  | .acas o => atom o.gd o.ord
  | .pfh o | .cflush o | .cinv o => ac o.gd
  | .bcpost o => rel o.gd true
  | .bcrd o => ac o.gd
  | .cpy o | .cpynb o | .coll o | .collnb o => rel o.gd true
  | .cwait o => acq o.gd true
  | .ctest o => ac o.gd
  | .cstat o => ac o.gd
  | .bind o => ac o.gd
  | .unbind o => ac o.gd
  | .qput o => rel o.gd true
  | .qget o => acq o.gd true
  | .sempost o => rel o.gd true
  | .semwait o => acq o.gd true
  | .acq o => acq o.gd true
  | .rel o => rel o.gd true
  | .tspawn o | .tsadv o | .taild o | .cfetch o | .vevict o | .csave o | .crest o => jn o.gd
  | .tcommit o | .tend o | .tabort o | .retd o | .uiret o | .tret o | .waite o | .bkpt o | .snap o => jn o.gd
  | .tscmp o => jn o.gd
  | .rinv o | .ttld o | .ttst o => jn o.gd
  | .calld o => jn o.gd
  | .calldr o => jn o.gd
  | .vprobe o => jn o.gd
  | .mtsr o => jn o.gd
  | .mfsr o => jn o.gd
  | .trap o => jn o.gd
  | _ => none

/-- The tokens that the execute half pushes for an access-stream instruction: its guard's value, where that can change, and a release
token where it runs and is of the release class (R46, R50). -/
def tokens (f : Form) (sl : Slot) : List BqEntry :=
  let e (ty : BqType) (v : Bool) : BqEntry := { pos := sl.xr.pos, type := ty, value := v, offset := 0 }
  (if f.guard.p = 0 then [] else [e .guard (sl.guardPasses f.guard)])
    ++ if f.rel && sl.guardPasses f.guard then [e .release true] else []
/-- The half that issues has passed over an instruction with entries for its outgoing branch queue. -/
def passedOver (i : Instr) (push : List BqEntry) (s : State) : State :=
  let h := s.cur.half
  s.modMe fun sl => (push.foldl (fun acc e => acc.pushBq h e) sl).advance h (nextPc (sl.pcOf h) i.bytes)

/-! ## Branches -/

/-- The guard, the resolving half and the displacement of each branch that a half resolves for the other (09_scalar_instructions.md
R162, R177 to R182); BRX has an offset in place of a displacement. -/
def branchForm : Instr → Option (Guard × Half × Option Word)
  | .beq o | .bne o | .blt o | .bge o | .bltu o | .bgeu o => some (o.gd, branchHalf [o.s1, o.s2], some o.imm)
  | .bz o | .bnz o | .loopr o => some (o.gd, branchHalf [o.s1], some o.imm)
  | .bp o | .bnp o => some (o.gd, .execute, some o.imm)
  | .br o => if o.gd.p = 0 then none else some (o.gd, .execute, some o.imm)
  | .brx o => some (o.gd, branchHalf [o.s1], none)
  | _ => none
/-- RB after a half has followed an outcome: the execute half of a taken LOOPR rotates its region (R29, R181). -/
def rotated (i : Instr) (h : Half) (goes : Bool) (sl : Slot) : BitVec 4 :=
  let n := rotSize sl.sys.rots
  match i, h with
  | .loopr _, .execute => if goes ∧ 0 < n then BitVec.ofNat 4 ((sl.xr.rb.toNat + n - 1) % n) else sl.xr.rb
  | _, _ => sl.xr.rb

/-! ## Memory instructions -/

/-- What a virtual address reaches for an instruction when no miss, fault or remote request stands in its way, and the state
after the translation (05_memory_path.md R96, R99). -/
def reaches (i : Instr) (va : Word) (size : Size) (a : Access) (s : State) : Option (Target × State) :=
  match virtTarget i va size a (pure ()) .none s with
  | .ok x t => some (x, t)
  | .error _ _ => none

/-- The slot runs neither an uncommitted body nor a pure or redundant task, no escrow waits (13_tasks_scheduling.md R266,
R267, R272), and no array holds an error that is still to be found (17_reliability_start.md R338). -/
def lone (s : State) : Bool :=
  s.latent.isEmpty && match s.task? s.me.task with
    | none => true
    | some t => t.committed && t.twin.isNone && !recPure t.words && t.escrow.isEmpty

/-- Everything earlier in the slot is done: its instructions have issued, and its loads and stores have been performed
(12_consistency.md R235, 15_traps_preemption.md R295). -/
def settled (s : State) : Bool :=
  earlierDone s && !s.me.owesResult (otherHalf s.cur.half) (s.me.posOf s.cur.half) && s.me.loads.isEmpty && s.me.stores.isEmpty

/-- The data words of a store from the word of its data field (02_idioms.md R26). -/
def dataOf (r : WReg) (size : Size) (v : Word) : List DataWord :=
  if size = .v then List.replicate 8 .owed else if r = .q then [.owed] else [.val v]
/-- The words of a data field: none for `sq`. -/
def dataReg (r : WReg) : List WReg := if r = .q then [] else [r]

/-- The half has moved past its instruction. -/
def movedOn (f : Form) (s t : State) : Prop :=
  t.me.posOf s.cur.half = s.me.posOf s.cur.half + 1 ∧
  t.me.pcOf s.cur.half = nextPc (s.me.pcOf s.cur.half) f.instr.bytes

/-- Byte k of a line. -/
def lineByte (x : BitVec 1024) (k : Nat) : Byte := x.extractLsb' (8 * k) 8
/-- A value holds the m bytes of a line from an offset on, lowest address first, and no more (05_memory_path.md R6). -/
def bytesOf (v : VWord) (m : Nat) (x : BitVec 1024) (off : Nat) : Prop :=
  v.toNat < 2 ^ (8 * m) ∧ ∀ k < m, v.extractLsb' (8 * k) 8 = lineByte x (off + k)
/-- A line holds m bytes of a value from an offset on, dirty, and for the rest what it held. -/
def storedIn (off m v : Nat) (x : BitVec 1024) (dirty : BitVec 128) (z : Line) : Prop :=
  ∀ k < 128, if off ≤ k ∧ k < off + m then lineByte z.data k = BitVec.ofNat 8 (v / 256 ^ (k - off)) ∧ z.dirty.getLsbD k = true
    else lineByte z.data k = lineByte x k ∧ z.dirty.getLsbD k = dirty.getLsbD k
/-- The registers of a slot, its queues and its accesses are as they were. -/
def keepsRegs (s t : State) : Prop :=
  t.me.xr = s.me.xr ∧ t.me.ar.lo = s.me.ar.lo ∧ t.me.ar.user = s.me.ar.user ∧ t.me.ar.shadow = s.me.ar.shadow ∧ t.me.ar.sup = s.me.ar.sup ∧
  t.me.sys = s.me.sys ∧ t.me.trap = s.me.trap ∧ t.me.lq = s.me.lq ∧ t.me.sq = s.me.sq ∧ t.me.loads = s.me.loads ∧ t.me.stores = s.me.stores
/-- What the write-back of a first-level line leaves (07_tile_array.md R134, R146): nothing where no byte is dirty; else the slice of the
die holds the line, dirty, with the dirty bytes, and with its own bytes, or the home's, for the others, and memory is as it was. The last
is said of a slice that held the line, and of one that held no line, since another may have to evict one. -/
def wroteBack (s t : State) (x : Line) : Prop :=
  (x.dirty = 0 → t.mem = s.mem ∧ t.dies = s.dies) ∧
  (x.dirty ≠ 0 → ∃ y, findLine (t.die s.myDie).lines x.asid x.vline = some y ∧
    (∀ k < 128, x.dirty.getLsbD k = true → y.dirty.getLsbD k = true ∧ lineByte y.data k = lineByte x.data k) ∧
    (∀ y0, findLine (s.die s.myDie).lines x.asid x.vline = some y0 → t.mem = s.mem ∧
      ∀ k < 128, x.dirty.getLsbD k = false → y.dirty.getLsbD k = y0.dirty.getLsbD k ∧ lineByte y.data k = lineByte y0.data k) ∧
    ((s.die s.myDie).lines = [] → t.mem = s.mem ∧
      ∀ k < 128, x.dirty.getLsbD k = false → y.dirty.getLsbD k = false ∧
        lineByte y.data k = lineByte (homeLine s x.asid x.vline x.key).1 k))

/-- The bindings that a release or an acquire finds when it begins (12_consistency.md R231). -/
def foundBinds (b : Bool) (s : State) : Binds := if b then bindings s (s.vfOf s.cur.slot) else []

/-- What an issued load leaves (R24, R137, R140): the load, its reserved place in lq, the access half waiting for a value that goes to
an a register, and nothing else but the step. `u` is the state after the operands and the translation. -/
def loadIssued (f : Form) (d : WReg) (tgt : Target) (size : Size) (sx : Bool) (s u t : State) : Prop :=
  t.me.loads = u.me.loads ++ [{ pos := s.me.ar.pos, dest := loadDest d, tgt := tgt, size := size, sx := sx, acq := f.acq,
                                tsr := s.me.sys.tsr, binds := foundBinds f.acq u, insn := f.instr.word }] ∧
  t.me.lq = u.me.lq ++ List.replicate (lqTakes (loadDest d) size) { pos := s.me.ar.pos, word := none } ∧
  t.mem = u.mem ∧ t.full = u.full ∧ t.tiles = u.tiles ∧ t.me.xr = u.me.xr ∧ t.me.sys = u.me.sys ∧ t.me.stores = u.me.stores ∧
  (∀ n, d = .a n → t.me.awai = .load s.me.ar.pos) ∧ (∀ n, n ≠ s.cur.slot → t.slot n = u.slot n) ∧ movedOn f s t

/-- RELPEND after a store has issued (12_consistency.md R240): REL names its word, and a write that uses the pending release
clears VALID. -/
def relAfter (x : PStore) (old : Word) : Word :=
  match x.op, x.tgt with
  | .relFence, .mem l => BitVec.ofNat 64 (l.va % 2 ^ 55 + 1)
  | _, _ => if x.relWas.isSome then old &&& ~~~1#64 else old

/-- The words of sq go to no earlier store: none lacks its data, or sq is empty (02_idioms.md R26). -/
def sqFree (s : State) : Bool := s.me.sq.isEmpty || s.me.stores.all fun x => owedIn x.data == 0
/-- The data words of a store that finds words in sq: those that it owes are taken, the oldest first (R26). -/
def fedData (ds : List DataWord) (sq : List SqEntry) : List DataWord := (sq.take (owedIn ds)).foldl (fun acc e => giveWord acc e.word) ds

/-- What an issued store leaves (R26, R141): the store in its place in the slot's order, with the words that it owes and sq holds,
RELPEND as the store makes it, and nothing else but the step. -/
def storeIssued (f : Form) (x : PStore) (s u t : State) : Prop :=
  t.me.stores = u.me.stores ++ [{ x with data := fedData x.data u.me.sq }] ∧ t.me.sq = u.me.sq.drop (owedIn x.data) ∧ t.mem = u.mem ∧ t.full = u.full ∧ t.tiles = u.tiles ∧ t.me.xr = u.me.xr ∧
  t.me.sys = { u.me.sys with relpend := relAfter x u.me.sys.relpend } ∧
  t.me.loads = u.me.loads ∧ (∀ n, n ≠ s.cur.slot → t.slot n = u.slot n) ∧ movedOn f s t

/-- The pending release that a store of n bytes at an address uses (12_consistency.md R240): RELPEND as the store finds it. -/
def relPends (s : State) (va : Word) (n : Nat) : Option Word :=
  if s.me.sys.relpend.getLsbD 0 && !s.me.super && overlaps va.toNat n (8 * (s.me.sys.relpend.extractLsb' 3 52).toNat) 8 then
    some s.me.sys.relpend
  else none

/-- A store of a slot that runs no body: `pend` is the pending release that it uses, and `s` the state in which it issues. -/
def pstore (i : Instr) (op : StoreOp) (tgt : Target) (size : Size) (data : List DataWord) (rel acq : Bool) (pend : Option Word)
    (dest : LoadDest) (s : State) : PStore :=
  { pos := s.me.ar.pos, op := op, tgt := tgt, size := size, data := data, rel := rel, acq := acq, dest := dest,
    tsr := s.me.sys.tsr, nm := (s.core s.myCore).nanmode, body := false, binds := foundBinds (rel || pend.isSome || acq) s, relWas := pend,
    insn := i.word, key := none }

/-- The destination of a load or prior value holds a word: lq at the instruction's place, an a register, or nothing. -/
def gaveWord (d : WReg) (v : Word) (s u t : State) : Prop :=
  match d with
  | .q => t.me.lq = u.me.lq ++ [{ pos := s.me.ar.pos, word := some v }]
  | .a n => t.me.readA n = if n = 0 then 0 else v
  | _ => True

/-- The bytes that a load finds at its target, and the state after: at its home or through the caches from memory, where an
ordered body records its read, and in SCRATCH or a register elsewhere (R19, R86, R130, R235). Nothing where a fence, a lost path,
poison or an abort stands in its way. -/
def loadData (n : Nat) (x : PLoad) (s : State) : Option (VWord × State) :=
  match x.tgt with
  | .mem l =>
    if if x.acq then homeCut s (tileOfSlot n) l else reachCut s (tileOfSlot n) l then none
    else
      (if (s.slot n).super then some s else recordRead s (s.slot n).task l.asid l.va).bind fun s =>
        match loadMem n x l s with
        | (v, false, s) => some (v, s)
        | _ => none
  | .scratch t b off =>
    if tileLost s (tileOfSlot n) t then none
    else match getScratch (s.vfOf n) t (8192 * b + off) x.size.bytes s with
      | (v, false, s) => some (BitVec.ofNat 512 v, s)
      | _ => none
  | .phys key =>
    let s := senseWalker key s
    if s.poison.contains (key / 32) then none else some (memGet s key x.size.bytes, s)
  | .reg pa _ => if regCut s (tileOfSlot n) pa then none else some (match regAt pa with
    | some r => let (v, s) := loadReg (s.vfOf n) r s; (v.zeroExtend 512, s)
    | none => (0, s))
  | .fifo _ _ _ => none

/-- What a pop of k words of a FIFO bank leaves (R131): the bank without them, and the words at the load's place. -/
def fifoPopped (f : Form) (d : WReg) (tile bank k : Nat) (s t : State) : Prop :=
  (t.tile tile).fifos.get bank [] = ((s.tile tile).fifos.get bank []).drop k ∧
  (d = .q → t.me.lq = s.me.lq ++ (((s.tile tile).fifos.get bank []).take k).map
    fun w => { pos := s.me.ar.pos, word := some w.word }) ∧ t.mem = s.mem ∧ movedOn f s t

/-! ## Branches -/

/-- The next state of the half that resolves a branch (09_scalar_instructions.md R178): the outcome is pushed, and the half
goes to the target or to the next instruction. -/
def resolved (i : Instr) (goes : Bool) (off tgt : Word) (ok : Bool) (s : State) : State :=
  let h := s.cur.half
  s.modMe fun sl =>
    let sl := sl.pushBq h { pos := sl.posOf h, type := .outcome, value := goes, offset := off }
    if goes then (sl.advance h tgt).setBad h (!(ok && targetOk s s.cur.slot (s.me.pcOf h) tgt))
    else sl.advance h (nextPc (sl.pcOf h) i.bytes)

/-! ## Lanes -/

/-- The rule of masks and Z on the lanes of a result (10_vector_conversion.md R188), with `op` the lane operation. -/
def laneRule (s : State) (ty : ETy) (msk : MReg) (z : Bool) (d : VReg) (r : VWord) (op : Nat → Nat) : Prop :=
  ∀ k < ty.lanes, lane ty.bits r k =
    if (s.me.readM msk).getLsbD k then op k
    else match d with
      | .q => 0
      | .v n => if z then 0 else lane ty.bits (s.me.readV n) k

/-- The tree of pairs over 2^k lanes from lane i on (04_numbers.md R80). -/
def pairTree {α : Type} (f : α → α → α) (l : Nat → α) : Nat → Nat → α
  | 0, i => l i
  | k + 1, i => f (pairTree f l k i) (pairTree f l k (i + 2 ^ k))

/-- The next state of an access-stream instruction that writes no register. -/
def passed (f : Form) : State → State := andOn f (pure ())

/-- The buffer that a queue instruction names and the state after it is found (R108, R246). -/
def bufferFound (i : Instr) (b : Word) (a : Access) (s : State) : Option (Buffer × State) :=
  match bufferAt i b a (pure ()) s with
  | .ok x t => some (x, t)
  | .error _ _ => none
/-- The counter that a queue operation advances, the descriptor's own word when a number is reserved already, and the state after it is
found (R242, R246, R249). -/
def counterFound (i : Instr) (q : Word) (d : Loc) (op : Bool) (s : State) : Option (Loc × State) :=
  let off := if op then 24 else 16
  if s.me.sys.qpend.getLsbD 0 then some (d.add off, s)
  else match reaches i (q + BitVec.ofNat 64 off) .v Access.atomic s with
    | some (.mem l, t) => some (l, t)
    | _ => none
/-- The number that a queue operation uses and the state after its reservation (12_consistency.md R246). -/
def reserved (x : QueueAt) (op : Bool) (s : State) : Option (Word × State) :=
  match reserve x op s with
  | .ok k t => some (k, t)
  | .error _ _ => none
/-- The descriptor of a queue as its home gives it (R242). -/
def descAt (q : Word) (d next : Loc) (buf : Buffer) (s : State) : QueueAt :=
  let ws := valueWords (homeGet s d 16) 2
  { q := q, desc := d, next := next, w0 := ws.getD 0 0, w1 := ws.getD 1 0, buf := buf }

/-- No uncommitted body has recorded a read, so a write aborts none (13_tasks_scheduling.md R266). -/
def noReaders (s : State) : Bool := s.tasks.all fun t => t.2.reads.isEmpty

/-! ## Joint instructions -/

/-- Both halves have moved past a joint instruction (03_encoding.md R51). -/
def movedBoth (i : Instr) (s t : State) : Prop :=
  t.me.ar.pos = s.me.ar.pos + 1 ∧ t.me.xr.pos = s.me.xr.pos + 1 ∧ t.me.ar.pc = nextPc s.me.ar.pc i.bytes ∧
  t.me.xr.pc = nextPc s.me.ar.pc i.bytes
/-- The next state of a joint instruction that writes a W-class destination. -/
def wroteJoint (i : Instr) (d : WReg) (v : Word) : State → State := M.state (do putW d v; retireBoth i)

/-- The record that TSPAWN reads at an address, and the state after (13_tasks_scheduling.md R264). -/
def spawnRecord (i : Instr) (a : Word) (s : State) : Option (List Word × State) :=
  let as := (List.range 4).map fun k => a + BitVec.ofNat 64 (64 * k)
  match (do
      let bs ← as.mapM (recordScratch i)
      let bs ← (as.zip bs).mapM fun (x, b) => recordPiece i x b (pure ())
      readPieces s.cur.slot s.me.ar.pos bs) s with
  | .ok ws t => some (ws, t)
  | .error _ _ => none

/-- The digest that a digest operand names, with its address, and the state after it is read (14_digest_code.md R278). -/
def digestOf (i : Instr) (x : DigestAt) (xs : List Word) (s : State) : Option (Word × List Word × State) :=
  match operandDigest i x xs s with
  | .ok (da, dig) t => some (da, dig, t)
  | .error _ _ => none

/-- The slot goes on in the function of an entry, at an offset of its code (R278 to R280). -/
def entered (e : VaultEntry) (da : Word) (wbase : BitVec 32) (cfp : Word) (off fresh : Nat) (s t : State) : Prop :=
  t.me.sys.cfp = cfp ∧ t.me.sys.cfda = da ∧ t.me.sys.cfh = cfhWord e.slot e.serial ∧ t.me.sys.wbase = wbase ∧
  t.me.ar.pc = BitVec.ofNat 64 (e.code + off) ∧ t.me.xr.pc = BitVec.ofNat 64 (e.code + off) ∧
  t.me.ar.pos = s.me.ar.pos + 1 ∧ t.me.xr.pos = s.me.xr.pos + 1 ∧
  ∀ j < 128, t.me.xr.stack.toArray.getD j 0 = s.me.xr.stack.toArray.getD j 0 ∨
    t.me.xr.stack.toArray.getD j 0 = 0 ∧ ∃ k < fresh, j = (wbase.toNat + 32 - fresh + k) % 128

/-- The stochastic-rounding generator after k draws (04_numbers.md R77). -/
def drawsFrom (g : BitVec 32) : Nat → BitVec 32
  | 0 => g
  | k + 1 => srDraw (drawsFrom g k)

/-! ## Tensors and engines -/

/-- w bits from a bit position of a tensor's row, as the SCRATCH banks hold them (04_numbers.md R67). -/
def bitsAt (s : State) (r : TRef) (row : Int) (bit w : Nat) : Nat :=
  ((List.range ((bit % 8 + w + 7) / 8)).map fun (i : Nat) => scrGet s r (row + (bit / 8 + i : Nat))).foldr (fun b acc => b + 256 * acc) 0
    / 2 ^ (bit % 8) % 2 ^ w
/-- The code of an element, the block-scale byte of its block (that of the exponent 0 without one), and its value (R78). -/
def elemAt (s : State) (r : TRef) (x : RowIx) (i0 : Nat) : Nat := bitsAt s r (r.rowAt x) (i0 * r.step) r.step
def scaleAt (s : State) (rs : List TRef) (x : RowIx) (i0 : Nat) : Nat :=
  match rs with
  | _ :: b :: _ => elemAt s b x (i0 / 32)
  | _ => 127
def valueAt (s : State) (nm : Bool) (rs : List TRef) (x : RowIx) (i0 : Nat) : Val :=
  let r := mainOf rs
  if scaleAt s rs x i0 = 255 then .nan
  else (r.fmt.decode nm (elemAt s r x i0)).scale (r.scale + scaleAt s rs x i0 - 127)
/-- The shared exponent and NAN of an aligned block, and its mantissas (R79). -/
def headAt (s : State) (r : TRef) (x : RowIx) (b : Nat) : Int × Bool :=
  let h := bitsAt s r (r.rowAt x) (b * r.step) 64
  ((BitVec.ofNat 16 h).toInt, h / 2 ^ 16 % 2 == 1)
def mantAt (s : State) (r : TRef) (x : RowIx) (b j : Nat) : Int :=
  (BitVec.ofNat r.aw (bitsAt s r (r.rowAt x) (b * r.step + 64 + j * r.aw) r.aw)).toInt
/-- Codes of elements written one after the other (R67, R202). -/
def wroteElems (r : TRef) (ws : List (RowIx × Nat × Nat)) (s : State) : State :=
  ws.foldl (fun acc w => putElem r w.1 w.2.1 w.2.2 acc) s
/-- The bytes of the rows of a tensor. -/
def placesOf (r : TRef) : List Nat := r.rows.flatMap fun x => (List.range r.rowBytes).map fun (k : Nat) => r.place (r.rowAt x + (k : Int))
/-- No byte belongs to a tensor of each list. -/
def apart (rs ts : List TRef) : Prop := ∀ r ∈ rs, ∀ t ∈ ts, ∀ p ∈ placesOf r, p ∉ placesOf t
/-- A tensor's block-scale tensor passes the check of R83. -/
def scaled (rs : List TRef) : Bool := match rs with | r :: b :: _ => r.scaleOk b | _ => true
/-- Every tile's SCRATCH is the same in two states. -/
def sameScratch (s t : State) : Prop := ∀ k, (s.tile k).scratch = (t.tile k).scratch
/-- The draw of element k of a conversion whose generator begins at g (R77). -/
def drawOf (rnd : Rnd) (g : BitVec 32) (k : Nat) : Nat := if rnd = .rsr then (drawsFrom g (k + 1)).toNat else 0

/-- An engine runs one operation alone, which has started and has still to read its operands, and no byte of SCRATCH and no entry has
been written since, or holds an error. -/
def runsAlone (s : State) (tile : Nat) (o : EngOp) : Bool :=
  let e := s.engine tile
  e.ops == [o] && o.started && !o.read && (o.sem.isNone || o.semDone) && e.adds.isEmpty && e.accPast.isEmpty && s.past.isEmpty
    && s.latent.isEmpty
/-- A symbol of the grammar block, its term, and the fold of the symbols of an entry (11_matrix_grammar.md R226, R228). -/
def symAt (s : State) (o : EngOp) (e : Engine) (k : Nat) : Nat :=
  bitsAt s (mainOf o.tensor) (e.base + 16 + 4 * (e.nrule + e.nout) : Nat) (32 * k) 32
def termAt (s : State) (o : EngOp) (e : Engine) (limit v : Nat) (vals : List Nat) (k : Nat) : Nat :=
  let c := symAt s o e k
  if c / 2 ^ 31 = 1 then (if c / 2 ^ 12 % 2 ^ 19 = 0 ∧ c % 2 ^ 12 < limit then vals.getD (c % 2 ^ 12) 0 else 0)
  else if c / 2 ^ 16 < e.ncol then
    Fmt.f32.rne o.nm ((valueAt s o.nm o.tensor (rowOf v) (c / 2 ^ 16)).mul (Fmt.bf16.decode o.nm (c % 2 ^ 16)))
  else 0
def foldAt (s : State) (o : EngOp) (e : Engine) (limit v : Nat) (vals : List Nat) (en : RuleEntry) : Nat :=
  if en.len = 0 then 0
  else (List.range (en.len - 1)).foldl (fun t j => fadd32 o.nm t (termAt s o e limit v vals (en.start + 1 + j)))
    (termAt s o e limit v vals en.start)
/-- The values of the rules for a vector, in ascending order (R228). -/
def rulesAt (s : State) (o : EngOp) (e : Engine) (v : Nat) : List Nat :=
  (List.range e.nrule).foldl (fun vals q => vals ++ [foldAt s o e q v vals (ruleAt e q)]) []
/-- The columns of an MMA or MMAF that an entry belongs to, with the group and the cell column (R222). -/
def inColumns (o : EngOp) (row col : Nat) : Bool :=
  decide (dRow o.desc ≤ row ∧ row ≤ dRow o.desc + dNrow o.desc ∧ dCol o.desc ≤ col ∧ col < dCol o.desc + 64 * (dNgrp o.desc + 1))
    && o.rowOn row && o.colOn col

/-! ## Collectives -/

/-- Two values of a list are combined, and the result with the others, until one is left: every order is possible (04_numbers.md
R81, 06_copy_engines.md R121). -/
inductive Combined (f : Nat → Nat → Nat) : List Nat → Nat → Prop where
  | one (v : Nat) : Combined f [v] v
  | two (a b v : Nat) (vs rest : List Nat) : vs.Perm (a :: b :: rest) → Combined f (f a b :: rest) v → Combined f vs v
/-- Bytes as a number, least significant first (R6). -/
def bytesNat (bs : List Byte) : Nat := bs.foldr (fun b acc => b.toNat + 256 * acc) 0
/-- The bytes that a rank of a collective has read. -/
def blockOf (ps : List Member) (r : Nat) : List Byte := ((ps.find? fun m => descRank m.x.desc == r).map (·.x.carry)).getD []
/-- Each element of some bytes is a combination of the elements of the blocks at its place. -/
def reducedTo (red : BitVec 3) (ety : BitVec 4) (nm : Bool) (bss : List (List Byte)) (n : Nat) (out : List Byte) : Prop :=
  ∀ es, es = etyBytes ety → out.length = es * (n / es) ∧ ∀ k < n / es, ∃ v,
    Combined (reduceElem red ety nm) (bss.map fun bs => bytesNat ((bs.drop (es * k)).take es)) v ∧
      (out.drop (es * k)).take es = bytesLE es v

/-! ## Traps -/

/-- The slot that issues has entered its supervisor handler (15_traps_preemption.md R299): the record, both halves at the
core's trap vector, and everything else as it was. -/
def trapTaken (kind detail : Nat) (insn tpc tva : Word) (s t : State) : Prop :=
  t.me.trap = { tcause := BitVec.ofNat 64 (kind + 65536 * detail), tinsn := insn, tpc := tpc, tva := tva, tstat := s.me.inUi } ∧
  t.me.super = true ∧ t.me.ctxa = tpc ∧ t.me.ctxx = tpc ∧ t.me.ar.pc = (s.core s.myCore).tvec ∧ t.me.xr.pc = (s.core s.myCore).tvec ∧
  t.me.ar.lo = s.me.ar.lo ∧ t.me.ar.user = s.me.ar.user ∧ t.me.ar.shadow = s.me.ar.shadow ∧ t.me.ar.sup = s.me.ar.sup ∧
  t.me.xr.g = s.me.xr.g ∧ t.me.xr.p = s.me.xr.p ∧ t.me.xr.m = s.me.xr.m ∧ t.me.xr.v = s.me.xr.v ∧ t.me.xr.stack = s.me.xr.stack ∧
  t.me.sys = s.me.sys ∧ t.mem = s.mem ∧ t.full = s.full ∧ ∀ n, n ≠ s.cur.slot → t.slot n = s.slot n

/-- No instruction from an index on has a store under way. -/
def noneLater (sl : Slot) (p : Nat) : Bool := sl.stores.all fun x => decide (x.pos < p)

/-- The two halves stand at one instruction, with none later under way, neither waits for the result of an earlier one and no
earlier one may still trap, and the slot may take a trap: it is in no scout mode, no supervisor handler and is not the walker. -/
def mayTrap (s : State) : Bool :=
  s.me.ar.pos == s.me.xr.pos && !s.me.owesResult .access s.me.ar.pos && !s.me.owesResult .execute s.me.xr.pos
    && !lateBefore s s.cur.slot s.me.ar.pos && noneLater s.me s.me.ar.pos
    && s.me.scout.isNone && !s.me.super && !isWalker s.cur.slot

/-- The words of a tensor-table entry at an address, and the state after they are read (15_traps_preemption.md R315). -/
def tensorRecord (i : Instr) (a : Word) (s : State) : Option (List Word × State) :=
  match (do
      let b ← recordScratch i a
      let b ← recordPiece i a b (pure ())
      readPieces s.cur.slot s.me.ar.pos [b]) s with
  | .ok ws t => some (ws, t)
  | .error _ _ => none

/-! ## Context images (15_traps_preemption.md R308, R314) -/

/-- CSAVE writes an image at a key: it is taken up in a handler whose slot's accesses have all been performed, with an aligned
address of DRAM. `u` is the state after the operand is taken. -/
def mayCsave (o : S1W) (s u : State) (a : Word) (key : Nat) : Prop :=
  takesUp (mkForm (.csave o) o.gd .joint) s = true ∧ earlierDone s = true ∧ privileged s = true ∧ operandsReady s [.w o.s1] [] = true ∧
  uncommitted s = false ∧ contextQuiet s s.cur.slot = true ∧ s.mem.wf = true ∧ taken s [o.s1] = ([a], u) ∧ a.extractLsb' 1 5 = 0 ∧
  a.extractLsb' 58 6 = 0 ∧ key = physKey (a &&& ~~~1#64) ∧ isDram key = true ∧ isDram (key + 3152 + frameLen s.me.sys.cfp - 1) = true
/-- CREST reads an image at a key, none of whose bytes is poisoned. -/
def mayCrest (o : S1W) (s u : State) (a : Word) (key : Nat) : Prop :=
  takesUp (mkForm (.crest o) o.gd .joint) s = true ∧ earlierDone s = true ∧ privileged s = true ∧ operandsReady s [.w o.s1] [] = true ∧
  taken s [o.s1] = ([a], u) ∧ a.extractLsb' 1 5 = 0 ∧ a.extractLsb' 58 6 = 0 ∧ key = physKey (a &&& ~~~1#64) ∧ isDram key = true ∧
  isDram (key + 3151) = true ∧ isDram (key + 3152 + frameLen (memWord s (key + 264)) - 1) = true ∧ s.poison = [] ∧ s.mem.wf = true
/-- The queues of a slot have no more entries than R24 to R26 give them. -/
def queuesFit (sl : Slot) : Prop := sl.lq.length ≤ 32 ∧ sl.sq.length ≤ 16 ∧ sl.bqa.length ≤ 8 ∧ sl.bqx.length ≤ 8
/-- What a branch queue's entry has in an image. -/
def bqFields (e : BqEntry) : BqType × Bool × BitVec 32 := (e.type, e.value, e.offset.extractLsb' 0 32)
/-- Two slots have the same user context, reserved bits of registers apart (R308; log 78). -/
def sameContext (x y : Slot) : Prop :=
  y.ctxa = x.ctxa ∧ y.ctxx = x.ctxx ∧ y.trap.tstat = x.trap.tstat ∧ (x.trap.tstat = true → y.uipca = x.uipca ∧ y.uipcx = x.uipcx) ∧
  (∀ k < 7, y.ar.lo.toArray.getD (k + 1) 0 = x.ar.lo.toArray.getD (k + 1) 0 ∧ y.xr.g.toArray.getD (k + 1) 0 = x.xr.g.toArray.getD (k + 1) 0 ∧
    y.xr.m.toArray.getD (k + 1) 0 = x.xr.m.toArray.getD (k + 1) 0 ∧ y.xr.p.getLsbD (k + 1) = x.xr.p.getLsbD (k + 1)) ∧
  y.ar.user = x.ar.user ∧ y.ar.shadow = x.ar.shadow ∧ y.xr.v = x.xr.v ∧ y.xr.stack = x.xr.stack ∧ y.xr.rb = x.xr.rb ∧
  (x.xr.srgen ≠ 0 → y.xr.srgen = x.xr.srgen) ∧ y.sys.tsr = x.sys.tsr ∧ y.sys.uivec = x.sys.uivec ∧ y.sys.semts = x.sys.semts ∧
  y.sys.wbase = x.sys.wbase ∧ (stackOk x.sys.wbase x.sys.rslow = true → y.sys.rslow = x.sys.rslow) ∧ y.sys.rsidx = x.sys.rsidx ∧
  y.sys.rots = x.sys.rots ∧ y.sys.qpbuf = x.sys.qpbuf ∧ y.sys.cfda = x.sys.cfda ∧ y.sys.cfp = x.sys.cfp &&& 0x1FFF#64 ∧
  y.sys.cfh = x.sys.cfh &&& 0xFFFFFFFF0000003F#64 ∧ y.sys.qpend = x.sys.qpend &&& 0xFFFFFFFF00000007#64 ∧
  y.sys.relpend = x.sys.relpend &&& 0x7FFFFFFFFFFFF9#64 ∧
  (∀ k < 8, y.sys.cwin.toArray.getD k 0 = x.sys.cwin.toArray.getD k 0 &&& 0x7FFFFFFFFFFFF8#64) ∧
  (∀ k < 4, (y.sys.mpdst.toArray.getD k 0).extractLsb' 0 18 = (x.sys.mpdst.toArray.getD k 0).extractLsb' 0 18) ∧
  y.lq.map (·.word) = x.lq.map (·.word) ∧ y.sq.map (·.word) = x.sq.map (·.word) ∧ y.bqa.map bqFields = x.bqa.map bqFields ∧
  y.bqx.map bqFields = x.bqx.map bqFields

/-! ## Events and steps of devices -/

/-- A slot has entered its supervisor handler from its boundary, with no instruction in the record (R299). -/
def eventTaken (n kind detail : Nat) (tva : Word) (s t : State) : Prop :=
  (t.slot n).trap = { tcause := BitVec.ofNat 64 (kind + 65536 * detail), tinsn := 0, tpc := (s.slot n).ar.pc, tva := tva, tstat := false } ∧
  (t.slot n).super = true ∧ (t.slot n).ctxa = (s.slot n).ar.pc ∧ (t.slot n).ctxx = (s.slot n).ar.pc ∧
  (t.slot n).ar.pc = (s.core (coreOfSlot n)).tvec ∧ (t.slot n).xr.pc = (s.core (coreOfSlot n)).tvec ∧
  (t.slot n).ar.user = (s.slot n).ar.user ∧ (t.slot n).xr.stack = (s.slot n).xr.stack ∧ (t.slot n).sys = (s.slot n).sys ∧
  t.mem = s.mem ∧ t.full = s.full ∧ ∀ k, k ≠ n → t.slot k = s.slot k

/-- A bound slot whose halves stand at one instruction, with none later under way and no earlier one to trap or to go back to, and
wait for nothing, in no handler and no scout mode. -/
def atBoundary (s : State) (n : Nat) : Bool :=
  let sl := s.slot n
  sl.bound && !isWalker n && !sl.super && !sl.inUi && sl.ar.pos == sl.xr.pos && noneLater sl sl.ar.pos && sl.awai == .none
    && sl.xwai == .none && sl.scout.isNone && sl.post.isNone && !sl.ar.bad && !sl.xr.bad && !awaitsRoot s n && !stillGoing s n
    && (heldBack sl).all fun p => !(decide (p < sl.ar.pos) && sl.canBack p)

/-- A record has been admitted: it is the last of its queue, with the next SEQ (13_tasks_scheduling.md R253). -/
def admitted (ws : List Word) (s t : State) : Prop :=
  t.seq = s.seq + 1 ∧ (t.queue (recQid ws)).recs = (s.queue (recQid ws)).recs ++
    [⟨(ws.take 32).set 4 s.seq, List.range (recInstances ((ws.take 32).set 4 s.seq)), [], none, 0⟩]

/-- An event of a kind is the newest of the black-box record (17_reliability_start.md R346). -/
def recorded (kind : Nat) (t : State) : Prop := ∃ e, t.blackbox.head? = some e ∧ (e.w1.extractLsb' 0 8).toNat = kind

/-- What a step of a device leaves alone: memory, the full/empty bits, every slot, tile and task. -/
def aside (s t : State) : Prop :=
  t.mem = s.mem ∧ t.full = s.full ∧ t.slots = s.slots ∧ t.tiles = s.tiles ∧ t.tasks = s.tasks

end Sys2Proof.Safety
end

