-- ==== Sys2Proof/WellFormed.lean ====
section
/-! DEFINITION. Which instructions are well formed (spec/03_encoding.md R41, R43, R45, R49, R52 to R57, R63): those that
some encoding of the manual names and the checks 2, 5 and 6 of R57 pass. The role check belongs to a core. -/
namespace Sys2Proof

/-! Register operands. -/

def WReg.isConst : WReg → Bool | .const _ _ => true | _ => false
/-- An access-class register (R47). -/
def WReg.isA : WReg → Bool | .a _ => true | _ => false
/-- A neutral register of an instruction outside the load and store groups (R47). -/
def WReg.isNeutral : WReg → Bool | .g n => n = 0 | .const _ _ => true | _ => false
/-- An execute-class register of an instruction outside the load and store groups (R47). -/
def WReg.isExe (x : WReg) : Bool := !x.isA && !x.isNeutral
/-- A field that is written may not be a constant-window operand (R45). -/
def WReg.dst (x : WReg) : Bool := !x.isConst
/-- A register that INSR or LOOPR reads and writes (R163, R181). -/
def WReg.rmw : WReg → Bool | .w _ => true | .g n => n != 0 | .a n => n != 0 | _ => false
/-- A load-group destination: `lq`, an a register or g0; a V-size load takes `lq` only (R49, R137). -/
def WReg.ldDst (x : WReg) (sz : Size) : Bool :=
  match x with
  | .q => true
  | .a _ => sz != .v
  | .g n => n = 0 && sz != .v
  | _ => false
/-- A base, index or identifier operand of the access stream (R49, R137). -/
def WReg.addr : WReg → Bool | .a _ => true | .g n => n = 0 | .const _ _ => true | _ => false
/-- A data field of a store or an atomic (R49, R137): `sq` alone at V size. -/
def WReg.stData (x : WReg) (sz : Size) : Bool := x == .q || (sz != .v && x.addr)
/-- A destination of the access stream outside the load group (R49). -/
def WReg.accDst : WReg → Bool | .a _ => true | .g n => n = 0 | _ => false
/-- An operand of BIND: an a register or g0 (R231). -/
def WReg.bindReg : WReg → Bool | .a _ => true | .g n => n = 0 | _ => false

/-- At most one field holds a constant-window operand (R41). -/
def constsOk (l : List WReg) : Bool := (l.filter WReg.isConst).length ≤ 1
/-- No field holds an access-class register (R49). -/
def noAcc (l : List WReg) : Bool := l.all (fun x => !x.isA)
/-- Access-class and execute-class registers do not meet (R49). -/
def oneClass (l : List WReg) : Bool := !(l.any WReg.isA && l.any WReg.isExe)

/-! Immediates and modifiers. -/

/-- An immediate that the form's field holds (R41, R42). -/
def immFits (len : Len) (imm : Word) : Bool :=
  match len with
  | .l64 => sext64 (bits imm 0 20) == imm
  | .l96 => sext64 (bits imm 0 32) == imm
  | .l128 => true
/-- A 64-bit form holds no constant-window operand beside its immediate (R41). -/
def constWithImm (len : Len) (x : WReg) : Bool := len != .l64 || !x.isConst
/-- The lengths 64 and 96 (R63). -/
def Len.b96 (l : Len) : Bool := l != .l128
/-- The packed position and length of EXTR and INSR (R164, R173). -/
def fieldImmOk (imm : Word) : Bool := imm.toNat < 4096 && (bits imm 0 6).toNat + (bits imm 6 6).toNat + 1 ≤ 64
/-- Sign extension is of loads of B, H and W (R52). -/
def Size.sxOk (sz : Size) (sx : Bool) : Bool := !sx || sz == .b || sz == .h || sz == .w
/-- The conditions of integer compares (R53). -/
def Cond.intOk : Cond → Bool | .un => false | .or => false | _ => true
/-- The conditions of floating compares (R53). -/
def Cond.fpOk : Cond → Bool | .ltu => false | .geu => false | _ => true
def ETy.float : ETy → Bool | .f32 => true | .f16 => true | .bf16 => true | _ => false
/-- The width of an element type in bytes (R188). -/
def ETy.bytes : ETy → Nat
  | .f32 => 4 | .f16 => 2 | .bf16 => 2 | .i32 => 4 | .i16 => 2 | .i8 => 1 | .u32 => 4 | .u16 => 2 | .u8 => 1
  | .i64 => 8 | .u64 => 8
/-- The lane count n = 64 / b (R188). -/
def ETy.count (t : ETy) : Nat := 64 / t.bytes

/-- The codes of R56. -/
def reservedOp (op : Nat) : Bool :=
  op = 0x0F || (0x4A ≤ op && op ≤ 0x4F) || op = 0x57 || (0x6C ≤ op && op ≤ 0x6F) || op = 0x9E || op = 0x9F
    || (0xA9 ≤ op && op ≤ 0xB7) || (0xC4 ≤ op && op ≤ 0xCF) || (0xD7 ≤ op && op ≤ 0xDF) || op = 0xE7
    || (0xF4 ≤ op && op ≤ 0xFF)

/-! One predicate per shape. -/

def N0.wf (_o : N0) : Bool :=
  true

def NopOps.wf (_o : NopOps) : Bool :=
  true

def R3W.wf (o : R3W) : Bool :=
  o.d.dst && constsOk [o.s1, o.s2] && oneClass [o.d, o.s1, o.s2]

def R2W.wf (o : R2W) : Bool :=
  o.d.dst && oneClass [o.d, o.s1]

def RIW.wf (o : RIW) : Bool :=
  o.d.dst && immFits o.len o.imm && constWithImm o.len o.s1 && oneClass [o.d, o.s1]

def I1W.wf (o : I1W) : Bool :=
  o.d.dst && immFits o.len o.imm

def CmpR.wf (o : CmpR) : Bool :=
  o.cond.intOk && constsOk [o.s1, o.s2] && noAcc [o.s1, o.s2]

def CmpI.wf (o : CmpI) : Bool :=
  o.cond.intOk && immFits o.len o.imm && constWithImm o.len o.s1 && noAcc [o.s1]

def PlogR.wf (_o : PlogR) : Bool :=
  true

def SelR.wf (o : SelR) : Bool :=
  o.d.dst && constsOk [o.s1, o.s2] && noAcc [o.s1, o.s2] && oneClass [o.d, o.s1, o.s2]

def BitcR.wf (o : BitcR) : Bool :=
  o.d.dst && oneClass [o.d, o.s1]

def ExtrI.wf (o : ExtrI) : Bool :=
  o.d.dst && immFits o.len o.imm && constWithImm o.len o.s1 && oneClass [o.d, o.s1] && fieldImmOk o.imm

def B0.wf (o : B0) : Bool :=
  o.len.b96 && immFits o.len o.imm

def B1W.wf (o : B1W) : Bool :=
  o.len.b96 && immFits o.len o.imm && constWithImm o.len o.s1 && (o.gd.p = 0 || !o.s1.isA)

def B1P.wf (o : B1P) : Bool :=
  o.len.b96 && immFits o.len o.imm

def B2W.wf (o : B2W) : Bool :=
  o.len.b96 && immFits o.len o.imm && constsOk [o.s1, o.s2] && constWithImm o.len o.s1 && constWithImm o.len o.s2 &&
    oneClass [o.s1, o.s2] && (o.gd.p = 0 || !(o.s1.isA || o.s2.isA))

def S1W.wf (_o : S1W) : Bool :=
  true

def S2W.wf (o : S2W) : Bool :=
  constsOk [o.s1, o.s2]

def LdOps.wf (o : LdOps) : Bool :=
  o.sz.sxOk o.sx && o.len.b96 && immFits o.len o.imm && constWithImm o.len o.base && o.d.ldDst o.sz && o.base.addr

def LxOps.wf (o : LxOps) : Bool :=
  o.sz.sxOk o.sx && constsOk [o.base, o.idx] && o.d.ldDst o.sz && o.base.addr && o.idx.addr

def StOps.wf (o : StOps) : Bool :=
  o.len.b96 && immFits o.len o.imm && constsOk [o.base, o.data] && constWithImm o.len o.base &&
    constWithImm o.len o.data && o.base.addr && o.data.stData o.sz

def SxOps.wf (o : SxOps) : Bool :=
  constsOk [o.data, o.base, o.idx] && o.base.addr && o.idx.addr && o.data.stData o.sz

def FeLd.wf (o : FeLd) : Bool :=
  o.len.b96 && immFits o.len o.imm && constWithImm o.len o.base && o.d.ldDst .d && o.base.addr

def FeSt.wf (o : FeSt) : Bool :=
  o.len.b96 && immFits o.len o.imm && constsOk [o.base, o.data] && constWithImm o.len o.base &&
    constWithImm o.len o.data && o.base.addr && o.data.stData .d

def FeSet.wf (o : FeSet) : Bool :=
  o.len.b96 && immFits o.len o.imm && constWithImm o.len o.base && o.base.addr

def AtOps.wf (o : AtOps) : Bool :=
  constsOk [o.base, o.val] && o.d.ldDst .d && o.base.addr && o.val.stData .d

def AcasOps.wf (o : AcasOps) : Bool :=
  constsOk [o.base, o.exp, o.new] && o.d.ldDst .d && o.base.addr && o.exp.stData .d && o.new.stData .d

def BoOps.wf (o : BoOps) : Bool :=
  o.len.b96 && immFits o.len o.imm && constWithImm o.len o.base && o.base.addr

def BcrdOps.wf (o : BcrdOps) : Bool :=
  o.d.ldDst .d && o.base.addr

def CpOps.wf (o : CpOps) : Bool :=
  o.d.accDst && o.first ≤ 12

def CwOps.wf (o : CwOps) : Bool :=
  o.id.addr && !o.id.isConst

def CtOps.wf (o : CtOps) : Bool :=
  o.d.accDst && o.id.addr && constWithImm o.len o.id

def CsOps.wf (o : CsOps) : Bool :=
  o.d.accDst

def T3W.wf (o : T3W) : Bool :=
  o.t.bindReg && o.s1.bindReg && o.s2.bindReg

def KSem.wf (_o : KSem) : Bool :=
  true

def KTrap.wf (_o : KTrap) : Bool :=
  true

def F3.wf (o : F3) : Bool :=
  o.d.dst && constsOk [o.s1, o.s2] && noAcc [o.d, o.s1, o.s2]

def F4.wf (o : F4) : Bool :=
  o.d.dst && constsOk [o.s1, o.s2, o.s3] && noAcc [o.d, o.s1, o.s2, o.s3]

def F2.wf (o : F2) : Bool :=
  o.d.dst && noAcc [o.d, o.s1]

def FcmpR.wf (o : FcmpR) : Bool :=
  o.cond.fpOk && constsOk [o.s1, o.s2] && noAcc [o.s1, o.s2]

def FcvtR.wf (o : FcvtR) : Bool :=
  o.d.dst && noAcc [o.d, o.s1]

def V3.wf (_o : V3) : Bool :=
  true

def V4.wf (_o : V4) : Bool :=
  true

def V2.wf (_o : V2) : Bool :=
  true

def VcmpR.wf (o : VcmpR) : Bool :=
  (if o.ty.float then o.cond.fpOk else o.cond.intOk) && ((o.s1 != .q && o.s2 != .q) || o.msk = 0 || o.z)

def VselR.wf (_o : VselR) : Bool :=
  true

def VbcR.wf (o : VbcR) : Bool :=
  noAcc [o.s1]

def VinsR.wf (o : VinsR) : Bool :=
  o.d != .q && noAcc [o.s1] && constWithImm o.len o.s1

def VextR.wf (o : VextR) : Bool :=
  o.d.dst && noAcc [o.d]

def VrotR.wf (o : VrotR) : Bool :=
  o.imm.toNat < o.ty.count

def VredR.wf (o : VredR) : Bool :=
  o.d.dst && noAcc [o.d]

def VdotR.wf (o : VdotR) : Bool :=
  o.d.dst && noAcc [o.d]

def VcvtR.wf (_o : VcvtR) : Bool :=
  true

def M3.wf (_o : M3) : Bool :=
  true

def M2.wf (_o : M2) : Bool :=
  true

def MW.wf (o : MW) : Bool :=
  o.d.dst && noAcc [o.d]

def MP.wf (_o : MP) : Bool :=
  true

def T2C.wf (o : T2C) : Bool :=
  constsOk [o.t, o.s1] && noAcc [o.t, o.s1]

def VpackR.wf (o : VpackR) : Bool :=
  noAcc [o.s2]

def VunpkR.wf (o : VunpkR) : Bool :=
  noAcc [o.s2]

def CvldR.wf (o : CvldR) : Bool :=
  constsOk [o.s1, o.s2] && noAcc [o.s1, o.s2]

def CvstR.wf (o : CvstR) : Bool :=
  constsOk [o.t, o.s1] && noAcc [o.t, o.s1]

def T2X.wf (o : T2X) : Bool :=
  o.t != .q && constsOk [o.t, o.s1] && noAcc [o.t, o.s1]

def ArdR.wf (o : ArdR) : Bool :=
  noAcc [o.s1]

def CalldOps.wf (o : CalldOps) : Bool :=
  match o.s1 with
  | .const _ k => k.toNat ≤ 131066
  | _ => true

def CalldrOps.wf (_o : CalldrOps) : Bool :=
  true

def MtsrOps.wf (o : MtsrOps) : Bool :=
  !o.s1.isConst

def MfsrOps.wf (o : MfsrOps) : Bool :=
  o.d.dst

/-- Which instructions are well formed. The operands of a device step are data from outside, and any of them is. -/
def Instr.wf : Instr → Bool
  | .nop o => o.wf
  | .reservedOpcode w => reservedOp (bits w 2 8).toNat && bits w 0 2 != 3#2
  | .br o => o.wf
  | .bz o => o.wf
  | .bnz o => o.wf
  | .bp o => o.wf
  | .bnp o => o.wf
  | .beq o => o.wf
  | .bne o => o.wf
  | .blt o => o.wf
  | .bge o => o.wf
  | .bltu o => o.wf
  | .bgeu o => o.wf
  | .loopr o => o.wf && o.s1.rmw
  | .brx o => o.wf && (o.gd.p = 0 || !o.s1.isA)
  | .ipf o => o.wf
  | .add o => o.wf
  | .sub o => o.wf
  | .addi o => o.wf
  | .subi o => o.wf
  | .mul o => o.wf
  | .mulh o => o.wf
  | .mulhu o => o.wf
  | .div o => o.wf
  | .divu o => o.wf
  | .rem o => o.wf
  | .remu o => o.wf
  | .and o => o.wf
  | .or o => o.wf
  | .xor o => o.wf
  | .andi o => o.wf
  | .ori o => o.wf
  | .xori o => o.wf
  | .shl o => o.wf
  | .shr o => o.wf
  | .sar o => o.wf
  | .shli o => o.wf && o.imm.toNat ≤ 63
  | .shri o => o.wf && o.imm.toNat ≤ 63
  | .sari o => o.wf && o.imm.toNat ≤ 63
  | .mov o => o.wf
  | .movi o => o.wf
  | .cmp o => o.wf
  | .cmpi o => o.wf
  | .plog o => o.wf
  | .sel o => o.wf
  | .bitc o => o.wf
  | .extr o => o.wf
  | .insr o => o.wf && fieldImmOk o.imm && o.d.rmw
  | .ld o => o.wf
  | .ldx o => o.wf
  | .st o => o.wf
  | .stx o => o.wf
  | .ldfe o => o.wf
  | .ldff o => o.wf
  | .stf o => o.wf
  | .sete o => o.wf
  | .aadd o => o.wf
  | .afadd o => o.wf && !o.dsz
  | .amin o => o.wf
  | .amax o => o.wf
  | .aand o => o.wf
  | .aor o => o.wf
  | .axor o => o.wf
  | .aswp o => o.wf
  | .acas o => o.wf
  | .pfh o => o.wf
  | .lds o => o.wf && !o.acq
  | .sts o => o.wf && !o.rel
  | .ldsx o => o.wf && !o.acq
  | .stsx o => o.wf && !o.rel
  | .cflush o => o.wf
  | .cinv o => o.wf
  | .bcpost o => o.wf && !o.rel
  | .bcrd o => o.wf
  | .cpy o => o.wf
  | .cpynb o => o.wf
  | .cwait o => o.wf
  | .ctest o => o.wf
  | .coll o => o.wf
  | .collnb o => o.wf
  | .cstat o => o.wf
  | .bind o => o.wf
  | .unbind o => o.wf && o.s1.addr
  | .qput o => o.wf && o.s1.addr && o.s2.addr
  | .qget o => o.wf && o.s1.addr && o.s2.addr
  | .sempost o => o.wf
  | .semwait o => o.wf
  | .acq o => o.wf
  | .rel o => o.wf
  | .fadd o => o.wf
  | .fsub o => o.wf
  | .fmul o => o.wf
  | .ffma o => o.wf
  | .fdiv o => o.wf
  | .fsqrt o => o.wf
  | .fmin o => o.wf
  | .fmax o => o.wf
  | .fcmp o => o.wf
  | .fcvt o => o.wf
  | .fabs o => o.wf
  | .fneg o => o.wf
  | .vadd o => o.wf
  | .vsub o => o.wf
  | .vmul o => o.wf
  | .vfma o => o.wf && o.ty.float
  | .vfms o => o.wf && o.ty.float
  | .vfnma o => o.wf && o.ty.float
  | .vdiv o => o.wf && o.ty.float
  | .vsqrt o => o.wf && o.ty.float
  | .vmin o => o.wf
  | .vmax o => o.wf
  | .vabs o => o.wf
  | .vneg o => o.wf
  | .vand o => o.wf
  | .vor o => o.wf
  | .vxor o => o.wf
  | .vnot o => o.wf
  | .vshl o => o.wf && !o.ty.float
  | .vshr o => o.wf && !o.ty.float
  | .vsar o => o.wf && !o.ty.float
  | .vcmp o => o.wf
  | .vsel o => o.wf
  | .vmov o => o.wf
  | .vbcast o => o.wf
  | .vins o => o.wf
  | .vext o => o.wf
  | .vperm o => o.wf
  | .vshuf o => o.wf
  | .vrot o => o.wf
  | .vzip o => o.wf
  | .vunzip o => o.wf
  | .vcvt o => o.wf
  | .vrcp o => o.wf && o.ty.float
  | .vrsq o => o.wf && o.ty.float
  | .vexp o => o.wf && o.ty.float
  | .vlog o => o.wf && o.ty.float
  | .vradd o => o.wf
  | .vrmax o => o.wf
  | .vrmin o => o.wf
  | .vdot o => o.wf
  | .mand o => o.wf
  | .mor o => o.wf
  | .mxor o => o.wf
  | .mnot o => o.wf
  | .mpop o => o.wf
  | .mfirst o => o.wf
  | .mtop o => o.wf
  | .cvt o => o.wf
  | .align o => o.wf
  | .dealign o => o.wf
  | .bscale o => o.wf
  | .seed o => o.wf && noAcc [o.s1]
  | .vpack o => o.wf
  | .vunpk o => o.wf
  | .cvld o => o.wf
  | .cvst o => o.wf
  | .mload o => o.wf
  | .mma o => o.wf
  | .mmaf o => o.wf
  | .aclr o => o.wf && noAcc [o.s1, o.s2]
  | .ard o => o.wf
  | .asto o => o.wf
  | .mgrp o => o.wf && noAcc [o.s1]
  | .amask o => o.wf && noAcc [o.s1, o.s2]
  | .grule o => o.wf && noAcc [o.s1]
  | .geval o => o.wf
  | .gclr o => o.wf
  | .grd o => o.d.dst && noAcc [o.d, o.s1]
  | .tspawn o => o.wf
  | .tcommit o => o.wf
  | .tend o => o.wf
  | .tabort o => o.wf
  | .tsadv o => o.wf
  | .tscmp o => o.d.dst && constsOk [o.s1, o.s2]
  | .rinv o => o.wf
  | .calld o => o.wf
  | .calldr o => o.wf
  | .retd o => o.wf
  | .taild o => o.wf
  | .cfetch o => o.wf
  | .vevict o => o.wf
  | .vprobe o => o.d.dst
  | .mtsr o => o.wf
  | .mfsr o => o.wf
  | .trap o => o.wf
  | .uiret o => o.wf
  | .tret o => o.wf
  | .csave o => o.wf
  | .crest o => o.wf
  | .ttld o => o.wf
  | .ttst o => o.wf
  | .waite o => o.wf
  | .bkpt o => o.wf
  | .snap o => o.wf
  | .demandFetch _ _ => true
  | .instructionLineFill _ _ => true
  | .loadDataReturn _ _ => true
  | .wmb0Read _ => true
  | .wmb1Read _ => true
  | .win2Write _ => true
  | .installRecordReceive _ _ => true
  | .clearingQueueRelease _ => true
  | .transferStart _ _ => true
  | .transferComplete _ _ _ => true
  | .transferFault _ _ _ => true
  | .collectiveMatchComplete _ _ => true
  | .completionInterrupt _ => true
  | .byteCountTrapDelivery _ => true
  | .semaphoreOverflowDelivery _ => true
  | .portWordArrival _ _ => true
  | .linkWordArrival _ _ => true
  | .slotUnpark _ _ => true
  | .faultEntryReply _ _ => true
  | .engineOperationStart _ => true
  | .engineSemPost _ => true
  | .engineOperationComplete _ => true
  | .conversionUnitComplete _ => true
  | .dispatcherPlace _ => true
  | .bankModeChange _ _ => true
  | .redundantMismatch _ => true
  | .watchdogExpiry _ => true
  | .partitionDrainComplete _ => true
  | .preemptionTrap _ => true
  | .codeFetchInstall _ _ => true
  | .mintPublish _ => true
  | .codeFetchFailure _ _ => true
  | .invalidationComplete => true
  | .l1FlushComplete _ => true
  | .sectorPinComplete _ _ => true
  | .containmentFence _ => true
  | .containmentReset _ => true
  | .linkTrainingComplete _ => true
  | .aqgalRequestTimeout _ => true
  | .syncFlitSend _ => true
  | .creditProbe _ => true
  | .startStageComplete => true
  | .storePerformed _ => true
  | .collectiveMemberLost _ _ => true
  | .pfqbaseWrite _ => true
  | .launchRecordArrival _ _ => true
  | .preqWrite _ _ => true
  | .partitionResize _ _ => true
  | .vlimWrite _ _ => true
  | .txcmdInvalidatePage _ => true
  | .txcmdInvalidateAsid _ => true
  | .txcmdInvalidateAll _ => true
  | .l1ctlFlushAsid _ _ => true
  | .l1ctlFlushTile _ _ => true
  | .srpctlEnable _ _ _ => true
  | .srpaddPin _ _ _ => true
  | .rslowWrite _ _ => true
  | .nanmodeWrite _ _ => true
  | .srgenWrite _ _ => true
  | .mpdstWrite _ _ _ => true
  | .registerWrite _ _ => true
  | .ctrectRejoin _ _ => true
  | .routerLinkFailure _ => true
  | .lmctlRetrain _ _ => true
  | .lmctlCounterClear _ _ => true
  | .ucieFlitReceive _ _ => true
  | .crcWindowEnd _ => true
  | .laneRetirement _ _ => true
  | .aqgalFlitReceive _ _ => true
  | .aqgalPortSetChange _ _ => true
  | .launchFlitSequence _ _ => true
  | .rocePacketReceive _ _ => true
  | .launchSend _ _ => true
  | .ptpMessage _ => true
  | .undervoltWindowEnd _ _ => true
  | .snapctlGo _ => true
  | .powerGood => true
  | .startStageFailure _ => true
  | .attestationChallenge _ => true
  | .thermalTrip _ => true
  | .powerLoss => true
  | .scrubbing _ _ => true

/-- A well-formed instruction. -/
abbrev WellFormed (i : Instr) : Prop := i.wf = true

end Sys2Proof
end

