-- ==== Sys2Proof/Certificates/Slice0/Obligations.lean ====
section
/-! DEFINITION. The statements for the provers. A statement about an instruction speaks of every form of it: `takesUp` and
`operandsReady` (Safety.lean) are the conditions on the state and the operands under which the instruction executes, and
`taken`, `wrote` and their kin are the operands' own reads and writes, of which statements of their own speak. -/
open Sys2Proof Sys2Proof.Machine Sys2Proof.Safety

/-! ## Integer, logic and moves (09_scalar_instructions.md) -/

/-- R162, R167 to R170 and R173: an integer or logic instruction that is taken up with its operands ready writes its result to D
and moves on. Sources and the destination may be any code of R163; `taken` and `wrote` are the operands' own reads and writes,
of which `Obligations.sourceValues` and `Obligations.destinationWrites` speak. INSR reads D after S1. -/
def Obligations.integerResults : Prop :=
  (∀ p ∈ ([(Instr.add, fun x y => x + y), (.sub, fun x y => x - y), (.mul, fun x y => x * y),
      (.mulh, fun x y => BitVec.ofInt 64 (x.toInt * y.toInt / 2 ^ 64)),
      (.mulhu, fun x y => BitVec.ofNat 64 (x.toNat * y.toNat / 2 ^ 64)),
      (.div, fun x y => if y = 0 then -1 else BitVec.ofInt 64 (x.toInt.tdiv y.toInt)),
      (.divu, fun x y => if y = 0 then -1 else BitVec.ofNat 64 (x.toNat / y.toNat)),
      (.rem, fun x y => if y = 0 then x else BitVec.ofInt 64 (x.toInt.tmod y.toInt)),
      (.remu, fun x y => if y = 0 then x else BitVec.ofNat 64 (x.toNat % y.toNat)),
      (.and, fun x y => x &&& y), (.or, fun x y => x ||| y), (.xor, fun x y => x ^^^ y),
      (.shl, fun x y => BitVec.ofNat 64 (x.toNat * 2 ^ (y.toNat % 64))),
      (.shr, fun x y => BitVec.ofNat 64 (x.toNat / 2 ^ (y.toNat % 64))),
      (.sar, fun x y => BitVec.ofInt 64 (x.toInt / 2 ^ (y.toNat % 64)))] : List ((R3W → Instr) × (Word → Word → Word))),
    ∀ (o : R3W) (s : State),
      takesUp (mkForm (p.1 o) o.gd (aluStream [o.d, o.s1, o.s2])) s = true →
      operandsReady s [.w o.s1, .w o.s2] [.w o.d] = true →
      ∃ x y, (taken s [o.s1, o.s2]).1 = [x, y] ∧
        exec (p.1 o) s
          = .next (wrote (mkForm (p.1 o) o.gd (aluStream [o.d, o.s1, o.s2])) o.d (p.2 x y) (taken s [o.s1, o.s2]).2)) ∧
  ((∀ p ∈ ([(Instr.addi, fun x y => x + y), (.subi, fun x y => x - y), (.andi, fun x y => x &&& y), (.ori, fun x y => x ||| y),
      (.xori, fun x y => x ^^^ y), (.shli, fun x y => BitVec.ofNat 64 (x.toNat * 2 ^ (y.toNat % 64))),
      (.shri, fun x y => BitVec.ofNat 64 (x.toNat / 2 ^ (y.toNat % 64))),
      (.sari, fun x y => BitVec.ofInt 64 (x.toInt / 2 ^ (y.toNat % 64)))] : List ((RIW → Instr) × (Word → Word → Word))),
    ∀ (o : RIW) (s : State),
      takesUp (mkForm (p.1 o) o.gd (aluStream [o.d, o.s1])) s = true → operandsReady s [.w o.s1] [.w o.d] = true →
      ∃ x, (taken s [o.s1]).1 = [x] ∧
        exec (p.1 o) s = .next (wrote (mkForm (p.1 o) o.gd (aluStream [o.d, o.s1])) o.d (p.2 x o.imm) (taken s [o.s1]).2)) ∧
  (∀ (o : ExtrI) (s : State),
      takesUp (mkForm (.extr o) o.gd (aluStream [o.d, o.s1])) s = true → operandsReady s [.w o.s1] [.w o.d] = true →
      ∃ x v : Word, (taken s [o.s1]).1 = [x] ∧
        exec (.extr o) s = .next (wrote (mkForm (.extr o) o.gd (aluStream [o.d, o.s1])) o.d v (taken s [o.s1]).2) ∧
        ∀ k < 64, v.getLsbD k =
          if k ≤ o.imm.toNat / 64 % 64 then x.getLsbD (o.imm.toNat % 64 + k)
          else o.sx && x.getLsbD (o.imm.toNat % 64 + o.imm.toNat / 64 % 64)) ∧
  (∀ (o : RIW) (s : State),
      takesUp (mkForm (.insr o) o.gd (aluStream [o.d, o.s1])) s = true → operandsReady s [.w o.s1, .w o.d] [.w o.d] = true →
      ∃ x old v : Word, (taken s [o.s1, o.d]).1 = [x, old] ∧
        exec (.insr o) s = .next (wrote (mkForm (.insr o) o.gd (aluStream [o.d, o.s1])) o.d v (taken s [o.s1, o.d]).2) ∧
        ∀ k < 64, v.getLsbD k =
          if o.imm.toNat % 64 ≤ k ∧ k ≤ o.imm.toNat % 64 + o.imm.toNat / 64 % 64 then x.getLsbD (k - o.imm.toNat % 64)
          else old.getLsbD k))

/-- R171, R172 and R176: MOV, MOVI, BITC and SEL. -/
def Obligations.movesAndCounts : Prop :=
  (∀ (o : R2W) (s : State),
    takesUp (mkForm (.mov o) o.gd (aluStream [o.d, o.s1])) s = true → operandsReady s [.w o.s1] [.w o.d] = true →
    ∃ x, (taken s [o.s1]).1 = [x] ∧
      exec (.mov o) s = .next (wrote (mkForm (.mov o) o.gd (aluStream [o.d, o.s1])) o.d x (taken s [o.s1]).2)) ∧
  (∀ (o : I1W) (s : State),
    takesUp (mkForm (.movi o) o.gd (aluStream [o.d])) s = true → operandsReady s [] [.w o.d] = true →
    exec (.movi o) s = .next (wrote (mkForm (.movi o) o.gd (aluStream [o.d])) o.d o.imm s)) ∧
  (∀ (o : BitcR) (s : State),
    takesUp (mkForm (.bitc o) o.gd (aluStream [o.d, o.s1])) s = true → operandsReady s [.w o.s1] [.w o.d] = true →
    ∃ x v : Word, (taken s [o.s1]).1 = [x] ∧
      exec (.bitc o) s = .next (wrote (mkForm (.bitc o) o.gd (aluStream [o.d, o.s1])) o.d v (taken s [o.s1]).2) ∧
      match o.op with
      | .clz => (x = 0 → v = 64) ∧ (x ≠ 0 → v.toNat < 64 ∧ x.toNat / 2 ^ (63 - v.toNat) = 1)
      | .ctz => (x = 0 → v = 64) ∧ (x ≠ 0 → v.toNat < 64 ∧ x.getLsbD v.toNat = true ∧ ∀ k < v.toNat, x.getLsbD k = false)
      | .pop => v.toNat = (List.range 64).countP fun k => x.getLsbD k) ∧
  (∀ (o : SelR) (s : State),
    takesUp (mkForm (.sel o) o.gd .execute) s = true → operandsReady s [.w o.s1, .w o.s2, .p o.pn] [.w o.d] = true →
    ∃ x y, (taken s [o.s1, o.s2]).1 = [x, y] ∧
      exec (.sel o) s
        = .next (wrote (mkForm (.sel o) o.gd .execute) o.d (if s.me.readP o.pn then x else y) (taken s [o.s1, o.s2]).2))

/-- R174, R175 and R192: the instructions that write a predicate. Only `.NE` and `.UN` hold where an operand is NaN. -/
def Obligations.predicateResults : Prop :=
  (∀ (o : CmpR) (s : State),
    takesUp (mkForm (.cmp o) o.gd .execute) s = true → operandsReady s [.w o.s1, .w o.s2] [.p o.d] = true →
    ∃ x y, (taken s [o.s1, o.s2]).1 = [x, y] ∧
      exec (.cmp o) s
        = .next (wroteP (mkForm (.cmp o) o.gd .execute) o.d (o.cond.holds x y) (taken s [o.s1, o.s2]).2)) ∧
  (∀ (o : CmpI) (s : State),
    takesUp (mkForm (.cmpi o) o.gd .execute) s = true → operandsReady s [.w o.s1] [.p o.d] = true →
    ∃ x, (taken s [o.s1]).1 = [x] ∧
      exec (.cmpi o) s = .next (wroteP (mkForm (.cmpi o) o.gd .execute) o.d (o.cond.holds x o.imm) (taken s [o.s1]).2)) ∧
  (∀ (x y : Word),
    Cond.holds .eq x y = decide (x = y) ∧ Cond.holds .ne x y = decide (x ≠ y) ∧
    Cond.holds .lt x y = decide (x.toInt < y.toInt) ∧ Cond.holds .ge x y = decide (y.toInt ≤ x.toInt) ∧
    Cond.holds .ltu x y = decide (x.toNat < y.toNat) ∧ Cond.holds .geu x y = decide (y.toNat ≤ x.toNat) ∧
    Cond.holds .le x y = decide (x.toInt ≤ y.toInt) ∧ Cond.holds .gt x y = decide (y.toInt < x.toInt)) ∧
  (∀ (o : PlogR) (s : State),
    takesUp (mkForm (.plog o) o.gd .execute) s = true → operandsReady s [.p o.s1, .p o.s2] [.p o.d] = true →
    exec (.plog o) s = .next (wroteP (mkForm (.plog o) o.gd .execute) o.d
      (match o.op with
        | .and => s.me.readP o.s1 && s.me.readP o.s2
        | .or => s.me.readP o.s1 || s.me.readP o.s2
        | .xor => s.me.readP o.s1 != s.me.readP o.s2
        | .andn => s.me.readP o.s1 && !s.me.readP o.s2) s)) ∧
  (∀ (o : FcmpR) (s : State),
    takesUp (mkForm (.fcmp o) o.gd .execute) s = true → operandsReady s [.w o.s1, .w o.s2] [.p o.d] = true →
    ∃ x y, (taken s [o.s1, o.s2]).1 = [x, y] ∧
      let v (z : Word) : Val := o.ty.fmt.decode (s.core s.myCore).nanmode (z.toNat % 2 ^ o.ty.fmt.width)
      exec (.fcmp o) s = .next (wroteP (mkForm (.fcmp o) o.gd .execute) o.d (o.cond.holdsVal (v x) (v y)) (taken s [o.s1, o.s2]).2) ∧
      ((v x).isNan || (v y).isNan → o.cond.holdsVal (v x) (v y) = (o.cond == .ne || o.cond == .un)))

/-! ## Operands (03_encoding.md R43, R44, 08_core.md R153 to R159) -/

/-- R24, R29, R36, R43, R44, R153, R154, R157 to R159: what a source gives. g0 and a0 read as zero; w`k` is an entry of the
register stack at WBASE, rotated within the region by RB; a8 to a15 are the bank that SUPER and a completion handler select; a
register and a constant take nothing. Of a queue, a port and a link the oldest word is taken, and later ones keep their order. -/
def Obligations.sourceValues : Prop :=
  (∀ (s : State),
    (taken s [.g 0] = ([0], s)) ∧ (taken s [.a 0] = ([0], s)) ∧
    (∀ n : BitVec 3, n ≠ 0 → ∃ h : n.toNat < 8, taken s [.g n] = ([s.me.xr.g[n.toNat]], s)) ∧
    (∀ n : BitVec 4, n ≠ 0 → ∀ h : n.toNat < 8, taken s [.a n] = ([s.me.ar.lo[n.toNat]], s)) ∧
    (∀ n : BitVec 4, ∀ h : 8 ≤ n.toNat, ∃ h' : n.toNat - 8 < 8,
      taken s [.a n] = ([if s.me.super then s.me.ar.sup[n.toNat - 8] else if s.me.inUi then s.me.ar.shadow[n.toNat - 8]
        else s.me.ar.user[n.toNat - 8]], s)) ∧
    (∀ k : BitVec 5, ∀ S, (S = if s.me.sys.rots = 1 then 8 else if s.me.sys.rots = 2 then 16 else 0) →
      ∀ j, (j = if 16 ≤ k.toNat ∧ k.toNat < 16 + S then 16 + (k.toNat - 16 + s.me.xr.rb.toNat) % S else k.toNat) →
      ∃ h : (s.me.sys.wbase.toNat + j) % 128 < 128, taken s [.w k] = ([s.me.xr.stack[(s.me.sys.wbase.toNat + j) % 128]], s))) ∧
  (∀ (s : State),
    (∀ e q, s.me.lq = e :: q → ∀ v, e.word = some v →
      (taken s [.q]).1 = [v] ∧ (taken s [.q]).2.me.lq = q ∧ (taken s [.q]).2.me.xr = s.me.xr ∧ (taken s [.q]).2.me.ar = s.me.ar) ∧
    (∀ (n : BitVec 2) e q, s.me.portOf n.toNat = e :: q →
      (taken s [.mp n]).1 = [e.word] ∧ (taken s [.mp n]).2.me.portOf n.toNat = q ∧
        ∀ k < 4, k ≠ n.toNat → (taken s [.mp n]).2.me.portOf k = s.me.portOf k) ∧
    (∀ e q, (s.tile s.myTile).lkw = e :: q →
      (taken s [.lkw]).1 = [e.word] ∧ ((taken s [.lkw]).2.tile s.myTile).lkw = q ∧ (taken s [.lkw]).2.slots = s.slots) ∧
    (∀ e q, (s.tile s.myTile).lke = e :: q →
      (taken s [.lke]).1 = [e.word] ∧ ((taken s [.lke]).2.tile s.myTile).lke = q ∧ (taken s [.lke]).2.slots = s.slots) ∧
    (∀ win off x, constHit s win off = some x →
      taken s [.const win off] = ([x.data.extractLsb' (8 * ((s.me.constAddr win off).toNat % 128)) 64], s)))

/-- R26, R36, R43, R153, R156 to R158: what a write leaves. g0 and a0 discard it, any other register holds the value, and every
register that the write does not name keeps its own. A write to `sq` pushes one word; one to a port sends one word with the
sender's TSR and NANMODE to the slot and port that MPDST names; one to a link sends one word to the neighbour. A redundant task's
copies compare their words first, and are not spoken of here. -/
def Obligations.destinationWrites : Prop :=
  (∀ (s : State) (v : Word) (d : WReg),
    (match d with | .w _ => True | .g _ => True | .a _ => True | _ => False) →
    (M.state (putW d v) s).mem = s.mem ∧ (M.state (putW d v) s).tiles = s.tiles ∧
    (taken (M.state (putW d v) s) [d]).1 = [if d = .g 0 ∨ d = .a 0 then 0 else v] ∧
    ∀ r : WReg, r ≠ d → (match r with | .w _ => True | .g _ => True | .a _ => True | _ => False) →
      (taken (M.state (putW d v) s) [r]).1 = (taken s [r]).1) ∧
  (∀ (s : State) (v : Word), (∀ t, s.task? s.me.task = some t → t.twin = none) →
    (s.me.scout = none → s.me.sqTaken ≤ s.me.xr.sqPushed → s.me.stores = [] → (∀ t, s.task? s.me.task = some t → t.escrow = []) →
      (M.state (putW .q v) s).me.sq = s.me.sq ++ [{ pos := s.me.sqIndex, word := v }]) ∧
    (∀ n : BitVec 2, ∃ f : Flight, (M.state (putW (.mp n) v) s).flights = s.flights ++ [f] ∧
      f.word = { word := v, ts := s.me.sys.tsr, nm := (s.core s.myCore).nanmode } ∧ f.sender = s.cur.slot ∧
      f.vf = s.vfOf s.cur.slot ∧
      f.dest = 16 * (3 * (192 * ((s.me.mpdstOf n).toNat / 2 ^ 16 % 4) + (s.me.mpdstOf n).toNat / 2 ^ 8 % 256)
        + (s.me.mpdstOf n).toNat / 2 ^ 4 % 4) + (s.me.mpdstOf n).toNat % 16 ∧
      f.dport = (s.me.mpdstOf n).toNat / 2 ^ 6 % 4) ∧
    ((M.state (putW .lke v) s).tile (linkTarget s.myTile false)).lkwFly
      = (s.tile (linkTarget s.myTile false)).lkwFly ++ [{ word := v, ts := s.me.sys.tsr, nm := (s.core s.myCore).nanmode }] ∧
    ((M.state (putW .lkw v) s).tile (linkTarget s.myTile true)).lkeFly
      = (s.tile (linkTarget s.myTile true)).lkeFly ++ [{ word := v, ts := s.me.sys.tsr, nm := (s.core s.myCore).nanmode }])

/-! ## Streams and guards (03_encoding.md R46, R48) -/

/-- R46, R48, R50 and R51: a half passes over an instruction of the other stream without any other effect; the execute half then
pushes a guard token where the guard is a predicate that can change, and a release token for one of the release class that runs,
and waits for the token of one of the acquire class that runs. An instruction that is guarded off takes nothing and writes nothing, in
the execute stream, in the access stream, where a token says so, and where both halves meet. Outside scout mode, and with room in
the branch queue. -/
def Obligations.guardsAndStreams : Prop :=
  (∀ (i : Instr) (g : Guard) (d : WReg) (srcs : List WReg) (st : Stream) (s : State),
    registerForm i = some (g, st, d, srcs) → i.roleBad s.myRole = false → s.me.scout = none →
    (st = .execute → s.cur.half = .access →
      exec i s = .next (s.modMe fun sl => sl.advance .access (nextPc sl.ar.pc i.bytes))) ∧
    (st = .access → s.cur.half = .execute → s.me.bqx.length < 8 →
      exec i s = .next (s.modMe fun sl =>
        (if g.p = 0 then sl
         else { sl with bqx := sl.bqx ++ [{ pos := sl.xr.pos, type := .guard, value := sl.guardPasses g, offset := 0 }] }).advance
          .execute (nextPc sl.xr.pc i.bytes)))) ∧
  (∀ (i : Instr) (g : Guard) (d : WReg) (srcs : List WReg) (s : State),
    registerForm i = some (g, .execute, d, srcs) → i.roleBad s.myRole = false → s.me.scout = none → s.cur.half = .execute →
    s.me.guardPasses g = false →
    exec i s = .next (s.modMe fun sl => sl.advance .execute (nextPc sl.xr.pc i.bytes))) ∧
  (∀ (i : Instr) (f : Form) (s : State), formOf i = some f → i.roleBad s.myRole = false → s.me.scout = none →
    (f.stream = .execute →
      (s.cur.half = .access → exec i s = .next (passedOver i [] s)) ∧
      (s.cur.half = .execute → s.me.guardPasses f.guard = false → exec i s = .next (passedOver i [] s))) ∧
    (f.stream = .access →
      (s.cur.half = .execute → (f.acq = false ∨ s.me.guardPasses f.guard = false) → s.me.bqx.length + (tokens f s.me).length ≤ 8 →
        exec i s = .next (passedOver i (tokens f s.me) s)) ∧
      (s.cur.half = .execute → f.acq = true → s.me.guardPasses f.guard = true → s.me.xr.tok ≠ some s.me.xr.pos →
        s.me.bqx.length + (tokens f s.me).length ≤ 8 →
        ∃ t, exec i s = .next t ∧ t.me.bqx = s.me.bqx ++ tokens f s.me ∧
          (∀ e q, s.me.bqa = e :: q → e.value = true →
            t.me.bqa = q ∧ t.me.xr.pos = s.me.xr.pos + 1 ∧ t.me.xr.pc = nextPc s.me.xr.pc i.bytes) ∧
          ((s.me.bqa = [] ∨ ∃ e q, s.me.bqa = e :: q ∧ e.value = false) →
            t.me.bqa = s.me.bqa ∧ t.me.xr.pos = s.me.xr.pos ∧ t.me.xwai = .branchEmpty)) ∧
      (s.cur.half = .access → f.guard.p = 0 → f.guard.neg = true → exec i s = .next (passedOver i [] s)) ∧
      (s.cur.half = .access → f.guard.p ≠ 0 → ∀ e q, s.me.bqx = e :: q → e.value = false →
        exec i s = .next (s.modMe fun sl => (sl.popBq .access).advance .access (nextPc sl.ar.pc i.bytes)))) ∧
    (f.stream = .joint → s.me.posOf (otherHalf s.cur.half) = s.me.posOf s.cur.half → (s.me.waitOf (otherHalf s.cur.half)).mayMeet = true →
      s.me.guardPasses f.guard = false → exec i s = .next (s.modMe fun sl => sl.advanceBoth (nextPc sl.ar.pc i.bytes))))

/-- The frame of the instructions of `registerForm` (integer, logic, moves, scalar floating): where one completes with a
plain register as destination and plain registers as sources, memory is unchanged byte by byte, as are every full/empty bit,
every SCRATCH byte, every other slot, and of its own slot every register but the destination, every system and trap
register, the predicates, masks, vector registers and SRGEN. -/
def Obligations.registerFrame : Prop :=
  ∀ (i : Instr) (g : Guard) (st : Stream) (d : WReg) (srcs : List WReg) (s t : State),
    registerForm i = some (g, st, d, srcs) → takesUp (mkForm i g st) s = true →
    operandsReady s (srcs.map .w) [.w d] = true → (∀ r ∈ d :: srcs, plain r = true) → exec i s = .next t →
    (∀ a, t.mem.byte a = s.mem.byte a) ∧ t.full = s.full ∧ t.tiles = s.tiles ∧ t.cores = s.cores ∧ t.dies = s.dies ∧
    t.tasks = s.tasks ∧ t.queues = s.queues ∧ t.flights = s.flights ∧ (∀ n, n ≠ s.cur.slot → t.slot n = s.slot n) ∧
    t.me.sys = s.me.sys ∧ t.me.trap = s.me.trap ∧ t.me.super = s.me.super ∧ t.me.xr.p = s.me.xr.p ∧ t.me.xr.m = s.me.xr.m ∧
    t.me.xr.v = s.me.xr.v ∧ t.me.xr.srgen = s.me.xr.srgen ∧ t.me.lq = s.me.lq ∧ t.me.sq = s.me.sq ∧ t.me.ports = s.me.ports ∧
    t.me.stores = s.me.stores ∧ t.me.loads = s.me.loads ∧
    ∀ r, plain r = true → r ≠ d → (taken t [r]).1 = (taken s [r]).1

/-! ## Branches (09_scalar_instructions.md R177 to R186) -/

/-- R162, R174, R177 to R180, R183: the half that resolves a conditional branch, with its guard passing, evaluates the condition on
its sources, pushes the outcome for the other half, and goes to its own address plus four times the immediate, or on. An unguarded
BR is taken by each half on its own, with no entry of a branch queue. A target that fails the checks of R183 traps when fetched. -/
def Obligations.branchesResolve : Prop :=
  ((∀ p ∈ ([(Instr.beq, fun x y => decide (x = y)), (.bne, fun x y => decide (x ≠ y)),
      (.blt, fun x y => decide (x.toInt < y.toInt)), (.bge, fun x y => decide (y.toInt ≤ x.toInt)),
      (.bltu, fun x y => decide (x.toNat < y.toNat)), (.bgeu, fun x y => decide (y.toNat ≤ x.toNat))] :
        List ((B2W → Instr) × (Word → Word → Bool))), ∀ (o : B2W) (s : State),
    takesUp (mkForm (p.1 o) o.gd (branchStream [o.s1, o.s2])) s = true → s.cur.half = branchHalf [o.s1, o.s2] →
    s.me.guardPasses o.gd = true → (s.me.bqOut s.cur.half).length < 8 → operandsReady s [.w o.s1, .w o.s2] [] = true →
    ∃ x y, (taken s [o.s1, o.s2]).1 = [x, y] ∧
      exec (p.1 o) s = .next (resolved (p.1 o) (p.2 x y) 0 (s.me.pcOf s.cur.half + 4 * o.imm) true (taken s [o.s1, o.s2]).2)) ∧
  (∀ p ∈ ([(Instr.bz, fun x => decide (x = 0)), (.bnz, fun x => decide (x ≠ 0))] : List ((B1W → Instr) × (Word → Bool))),
    ∀ (o : B1W) (s : State),
    takesUp (mkForm (p.1 o) o.gd (branchStream [o.s1])) s = true → s.cur.half = branchHalf [o.s1] →
    s.me.guardPasses o.gd = true → (s.me.bqOut s.cur.half).length < 8 → operandsReady s [.w o.s1] [] = true →
    ∃ x, (taken s [o.s1]).1 = [x] ∧
      exec (p.1 o) s = .next (resolved (p.1 o) (p.2 x) 0 (s.me.pcOf s.cur.half + 4 * o.imm) true (taken s [o.s1]).2)) ∧
  (∀ p ∈ ([(Instr.bp, true), (.bnp, false)] : List ((B1P → Instr) × Bool)), ∀ (o : B1P) (s : State),
    takesUp (mkForm (p.1 o) o.gd (.branch .execute)) s = true → s.cur.half = .execute →
    s.me.guardPasses o.gd = true → s.me.bqx.length < 8 →
    exec (p.1 o) s = .next (resolved (p.1 o) (s.me.readP o.s1 == p.2) 0 (s.me.xr.pc + 4 * o.imm) true s)) ∧
  (∀ (o : S1W) (s : State),
    takesUp (mkForm (.brx o) o.gd (branchStream [o.s1])) s = true → s.cur.half = branchHalf [o.s1] →
    s.me.guardPasses o.gd = true → (s.me.bqOut s.cur.half).length < 8 → operandsReady s [.w o.s1] [] = true →
    ∃ x, (taken s [o.s1]).1 = [x] ∧ ∀ e, codeAt s s.cur.slot (s.me.pcOf s.cur.half) = some e →
      exec (.brx o) s = .next (resolved (.brx o) true x (BitVec.ofNat 64 (e.code + e.entry) + x) (decide (x.toNat < 2 ^ 32))
        (taken s [o.s1]).2)) ∧
  (∀ (o : B0) (s : State), o.gd.p ≠ 0 → takesUp (mkForm (.br o) o.gd (.branch .execute)) s = true → s.cur.half = .execute →
    s.me.guardPasses o.gd = true → s.me.bqx.length < 8 →
    exec (.br o) s = .next (resolved (.br o) true 0 (s.me.xr.pc + 4 * o.imm) true s))) ∧
  (∀ (o : B0) (s : State), o.gd = { p := 0, neg := false } → takesUp (mkForm (.br o) o.gd .each) s = true →
    exec (.br o) s = .next (s.modMe fun sl =>
      (sl.advance s.cur.half (sl.pcOf s.cur.half + 4 * o.imm)).setBad s.cur.half
        (!targetOk s s.cur.slot (sl.pcOf s.cur.half) (sl.pcOf s.cur.half + 4 * o.imm))))

/-- R25, R29, R178 to R182: the half that does not resolve a branch takes the oldest outcome of its incoming queue and follows it, to
the branch's own address plus four times the displacement or, for BRX, to the function's entry plus the offset that the outcome
carries; with a guard that fails, the resolving half pushes "not taken" and moves on, and changes nothing else. LOOPR lowers its count by
one, in the register that its field names before RB moves, and is taken while the count is then not zero; in the execute half a taken LOOPR
lowers RB by one within the rotating region, and no other branch moves it. -/
def Obligations.branchesFollowed : Prop :=
  (∀ (i : Instr) (g : Guard) (h : Half) (imm : Option Word) (s : State), branchForm i = some (g, h, imm) →
    takesUp (mkForm i g (.branch h)) s = true →
    (∀ e q, s.cur.half ≠ h → s.me.bqIn s.cur.half = e :: q →
      ∃ t, exec i s = .next t ∧ t.me.bqIn s.cur.half = q ∧ t.me.posOf s.cur.half = s.me.posOf s.cur.half + 1 ∧
        (e.value = false → t.me.pcOf s.cur.half = nextPc (s.me.pcOf s.cur.half) i.bytes) ∧
        (e.value = true → (∀ d, imm = some d → t.me.pcOf s.cur.half = s.me.pcOf s.cur.half + 4 * d) ∧
          (imm = none → ∀ c, codeAt s s.cur.slot (s.me.pcOf s.cur.half) = some c →
            t.me.pcOf s.cur.half = BitVec.ofNat 64 (c.code + c.entry) + e.offset)) ∧
        t.me.xr.rb = rotated i s.cur.half e.value s.me ∧ t.me.xr.stack = s.me.xr.stack ∧ t.me.xr.g = s.me.xr.g ∧
        t.me.ar.lo = s.me.ar.lo ∧ t.me.ar.user = s.me.ar.user ∧ t.me.lq = s.me.lq ∧ t.mem = s.mem ∧
        ∀ n, n ≠ s.cur.slot → t.slot n = s.slot n) ∧
    (s.cur.half = h → s.me.guardPasses g = false → (s.me.bqOut s.cur.half).length < 8 →
      exec i s = .next (resolved i false 0 0 true s))) ∧
  (∀ (o : B1W) (s : State), plain o.s1 = true →
    takesUp (mkForm (.loopr o) o.gd (branchStream [o.s1])) s = true → s.cur.half = branchHalf [o.s1] →
    s.me.guardPasses o.gd = true → (s.me.bqOut s.cur.half).length < 8 →
    ∃ x t, taken s [o.s1] = ([x], s) ∧ exec (.loopr o) s = .next t ∧
      t.me.pcOf s.cur.half
        = (if x - 1 = 0 then nextPc (s.me.pcOf s.cur.half) (Instr.loopr o).bytes else s.me.pcOf s.cur.half + 4 * o.imm) ∧
      t.me.bqOut s.cur.half
        = s.me.bqOut s.cur.half ++ [{ pos := s.me.posOf s.cur.half, type := .outcome, value := decide (x - 1 ≠ 0), offset := 0 }] ∧
      (∀ k, o.s1 = .w k → ∀ S j, S = (if s.me.sys.rots = 1 then 8 else if s.me.sys.rots = 2 then 16 else 0) →
        j = (if 16 ≤ k.toNat ∧ k.toNat < 16 + S then 16 + (k.toNat - 16 + s.me.xr.rb.toNat) % S else k.toNat) →
        t.me.xr.stack = s.me.xr.stack.set! ((s.me.sys.wbase.toNat + j) % 128) (x - 1)) ∧
      (∀ n, o.s1 = .g n → t.me.readG n = (if n = 0 then 0 else x - 1) ∧ t.me.xr.stack = s.me.xr.stack) ∧
      (∀ n, o.s1 = .a n → t.me.readA n = (if n = 0 then 0 else x - 1) ∧ t.me.xr.stack = s.me.xr.stack) ∧
      t.me.xr.rb = rotated (.loopr o) s.cur.half (decide (x - 1 ≠ 0)) s.me ∧
      t.mem = s.mem ∧ ∀ n, n ≠ s.cur.slot → t.slot n = s.slot n)

/-! ## Floating and vector instructions (10_vector_conversion.md) -/

/-- R189 to R191: a scalar floating instruction reads the value of the low bits of its sources in its type, computes the exact result
and rounds it once to the nearest, and writes the code with every higher bit zero. The special operands of R190: the functions stand
for VSQRT and FSQRT, VRCP, VRSQ, VEXP, VLOG, and division. -/
def Obligations.floatResults : Prop :=
  (∀ (s : State),
    let nm := (s.core s.myCore).nanmode
    (∀ p ∈ ([(Instr.fadd, Val.add), (.fsub, fun x y => x.add y.neg), (.fmul, Val.mul), (.fdiv, Val.div), (.fmin, Val.min),
        (.fmax, Val.max)] : List ((F3 → Instr) × (Val → Val → Val))), ∀ (o : F3),
      takesUp (mkForm (p.1 o) o.gd .execute) s = true → operandsReady s [.w o.s1, .w o.s2] [.w o.d] = true →
      ∃ x y, (taken s [o.s1, o.s2]).1 = [x, y] ∧
        exec (p.1 o) s = .next (wrote (mkForm (p.1 o) o.gd .execute) o.d
          (BitVec.ofNat 64 (o.ty.fmt.rne nm (p.2 (o.ty.fmt.decode nm (x.toNat % 2 ^ o.ty.fmt.width))
            (o.ty.fmt.decode nm (y.toNat % 2 ^ o.ty.fmt.width))))) (taken s [o.s1, o.s2]).2)) ∧
    (∀ p ∈ ([(Instr.fsqrt, Val.sqrt), (.fabs, Val.abs), (.fneg, Val.neg)] : List ((F2 → Instr) × (Val → Val))), ∀ (o : F2),
      takesUp (mkForm (p.1 o) o.gd .execute) s = true → operandsReady s [.w o.s1] [.w o.d] = true →
      ∃ x, (taken s [o.s1]).1 = [x] ∧
        exec (p.1 o) s = .next (wrote (mkForm (p.1 o) o.gd .execute) o.d
          (BitVec.ofNat 64 (o.ty.fmt.rne nm (p.2 (o.ty.fmt.decode nm (x.toNat % 2 ^ o.ty.fmt.width))))) (taken s [o.s1]).2)) ∧
    (∀ (o : F4), takesUp (mkForm (.ffma o) o.gd .execute) s = true → operandsReady s [.w o.s1, .w o.s2, .w o.s3] [.w o.d] = true →
      ∃ x y z, (taken s [o.s1, o.s2, o.s3]).1 = [x, y, z] ∧
        let v (w : Word) := o.ty.fmt.decode nm (w.toNat % 2 ^ o.ty.fmt.width)
        exec (.ffma o) s = .next (wrote (mkForm (.ffma o) o.gd .execute) o.d
          (BitVec.ofNat 64 (o.ty.fmt.rne nm ((v x).fma (v y) (v z)))) (taken s [o.s1, o.s2, o.s3]).2))) ∧
  ((∀ b e, Val.sqrt (.fin b 0 e) = .fin b 0 0) ∧ Val.sqrt (.inf false) = .inf false ∧ Val.sqrt (.inf true) = .nan ∧
  Val.sqrt .nan = .nan ∧ (∀ m e, m ≠ 0 → Val.sqrt (.fin true m e) = .nan) ∧
  (∀ b e, Val.recip (.fin b 0 e) = .inf b) ∧ (∀ b, Val.recip (.inf b) = .fin b 0 0) ∧ Val.recip .nan = .nan ∧
  (∀ b e, Val.rsqrt (.fin b 0 e) = .inf b) ∧ Val.rsqrt (.inf false) = .fin false 0 0 ∧ Val.rsqrt (.inf true) = .nan ∧
  Val.rsqrt .nan = .nan ∧ (∀ m e, m ≠ 0 → Val.rsqrt (.fin true m e) = .nan) ∧
  (∀ b e, Val.exp2 (.fin b 0 e) = .fin false 1 0) ∧ Val.exp2 (.inf false) = .inf false ∧
  Val.exp2 (.inf true) = .fin false 0 0 ∧ Val.exp2 .nan = .nan ∧
  (∀ b e, Val.log2 (.fin b 0 e) = .inf true) ∧ Val.log2 (.inf false) = .inf false ∧ Val.log2 (.inf true) = .nan ∧
  Val.log2 .nan = .nan ∧ (∀ m e, m ≠ 0 → Val.log2 (.fin true m e) = .nan) ∧
  (∀ a b m e f, m ≠ 0 → Val.div (.fin a m e) (.fin b 0 f) = .inf (a != b)) ∧
  (∀ a b e f, Val.div (.fin a 0 e) (.fin b 0 f) = .nan) ∧ (∀ a b, Val.div (.inf a) (.inf b) = .nan) ∧
  (∀ a b e, Val.fma (.inf a) (.fin b 0 e) .nan = .nan))

/-- R188 and R190: a lane-wise instruction of two or three vector sources. Lane k of the result is the lane operation where
the mask's bit k is 1, zero where Z is 1 or D is `sq`, and D's former lane otherwise. Integer types wrap. -/
def Obligations.laneResults : Prop :=
  ∀ (s : State),
    let nm := (s.core s.myCore).nanmode
    (∀ p ∈ ([(Instr.vadd, (Val.add, fun a b => a + b)), (.vsub, (fun x y => x.add y.neg, fun a b => a - b)),
        (.vmul, (Val.mul, fun a b => a * b)), (.vmin, (Val.min, min)), (.vmax, (Val.max, max))] :
          List ((V3 → Instr) × ((Val → Val → Val) × (Int → Int → Int)))), ∀ (o : V3),
      takesUp (mkForm (p.1 o) o.gd .execute) s = true → operandsReady s [.v o.s1, .v o.s2] [.v o.d] = true →
      ∃ x y r, (takenV s [o.s1, o.s2]).1 = [x, y] ∧
        exec (p.1 o) s = .next (wroteV (mkForm (p.1 o) o.gd .execute) o.d r (takenV s [o.s1, o.s2]).2) ∧
        laneRule s o.ty o.msk o.z o.d r fun k =>
          if o.ty.isFloat then
            o.ty.fmt.rne nm (p.2.1 (o.ty.fmt.decode nm (lane o.ty.bits x k)) (o.ty.fmt.decode nm (lane o.ty.bits y k)))
          else (p.2.2 (laneInt o.ty (lane o.ty.bits x k)) (laneInt o.ty (lane o.ty.bits y k)) % 2 ^ o.ty.bits).toNat) ∧
    (∀ (o : V3), o.ty.isFloat = true → takesUp (mkForm (.vdiv o) o.gd .execute) s = true →
      operandsReady s [.v o.s1, .v o.s2] [.v o.d] = true →
      ∃ x y r, (takenV s [o.s1, o.s2]).1 = [x, y] ∧
        exec (.vdiv o) s = .next (wroteV (mkForm (.vdiv o) o.gd .execute) o.d r (takenV s [o.s1, o.s2]).2) ∧
        laneRule s o.ty o.msk o.z o.d r fun k =>
          o.ty.fmt.rne nm (Val.div (o.ty.fmt.decode nm (lane o.ty.bits x k)) (o.ty.fmt.decode nm (lane o.ty.bits y k)))) ∧
    (∀ p ∈ ([(Instr.vfma, fun x y z => Val.fma x y z), (.vfms, fun x y z => Val.fma x y z.neg),
        (.vfnma, fun x y z => Val.add (Val.mul x y).neg z)] : List ((V4 → Instr) × (Val → Val → Val → Val))), ∀ (o : V4),
      takesUp (mkForm (p.1 o) o.gd .execute) s = true → operandsReady s [.v o.s1, .v o.s2, .v o.s3] [.v o.d] = true →
      ∃ x y z r, (takenV s [o.s1, o.s2, o.s3]).1 = [x, y, z] ∧
        exec (p.1 o) s = .next (wroteV (mkForm (p.1 o) o.gd .execute) o.d r (takenV s [o.s1, o.s2, o.s3]).2) ∧
        laneRule s o.ty o.msk o.z o.d r fun k =>
          o.ty.fmt.rne nm (p.2 (o.ty.fmt.decode nm (lane o.ty.bits x k)) (o.ty.fmt.decode nm (lane o.ty.bits y k))
            (o.ty.fmt.decode nm (lane o.ty.bits z k))))

/-- R188 and R190: the lane-wise instructions of one source, the bitwise lane operations, and the lane shifts, whose count is the
lane of s2 as an unsigned number. -/
def Obligations.laneUnaryAndBits : Prop :=
  (∀ (s : State),
    let nm := (s.core s.myCore).nanmode
    (∀ p ∈ ([(Instr.vsqrt, Val.sqrt), (.vrcp, Val.recip), (.vrsq, Val.rsqrt), (.vexp, Val.exp2), (.vlog, Val.log2),
        (.vabs, Val.abs), (.vneg, Val.neg)] : List ((V2 → Instr) × (Val → Val))), ∀ (o : V2), o.ty.isFloat = true →
      takesUp (mkForm (p.1 o) o.gd .execute) s = true → operandsReady s [.v o.s1] [.v o.d] = true →
      ∃ x r, (takenV s [o.s1]).1 = [x] ∧
        exec (p.1 o) s = .next (wroteV (mkForm (p.1 o) o.gd .execute) o.d r (takenV s [o.s1]).2) ∧
        laneRule s o.ty o.msk o.z o.d r fun k => o.ty.fmt.rne nm (p.2 (o.ty.fmt.decode nm (lane o.ty.bits x k)))) ∧
    (∀ p ∈ ([(Instr.vabs, fun n => (n.natAbs : Int)), (.vneg, fun n => -n)] : List ((V2 → Instr) × (Int → Int))), ∀ (o : V2),
      o.ty.isFloat = false → takesUp (mkForm (p.1 o) o.gd .execute) s = true → operandsReady s [.v o.s1] [.v o.d] = true →
      ∃ x r, (takenV s [o.s1]).1 = [x] ∧
        exec (p.1 o) s = .next (wroteV (mkForm (p.1 o) o.gd .execute) o.d r (takenV s [o.s1]).2) ∧
        laneRule s o.ty o.msk o.z o.d r fun k => (p.2 (laneInt o.ty (lane o.ty.bits x k)) % 2 ^ o.ty.bits).toNat) ∧
    (∀ (o : V2), takesUp (mkForm (.vnot o) o.gd .execute) s = true → operandsReady s [.v o.s1] [.v o.d] = true →
      ∃ x r, (takenV s [o.s1]).1 = [x] ∧
        exec (.vnot o) s = .next (wroteV (mkForm (.vnot o) o.gd .execute) o.d r (takenV s [o.s1]).2) ∧
        laneRule s o.ty o.msk o.z o.d r fun k => 2 ^ o.ty.bits - 1 - lane o.ty.bits x k)) ∧
  (∀ (s : State), ∀ p ∈ ([(Instr.vand, fun _ x y => x &&& y), (.vor, fun _ x y => x ||| y), (.vxor, fun _ x y => x ^^^ y),
      (.vshl, fun b x c => if c < b then x * 2 ^ c % 2 ^ b else 0), (.vshr, fun b x c => if c < b then x / 2 ^ c else 0),
      (.vsar, fun b x c => ((BitVec.ofNat b x).toInt / 2 ^ c % 2 ^ b).toNat)] : List ((V3 → Instr) × (Nat → Nat → Nat → Nat))),
    ∀ (o : V3),
      takesUp (mkForm (p.1 o) o.gd .execute) s = true → operandsReady s [.v o.s1, .v o.s2] [.v o.d] = true →
      ∃ x y r, (takenV s [o.s1, o.s2]).1 = [x, y] ∧
        exec (p.1 o) s = .next (wroteV (mkForm (p.1 o) o.gd .execute) o.d r (takenV s [o.s1, o.s2]).2) ∧
        laneRule s o.ty o.msk o.z o.d r fun k => p.2 o.ty.bits (lane o.ty.bits x k) (lane o.ty.bits y k))

/-- R193: lane movement of two sources and of one; VSEL writes every lane and takes its mask as the selector. -/
def Obligations.laneMoves : Prop :=
  ∀ (s : State),
    (∀ p ∈ ([(Instr.vperm, fun b n x y k => lane b x (lane b y k % n)),
        (.vshuf, fun b _ x y k => if (lane b y k).testBit (b - 1) then 0
          else lane b x (128 / b * (k / (128 / b)) + lane b y k % (128 / b))),
        (.vzip, fun b _ x y k => if k % 2 = 0 then lane b x (k / 2) else lane b y ((k - 1) / 2)),
        (.vunzip, fun b n x y k => if k < n / 2 then lane b x (2 * k) else lane b y (2 * k - n))] :
          List ((V3 → Instr) × (Nat → Nat → VWord → VWord → Nat → Nat))), ∀ (o : V3),
      takesUp (mkForm (p.1 o) o.gd .execute) s = true → operandsReady s [.v o.s1, .v o.s2] [.v o.d] = true →
      ∃ x y r, (takenV s [o.s1, o.s2]).1 = [x, y] ∧
        exec (p.1 o) s = .next (wroteV (mkForm (p.1 o) o.gd .execute) o.d r (takenV s [o.s1, o.s2]).2) ∧
        laneRule s o.ty o.msk o.z o.d r fun k => p.2 o.ty.bits o.ty.lanes x y k) ∧
    (∀ (o : V2), takesUp (mkForm (.vmov o) o.gd .execute) s = true → operandsReady s [.v o.s1] [.v o.d] = true →
      ∃ x r, (takenV s [o.s1]).1 = [x] ∧
        exec (.vmov o) s = .next (wroteV (mkForm (.vmov o) o.gd .execute) o.d r (takenV s [o.s1]).2) ∧
        laneRule s o.ty o.msk o.z o.d r fun k => lane o.ty.bits x k) ∧
    (∀ (o : VrotR), takesUp (mkForm (.vrot o) o.gd .execute) s = true → operandsReady s [.v o.s1] [.v o.d] = true →
      ∃ x r, (takenV s [o.s1]).1 = [x] ∧
        exec (.vrot o) s = .next (wroteV (mkForm (.vrot o) o.gd .execute) o.d r (takenV s [o.s1]).2) ∧
        laneRule s o.ty o.msk o.z o.d r fun k => lane o.ty.bits x ((k + o.imm.toNat) % o.ty.lanes)) ∧
    (∀ (o : VselR), takesUp (mkForm (.vsel o) o.gd .execute) s = true → operandsReady s [.v o.s1, .v o.s2] [.v o.d] = true →
      ∃ x y r, (takenV s [o.s1, o.s2]).1 = [x, y] ∧
        exec (.vsel o) s = .next (wroteV (mkForm (.vsel o) o.gd .execute) o.d r (takenV s [o.s1, o.s2]).2) ∧
        ∀ k < o.ty.lanes, lane o.ty.bits r k = if (s.me.readM o.msk).getLsbD k then lane o.ty.bits x k else lane o.ty.bits y k) ∧
    (∀ (o : VbcR), takesUp (mkForm (.vbcast o) o.gd .execute) s = true → operandsReady s [.w o.s1] [.v o.d] = true →
      ∃ x r, (taken s [o.s1]).1 = [x] ∧
        exec (.vbcast o) s = .next (wroteV (mkForm (.vbcast o) o.gd .execute) o.d r (taken s [o.s1]).2) ∧
        laneRule s o.ty o.msk o.z o.d r fun _ => x.toNat % 2 ^ o.ty.bits)

/-- R192, R194 and R197: VINS, VEXT, VCMP, FCVT and VCVT. VCVT and FCVT draw from the slot's generator under `.RSR` alone,
once for each converted element in ascending order. -/
def Obligations.vectorMixed : Prop :=
  ∀ (s : State),
    let nm := (s.core s.myCore).nanmode
    (∀ (o : VinsR), takesUp (mkForm (.vins o) o.gd .execute) s = true → operandsReady s [.w o.s1, .v o.d] [.v o.d] = true →
      ∃ x old r, (taken s [o.s1]).1 = [x] ∧ (takenV (taken s [o.s1]).2 [o.d]).1 = [old] ∧
        exec (.vins o) s = .next (wroteV (mkForm (.vins o) o.gd .execute) o.d r (takenV (taken s [o.s1]).2 [o.d]).2) ∧
        ∀ k < 8, lane 64 r k = if k = o.lane.toNat then x.toNat else lane 64 old k) ∧
    (∀ (o : VextR), takesUp (mkForm (.vext o) o.gd .execute) s = true → operandsReady s [.v o.s1] [.w o.d] = true →
      ∃ x, (takenV s [o.s1]).1 = [x] ∧
        exec (.vext o) s = .next (wrote (mkForm (.vext o) o.gd .execute) o.d (x.extractLsb' (64 * o.lane.toNat) 64)
          (takenV s [o.s1]).2)) ∧
    (∀ (o : VcmpR), takesUp (mkForm (.vcmp o) o.gd .execute) s = true → operandsReady s [.v o.s1, .v o.s2] [.m o.d] = true →
      ∃ x y r, (takenV s [o.s1, o.s2]).1 = [x, y] ∧
        exec (.vcmp o) s = .next (wroteM (mkForm (.vcmp o) o.gd .execute) o.d r (takenV s [o.s1, o.s2]).2) ∧
        ∀ k < 64, r.getLsbD k = (decide (k < o.ty.lanes) &&
          if (s.me.readM o.msk).getLsbD k then laneHolds o.cond o.ty nm (lane o.ty.bits x k) (lane o.ty.bits y k)
          else !o.z && (s.me.readM o.d).getLsbD k)) ∧
    (∀ (o : FcvtR), takesUp (mkForm (.fcvt o) o.gd .execute) s = true → operandsReady s [.w o.s1] [.w o.d] = true →
      ∃ x r, (taken s [o.s1]).1 = [x] ∧ (r = if o.rnd = .rsr then (srDraw s.me.xr.srgen).toNat else 0) ∧
        exec (.fcvt o) s = .next (wrote (mkForm (.fcvt o) o.gd .execute) o.d
          (fcvtResult o.dt (o.dt.fmt.encode nm o.rnd o.sat r (o.st.fmt.decode nm (x.toNat % 2 ^ o.st.bits))))
          (if o.rnd = .rsr then (taken s [o.s1]).2.modMe fun sl => { sl with xr := { sl.xr with srgen := srDraw sl.xr.srgen } }
           else (taken s [o.s1]).2))) ∧
    (∀ (o : VcvtR), takesUp (mkForm (.vcvt o) o.gd .execute) s = true → operandsReady s [.v o.s1] [.v o.d] = true →
      ∃ x r t, (takenV s [o.s1]).1 = [x] ∧ exec (.vcvt o) s = .next (wroteV (mkForm (.vcvt o) o.gd .execute) o.d r t) ∧
        let n := 512 / max o.st.bits o.dt.bits
        (o.rnd ≠ .rsr → t = (takenV s [o.s1]).2) ∧ t.me.xr.srgen = (if o.rnd = .rsr then drawsFrom s.me.xr.srgen n else s.me.xr.srgen) ∧
        ∀ k < o.dt.lanes, lane o.dt.bits r k =
          if k < n then
            o.dt.fmt.encode nm o.rnd o.sat (if o.rnd = .rsr then (drawsFrom s.me.xr.srgen (k + 1)).toNat else 0)
              (o.st.fmt.decode nm (lane o.st.bits x k)) % 2 ^ o.dt.bits
          else 0)

/-- R80 and R195: reductions. Of integer lanes, a masked-off lane enters as 0, as the type's least value or as its greatest, and
the sum keeps its low 64 bits. Floating lanes go up a tree of pairs, lane 0 with lane 1 first; a masked-off lane enters a sum as
-0, a maximum as -∞ and a minimum as +∞, and a sum rounds to binary32 at every node. -/
def Obligations.reductions : Prop :=
  (∀ (s : State),
    (∀ p ∈ ([(Instr.vradd, fun ls _ _ => (ls.filterMap id).sum), (.vrmax, fun ls lo _ => (ls.map (·.getD lo)).foldl max lo),
        (.vrmin, fun ls _ hi => (ls.map (·.getD hi)).foldl min hi)] : List ((VredR → Instr) × (List (Option Int) → Int → Int → Int))),
      ∀ (o : VredR), o.ty.isFloat = false → takesUp (mkForm (p.1 o) o.gd .execute) s = true →
      operandsReady s [.v o.s1] [.w o.d] = true →
      ∃ x, (takenV s [o.s1]).1 = [x] ∧
        let ls := (List.range o.ty.lanes).map fun k =>
          if (s.me.readM o.msk).getLsbD k then some (laneInt o.ty (lane o.ty.bits x k)) else none
        exec (p.1 o) s = .next (wrote (mkForm (p.1 o) o.gd .execute) o.d (BitVec.ofInt 64 (p.2 ls (ETy.least o.ty) (ETy.most o.ty)))
          (takenV s [o.s1]).2)) ∧
    (∀ (o : VdotR), o.ty.isFloat = false → takesUp (mkForm (.vdot o) o.gd .execute) s = true →
      operandsReady s [.v o.s1, .v o.s2] [.w o.d] = true →
      ∃ x y, (takenV s [o.s1, o.s2]).1 = [x, y] ∧
        let ls := (List.range o.ty.lanes).map fun k =>
          if (s.me.readM o.msk).getLsbD k then laneInt o.ty (lane o.ty.bits x k) * laneInt o.ty (lane o.ty.bits y k) else 0
        exec (.vdot o) s = .next (wrote (mkForm (.vdot o) o.gd .execute) o.d (BitVec.ofInt 64 ls.sum) (takenV s [o.s1, o.s2]).2))) ∧
  (∀ (s : State),
    let nm := (s.core s.myCore).nanmode
    let r32 (v : Val) : Val := Fmt.f32.decode nm (Fmt.f32.rne nm v)
    (∀ p ∈ ([(Instr.vradd, (.fin true 0 0, fun a b => r32 (a.add b))), (.vrmax, (.inf true, Val.max)), (.vrmin, (.inf false, Val.min))] :
        List ((VredR → Instr) × (Val × (Val → Val → Val)))), ∀ (o : VredR), o.ty.isFloat = true →
      takesUp (mkForm (p.1 o) o.gd .execute) s = true → operandsReady s [.v o.s1] [.w o.d] = true →
      ∃ x, (takenV s [o.s1]).1 = [x] ∧
        let l (k : Nat) : Val :=
          if (s.me.readM o.msk).getLsbD k then o.ty.fmt.decode nm (lane o.ty.bits x k) else p.2.1
        exec (p.1 o) s = .next (wrote (mkForm (p.1 o) o.gd .execute) o.d
          (BitVec.ofNat 64 (Fmt.f32.rne nm (pairTree p.2.2 l (Nat.log2 o.ty.lanes) 0))) (takenV s [o.s1]).2)) ∧
    (∀ (o : VdotR), o.ty.isFloat = true → takesUp (mkForm (.vdot o) o.gd .execute) s = true →
      operandsReady s [.v o.s1, .v o.s2] [.w o.d] = true →
      ∃ x y, (takenV s [o.s1, o.s2]).1 = [x, y] ∧
        let l (k : Nat) : Val :=
          if (s.me.readM o.msk).getLsbD k then
            r32 ((o.ty.fmt.decode nm (lane o.ty.bits x k)).mul (o.ty.fmt.decode nm (lane o.ty.bits y k)))
          else .fin true 0 0
        exec (.vdot o) s = .next (wrote (mkForm (.vdot o) o.gd .execute) o.d
          (BitVec.ofNat 64 (Fmt.f32.rne nm (pairTree (fun a b => r32 (a.add b)) l (Nat.log2 o.ty.lanes) 0)))
          (takenV s [o.s1, o.s2]).2)))

/-- R196: the mask instructions, with n lanes of the type: bits at and above n are written as zero. -/
def Obligations.maskResults : Prop :=
  ∀ (s : State),
    (∀ p ∈ ([(Instr.mand, fun a b => a && b), (.mor, fun a b => a || b), (.mxor, fun a b => a != b)] :
        List ((M3 → Instr) × (Bool → Bool → Bool))), ∀ (o : M3),
      takesUp (mkForm (p.1 o) o.gd .execute) s = true →
      ∃ r, exec (p.1 o) s = .next (wroteM (mkForm (p.1 o) o.gd .execute) o.d r s) ∧
        ∀ k < 64, r.getLsbD k
          = (decide (k < o.ty.lanes) && p.2 ((s.me.readM o.s1).getLsbD k) ((s.me.readM o.s2).getLsbD k))) ∧
    (∀ (o : M2), takesUp (mkForm (.mnot o) o.gd .execute) s = true →
      ∃ r, exec (.mnot o) s = .next (wroteM (mkForm (.mnot o) o.gd .execute) o.d r s) ∧
        ∀ k < 64, r.getLsbD k = (decide (k < o.ty.lanes) && !(s.me.readM o.s1).getLsbD k)) ∧
    (∀ (o : MW), takesUp (mkForm (.mpop o) o.gd .execute) s = true → operandsReady s [.m o.s1] [.w o.d] = true →
      exec (.mpop o) s = .next (wrote (mkForm (.mpop o) o.gd .execute) o.d
        (BitVec.ofNat 64 ((List.range o.ty.lanes).countP fun k => (s.me.readM o.s1).getLsbD k)) s)) ∧
    (∀ (o : MW), takesUp (mkForm (.mfirst o) o.gd .execute) s = true → operandsReady s [.m o.s1] [.w o.d] = true →
      ∃ n ≤ o.ty.lanes, exec (.mfirst o) s = .next (wrote (mkForm (.mfirst o) o.gd .execute) o.d (BitVec.ofNat 64 n) s) ∧
        (∀ k < n, (s.me.readM o.s1).getLsbD k = false) ∧ (n < o.ty.lanes → (s.me.readM o.s1).getLsbD n = true)) ∧
    (∀ (o : MP), takesUp (mkForm (.mtop o) o.gd .execute) s = true →
      ∃ b, exec (.mtop o) s = .next (wroteP (mkForm (.mtop o) o.gd .execute) o.d b s) ∧
        (b = true ↔ ∃ k < o.ty.lanes, (s.me.readM o.s1).getLsbD k = true))

/-! ## Memory instructions (07_tile_array.md) -/

/-- R24, R131, R137, R138, R140: a load whose address is aligned and reaches a target issues: LD at base plus immediate, LDX at
base plus index times size, LDS and LDSX in the scratchpad of the tile that the address names. Its place in lq is reserved, and no
byte of memory changes but what the translation itself writes (A and D of R99). An LDS or LDSX at a FIFO bank takes the oldest
words of the bank, one or eight, when there are enough, nothing earlier is outstanding and no other slot waits to pop before it. -/
def Obligations.loadsIssue : Prop :=
  (∀ (s : State),
    (∀ (o : LdOps), (Instr.ld o).wf = true → let f : Form := { mkForm (.ld o) o.gd .access with acq := o.acq }
      takesUp f s = true → operandsReady s [.w o.base] [] = true → s.me.lq.length + lqTakes (loadDest o.d) o.sz ≤ 32 →
      isPure s = false → ∀ b tgt u, (taken s [o.base]).1 = [b] → (b + o.imm).toNat % o.sz.bytes = 0 →
      reaches (.ld o) (b + o.imm) o.sz Access.load s = some (tgt, u) →
      ∃ t, exec (.ld o) s = .next t ∧ loadIssued f o.d tgt o.sz o.sx s u t) ∧
    (∀ (o : LxOps), (Instr.ldx o).wf = true → let f : Form := { mkForm (.ldx o) o.gd .access with acq := o.acq }
      takesUp f s = true → operandsReady s [.w o.base, .w o.idx] [] = true →
      s.me.lq.length + lqTakes (loadDest o.d) o.sz ≤ 32 → isPure s = false →
      ∀ b x tgt u, (taken s [o.base, o.idx]).1 = [b, x] → (b + x * BitVec.ofNat 64 o.sz.bytes).toNat % o.sz.bytes = 0 →
      reaches (.ldx o) (b + x * BitVec.ofNat 64 o.sz.bytes) o.sz Access.load s = some (tgt, u) →
      ∃ t, exec (.ldx o) s = .next t ∧ loadIssued f o.d tgt o.sz o.sx s u t) ∧
    (∀ (o : LdOps), (Instr.lds o).wf = true → let f : Form := { mkForm (.lds o) o.gd .access with acq := o.acq }
      takesUp f s = true → operandsReady s [.w o.base] [] = true → s.me.lq.length + lqTakes (loadDest o.d) o.sz ≤ 32 →
      ∀ b tile bank off, (isPure s = false ∨ tile = s.myTile) → (taken s [o.base]).1 = [b] → (b + o.imm).toNat % o.sz.bytes = 0 →
      scratchTarget s s.myTile (s.vfOf s.cur.slot) (s.groupOf s.cur.slot) (b + o.imm) (o.sz == .d || o.sz == .v)
        = .ok (.scratch tile bank off) →
      ∃ t, exec (.lds o) s = .next t ∧ loadIssued f o.d (.scratch tile bank off) o.sz o.sx s s t) ∧
    (∀ (o : LxOps), (Instr.ldsx o).wf = true → let f : Form := { mkForm (.ldsx o) o.gd .access with acq := o.acq }
      takesUp f s = true → operandsReady s [.w o.base, .w o.idx] [] = true →
      s.me.lq.length + lqTakes (loadDest o.d) o.sz ≤ 32 →
      ∀ b x tile bank off, (isPure s = false ∨ tile = s.myTile) → (taken s [o.base, o.idx]).1 = [b, x] →
      (b + x * BitVec.ofNat 64 o.sz.bytes).toNat % o.sz.bytes = 0 →
      scratchTarget s s.myTile (s.vfOf s.cur.slot) (s.groupOf s.cur.slot) (b + x * BitVec.ofNat 64 o.sz.bytes)
        (o.sz == .d || o.sz == .v) = .ok (.scratch tile bank off) →
      ∃ t, exec (.ldsx o) s = .next t ∧ loadIssued f o.d (.scratch tile bank off) o.sz o.sx s s t)) ∧
  (∀ (s : State), lone s = true → settled s = true → ∀ tile bank va k,
    (s.tile tile).fifoWait.all (fun w => w.bank != bank || w.push) = true → k ≤ ((s.tile tile).fifos.get bank []).length →
    (((s.tile tile).fifos.get bank []).take k).all (fun w => w.nm == (s.core s.myCore).nanmode) = true →
    (∀ (o : LdOps), (Instr.lds o).wf = true → let f : Form := { mkForm (.lds o) o.gd .access with acq := o.acq }
      takesUp f s = true → operandsReady s [.w o.base] [] = true → s.me.lq.length + lqTakes (loadDest o.d) o.sz ≤ 32 →
      k = (if o.sz = .v then 8 else 1) → ∀ b, (taken s [o.base]).1 = [b] → (b + o.imm).toNat % o.sz.bytes = 0 →
      scratchTarget s s.myTile (s.vfOf s.cur.slot) (s.groupOf s.cur.slot) (b + o.imm) (o.sz == .d || o.sz == .v)
        = .ok (.fifo tile bank va) →
      ∃ t, exec (.lds o) s = .next t ∧ fifoPopped f o.d tile bank k s t) ∧
    (∀ (o : LxOps), (Instr.ldsx o).wf = true → let f : Form := { mkForm (.ldsx o) o.gd .access with acq := o.acq }
      takesUp f s = true → operandsReady s [.w o.base, .w o.idx] [] = true →
      s.me.lq.length + lqTakes (loadDest o.d) o.sz ≤ 32 → k = (if o.sz = .v then 8 else 1) →
      ∀ b x, (taken s [o.base, o.idx]).1 = [b, x] → (b + x * BitVec.ofNat 64 o.sz.bytes).toNat % o.sz.bytes = 0 →
      scratchTarget s s.myTile (s.vfOf s.cur.slot) (s.groupOf s.cur.slot) (b + x * BitVec.ofNat 64 o.sz.bytes)
        (o.sz == .d || o.sz == .v) = .ok (.fifo tile bank va) →
      ∃ t, exec (.ldsx o) s = .next t ∧ fifoPopped f o.d tile bank k s t))

/-- R26, R37, R130, R131, R132, R138, R141 and R142: a store whose address is aligned and reaches a target issues in the slot's order of
stores, with its data word, with the oldest words of sq, or with the promise of the next ones, and no byte of memory changes before it
is performed but what the translation itself writes. STF and SETE are home-word operations of the same form. A scratchpad store's target
is a SCRATCH bank or a FIFO bank. A store of an uncommitted body that has room in escrow issues alike; when it leaves the slot it is
the last of its task's escrow, and changes neither memory, nor a cache, nor a full/empty bit; from the escrow of a task that has
committed its bytes, and no others, go to memory (with no copy of the line in the tile and its die: a page with C = 0). -/
def Obligations.storesIssue : Prop :=
  (∀ (s : State), lone s = true → sqFree s = true →
    (∀ (o : StOps), (Instr.st o).wf = true → let f : Form := { mkForm (.st o) o.gd .access with rel := o.rel }
      takesUp f s = true → operandsReady s ((o.base :: dataReg o.data).map .w) [] = true →
      ∀ b v tgt u, (taken s [o.base]).1 = [b] → (o.data ≠ .q → (taken s [o.data]).1 = [v]) →
      (b + o.imm).toNat % o.sz.bytes = 0 → reaches (.st o) (b + o.imm) o.sz Access.store s = some (tgt, u) →
      ∃ t, exec (.st o) s = .next t ∧ storeIssued f (pstore (.st o) .st tgt o.sz (dataOf o.data o.sz v)
        o.rel false (relPends u (b + o.imm) o.sz.bytes) .discard u) s u t) ∧
    (∀ (o : SxOps), (Instr.stx o).wf = true → let f : Form := { mkForm (.stx o) o.gd .access with rel := o.rel }
      takesUp f s = true → operandsReady s ((o.base :: o.idx :: dataReg o.data).map .w) [] = true →
      ∀ b x va v tgt u, (taken s [o.base, o.idx]).1 = [b, x] → (o.data ≠ .q → (taken s [o.data]).1 = [v]) →
      va = b + x * BitVec.ofNat 64 o.sz.bytes → va.toNat % o.sz.bytes = 0 →
      reaches (.stx o) va o.sz Access.store s = some (tgt, u) →
      ∃ t, exec (.stx o) s = .next t ∧ storeIssued f (pstore (.stx o) .st tgt o.sz (dataOf o.data o.sz v)
        o.rel false (relPends u va o.sz.bytes) .discard u) s u t) ∧
    (∀ (o : FeSt), (Instr.stf o).wf = true → let f : Form := { mkForm (.stf o) o.gd .access with rel := o.rel }
      takesUp f s = true → operandsReady s ((o.base :: dataReg o.data).map .w) [] = true →
      ∀ b v tgt u, (taken s [o.base]).1 = [b] → (o.data ≠ .q → (taken s [o.data]).1 = [v]) →
      (b + o.imm).toNat % 8 = 0 → reaches (.stf o) (b + o.imm) .d Access.atomic s = some (tgt, u) →
      ∃ t, exec (.stf o) s = .next t ∧ storeIssued f (pstore (.stf o) .stf tgt .d (dataOf o.data .d v)
        o.rel false (relPends u (b + o.imm) 8) .discard u) s u t) ∧
    (∀ (o : FeSet), (Instr.sete o).wf = true → let f : Form := { mkForm (.sete o) o.gd .access with rel := o.rel }
      takesUp f s = true → operandsReady s [.w o.base] [] = true →
      ∀ b tgt u, (taken s [o.base]).1 = [b] → (b + o.imm).toNat % 8 = 0 →
      reaches (.sete o) (b + o.imm) .d Access.atomic s = some (tgt, u) →
      ∃ t, exec (.sete o) s = .next t ∧ storeIssued f (pstore (.sete o) .sete tgt .d []
        o.rel false (relPends u (b + o.imm) 8) .discard u) s u t)) ∧
  (∀ (s : State), lone s = true → sqFree s = true →
    (∀ (o : StOps), (Instr.sts o).wf = true → let f : Form := { mkForm (.sts o) o.gd .access with rel := o.rel }
      takesUp f s = true → operandsReady s ((o.base :: dataReg o.data).map .w) [] = true →
      ∀ b v tgt, (taken s [o.base]).1 = [b] → (o.data ≠ .q → (taken s [o.data]).1 = [v]) →
      (b + o.imm).toNat % o.sz.bytes = 0 →
      scratchTarget s s.myTile (s.vfOf s.cur.slot) (s.groupOf s.cur.slot) (b + o.imm) (o.sz == .d || o.sz == .v)
        = .ok tgt →
      ∃ t, exec (.sts o) s = .next t ∧
        storeIssued f (pstore (.sts o) .st tgt o.sz (dataOf o.data o.sz v) false false none .discard s) s s t) ∧
    (∀ (o : SxOps), (Instr.stsx o).wf = true → let f : Form := { mkForm (.stsx o) o.gd .access with rel := o.rel }
      takesUp f s = true → operandsReady s ((o.base :: o.idx :: dataReg o.data).map .w) [] = true →
      ∀ b x v va tgt, (taken s [o.base, o.idx]).1 = [b, x] → (o.data ≠ .q → (taken s [o.data]).1 = [v]) →
      va = b + x * BitVec.ofNat 64 o.sz.bytes → va.toNat % o.sz.bytes = 0 →
      scratchTarget s s.myTile (s.vfOf s.cur.slot) (s.groupOf s.cur.slot) va (o.sz == .d || o.sz == .v) = .ok tgt →
      ∃ t, exec (.stsx o) s = .next t ∧
        storeIssued f (pstore (.stsx o) .st tgt o.sz (dataOf o.data o.sz v) false false none .discard s) s s t)) ∧
  (∀ (s : State), inBody s = true → s.latent = [] → s.me.sq = [] →
    (∀ y, s.taskOf s.cur.slot = some y → y.twin = none ∧ recPure y.words = false) →
    ∀ (o : StOps), (Instr.st o).wf = true → let f : Form := { mkForm (.st o) o.gd .access with rel := o.rel }
      takesUp f s = true → operandsReady s ((o.base :: dataReg o.data).map .w) [] = true →
      ∀ b v l u, (taken s [o.base]).1 = [b] → (o.data ≠ .q → (taken s [o.data]).1 = [v]) →
      (b + o.imm).toNat % o.sz.bytes = 0 →
      (∀ k : Loc, k.asid = s.asidOf s.cur.slot → k.va = (b + o.imm).toNat → escrowRoom s s.cur.slot k = true) →
      reaches (.st o) (b + o.imm) o.sz Access.store s = some (.mem l, u) →
      ∃ t, exec (.st o) s = .next t ∧ storeIssued f { pstore (.st o) .st (.mem l) o.sz (dataOf o.data o.sz v)
        o.rel false (relPends u (b + o.imm) o.sz.bytes) .discard u with body := true } s u t) ∧
  (∀ (n : Nat) (s0 s : State) (x : PStore) (l : Loc) (y : Task), nextStore n s0 = (some x, s) → x.body = true → x.tgt = .mem l →
    s0.taskOf n = some y → y.committed = false →
    ∃ t z, exec (.storePerformed n) s0 = .next t ∧ t.task? (s0.slot n).task = some z ∧
      z.escrow = y.escrow ++ [{ op := x.op, loc := l, size := x.size, data := x.data, rel := x.isRel, slot := n, pos := x.pos,
                                binds := x.binds, tsr := x.tsr, key := x.key, gate := false }] ∧
      x ∉ (t.slot n).stores ∧ t.mem = s0.mem ∧ t.full = s0.full ∧ t.tiles = s0.tiles ∧ t.dies = s0.dies) ∧
  (∀ (n : Nat) (s : State) (y : Task) (e : EscrowStore), nextStore n s = (none, s) → s.taskOf n = some y → y.committed = true →
    y.twin = none → y.escrow = [e] → e.slot = n → e.op = .st → e.rel = false → e.loc.c = false → owedIn e.data = 0 →
    reachCut s (tileOfSlot n) e.loc = false → s.latent = [] → noReaders s = true → memoriesOk s = true →
    ∃ t z, exec (.storePerformed n) s = .next t ∧ t.task? (s.slot n).task = some z ∧ z.escrow = [] ∧
      t.mem.readNat e.loc.key e.size.bytes = (wordsValue (dataWords e.data) &&& byteMask e.size.bytes).toNat ∧
      ∀ a, (a < e.loc.key ∨ e.loc.key + e.size.bytes ≤ a) → t.mem.byte a = s.mem.byte a)

/-- R143: an atomic issues in the slot's order of stores with the place of its prior value, and the address half waits for
a prior value that goes to an a register. -/
def Obligations.atomicsIssue : Prop :=
  ∀ (s : State), lone s = true → sqFree s = true →
    (∀ p ∈ ([(Instr.aadd, .add), (.afadd, .fadd), (.amin, .min), (.amax, .max), (.aand, .and), (.aor, .or), (.axor, .xor),
        (.aswp, .swap)] : List ((AtOps → Instr) × AtomOp)), ∀ (o : AtOps), (p.1 o).wf = true →
      let f : Form := { mkForm (p.1 o) o.gd .access with rel := ordRel o.ord, acq := ordAcq o.ord }
      let size : Size := if o.dsz then .d else .w
      takesUp f s = true → operandsReady s ((o.base :: dataReg o.val).map .w) [] = true →
      s.me.lq.length + lqTakes (loadDest o.d) .d ≤ 32 →
      ∀ va v tgt u, (taken s [o.base]).1 = [va] → (o.val ≠ .q → (taken s [o.val]).1 = [v]) →
      va.toNat % size.bytes = 0 → reaches (p.1 o) va size Access.atomic s = some (tgt, u) →
      ∃ t, exec (p.1 o) s = .next t ∧
        storeIssued f (pstore (p.1 o) (.atom p.2) tgt size (dataOf o.val size v) (ordRel o.ord) (ordAcq o.ord)
          (relPends u va size.bytes) (loadDest o.d) u) s u t ∧
        t.me.lq = u.me.lq ++ List.replicate (lqTakes (loadDest o.d) .d) { pos := s.me.ar.pos, word := none } ∧
        (∀ n, o.d = .a n → t.me.awai = .load s.me.ar.pos)) ∧
    (∀ (o : AcasOps), (Instr.acas o).wf = true →
      let f : Form := { mkForm (.acas o) o.gd .access with rel := ordRel o.ord, acq := ordAcq o.ord }
      let size : Size := if o.dsz then .d else .w
      takesUp f s = true → operandsReady s ((o.base :: dataReg o.exp ++ dataReg o.new).map .w) [] = true →
      s.me.lq.length + lqTakes (loadDest o.d) .d ≤ 32 →
      ∀ va x y tgt u, (taken s [o.base]).1 = [va] → (o.exp ≠ .q → (taken s [o.exp]).1 = [x]) →
      (o.new ≠ .q → (taken s [o.new]).1 = [y]) →
      va.toNat % size.bytes = 0 → reaches (.acas o) va size Access.atomic s = some (tgt, u) →
      ∃ t, exec (.acas o) s = .next t ∧
        storeIssued f (pstore (.acas o) (.atom .cas) tgt size (dataOf o.exp size x ++ dataOf o.new size y) (ordRel o.ord)
          (ordAcq o.ord) (relPends u va size.bytes) (loadDest o.d) u) s u t ∧
        t.me.lq = u.me.lq ++ List.replicate (lqTakes (loadDest o.d) .d) { pos := s.me.ar.pos, word := none } ∧
        (∀ n, o.d = .a n → t.me.awai = .load s.me.ar.pos))

/-- R88, R116, R142 and R144: where the word at the address is full and unpoisoned, LDFE and LDFF give its value, and LDFE leaves it
empty; LDFF leaves it full. BCPOST of an expected count below 2^36 on a word that is not posted adds it to the count, sets POSTED
with its own slot as POSTER, and makes the word full when the count is then zero; one whose count is to come from sq, or which has earlier
accesses of the slot before it, issues among the slot's stores. BCRD gives word 0 as it is. -/
def Obligations.fullEmptyAndByteCounts : Prop :=
  (∀ p ∈ ([(Instr.ldfe, true), (.ldff, false)] : List ((FeLd → Instr) × Bool)), ∀ (o : FeLd) (s : State), (p.1 o).wf = true →
    let f : Form := { mkForm (p.1 o) o.gd .access with acq := o.acq }
    takesUp f s = true → operandsReady s [.w o.base] [] = true → s.me.lq.length + lqTakes (loadDest o.d) .d ≤ 32 →
    lone s = true → settled s = true →
    latched s.me = none → ∀ b l u, (taken s [o.base]).1 = [b] → (b + o.imm).toNat % 8 = 0 →
    reaches (p.1 o) (b + o.imm) .d (if p.2 then Access.atomic else Access.fullRead) s = some (.mem l, u) → feFull u l.key = true →
    homePoison (toHome s.myTile l u) l 8 = false →
    ∃ t, exec (p.1 o) s = .next t ∧ gaveWord o.d (homeGetWord (toHome s.myTile l u) l) s u t ∧
      t.full = (if p.2 then u.full.setEmpty l.key else u.full) ∧ movedOn f s t) ∧
  ((∀ (o : FeSt) (s : State), (Instr.bcpost o).wf = true → let f : Form := { mkForm (.bcpost o) o.gd .access with rel := true }
    takesUp f s = true → operandsReady s ((o.base :: dataReg o.data).map .w) [] = true → lone s = true →
    ∀ b l u, (taken s [o.base]).1 = [b] → (b + o.imm).toNat % 16 = 0 →
    reaches (.bcpost o) (b + o.imm) .d Access.bcPost s = some (.mem l, u) →
    (settled s = true → ∀ e w, o.data ≠ .q → (taken s [o.data]).1 = [e] → w = homeGetWord (toHome s.myTile l u) l →
      e.toNat < 2 ^ 36 → u.mem.wf = true → w.getLsbD 37 = false → 0 ≤ bcCount w + e.toNat →
      ∃ t, exec (.bcpost o) s = .next t ∧
        t.full = (if bcCount w + e.toNat = 0 then u.full.setFull l.key else u.full) ∧
        homeGetWord t l = bcWord (bcCount w + e.toNat) true (w.getLsbD 38) (posterOf s.cur.slot) ∧ movedOn f s t) ∧
    (∀ e, o.data ≠ .q → (taken s [o.data]).1 = [e] → alone u = false → sqFree s = true →
      ∃ t, exec (.bcpost o) s = .next t ∧
        storeIssued f (pstore (.bcpost o) .bcPost (.mem l) .d [.val e] true false none .discard u) s u t) ∧
    (o.data = .q → sqFree s = true →
      ∃ t, exec (.bcpost o) s = .next t ∧
        storeIssued f (pstore (.bcpost o) .bcPost (.mem l) .d [.owed] true false none .discard u) s u t)) ∧
  (∀ (o : BcrdOps) (s : State), (Instr.bcrd o).wf = true → let f := mkForm (.bcrd o) o.gd .access
    takesUp f s = true → operandsReady s [.w o.base] [] = true → s.me.lq.length + lqTakes (loadDest o.d) .d ≤ 32 →
    lone s = true → settled s = true →
    ∀ va l u, (taken s [o.base]).1 = [va] → va.toNat % 16 = 0 → reaches (.bcrd o) va .d Access.bcRead s = some (.mem l, u) →
    homePoison (toHome s.myTile l u) l 8 = false →
    ∃ t, exec (.bcrd o) s = .next t ∧ gaveWord o.d (homeGetWord (toHome s.myTile l u) l) s u t ∧ t.full = u.full ∧ movedOn f s t))

/-- R134, R145 and R146: once the slot's earlier accesses are done, CFLUSH keeps the first-level line of its address, clean, and CINV
drops it; each writes the line's dirty bytes, and no others, into the slice of the die, leaves every other line of the tile as it
was, and does nothing where the cache does not hold the line. PFH asks for a line: the tile's cache holds it afterwards where the
translation succeeds and the page is cacheable memory, and a miss of the page is made where it is not known; every failure is
dropped, and an address with bits [63:55] set is ignored. Each moves on and changes no register, no queue and no full/empty bit. -/
def Obligations.lineControl : Prop :=
  (∀ (o : BoOps) (s : State) (b : Word), (taken s [o.base]).1 = [b] → operandsReady s [.w o.base] [] = true → settled s = true →
    let asid := s.asidOf s.cur.slot
    let vl := (b + o.imm).toNat / 128
    (∀ p ∈ ([(Instr.cflush, true), (.cinv, false)] : List ((BoOps → Instr) × Bool)), (p.1 o).wf = true →
      takesUp (mkForm (p.1 o) o.gd .access) s = true →
      ∃ t, exec (p.1 o) s = .next t ∧ movedOn (mkForm (p.1 o) o.gd .access) s t ∧ keepsRegs s t ∧ t.full = s.full ∧
        (∀ n, n ≠ s.cur.slot → t.slot n = s.slot n) ∧
        (∀ z, ¬ (z.asid = asid ∧ z.vline = vl) → (z ∈ (t.tile s.myTile).l1 ↔ z ∈ (s.tile s.myTile).l1)) ∧
        (∀ k, k ≠ s.myTile → t.tile k = s.tile k) ∧
        (findLine (s.tile s.myTile).l1 asid vl = none → t.mem = s.mem ∧ t.tiles = s.tiles ∧ t.dies = s.dies) ∧
        ∀ x, findLine (s.tile s.myTile).l1 asid vl = some x → s.latent = [] →
          findLine (t.tile s.myTile).l1 asid vl = (if p.2 then some { x with dirty := 0 } else none) ∧ wroteBack s t x)) ∧
  (∀ (o : BoOps) (s : State) (b : Word), (taken s [o.base]).1 = [b] → operandsReady s [.w o.base] [] = true → lone s = true →
    (Instr.pfh o).wf = true → takesUp (mkForm (.pfh o) o.gd .access) s = true →
    let f := mkForm (.pfh o) o.gd .access
    let va := b + o.imm
    ∃ t, exec (.pfh o) s = .next t ∧ movedOn f s t ∧ keepsRegs s t ∧ t.full = s.full ∧ (∀ n, n ≠ s.cur.slot → t.slot n = s.slot n) ∧
      (va.extractLsb' 55 9 ≠ 0 → t.mem = s.mem ∧ t.tiles = s.tiles ∧ t.dies = s.dies) ∧
      (va.extractLsb' 55 9 = 0 →
        (∀ c l u, lookupT s.myDie va.toNat (s.asidOf s.cur.slot) Access.prefetch (!s.me.super) (passed f s) = .fault c l u →
          t.mem = u.mem ∧ t.tiles = u.tiles ∧ t.dies = u.dies) ∧
        (∀ l u, lookupT s.myDie va.toNat (s.asidOf s.cur.slot) Access.prefetch (!s.me.super) (passed f s) = .ok l u →
          l.c = true → isDram l.key = true → cacheBanks (s.tile s.myTile) ≠ [] →
          ∃ x ∈ (t.tile s.myTile).l1, x.asid = l.asid ∧ x.vline = l.vline) ∧
        (∀ conf u, lookupT s.myDie va.toNat (s.asidOf s.cur.slot) Access.prefetch (!s.me.super) (passed f s) = .miss conf u →
          ∃ m ∈ (t.die s.myDie).misses, m.asid = s.asidOf s.cur.slot ∧ m.va / 65536 = va.toNat / 65536 ∧
            .pfh s.cur.slot va.toNat ∈ m.waiters)))

/-- R26, R88, R90, R130, R131, R134, R141 and R142: what a store does when it is performed at a scratchpad bank, a FIFO bank, a
physical location or a virtual one. There its bytes go to memory where the page is not cacheable; else into the first-level line, or
into the slice's where there is none or it may not be written (a slice without the line takes it from its home first), dirty, and
memory stays; a release's bytes, and the data word of STF, are at the home. STF and SETE set the full/empty bit of their word. Every
other byte reads as before. -/
def Obligations.storesPerformed : Prop :=
  ∀ (n : Nat) (x : PStore) (s : State), memoriesOk s = true →
    let t := applyStore n x s
    let v := (wordsValue (dataWords x.data) &&& byteMask x.size.bytes).toNat
    (∀ tile bank off, x.tgt = .scratch tile bank off →
      (t.tile tile).scratch.readNat (8192 * bank + off) x.size.bytes = v ∧ t.mem = s.mem ∧
      ∀ a, (a < 8192 * bank + off ∨ 8192 * bank + off + x.size.bytes ≤ a) → (t.tile tile).scratch.byte a = (s.tile tile).scratch.byte a) ∧
    (∀ tile bank va, x.tgt = .fifo tile bank va →
      (t.tile tile).fifos.get bank [] = (s.tile tile).fifos.get bank [] ++ (dataWords x.data).map (fun w => { word := w, nm := x.nm }) ∧
      t.mem = s.mem) ∧
    (∀ key, x.tgt = .phys key → x.op = .st →
      t.mem.readNat key x.size.bytes = v ∧ ∀ a, (a < key ∨ key + x.size.bytes ≤ a) → t.mem.byte a = s.mem.byte a) ∧
    (∀ l, x.tgt = .mem l → x.op = .stf → t.full = s.full.setFull l.key) ∧
    (∀ l, x.tgt = .mem l → x.op = .sete → t.full = s.full.setEmpty l.key) ∧
    (∀ (l : Loc) (tl d : Nat), x.tgt = .mem l → tl = tileOfSlot n → d = dieOfTile tl → noReaders s = true → s.latent = [] →
      l.watch = false → l.off + x.size.bytes ≤ 128 →
      (x.op = .stf → x.size = .d → homeGetWord t l = (dataWords x.data).getD 0 0) ∧
      (x.op = .st → x.isRel = true → (homeGet t l x.size.bytes).toNat = v) ∧
      (x.op = .st → x.isRel = false → l.c = false → t.mem.readNat l.key x.size.bytes = v ∧
        ∀ a, (a < l.key ∨ l.key + x.size.bytes ≤ a) → t.mem.byte a = s.mem.byte a) ∧
      (x.op = .st → x.isRel = false → l.c = true → ∀ (first : Option Line), first = findLine (s.tile tl).l1 l.asid l.vline →
        (∀ y, first = some y → y.w = true → t.mem = s.mem ∧ t.dies = s.dies ∧
          ∃ z, findLine (t.tile tl).l1 l.asid l.vline = some z ∧ storedIn l.off x.size.bytes v y.data y.dirty z) ∧
        ((first = none ∨ ∃ y, first = some y ∧ y.w = false ∧ y.dirty = 0) →
          ∀ y, findLine (s.die d).lines l.asid l.vline = some y → t.mem = s.mem ∧ findLine (t.tile tl).l1 l.asid l.vline = none ∧
            ∃ z, findLine (t.die d).lines l.asid l.vline = some z ∧ storedIn l.off x.size.bytes v y.data y.dirty z) ∧
        (first = none → (s.die d).lines = [] → t.mem = s.mem ∧
          ∃ z, findLine (t.die d).lines l.asid l.vline = some z ∧
            storedIn l.off x.size.bytes v (homeLine s l.asid l.vline l.key).1 0 z)))

/-- R105 and R143: the value that an atomic leaves, from the old value and its operands; a W-size atomic compares 32 bits. -/
def Obligations.atomicResults : Prop :=
  ∀ (old v w : Word) (nm : Bool),
    (∀ dsz, atomResult .add dsz nm old [v] = old + v ∧ atomResult .and dsz nm old [v] = old &&& v ∧
      atomResult .or dsz nm old [v] = old ||| v ∧ atomResult .xor dsz nm old [v] = old ^^^ v ∧
      atomResult .swap dsz nm old [v] = v) ∧
    (atomResult .min true nm old [v]).toInt = min old.toInt v.toInt ∧
    (atomResult .max true nm old [v]).toInt = max old.toInt v.toInt ∧
    ((atomResult .min false nm old [v]).extractLsb' 0 32).toInt = min (old.extractLsb' 0 32).toInt (v.extractLsb' 0 32).toInt ∧
    ((atomResult .max false nm old [v]).extractLsb' 0 32).toInt = max (old.extractLsb' 0 32).toInt (v.extractLsb' 0 32).toInt ∧
    atomResult .cas true nm old [v, w] = (if old = v then w else old) ∧
    atomResult .cas false nm old [v, w] = (if old.extractLsb' 0 32 = v.extractLsb' 0 32 then w else old) ∧
    atomResult .fadd false nm old [v]
      = BitVec.ofNat 64 (Fmt.f32.rne nm ((Fmt.f32.decode nm (old.toNat % 2 ^ 32)).add (Fmt.f32.decode nm (v.toNat % 2 ^ 32))))

/-- R6 and R85: memory keeps its canonical form under a write, and reads back what was written and nothing else. -/
def Obligations.memoryLaws : Prop :=
  ∀ (m : Memory) (k n v : Nat), m.wf = true →
    (m.write k n v).wf = true ∧ (m.write k n v).readNat k n = v % 256 ^ n ∧
    ∀ a, (a < k ∨ k + n ≤ a) → (m.write k n v).byte a = m.byte a

/-! ## Bindings, fences, semaphores and queues (12_consistency.md) -/

/-- R230 to R233: BIND that passes the checks of R231 writes its base with VALID, its length and its word into a free entry of
the VF's table and changes no other byte of memory; UNBIND clears the entry whose base it names. -/
def Obligations.bindingTable : Prop :=
  ∀ (s : State), lone s = true → settled s = true → bindEn s = true → s.mem.wf = true →
    (∀ (o : T3W), (Instr.bind o).wf = true → takesUp (mkForm (.bind o) o.gd .access) s = true →
      operandsReady s [.w o.s1, .w o.s2, .w o.t] [] = true → ∀ base len word e, (taken s [o.s1, o.s2, o.t]).1 = [len, word, base] → bindCheck s (s.vfOf s.cur.slot) base len word = none →
      e = bindKey s (s.vfOf s.cur.slot) (bindFree (bindings s (s.vfOf s.cur.slot)) 4096 0) 0 →
      ∃ t, exec (.bind o) s = .next t ∧ memWord t e = (base &&& 0x007FFFFFFFFFFF80#64) ||| 1 ∧ memWord t (e + 8) = len ∧ memWord t (e + 16) = word ∧
        memWord t (e + 24) = 0 ∧ (∀ a, (a < e ∨ e + 32 ≤ a) → t.mem.byte a = s.mem.byte a) ∧ t.full = s.full ∧
        movedOn (mkForm (.bind o) o.gd .access) s t) ∧
    (∀ (o : S1W), (Instr.unbind o).wf = true → takesUp (mkForm (.unbind o) o.gd .access) s = true →
      operandsReady s [.w o.s1] [] = true → ∀ base k x e, (taken s [o.s1]).1 = [base] → base.toNat % 128 = 0 →
      (bindings s (s.vfOf s.cur.slot)).find? (fun y => y.2.1 == base.toNat) = some (k, x) →
      e = bindKey s (s.vfOf s.cur.slot) k 0 →
      ∃ t, exec (.unbind o) s = .next t ∧ memWord t e = 0 ∧ memWord t (e + 8) = 0 ∧ memWord t (e + 16) = 0 ∧
        (∀ a, (a < e ∨ e + 24 ≤ a) → t.mem.byte a = s.mem.byte a) ∧ t.full = s.full ∧
        movedOn (mkForm (.unbind o) o.gd .access) s t)

/-- R32, R235, R240 and R241: ACQ drops every first-level line of the tile, of SCOPE 3 or more, that holds a byte bound to its word, and
every such line of the die's slices of SCOPE 5 or more.
REL takes its place among the slot's stores and leaves RELPEND with the word's address. In a tile task, SEMPOST raises the count of
its semaphore by one, below 65,535, and its timestamp to the slot's; SEMWAIT takes one from a count that is not zero and gives
SEMTS the semaphore's timestamp. -/
def Obligations.fencesAndSemaphores : Prop :=
  (∀ (o : BoOps) (s : State) (b : Word) (l : Loc) (u : State), lone s = true → operandsReady s [.w o.base] [] = true →
    (taken s [o.base]).1 = [b] → (b + o.imm).toNat % 8 = 0 →
    ((Instr.acq o).wf = true → let f : Form := { mkForm (.acq o) o.gd .access with acq := true }
      takesUp f s = true → settled s = true → reaches (.acq o) (b + o.imm) .d Access.load s = some (.mem l, u) →
      ∃ t, exec (.acq o) s = .next t ∧ movedOn f s t ∧ t.full = u.full ∧
        (∀ x ∈ (t.tile s.myTile).l1, ¬ (x.asid = l.asid ∧ 3 ≤ x.scope.toNat ∧
          boundLine (bindings u (s.vfOf s.cur.slot)) l.va x.vline = true)) ∧
        ∀ x ∈ (t.die s.myDie).lines, ¬ (x.asid = l.asid ∧ 5 ≤ x.scope.toNat ∧
          boundLine (bindings u (s.vfOf s.cur.slot)) l.va x.vline = true)) ∧
    ((Instr.rel o).wf = true → let f : Form := { mkForm (.rel o) o.gd .access with rel := true }
      takesUp f s = true → sqFree s = true → reaches (.rel o) (b + o.imm) .d Access.load s = some (.mem l, u) →
      ∃ t, exec (.rel o) s = .next t ∧ storeIssued f (pstore (.rel o) .relFence (.mem l) .d [] true false (some u.me.sys.relpend) .discard u) s u t ∧
        t.me.sys.relpend = BitVec.ofNat 64 (8 * (l.va / 8) + 1))) ∧
  (∀ (o : KSem) (s : State), inTileTask s = true → earlierDone s = true →
    (∀ f : Form, f = { mkForm (.sempost o) o.gd .access with rel := true } →
      takesUp f s = true → lone s = true → scratchDone s = true → (semOf (s.tile s.myTile) o.n.toNat).count < 65535 →
      ∃ t, exec (.sempost o) s = .next t ∧ movedOn f s t ∧ t.mem = s.mem ∧
        semOf (t.tile s.myTile) o.n.toNat
          = ⟨(semOf (s.tile s.myTile) o.n.toNat).count + 1, maxWord (semOf (s.tile s.myTile) o.n.toNat).ts s.me.sys.tsr⟩ ∧
        ∀ n < 32, n ≠ o.n.toNat → semOf (t.tile s.myTile) n = semOf (s.tile s.myTile) n) ∧
    (∀ f : Form, f = { mkForm (.semwait o) o.gd .access with acq := true } →
      takesUp f s = true → 0 < (semOf (s.tile s.myTile) o.n.toNat).count →
      (s.tile s.myTile).semWait.all (fun w => w.1 != o.n.toNat) = true →
      ∃ t, exec (.semwait o) s = .next t ∧ movedOn f s t ∧ t.mem = s.mem ∧
        semOf (t.tile s.myTile) o.n.toNat
          = ⟨(semOf (s.tile s.myTile) o.n.toNat).count - 1, (semOf (s.tile s.myTile) o.n.toNat).ts⟩ ∧
        t.me.sys.semts = (semOf (s.tile s.myTile) o.n.toNat).ts))

/-- R242, R244 to R246: a queue operation whose QPEND holds no reservation takes the number of TAIL or HEAD, which goes up by one, and
keeps it in QPEND; one that QPEND holds is used again. QPUT of a packet whose layout revision is the queue's takes a number, and the
ring slot of that number, empty before, is full after, with TSR in word 0, the revision, NANMODE and the number in word 1, and the
packet's words 2 to 7. QGET takes a number, and the packet of the ring slot of that number, full before and of the queue's revision and
the core's NANMODE, goes to the buffer; the slot is empty after. The buffer may lie in memory or in a scratchpad. VALID of QPEND is
clear after both. No earlier reservation of the ring slot waits before them. -/
def Obligations.memoryQueues : Prop :=
  (∀ (x : QueueAt) (op : Bool) (s : State),
    (s.me.sys.qpend.getLsbD 0 = true → reserved x op s = some (s.me.sys.qpend >>> 32, s)) ∧
    (s.me.sys.qpend.getLsbD 0 = false → s.mem.wf = true → x.next.off + 8 ≤ 128 → ∀ n, n = homeGetWord (toHome s.myTile x.next s) x.next →
      ∃ t, reserved x op s = some (n &&& 0xFFFFFFFF#64, t) ∧ homeGetWord t x.next = n + 1 ∧ t.me.sys.qpend = qpendWord op false n ∧
        t.full = s.full)) ∧
  (∀ (o : S2W) (s : State), (Instr.qput o).wf = true → let i := Instr.qput o
    let f : Form := { mkForm i o.gd .access with rel := true }
    takesUp f s = true → operandsReady s [.w o.s1, .w o.s2] [] = true → lone s = true → settled s = true →
    ∀ q b d u0 nx u1 buf u2 x pkt u3 k u4 e u, (taken s [o.s1, o.s2]).1 = [q, b] → q.toNat % 64 = 0 → q.toNat < 2 ^ 55 → b.toNat % 64 = 0 →
    (if isScratchForm b then b.extractLsb' 23 40 = 0#40 else b.toNat < 2 ^ 55) →
    reaches i q .v Access.load s = some (.mem d, u0) → counterFound i q d false u0 = some (nx, u1) →
    bufferFound i b Access.load u1 = some (buf, u2) →
    x = descAt q d nx buf (toHome s.myTile d u2) → descOk x.w0 x.w1 = true →
    buf.read s.cur.slot s.me.ar.pos 8 (toHome s.myTile d u2) = (pkt, false, u3) →
    (pkt.getD 1 0).extractLsb' 0 16 = x.w1.extractLsb' 16 16 → reserved x false u3 = some (k, u4) →
    reaches i (ringSlot x k) .v Access.atomic u4 = some (.mem e, u) →
    feFull u e.key = false → ringBehind u x false k = false → u.mem.wf = true →
    ∃ t w1, exec i s = .next t ∧ feFull t e.key = true ∧ homeGetWord t e = s.me.sys.tsr ∧ homeGetWord t (e.add 8) = w1 ∧
      w1.extractLsb' 0 16 = x.w1.extractLsb' 16 16 ∧ w1.getLsbD 16 = (s.core s.myCore).nanmode ∧ w1.extractLsb' 17 15 = 0 ∧
      w1.extractLsb' 32 32 = k.extractLsb' 0 32 ∧ (∀ j, 2 ≤ j → j < 8 → homeGetWord t (e.add (8 * j)) = pkt.getD j 0) ∧
      t.me.sys.qpend.getLsbD 0 = false ∧ movedOn f s t) ∧
  (∀ (o : S2W) (s : State), (Instr.qget o).wf = true → let i := Instr.qget o
    let f : Form := { mkForm i o.gd .access with acq := true }
    takesUp f s = true → operandsReady s [.w o.s1, .w o.s2] [] = true → lone s = true → settled s = true →
    (s.me.sys.qpend.getLsbD 0 && s.me.sys.qpend.getLsbD 2) = false →
    ∀ q b d u0 nx u1 buf u2 x k u3 e u pkt, (taken s [o.s1, o.s2]).1 = [q, b] → q.toNat % 64 = 0 → q.toNat < 2 ^ 55 → b.toNat % 64 = 0 →
    (if isScratchForm b then b.extractLsb' 23 40 = 0#40 else b.toNat < 2 ^ 55) →
    reaches i q .v Access.load s = some (.mem d, u0) → counterFound i q d true u0 = some (nx, u1) →
    bufferFound i b Access.store u1 = some (buf, u2) →
    x = descAt q d nx buf (toHome s.myTile d u2) → descOk x.w0 x.w1 = true → reserved x true (toHome s.myTile d u2) = some (k, u3) →
    reaches i (ringSlot x k) .v Access.atomic u3 = some (.mem e, u) →
    feFull u e.key = true → ringBehind u x true k = false → homePoison (toHome s.myTile e u) e 64 = false →
    pkt = valueWords (homeGet (toHome s.myTile e u) e 64) 8 → (pkt.getD 1 0).getLsbD 16 = (s.core s.myCore).nanmode →
    (pkt.getD 1 0).extractLsb' 0 16 = x.w1.extractLsb' 16 16 →
    ∃ w, exec i s = .next (andOn f (clearQpend x true) (buf.write s.cur.slot pkt w)) ∧ w.full = u.full.setEmpty e.key ∧ w.cur = s.cur ∧
      w.me.sys.qpbuf.toList = pkt ∧ w.me.ar.pos = s.me.ar.pos)

/-! ## Copy engines (06_copy_engines.md) -/

/-- R109, R110 and R123: a request that passes the checks of R109 and finds room goes to the end of its channel's FIFO under the
channel's next identifier, which D receives; COLL and COLLNB push a collective. With a full FIFO, CPYNB and COLLNB push nothing and
write -1, and CPY and COLL park. -/
def Obligations.copyRequests : Prop :=
  (∀ p ∈ ([(Instr.cpy, false), (.cpynb, false), (.coll, true), (.collnb, true)] : List ((CpOps → Instr) × Bool)),
    ∀ (o : CpOps) (s : State), (p.1 o).wf = true → let f : Form := { mkForm (p.1 o) o.gd .access with rel := true }
    takesUp f s = true → lone s = true → settled s = true →
    let w (k : Nat) : Word := s.me.readA (o.first + BitVec.ofNat 4 k)
    let ch := chanOf s s.myTile o.ch.toNat
    checkRequest (w 0) (w 1) (w 2) (w 3) s.me.sys.uivec p.2 = none → ch.fifo.length < 8 →
    ∃ x : Transfer, x.id = ch.next ∧ x.w0 = w 0 ∧ x.w1 = w 1 ∧ x.w2 = w 2 ∧ x.w3 = w 3 ∧ x.ts = s.me.sys.tsr ∧
      x.slot = s.cur.slot ∧ x.task = s.me.task ∧ x.coll = p.2 ∧ x.started = false ∧ x.held = false ∧ x.ended = none ∧
      exec (p.1 o) s = .next (wrote f o.d (ch.next.zeroExtend 64)
        (s.modTile s.myTile (Tile.modChan o.ch.toNat fun y => { y with next := y.next + 1, fifo := y.fifo ++ [x] })))) ∧
  (∀ (o : CpOps) (s : State), lone s = true → settled s = true → 8 ≤ (chanOf s s.myTile o.ch.toNat).fifo.length →
    let w (k : Nat) : Word := s.me.readA (o.first + BitVec.ofNat 4 k)
    (∀ p ∈ ([(Instr.cpynb, false), (.collnb, true)] : List ((CpOps → Instr) × Bool)), (p.1 o).wf = true →
      let f : Form := { mkForm (p.1 o) o.gd .access with rel := true }
      takesUp f s = true → checkRequest (w 0) (w 1) (w 2) (w 3) s.me.sys.uivec p.2 = none →
      exec (p.1 o) s = .next (wrote f o.d (-1) s)) ∧
    (∀ p ∈ ([(Instr.cpy, false), (.coll, true)] : List ((CpOps → Instr) × Bool)), (p.1 o).wf = true →
      takesUp { mkForm (p.1 o) o.gd .access with rel := true } s = true →
      checkRequest (w 0) (w 1) (w 2) (w 3) s.me.sys.uivec p.2 = none →
      exec (p.1 o) s = .next (s.modMe fun sl => sl.setWait .access (.copyRoom o.ch.toNat))))

/-- R30, R111, R112, R115 and R119: CWAIT goes on once its identifier has completed, by the 32-bit test of CDONE; CTEST gives the
test's result as 0 or 1, and CSTAT the channel's counts and flags. A placed request starts; one whose bytes are all written ends
with status 0 after its signal word holds its timestamp and is full; one whose source faults pauses the channel. A started copy
between SCRATCH banks moves its next bytes, up to the end of a 32-byte sector of either (a piece of the model's choice, log 99). -/
def Obligations.copyChannels : Prop :=
  ((∀ (o : CwOps) (s : State), (Instr.cwait o).wf = true → let f : Form := { mkForm (.cwait o) o.gd .access with acq := true }
    takesUp f s = true → operandsReady s [.w o.id] [] = true → ∀ id, (taken s [o.id]).1 = [id] →
    2 ^ 31 ≤ (id.toNat + 2 ^ 32 - (chanOf s s.myTile o.ch.toNat).cdone.toNat) % 2 ^ 32 →
    exec (.cwait o) s = .next (passed f s)) ∧
  (∀ (o : CtOps) (s : State), (Instr.ctest o).wf = true → takesUp (mkForm (.ctest o) o.gd .access) s = true →
    operandsReady s [.w o.id] [.w o.d] = true → ∀ id, (taken s [o.id]).1 = [id] →
    exec (.ctest o) s = .next (wrote (mkForm (.ctest o) o.gd .access) o.d
      (if 2 ^ 31 ≤ (id.toNat + 2 ^ 32 - (chanOf s s.myTile o.ch.toNat).cdone.toNat) % 2 ^ 32 then 1 else 0) s)) ∧
  (∀ (o : CsOps) (s : State), (Instr.cstat o).wf = true → takesUp (mkForm (.cstat o) o.gd .access) s = true →
    operandsReady s [] [.w o.d] = true → ∃ v : Word, exec (.cstat o) s = .next (wrote (mkForm (.cstat o) o.gd .access) o.d v s) ∧
      let ch := chanOf s s.myTile o.ch.toNat
      v.extractLsb' 0 32 = ch.cdone ∧ (ch.fifo.length ≤ 8 → ch.exec.length ≤ 8 →
        v.extractLsb' 32 4 = BitVec.ofNat 4 ch.fifo.length ∧ v.extractLsb' 36 4 = BitVec.ofNat 4 ch.exec.length ∧
        v.extractLsb' 40 4 = BitVec.ofNat 4 (ch.exec.filter fun x => x.held).length ∧ v.getLsbD 44 = ch.paused ∧
        v.extractLsb' 46 4 = ch.lasterr))) ∧
  (∀ (tile c : Nat) (s : State) (x : Transfer), c < 8 →
    let ch := chanOf s tile c
    (ch.heldPost = [] → (∀ z ∈ ch.exec, z.fault = none) → ch.paused = false → x.coll = false →
      ch.exec.find? (fun z => !z.started && !z.held && z.ended.isNone) = some x →
      ∃ t, exec (.transferStart tile c) s = .next t ∧
        findTransfer t tile c x.id = (findTransfer s tile c x.id).map (fun z => { z with started := true }) ∧
        (chanOf t tile c).fifo = ch.fifo ∧ (chanOf t tile c).cdone = ch.cdone ∧ t.mem = s.mem) ∧
    (ch.exec = [x] → x.id = ch.cdone → x.started = true → x.ended = none → x.fault = none → x.coll = false → x.ci = false →
      reqLen x.w2 ≤ x.written → reqBcw x.w2 = false → x.twin = none →
      (x.w3 = 0 → ∃ t, exec (.transferComplete tile c x.id.toNat) s = .next t ∧ (chanOf t tile c).cdone = ch.cdone + 1 ∧
        (chanOf t tile c).exec = [] ∧ t.mem = s.mem) ∧
      (x.w3 ≠ 0 → noReaders s = true → ∀ l u, copyXlat tile c x x.w3 Access.copyWrite s = .ok l u → l.c = false → u.mem.wf = true →
        ∃ t, exec (.transferComplete tile c x.id.toNat) s = .next t ∧ (chanOf t tile c).cdone = ch.cdone + 1 ∧
          (chanOf t tile c).exec = [] ∧ memWord t l.key = x.ts ∧ feFull t l.key = true)) ∧
    (findTransfer s tile c x.id = some x → x.unwritten = true → x.coll = false → x.ready = false → x.carry = [] →
      let a := x.w0 + BitVec.ofNat 64 x.written
      ∀ code va u, readPiece tile c x a (pieceAt s tile x a (chunkLen s tile x)) s = .fault code va u →
      ∃ t, exec (.transferFault tile c x.id.toNat) s = .next t ∧ (chanOf t tile c).paused = true ∧
        ∃ y, findTransfer t tile c x.id = some y ∧ y.fault.isSome = true ∧ y.written = x.written ∧ y.fcode = BitVec.ofNat 4 code) ∧
    (findTransfer s tile c x.id = some x → x.unwritten = true → x.coll = false → x.ready = false → x.carry = [] → x.twin = none →
      reqRed x.w2 = 0 → mixes s tile x = false → s.latent = [] → memoriesOk s = true →
      ∀ a b t1 b1 o1 t2 b2 o2 n, a = x.w0 + BitVec.ofNat 64 x.written → b = x.w1 + BitVec.ofNat 64 x.written →
      isScratchForm a = true → isScratchForm b = true → copyScratch s tile x a = .ok (.scratch t1 b1 o1) →
      copyScratch s tile x b = .ok (.scratch t2 b2 o2) →
      n = min (reqLen x.w2 - x.written) (min (32 - a.toNat % 32) (32 - b.toNat % 32)) →
      ∃ t y, exec (.transferFault tile c x.id.toNat) s = .next t ∧
        (t.tile t2).scratch.readNat (8192 * b2 + o2) n = (s.tile t1).scratch.readNat (8192 * b1 + o1) n ∧ t.mem = s.mem ∧
        findTransfer t tile c x.id = some y ∧ y.written = x.written + n ∧ 0 < n))

/-- R121 and R122: of the collectives of a group with one ordinal whose members of this package have all started, and none of which
has lost a member, one is matched. Its members end with status 11 if they do not agree, and else it is carried out: once each has read
its source, it is ready with what the kind has it write (the root's bytes, the reduction of the blocks in some order, or of its own
block of each, all blocks in the order of the ranks, or nothing), and writes that piece by piece to its destination; a ready member
that has written all completes once its signal word holds its timestamp and is full. The members of a collective that has lost one end with status 12. -/
def Obligations.collectiveSteps : Prop :=
  (∀ (group k : Nat) (s : State) (ms whole : List Member), ms = (started s group k).filter (fun m => !m.x.ready) →
    (∀ m ∈ startedAll s group k, m.x.ready = false → m.lost s = none) → whole = ms.filter (fun m => m.whole ms && m.echoed s) →
    whole ≠ [] → (∀ m ∈ whole, ∀ e ∈ m.table, memberHere e = true) →
    ∃ m0 ∈ whole, ∀ ps v good, ps = peers ms m0 → v = (if whole.length ≤ 1 then s else s.nextFree.2) →
      good = (ps.all memberOk && ps.all (memberAgree m0)
        && (ps.map fun m => descRank m.x.desc).eraseDups.length == ps.length && ps.length == descSize m0.x.desc) →
      (good = false → exec (.collectiveMatchComplete group k) s = .next (endMembers ps 11 v)) ∧
      (good = true → exec (.collectiveMatchComplete group k) s = .next (collData ps m0 v)) ∧
      (good = true →
        (∀ m ∈ ps, m.ch < 8 ∧ m.x.twin = none ∧ m.x.fault = none ∧ m.x.ended = none ∧ findTransfer s m.tile m.ch m.x.id = some m.x ∧
          m.x.carry.length = m.srcLen ∧ ∀ e ∈ m.table, memberHere e = true) →
        ∀ kind len size, kind = reqKind m0.x.w2 → len = reqLen m0.x.w2 → size = descSize m0.x.desc →
          (∀ r < size, ∃ m ∈ ps, descRank m.x.desc = r) →
        ∃ t, exec (.collectiveMatchComplete group k) s = .next t ∧ t.mem = s.mem ∧
          ∀ m ∈ ps, ∃ y, findTransfer t m.tile m.ch m.x.id = some y ∧ y.ready = true ∧
            (kind = 1 → y.carry = [] ∧ y.bufs = []) ∧
            (m.dstLen = 0 → kind ≠ 6 → y.carry = []) ∧
            (m.dstLen ≠ 0 → kind = 2 → y.carry = blockOf ps (descRoot m0.x.desc)) ∧
            (m.dstLen ≠ 0 → kind = 3 ∨ kind = 4 →
              reducedTo (reqRed m0.x.w2) (reqEty m0.x.w2) m0.x.nm ((List.range size).map (blockOf ps)) len y.carry) ∧
            (m.dstLen ≠ 0 → kind = 5 → y.carry = (List.range size).flatMap (blockOf ps)) ∧
            (kind = 6 → reducedTo (reqRed m0.x.w2) (reqEty m0.x.w2) m0.x.nm
              ((List.range size).map fun r => ((blockOf ps r).drop (len * descRank m.x.desc)).take len) len y.carry))) ∧
  (∀ (tile c : Nat) (s : State) (x : Transfer), c < 8 → findTransfer s tile c x.id = some x → x.coll = true → x.unwritten = true →
    x.twin = none → s.latent = [] → memoriesOk s = true → ∀ a t1 b1 o1 n, a = x.w1 + BitVec.ofNat 64 x.written →
    isScratchForm a = true → copyScratch s tile x a = .ok (.scratch t1 b1 o1) → n = min x.carry.length (32 - a.toNat % 32) →
    ∃ t y, exec (.transferFault tile c x.id.toNat) s = .next t ∧
      (t.tile t1).scratch.readNat (8192 * b1 + o1) n = bytesNat (x.carry.take n) ∧ t.mem = s.mem ∧
      findTransfer t tile c x.id = some y ∧ y.written = x.written + n ∧ y.carry = x.carry.drop n) ∧
  (∀ (tile c : Nat) (s : State) (x : Transfer), c < 8 → let ch := chanOf s tile c
    ch.exec = [x] → x.id = ch.cdone → x.started = true → x.ended = none → x.fault = none → x.coll = true → x.ready = true →
    x.carry = [] → x.ci = false → reqBcw x.w2 = false → x.twin = none → descSig x.desc ≠ 0 → noReaders s = true →
    ∀ l u, copyXlat tile c x (descSig x.desc) Access.copyWrite (carryBufs true x.bufs tile s) = .ok l u → l.c = false →
      u.mem.wf = true →
    ∃ t, exec (.transferComplete tile c x.id.toNat) s = .next t ∧ (chanOf t tile c).cdone = ch.cdone + 1 ∧
      (chanOf t tile c).exec = [] ∧ memWord t l.key = x.ts ∧ feFull t l.key = true) ∧
  (∀ (group k : Nat) (s : State), let ms := started s group k
    (ms = [] → exec (.collectiveMemberLost group k) s = .next s) ∧
    (ms ≠ [] → ∃ m ∈ ms,
      exec (.collectiveMemberLost group k) s = .next (endMembers (peers ms m) 12 (if ms.length ≤ 1 then s else s.nextFree.2))))

/-! ## Conversion (10_vector_conversion.md R199 to R207) -/

/-- R67, R199, R200, R202 to R205 and R374: a conversion whose tensors pass the checks at issue enters the tile's conversion unit with
its operands, and the execute half waits for it. The unit's oldest operation leaves it when it completes, and its half goes on. Where
nothing else writes SCRATCH meanwhile and the sources share no byte with the destination, CVT, DEALIGN, BSCALE and CVST have then
written each element of their loops, in order, with its code, ALIGN each block, and CVLD the lanes of its register. The scale byte of
BSCALE is the least that brings its block within the format, and a write of an element changes its bits alone. -/
def Obligations.conversions : Prop :=
  (∀ (s : State), lone s = true → settled s = true →
    (∀ p ∈ ([(Instr.cvt, .cvt, plainClass, plainClass, sameShape 0), (.align, .align, blockClass, plainClass, blocksAgree),
        (.dealign, .dealign, plainClass, blockClass, fun t u => blocksAgree u t),
        (.bscale, .bscale, fun r => plainClass r && r.bse, plainClass, sameShape 0)] :
          List ((T2C → Instr) × ConvKind × (TRef → Bool) × (TRef → Bool) × (TRef → TRef → Bool))), ∀ (o : T2C),
      takesUp (mkForm (p.1 o) o.gd .execute) s = true → operandsReady s [.w o.s1, .w o.t] [] = true →
      ∀ a b u ts src, taken s [o.s1, o.t] = ([a, b], u) → namedTensor u s.cur.slot b p.2.2.1 = .ok ts →
      namedTensor u s.cur.slot a p.2.2.2.1 = .ok src → p.2.2.2.2 (mainOf ts) (mainOf src) = true →
      ∃ t, exec (p.1 o) s = .next t ∧ t.me.xwai = .conversion ∧ movedOn (mkForm (p.1 o) o.gd .execute) s t ∧
        (t.tile s.myTile).conv = (s.tile s.myTile).conv
          ++ [{ newConv s p.2.1 with rnd := o.rnd, sat := o.sat, t := ts, src := src }] ∧ t.mem = s.mem) ∧
    (∀ (o : CvldR), takesUp (mkForm (.cvld o) o.gd .execute) s = true →
      operandsReady s [.w o.s1, .w o.s2] [.v o.d] = true →
      ∀ a x u ts, taken s [o.s1, o.s2] = ([a, x], u) → namedTensor u s.cur.slot a plainClass = .ok ts →
      indexOk (mainOf ts) x = true →
      ∃ t, exec (.cvld o) s = .next t ∧ t.me.xwai = .conversion ∧ movedOn (mkForm (.cvld o) o.gd .execute) s t ∧
        (t.tile s.myTile).conv = (s.tile s.myTile).conv ++ [{ newConv s .cvld with t := ts, index := x, vdest := some o.d }]) ∧
    (∀ (o : CvstR), takesUp (mkForm (.cvst o) o.gd .execute) s = true →
      operandsReady s [.w o.s1, .v o.s2, .w o.t] [] = true →
      ∀ x v a u1 u2 u3 ts, taken s [o.s1] = ([x], u1) → takenV u1 [o.s2] = ([v], u2) → taken u2 [o.t] = ([a], u3) →
      namedTensor u3 s.cur.slot a plainClass = .ok ts → indexOk (mainOf ts) x = true →
      ∃ t, exec (.cvst o) s = .next t ∧ t.me.xwai = .conversion ∧ movedOn (mkForm (.cvst o) o.gd .execute) s t ∧
        (t.tile s.myTile).conv = (s.tile s.myTile).conv ++ [{ newConv s .cvst with t := ts, index := x, vec := v }])) ∧
  (∀ (tile : Nat) (s : State) (op : ConvOp) (rest : List ConvOp), (s.tile tile).conv = op :: rest →
    s.latent = [] → (∀ d, op.vdest = some d → d ≠ .q) →
    ∃ t, exec (.conversionUnitComplete tile) s = .next t ∧ (t.tile tile).conv = rest ∧ t.mem = s.mem ∧
      (stillMine s op.slot op.task = true → (t.slot op.slot).xwai = .none) ∧
      (op.got = none → s.past = [] → ∀ (t0 src : TRef) (x : RowIx) (i0 : Nat), t0 = mainOf op.t → src = mainOf op.src →
        x = indexRow op.index → i0 = indexCol op.index → scaled op.t = true → scaled op.src = true →
        (op.kind = .cvt → sameShape 0 t0 src = true → apart (op.src ++ op.t.drop 1) [t0] → sameScratch t (wroteElems t0 (t0.elems.zipIdx.map fun e =>
          (e.1.1, e.1.2, convCode t0 op.nm op.rnd op.sat (drawOf op.rnd op.srgen e.2) (scaleAt s op.t e.1.1 e.1.2)
            (valueAt s op.nm op.src e.1.1 e.1.2))) s)) ∧
        (op.kind = .dealign → blockClass src = true → blocksAgree src t0 = true → apart (op.src ++ op.t.drop 1) [t0] → sameScratch t (wroteElems t0 (t0.elems.zipIdx.map fun e =>
          (e.1.1, e.1.2, convCode t0 op.nm op.rnd op.sat (drawOf op.rnd op.srgen e.2) (scaleAt s op.t e.1.1 e.1.2)
            (if (headAt s src e.1.1 (e.1.2 / 64)).2 then .nan
              else (Val.ofInt (mantAt s src e.1.1 (e.1.2 / 64) (e.1.2 % 64))).scale (headAt s src e.1.1 (e.1.2 / 64)).1))) s)) ∧
        (op.kind = .align → blockClass t0 = true → blocksAgree t0 src = true → apart op.src [t0] → sameScratch t (t0.elems.zipIdx.foldl (fun acc e =>
          let b := alignBlock t0.aw op.nm op.rnd (src.fmt.largest op.nm)
            ((List.range 64).map fun j =>
              if 64 * e.1.2 + j ≤ src.dim 0 then valueAt s op.nm op.src e.1.1 (64 * e.1.2 + j) else .fin false 0 0)
            ((List.range 64).map fun j => drawOf op.rnd op.srgen (64 * e.2 + j))
          putBlock t0 e.1.1 e.1.2 b.1 b.2.1 b.2.2 acc) s)) ∧
        (op.kind = .bscale → sameShape 0 t0 src = true → apart op.src op.t → sameScratch t (t0.rows.zipIdx.foldl (fun acc y =>
          (List.range (t0.dim 0 / 32 + 1)).foldl (fun acc b =>
            let is := (List.range (min 32 (t0.dim 0 + 1 - 32 * b))).map fun j => 32 * b + j
            let c := blockScale t0 op.nm (is.map (valueAt s op.nm op.src y.1))
            wroteElems t0 (is.map fun i => (y.1, i, convCode t0 op.nm op.rnd op.sat
                (drawOf op.rnd op.srgen (y.2 * (t0.dim 0 + 1) + i)) c (valueAt s op.nm op.src y.1 i)))
              (putElem (op.t.getD 1 noTensor) y.1 b c acc)) acc) s)) ∧
        (op.kind = .cvst → indexOk t0 op.index = true → apart (op.t.drop 1) [t0] → sameScratch t (wroteElems t0
          (((List.range 16).filter fun j => decide (i0 + j ≤ t0.dim 0)).map fun j =>
            (x, i0 + j, convCode t0 op.nm .rne false 0 (scaleAt s op.t x (i0 + j)) (Fmt.f32.decode op.nm (lane 32 op.vec j)))) s)) ∧
        (op.kind = .cvld → sameScratch t s ∧ ∀ d, op.vdest = some (.v d) → stillMine s op.slot op.task = true →
          ∀ j < 16, lane 32 ((t.slot op.slot).readV d) j =
            if i0 + j ≤ t0.dim 0 then Fmt.f32.rne op.nm (valueAt s op.nm op.t x (i0 + j)) % 2 ^ 32 else 0) ∧
        (op.kind = .cvt ∨ op.kind = .dealign ∨ op.kind = .bscale → stillMine s op.slot op.task = true →
          (t.slot op.slot).xr.srgen = if op.rnd = .rsr then drawsFrom op.srgen t0.elems.length else op.srgen))) ∧
  (∀ (r : TRef) (nm : Bool) (vs : List Val),
    ((∃ v ∈ vs, v.isNan = true) → blockScale r nm vs = 255) ∧
    ((∀ v ∈ vs, v.isZero = true) → blockScale r nm vs = 127) ∧
    (∀ (neg : Bool) (m n : Nat) (e f k d : Int), vs = [.fin neg m e] → m ≠ 0 → n ≠ 0 → r.fmt.largest nm = .fin false n f →
      d ≤ e - r.scale → d ≤ f + k - 1 → m * 2 ^ (e - r.scale - d).toNat ≤ n * 2 ^ (f + k - d).toNat →
      n * 2 ^ (f + k - 1 - d).toNat < m * 2 ^ (e - r.scale - d).toNat → (blockScale r nm vs : Int) = min (max (127 + k) 0) 254)) ∧
  (∀ (s : State) (r : TRef) (row : Int) (bit w x : Nat), 0 ≤ row → row + ((bit + w + 7) / 8 : Nat) ≤ 8192 * (r.banks.length : Int) →
    r.banks.Nodup → (∀ b ∈ r.banks, b < 40) → memoriesOk s = true → ∀ t, t = writeBits r row bit w x s →
    bitsAt t r row bit w = x % 2 ^ w ∧
    (∀ k, (k < bit ∨ bit + w ≤ k) → k < 8 * (8192 * r.banks.length) → bitsAt t r row k 1 = bitsAt s r row k 1))

/-- R77, R206 and R207: SEED sets the generator and belongs to the V core, VPACK rounds the lanes of a binary32 vector into codes of a narrow tensor's
format, and VUNPK gives the values of such codes. -/
def Obligations.packing : Prop :=
  ∀ (s : State), lone s = true → settled s = true → let nm := (s.core s.myCore).nanmode
    (∀ (o : S1W), takesUp (mkForm (.seed o) o.gd .execute) s = true → operandsReady s [.w o.s1] [] = true →
      ∃ x, (taken s [o.s1]).1 = [x] ∧ exec (.seed o) s = .next (andOn (mkForm (.seed o) o.gd .execute)
        (actMe fun sl => { sl with xr := { sl.xr with
          srgen := if x.extractLsb' 0 32 = 0 then 0x9E3779B9#32 else x.extractLsb' 0 32 } }) (taken s [o.s1]).2)) ∧
    (∀ (o : S1W) (r : Role), (Instr.seed o).roleBad r = (r != .v)) ∧
    (∀ (o : VpackR), takesUp (mkForm (.vpack o) o.gd .execute) s = true → operandsReady s [.v o.s1, .w o.s2] [.v o.d] = true →
      ∀ v a u1 u2 ts, takenV s [o.s1] = ([v], u1) → taken u1 [o.s2] = ([a], u2) →
      namedTensor u2 s.cur.slot a packClass = .ok ts → (mainOf ts).fmt.width ≤ 32 →
      ∃ r t, exec (.vpack o) s = .next (wroteV (mkForm (.vpack o) o.gd .execute) o.d r t) ∧
        t.me.xr.srgen = (if o.rnd = .rsr then drawsFrom s.me.xr.srgen 16 else s.me.xr.srgen) ∧
        ∀ k < 16, lane (mainOf ts).fmt.width r k = (mainOf ts).fmt.encode nm o.rnd o.sat
          (if o.rnd = .rsr then (drawsFrom s.me.xr.srgen (k + 1)).toNat else 0)
          ((Fmt.f32.decode nm (lane 32 v k)).scale (-(mainOf ts).scale)) % 2 ^ (mainOf ts).fmt.width) ∧
    (∀ (o : VunpkR), takesUp (mkForm (.vunpk o) o.gd .execute) s = true → operandsReady s [.v o.s1, .w o.s2] [.v o.d] = true →
      ∀ v a u1 u2 ts, takenV s [o.s1] = ([v], u1) → taken u1 [o.s2] = ([a], u2) →
      namedTensor u2 s.cur.slot a packClass = .ok ts →
      ∃ r, exec (.vunpk o) s = .next (wroteV (mkForm (.vunpk o) o.gd .execute) o.d r u2) ∧
        ∀ k < 16, lane 32 r k = Fmt.f32.rne nm
          (((mainOf ts).fmt.decode nm (lane (mainOf ts).fmt.width v k)).scale (mainOf ts).scale) % 2 ^ 32)

/-! ## Matrix engine and grammar unit (11_matrix_grammar.md) -/

/-- R212, R213 and R219: an engine instruction whose descriptor and tensor pass the checks at issue is added to the operations
of its tile's engine, and the execute half waits at it for its start. -/
def Obligations.engineIssue : Prop :=
  ∀ (s : State), lone s = true → settled s = true →
    (∀ p ∈ ([(Instr.mload, EngKind.mload, true, maskMload, (fun r => intClass r || r.cls == 7), (fun _ _ => true), (fun _ _ => true)),
        (.mma, .mma, true, maskMma, intClass, (fun d _ => mmaFits d), rowsAgree),
        (.mmaf, .mmaf, true, maskMma, alignedClass, (fun d _ => mmaFits d), rowsAgree),
        (.asto, .asto, false, maskAsto, plainClass, (fun d t => rowsFit d && decide (dCol d + t.dim 0 + 1 ≤ 1536)), rowsAgree),
        (.geval, .geval, true, maskGeval, plainClass, (fun d _ => rowsFit d), rowsAgree)] :
          List ((T2X → Instr) × EngKind × Bool × Word × (TRef → Bool) × (Word → TRef → Bool) × (Word → TRef → Bool))),
      ∀ (o : T2X), takesUp (mkForm (p.1 o) o.gd .execute) s = true → operandsReady s [.w o.s1, .w o.t] [] = true →
      ∀ a b desc id u ts, taken s [o.s1, o.t] = ([a, b], u) → (desc, id) = (if p.2.2.1 then (b, a) else (a, b)) →
      namedTensor u s.cur.slot id p.2.2.2.2.1 = .ok ts → desc &&& ~~~p.2.2.2.1 = 0 →
      p.2.2.2.2.2.1 desc (mainOf ts) = true → (mainOf ts).loc = tileInCluster s.myTile → (mainOf ts).rank ≤ 1 →
      p.2.2.2.2.2.2 desc (mainOf ts) = true →
      ∃ t op, exec (p.1 o) s = .next t ∧ (t.engine s.myTile).ops = (s.engine s.myTile).ops ++ [op] ∧ t.me.xwai = .engine ∧
        t.me.xr.pos = s.me.xr.pos ∧ op.kind = p.2.1 ∧ op.desc = desc ∧ op.tensor = ts ∧ op.strm = o.strm ∧ op.sem = o.sem ∧
        op.slot = s.cur.slot ∧ op.task = s.me.task ∧ op.tsr = s.me.sys.tsr ∧ op.started = false ∧
        op.rows = (s.engine s.myTile).rows ∧ op.collo = (s.engine s.myTile).collo ∧ op.colhi = (s.engine s.myTile).colhi ∧
        (t.engine s.myTile).acc = (s.engine s.myTile).acc ∧ t.mem = s.mem) ∧
    (∀ (o : S1W), takesUp (mkForm (.grule o) o.gd .execute) s = true → operandsReady s [.w o.s1] [] = true →
      ∀ a u, taken s [o.s1] = ([a], u) →
      ∃ t op, exec (.grule o) s = .next t ∧ (t.engine s.myTile).ops = (s.engine s.myTile).ops ++ [op] ∧ t.me.xwai = .engine ∧
        op.kind = .grule ∧ op.desc = a ∧ op.slot = s.cur.slot ∧ t.mem = s.mem)

/-- R220, R225, R226 and R229: with no operation outstanding, MGRP sets the grouping, ACLR clears a rectangle of accumulator
entries, AMASK sets the mask, ARD reads 16 entries of a row, GCLR makes the grammar invalid and GRD reads a rule value. -/
def Obligations.engineDirectEffects : Prop :=
  ∀ (s : State), lone s = true → settled s = true → (s.engine s.myTile).ops = [] →
    (∀ (o : S1W), takesUp (mkForm (.mgrp o) o.gd .execute) s = true → operandsReady s [.w o.s1] [] = true →
      ∀ v u, taken s [o.s1] = ([v], u) → v.toNat ∈ [1, 2, 3, 4, 6, 8, 12, 24] →
      ∃ t, exec (.mgrp o) s = .next t ∧ (t.engine s.myTile).g = v.toNat ∧ (t.engine s.myTile).cells = [] ∧
        (∀ k, (t.engine s.myTile).modes.get k .none = .none) ∧ (t.engine s.myTile).acc = (s.engine s.myTile).acc ∧
        movedOn (mkForm (.mgrp o) o.gd .execute) s t) ∧
    (∀ (o : S2W), takesUp (mkForm (.aclr o) o.gd .execute) s = true → operandsReady s [.w o.s1, .w o.s2] [] = true →
      ∀ a b u, taken s [o.s1, o.s2] = ([a, b], u) → a.toNat < 256 → b &&& ~~~0x7FF07FF#64 = 0 →
      a.toNat % 16 + a.toNat / 16 ≤ 15 → b.toNat % 2048 + b.toNat / 65536 ≤ 1535 →
      ∃ t, exec (.aclr o) s = .next t ∧ movedOn (mkForm (.aclr o) o.gd .execute) s t ∧
        ∀ row < 16, ∀ col < 1536, (t.engine s.myTile).entry row col =
          if a.toNat % 16 ≤ row ∧ row ≤ a.toNat % 16 + a.toNat / 16 ∧ b.toNat % 2048 ≤ col ∧
            col ≤ b.toNat % 2048 + b.toNat / 65536 then 0 else (s.engine s.myTile).entry row col) ∧
    (∀ (o : S2W), takesUp (mkForm (.amask o) o.gd .execute) s = true → operandsReady s [.w o.s1, .w o.s2] [] = true →
      ∀ a b u, taken s [o.s1, o.s2] = ([a, b], u) → a.toNat < 65536 → b &&& ~~~0x7FF07FF#64 = 0 →
      b.toNat % 2048 ≤ b.toNat / 65536 → b.toNat / 65536 ≤ 1535 →
      ∃ t, exec (.amask o) s = .next t ∧ movedOn (mkForm (.amask o) o.gd .execute) s t ∧
        (t.engine s.myTile).rows.toNat = a.toNat ∧ (t.engine s.myTile).collo.toNat = b.toNat % 2048 ∧
        (t.engine s.myTile).colhi.toNat = b.toNat / 65536 ∧ (t.engine s.myTile).acc = (s.engine s.myTile).acc) ∧
    (∀ (o : ArdR), takesUp (mkForm (.ard o) o.gd .execute) s = true → operandsReady s [.w o.s1] [.v o.d] = true →
      ∀ x u, taken s [o.s1] = ([x], u) → x.toNat < 2048 → x.toNat / 16 ≤ 95 →
      ∃ r, exec (.ard o) s = .next (wroteV (mkForm (.ard o) o.gd .execute) o.d r u) ∧
        ∀ j < 16, lane 32 r j = ((s.engine s.myTile).entry (x.toNat % 16) (16 * (x.toNat / 16) + j)).toNat) ∧
    (∀ (o : N0), takesUp (mkForm (.gclr o) o.gd .execute) s = true →
      ∃ t, exec (.gclr o) s = .next t ∧ (t.engine s.myTile).gvalid = false ∧ (∀ k, (t.engine s.myTile).vals.get k 0 = 0) ∧
        movedOn (mkForm (.gclr o) o.gd .execute) s t) ∧
    (∀ (o : R2W), takesUp (mkForm (.grd o) o.gd .execute) s = true → operandsReady s [.w o.s1] [.w o.d] = true →
      ∀ x u, taken s [o.s1] = ([x], u) →
      exec (.grd o) s = .next (wrote (mkForm (.grd o) o.gd .execute) o.d
        (((s.engine s.myTile).vals.get (x.toNat % 4096) 0).zeroExtend 64) u))

/-- R215, R217 to R219, R221 to R224, R227 and R228: the one operation of an engine that may start, with no fault at its start,
starts, and its slot moves past the instruction; an operation with a semaphore posts it once; and one that has started and posted
completes, leaves the engine and lets its half go on. One that ran alone has then filled the cells of its groups (MLOAD), added the
products of its rows and cells (MMA, MMAF) or the rows of the grammar (GEVAL) to the entries that the mask admits, and to no others,
written its tensor (ASTO), or loaded the table of a block that passes the checks (GRULE); a check of the directory or the symbols that
fails leaves its detail and index. -/
def Obligations.engineSteps : Prop :=
  ∀ (tile : Nat) (s : State) (k : Nat) (op : EngOp), (s.engine tile).ops[k]? = some op → stillMine s op.slot op.task = true →
    s.latent = [] →
    (startable (s.engine tile) = [k] → op.streamed = true → startFault (s.engine tile) op = none → destReady s op = true →
      ∃ t, exec (.engineOperationStart tile) s = .next t ∧
        (t.engine tile).ops[k]? = some { op with
          started := true, mark := s.past.length, accMark := (s.engine tile).accPast.length } ∧ (t.slot op.slot).xr.pc = op.next ∧
        (t.slot op.slot).xr.pos = (s.slot op.slot).xr.pos + 1 ∧ (t.slot op.slot).xwai = .engine ∧ t.mem = s.mem) ∧
    (∀ n, postable (s.engine tile) = [k] → op.sem = some n → (s.task? op.task).isSome = true →
      (semOf (s.tile tile) n.toNat).count < 65535 →
      ∃ t, exec (.engineSemPost tile) s = .next t ∧ (t.engine tile).ops[k]? = some { op with semDone := true } ∧
        semOf (t.tile tile) n.toNat
          = ⟨(semOf (s.tile tile) n.toNat).count + 1, maxWord (semOf (s.tile tile) n.toNat).ts op.tsr⟩ ∧ t.mem = s.mem) ∧
    (completable (s.engine tile) = [k] → op.kind ≠ .grule →
      ∃ t, exec (.engineOperationComplete tile) s = .next t ∧ (t.engine tile).ops = (s.engine tile).ops.eraseIdx k ∧
        (t.slot op.slot).xwai = .none ∧ t.mem = s.mem ∧
        (runsAlone s tile op = true → ∀ (e f : Engine) (a : TRef), e = s.engine tile → f = t.engine tile → a = mainOf op.tensor →
          (op.kind ≠ .asto → sameScratch t s) ∧ (op.kind = .mload ∨ op.kind = .asto → f.acc = e.acc) ∧
          (op.kind = .mload → ∀ g p n q, p < e.g → n < 64 → q < 64 → ∀ mac col, mac = e.g * g + p → col = 64 * (g - dGfirst op.desc) + n →
            if dGfirst op.desc ≤ g ∧ g ≤ dGfirst op.desc + dNgrp op.desc then
              (a.cls = 7 → f.modes.get g .none = .flt ∧
                f.exps.get (64 * mac + n) (0, false) = (if p ≤ a.dim 0 ∧ col ≤ a.dim 1 then headAt s a (rowOf col) p else (0, false)) ∧
                f.cells.get (4096 * mac + 64 * q + n) 0
                  = if p ≤ a.dim 0 ∧ col ≤ a.dim 1 then BitVec.ofInt 8 (mantAt s a (rowOf col) p q) else 0) ∧
              (a.cls ≠ 7 → f.modes.get g .none = (if a.cls = 0 then .intS else .intU) ∧
                f.cells.get (4096 * mac + 64 * q + n) 0 = if 64 * p + q ≤ a.dim 0 ∧ col ≤ a.dim 1 then
                  BitVec.ofInt 8 (intCode a (elemAt s a (rowOf col) (64 * p + q))) else 0)
            else f.modes.get g .none = e.modes.get g .none ∧
              f.cells.get (4096 * mac + 64 * q + n) 0 = e.cells.get (4096 * mac + 64 * q + n) 0) ∧
          (op.kind = .mma → mmaFits op.desc = true → ∀ row < 16, ∀ col < 1536, ∀ g n, g = dGfirst op.desc + (col - dCol op.desc) / 64 →
            n = (col - dCol op.desc) % 64 → f.entry row col =
              if inColumns op row col then e.entry row col + BitVec.ofInt 32 ((List.range (a.dim 0 + 1)).map fun k =>
                intCode a (elemAt s a (rowOf (row - dRow op.desc)) k) * e.cellInt g (e.g * g + k / 64) (k % 64) n).sum
              else e.entry row col) ∧
          (op.kind = .mmaf → mmaFits op.desc = true → ∀ row < 16, ∀ col < 1536, ∀ g n x, g = dGfirst op.desc + (col - dCol op.desc) / 64 →
            n = (col - dCol op.desc) % 64 → x = rowOf (row - dRow op.desc) → f.entry row col =
              if inColumns op row col then (List.range (a.dim 0 + 1)).foldl (fun old p =>
                let h := headAt s a x p
                let c := e.exps.get (64 * (e.g * g + p) + n) (0, false)
                BitVec.ofNat 32 (if h.2 ∨ c.2 then Fmt.f32.nanCode else Fmt.f32.rne op.nm ((Fmt.f32.decode op.nm old.toNat).add
                  ((Val.ofInt ((List.range 64).map fun k =>
                    mantAt s a x p k * (e.cells.get (4096 * (e.g * g + p) + 64 * k + n) 0).toInt).sum).scale (h.1 + c.1)))))
                (e.entry row col)
              else e.entry row col) ∧
          (op.kind = .asto → scaled op.tensor = true → apart (op.tensor.drop 1) [a] → sameScratch t (wroteElems a (a.elems.map fun c =>
            (c.1, c.2, convCode a op.nm .rne true 0 (scaleAt s op.tensor c.1 c.2)
              ((if dFlt op.desc then Fmt.f32.decode op.nm (e.entry (dRow op.desc + c.1.i1) (dCol op.desc + c.2)).toNat
                else Val.ofInt (e.entry (dRow op.desc + c.1.i1) (dCol op.desc + c.2)).toInt).scale (dEadj op.desc)))) s)) ∧
          (op.kind = .geval → rowsFit op.desc = true → dCol op.desc + e.nout ≤ 1536 →
            (∀ q < e.nrule, f.vals.get q 0 = BitVec.ofNat 32 ((rulesAt s op e (dNrow op.desc)).getD q 0)) ∧
            ∀ row < 16, ∀ col < 1536, ∀ v i, v = row - dRow op.desc → i = col - dCol op.desc → f.entry row col =
              if dRow op.desc ≤ row ∧ v ≤ dNrow op.desc ∧ dCol op.desc ≤ col ∧ i < e.nout ∧ op.rowOn row ∧ op.colOn col then
                BitVec.ofNat 32 (fadd32 op.nm (e.entry row col).toNat
                  (foldAt s op e e.nrule v (rulesAt s op e v) (ruleAt e (e.nrule + i))))
              else e.entry row col))) ∧
    (completable (s.engine tile) = [k] → op.kind = .grule → runsAlone s tile op = true → (s.slot op.slot).super = false →
      isWalker op.slot = false → ∀ (r : TRef) (base w0 w1 : Nat) (h g : Nat → Nat),
      r = { words := [], tile := tile, banks := scratchBanks s tile op.vf op.group } → base = (op.desc.extractLsb' 0 19).toNat →
      h = (fun k => scrGet s r ((base + k : Nat) : Int)) → w0 = blockWord h 0 8 → w1 = blockWord h 8 8 →
      op.desc.extractLsb' 23 41 = 0 → (op.desc.extractLsb' 19 4).toNat = tileInCluster tile → base + 16 ≤ 8192 * r.banks.length →
      w0 / 2 ^ 41 = 0 → w1 / 2 ^ 18 = 0 → ∀ nrule nout ncol nsym, nrule = w0 % 2 ^ 13 → nout = w0 / 2 ^ 13 % 2 ^ 12 →
      ncol = w0 / 2 ^ 25 % 2 ^ 16 → nsym = w1 % 2 ^ 18 → nout ∈ List.range' 1 1536 → ncol ∈ List.range' 1 32768 → nrule + nout ≤ 4096 →
      base + 16 + 4 * (nrule + nout + nsym) ≤ 8192 * r.banks.length →
      g = (fun k => ((List.range (16 + 4 * (nrule + nout + nsym))).map h).toArray.getD k 0) →
      (∀ ents, checkBlock g nrule nout ncol nsym = .ok ents → ∃ t, exec (.engineOperationComplete tile) s = .next t ∧
        (t.engine tile).gvalid = true ∧ (t.engine tile).nrule = nrule ∧ (t.engine tile).nout = nout ∧ (t.engine tile).ncol = ncol ∧
        (t.engine tile).base = base ∧ (t.engine tile).ops = [] ∧ (t.slot op.slot).xr.pc = op.next ∧ (t.slot op.slot).xwai = .none ∧
        ∀ j < nrule + nout, ∃ c, ents[j]? = some c ∧ ruleAt (t.engine tile) j = c ∧ c.start = dirEntry g j % 2 ^ 18 ∧
          c.len = dirEntry g j / 2 ^ 18 % 2 ^ 12) ∧
      (∀ d idx, checkBlock g nrule nout ncol nsym = .error (d, idx) → ∃ t, exec (.engineOperationComplete tile) s = .next t ∧
        (t.engine tile).gvalid = (s.engine tile).gvalid ∧ (t.engine tile).gfault = BitVec.ofNat 3 d ∧
        (t.engine tile).gidx = BitVec.ofNat 12 idx ∧ (t.engine tile).rules = (s.engine tile).rules ∧ (t.engine tile).ops = []))

/-! ## Tasks (13_tasks_scheduling.md) -/

/-- R253, R263, R264, R271 and R273: TSPAWN of a record that passes admission puts it at the end of its queue with the next SEQ.
TCOMMIT of a committed task moves on; of an unordered task it commits. TEND by a task's last slot, and RETD at depth 0, end the
task; TABORT discards an uncommitted body. TSADV raises the slot's timestamp, TSCMP compares two timestamps as unsigned numbers, and
RINV makes every reuse entry of its range, or of its VF, invalid on every die. -/
def Obligations.taskInstructions : Prop :=
  ((∀ (o : S1W) (s : State), (Instr.tspawn o).wf = true → takesUp (mkForm (.tspawn o) o.gd .joint) s = true → earlierDone s = true →
    lone s = true → operandsReady s [.w o.s1] [] = true → s.pkg.admbase.getLsbD 0 = true →
    ∀ a ws u, (taken s [o.s1]).1 = [a] → a.toNat % 64 = 0 → (a.toNat + 192 < 2 ^ 55 ∨ isScratchForm a = true) →
    spawnRecord (.tspawn o) a s = some (ws, u) → admitFault u (u.vfOf u.cur.slot) ws (some s.me.sys.tsr) = none →
    ∃ t, exec (.tspawn o) s = .next t ∧ movedBoth (.tspawn o) s t ∧ t.seq = u.seq + 1 ∧
      (t.queue (recQid ws)).recs = (u.queue (recQid ws)).recs ++
        [⟨(ws.take 32).set 4 u.seq, List.range (recInstances ((ws.take 32).set 4 u.seq)), [], none, 0⟩]) ∧
  (∀ (o : N0) (s : State) (t : Task), takesUp (mkForm (.tcommit o) o.gd .joint) s = true → earlierDone s = true →
    s.taskOf s.cur.slot = some t →
    (t.committed = true → ∃ u, exec (.tcommit o) s = .next u ∧ movedBoth (.tcommit o) s u ∧ u.tasks = s.tasks ∧ u.mem = s.mem) ∧
    (t.committed = false → recOrd t.words = false → t.twin = none → t.escrow = [] → s.me.stores = [] → t.slots = [s.cur.slot] →
      ∃ u v, exec (.tcommit o) s = .next u ∧ movedBoth (.tcommit o) s u ∧ u.task? s.me.task = some v ∧ v.committed = true ∧
        u.me.sys.wdcnt = recCyclim t.words)) ∧
  (∀ (i : Instr) (o : N0) (s : State) (t : Task), (i = .tend o ∨ (i = .retd o ∧ s.me.sys.cfp = 64)) →
    takesUp (mkForm i o.gd .joint) s = true → settled s = true → lone s = true → s.taskOf s.cur.slot = some t →
    t.slots = [s.cur.slot] → heldCopies s s.me.task t = false →
    exec i s = .next (endTask s.me.task s.me.sys.tsr s) ∧ (endTask s.me.task s.me.sys.tsr s).task? s.me.task = none ∧
      ((endTask s.me.task s.me.sys.tsr s).slot s.cur.slot).bound = false) ∧
  (∀ (o : N0) (s : State) (t : Task), takesUp (mkForm (.tabort o) o.gd .joint) s = true → earlierDone s = true →
    s.taskOf s.cur.slot = some t → t.committed = false → t.twin = none →
    ∃ u, exec (.tabort o) s = .next u ∧ u.task? s.me.task = none)) ∧
  ((∀ (o : S1W) (s : State), takesUp (mkForm (.tsadv o) o.gd .joint) s = true → earlierDone s = true →
    operandsReady s [.w o.s1] [] = true → lone s = true → ∀ v u, taken s [o.s1] = ([v], u) → s.me.sys.tsr.toNat ≤ v.toNat →
    ∃ t, exec (.tsadv o) s = .next t ∧ movedBoth (.tsadv o) s t ∧ t.me.sys = { s.me.sys with tsr := v } ∧ t.mem = s.mem) ∧
  (∀ (o : R3W) (s : State), takesUp (mkForm (.tscmp o) o.gd .joint) s = true → earlierDone s = true →
    operandsReady s [.w o.s1, .w o.s2] [.w o.d] = true → ∀ x y u, taken s [o.s1, o.s2] = ([x, y], u) →
    exec (.tscmp o) s = .next (wroteJoint (.tscmp o) o.d (if x = y then 0 else if x.toNat < y.toNat then -1 else 1) u)) ∧
  (∀ (o : S2W) (s : State), takesUp (mkForm (.rinv o) o.gd .joint) s = true → earlierDone s = true → isPure s = false →
    operandsReady s [.w o.s1, .w o.s2] [] = true → ∀ base len u, taken s [o.s1, o.s2] = ([base, len], u) →
    ∃ t, exec (.rinv o) s = .next t ∧ movedBoth (.rinv o) s t ∧ t.mem = s.mem ∧ ∀ d < 4, ∀ e ∈ (t.die d).reuse, e.2.valid = true →
      if len = 0 then e.2.vf ≠ s.vfOf s.cur.slot
      else ¬ ((e.2.words.getD 0 0).extractLsb' 48 16 = s.asidOf s.cur.slot ∧
        (meets (e.2.words.getD 3 0) (e.2.words.getD 4 0) base len = true ∨ meets (e.2.words.getD 5 0) (e.2.words.getD 6 0) base len = true))))

/-! ## Code named by digest (14_digest_code.md) -/

/-- R276 to R280: a call of resident code pushes a frame record, moves the window up by the callee's frame and goes on at its entry
point; TAILD replaces the current function without a new record. RETD into a caller that the frame's handle names pops the frame,
moves the window down by the current frame, restores the rotating region, and goes on at the return point. R34: the fresh entries
of a window are zero or what the stack held; every other entry is as before. -/
def Obligations.digestCalls : Prop :=
  ((∀ (i : Instr) (g : Guard) (x : DigestAt) (rp : BitVec 12) (s : State),
    ((∃ o w k, i = .calld o ∧ o.s1 = .const w k ∧ g = o.gd ∧ x = .window w k ∧ rp = o.rp) ∨
      (∃ o : CalldrOps, i = .calldr o ∧ g = o.gd ∧ x = .reg o.s1 ∧ rp = o.rp)) →
    takesUp (mkForm i g .joint) s = true → earlierDone s = true → operandsReady s (x.srcs.map .w) [] = true →
    ∀ da dig e u, digestOf i x (taken s x.srcs).1 s = some (da, dig, u) →
    vaultLookup u (clusterOfSlot s.cur.slot) (u.vfOf s.cur.slot) dig = some e →
    s.me.sys.wbase.toNat + frameSize e.frame + 32 ≤ s.me.sys.rslow.toNat + 128 → s.me.sys.cfp.toNat ≠ 4096 → u.mem.wf = true →
    ∃ t, exec i s = .next t ∧
      entered e da (s.me.sys.wbase + BitVec.ofNat 32 (frameSize e.frame)) (s.me.sys.cfp + 32) e.entry (frameSize e.frame) s t ∧
      t.me.sys.rots = e.rot ∧ t.me.xr.rb = 0 ∧
      ∀ k < 4, frameWord t s.cur.slot s.me.sys.cfp.toNat k = (frameRecord u s.cur.slot rp e).getD k 0) ∧
  (∀ (o : S1W) (s : State), takesUp (mkForm (.taild o) o.gd .joint) s = true → earlierDone s = true →
    operandsReady s ((DigestAt.of o.s1).srcs.map .w) [] = true →
    ∀ da dig e u, digestOf (.taild o) (DigestAt.of o.s1) (taken s (DigestAt.of o.s1).srcs).1 s = some (da, dig, u) →
    vaultLookup u (clusterOfSlot s.cur.slot) (u.vfOf s.cur.slot) dig = some e → ∀ f, f = currentFrame u s.cur.slot →
    (s.me.sys.wbase.toNat : Int) - f + frameSize e.frame + 32 ≤ s.me.sys.rslow.toNat + 128 →
    (s.me.sys.rslow.toNat : Int) ≤ s.me.sys.wbase.toNat - f + frameSize e.frame →
    ∃ t, exec (.taild o) s = .next t ∧
      entered e da (s.me.sys.wbase - BitVec.ofNat 32 f + BitVec.ofNat 32 (frameSize e.frame)) s.me.sys.cfp e.entry
        (frameSize e.frame - f) s t ∧
      t.me.sys.rots = e.rot ∧ t.me.xr.rb = 0)) ∧
  (∀ (o : N0) (s : State) (e : VaultEntry) (at0 : Nat), takesUp (mkForm (.retd o) o.gd .joint) s = true → earlierDone s = true →
    s.me.sys.cfp.toNat ≠ 64 → ∀ off w0, off = s.me.sys.cfp.toNat - 32 → w0 = frameWord s s.cur.slot off 0 →
    (s.vault (clusterOfSlot s.cur.slot)).entries.find? (fun x =>
      x.named (s.vfOf s.cur.slot) (w0.extractLsb' 20 6).toNat (w0.extractLsb' 32 32)) = some e →
    s.me.sys.rslow.toNat + currentFrame s s.cur.slot ≤ s.me.sys.wbase.toNat →
    e.rpmap[(w0.extractLsb' 0 12).toNat]? = some at0 →
    ∃ t, exec (.retd o) s = .next t ∧
      entered e (frameWord s s.cur.slot off 2) (s.me.sys.wbase - BitVec.ofNat 32 (currentFrame s s.cur.slot))
        (BitVec.ofNat 64 off) at0 0 s t ∧
      t.me.sys.rots = w0.extractLsb' 14 2 ∧ t.me.xr.rb = w0.extractLsb' 16 4 ∧ t.mem = s.mem)

/-- R281 to R283: CFETCH starts the fetch of a readable digest whose code is not resident, VEVICT drops unpinned resident
code, and VPROBE reports residence, vault slot, pin, fetch and serial. -/
def Obligations.vaultInstructions : Prop :=
  (∀ (o : S1W) (s : State), takesUp (mkForm (.cfetch o) o.gd .joint) s = true → earlierDone s = true →
    operandsReady s [.w o.s1] [] = true → ∀ a u, taken s [o.s1] = ([a], u) →
    ∃ t, exec (.cfetch o) s = .next t ∧ movedBoth (.cfetch o) s t ∧
      ∀ dig v, o.s1.isConst = false → quietDigest s.cur.slot a u = (some dig, v) →
        vaultLookup v (clusterOfSlot s.cur.slot) (v.vfOf s.cur.slot) dig = none →
        ∃ f ∈ (t.vault (clusterOfSlot s.cur.slot)).fetches, f.vf = v.vfOf s.cur.slot ∧ f.digest = dig) ∧
  (∀ (o : S1W) (s : State), takesUp (mkForm (.vevict o) o.gd .joint) s = true → earlierDone s = true →
    operandsReady s ((DigestAt.of o.s1).srcs.map .w) [] = true →
    ∀ da dig e u, digestOf (.vevict o) (DigestAt.of o.s1) (taken s (DigestAt.of o.s1).srcs).1 s = some (da, dig, u) →
    vaultLookup u (clusterOfSlot s.cur.slot) (u.vfOf s.cur.slot) dig = some e → pinned u (clusterOfSlot s.cur.slot) e = false →
    ∃ t, exec (.vevict o) s = .next t ∧ movedBoth (.vevict o) s t ∧ e ∉ (t.vault (clusterOfSlot s.cur.slot)).entries) ∧
  (∀ (o : R2W) (s : State), takesUp (mkForm (.vprobe o) o.gd .joint) s = true → earlierDone s = true →
    operandsReady s [.w o.s1] [.w o.d] = true → ∀ a dig u v, taken s [o.s1] = ([a], v) → a.toNat % 8 = 0 →
    digestOf (.vprobe o) (.reg o.s1) [a] s = some (a, dig, u) →
    ∃ w t, exec (.vprobe o) s = .next t ∧ t = wroteJoint (.vprobe o) o.d w (M.state (do let _ ← [o.s1].mapM (takeW [])) u) ∧
      w.getLsbD 8 = ((u.vault (clusterOfSlot s.cur.slot)).fetches.any fun f => f.vf == u.vfOf s.cur.slot && f.digest == dig) ∧
      (vaultLookup u (clusterOfSlot s.cur.slot) (u.vfOf s.cur.slot) dig = none → w.getLsbD 0 = false) ∧
      ∀ e, vaultLookup u (clusterOfSlot s.cur.slot) (u.vfOf s.cur.slot) dig = some e →
        w.getLsbD 0 = true ∧ w.extractLsb' 1 6 = BitVec.ofNat 6 e.slot ∧
        w.getLsbD 7 = pinned u (clusterOfSlot s.cur.slot) e ∧ w.extractLsb' 32 32 = e.serial)

/-! ## Control, traps and system registers (03_encoding.md, 09_scalar_instructions.md, 15_traps_preemption.md) -/

/-- R58, R56 and R186: NOP of each length only moves its half on; a reserved code takes the illegal-instruction trap with
detail 2; IPF moves on and changes no register and no byte, and asks for a line of its function that is not at hand. -/
def Obligations.nopReservedPrefetch : Prop :=
  (∀ (o : NopOps) (s : State), exec (.nop o) s = .next (s.modMe fun sl =>
      sl.advance s.cur.half (nextPc (sl.pcOf s.cur.half) (if o.len = .l96 then 12 else if o.len = .l128 then 16 else 8)))) ∧
  (∀ (w : BitVec 64) (s : State), mayTrap s = true →
    ∃ t, exec (.reservedOpcode w) s = .next t ∧ trapTaken 1 2 w (s.me.pcOf s.cur.half) 0 s t) ∧
  (∀ (o : B0) (s : State), takesUp (mkForm (.ipf o) o.gd .access) s = true →
    ∃ t, exec (.ipf o) s = .next t ∧ movedOn (mkForm (.ipf o) o.gd .access) s t ∧ t.mem = s.mem ∧ t.full = s.full ∧
      t.tiles = s.tiles ∧ t.me.xr = s.me.xr ∧ t.me.sys = s.me.sys ∧ t.me.ar.lo = s.me.ar.lo ∧ t.me.ar.user = s.me.ar.user ∧
      (∀ n, n ≠ s.cur.slot → t.slot n = s.slot n) ∧
      ∀ e l u tgt, tgt = s.me.ar.pc + o.imm * 4 → codeAt s s.cur.slot s.me.ar.pc = some e → e.code ≤ tgt.toNat →
        tgt.toNat < e.code + e.codelen → (s.core s.myCore).icache.any (fun x => x.asid == s.asidOf s.cur.slot && x.vline == tgt.toNat / 128) = false →
        lookupT s.myDie tgt.toNat (s.asidOf s.cur.slot) Access.prefetchX (!s.me.super) s = .ok l u → isDram l.key = true →
        ∃ x ∈ (t.core s.myCore).ifills, x.asid = s.asidOf s.cur.slot ∧ x.vline = tgt.toNat / 128)

/-- R296, R299, R300, R301, R312 and R317: TRAP and BKPT enter the handler with the address after them; a supervisor instruction or
register in a user slot traps with kind 23, a channel register of another role with kind 4, UIRET outside a completion handler
with kind 1 and detail 4, and a load or store at an address that is not aligned with kind 5; each enters the handler with the
address of the instruction itself. That an alignment trap leaves the address in TVA is the model's reading (log 105). A trap inside a
supervisor handler ends the task, and is recorded with kind 4. -/
def Obligations.trapsTaken : Prop :=
  (∀ (s : State), mayTrap s = true →
    (∀ (o : KTrap), takesUp (mkForm (.trap o) o.gd .joint) s = true →
      ∃ t, exec (.trap o) s = .next t ∧ trapTaken 24 o.n.toNat (Instr.trap o).word (nextPc s.me.ar.pc (Instr.trap o).bytes) 0 s t) ∧
    (∀ (o : N0), takesUp (mkForm (.bkpt o) o.gd .joint) s = true →
      ∃ t, exec (.bkpt o) s = .next t ∧ trapTaken 25 0 (Instr.bkpt o).word (nextPc s.me.ar.pc (Instr.bkpt o).bytes) 0 s t) ∧
    (∀ p ∈ ([Instr.tret, .snap] : List (N0 → Instr)), ∀ (o : N0), takesUp (mkForm (p o) o.gd .joint) s = true →
      ∃ t, exec (p o) s = .next t ∧ trapTaken 23 0 (p o).word (s.me.pcOf s.cur.half) 0 s t) ∧
    (∀ p ∈ ([Instr.csave, .crest] : List (S1W → Instr)), ∀ (o : S1W), takesUp (mkForm (p o) o.gd .joint) s = true →
      roomAndWords s [.w o.s1] [] = true →
      ∃ t, exec (p o) s = .next t ∧ trapTaken 23 0 (p o).word (s.me.pcOf s.cur.half) 0 s t) ∧
    (∀ (o : MfsrOps), takesUp (mkForm (.mfsr o) o.gd .joint) s = true → roomAndWords s [] [.w o.d] = true →
      (outOfClass s o.reg false = true →
        ∃ t, exec (.mfsr o) s = .next t ∧ trapTaken 23 o.reg.num.toNat (Instr.mfsr o).word (s.me.pcOf s.cur.half) 0 s t) ∧
      (∀ c, o.reg = .cdone c → chanRole c.toNat ≠ s.myRole →
        ∃ t, exec (.mfsr o) s = .next t ∧ trapTaken 4 0xE9 (Instr.mfsr o).word (s.me.pcOf s.cur.half) 0 s t)) ∧
    (∀ (o : MtsrOps), takesUp (mkForm (.mtsr o) o.gd .joint) s = true → roomAndWords s [.w o.s1] [] = true →
      outOfClass s o.reg true = true →
      ∃ t, exec (.mtsr o) s = .next t ∧ trapTaken 23 o.reg.num.toNat (Instr.mtsr o).word (s.me.pcOf s.cur.half) 0 s t) ∧
    (∀ (o : N0), takesUp (mkForm (.uiret o) o.gd .joint) s = true → s.me.inUi = false →
      ∃ t, exec (.uiret o) s = .next t ∧ trapTaken 1 4 (Instr.uiret o).word (s.me.pcOf s.cur.half) 0 s t) ∧
    (∀ (o : LdOps), takesUp { mkForm (.ld o) o.gd .access with acq := o.acq } s = true → operandsReady s [.w o.base] [] = true →
      ∀ b, taken s [o.base] = ([b], s) → (b + o.imm).toNat % o.sz.bytes ≠ 0 →
      s.me.lq.length + lqTakes (loadDest o.d) o.sz ≤ 32 →
      ∃ t, exec (.ld o) s = .next t ∧ trapTaken 5 o.sz.code.toNat (Instr.ld o).word s.me.ar.pc (b + o.imm) s t) ∧
    (∀ (o : StOps), takesUp { mkForm (.st o) o.gd .access with rel := o.rel } s = true →
      operandsReady s ((o.base :: dataReg o.data).map .w) [] = true →
      ∀ b v, taken s [o.base] = ([b], s) → (o.data = .q ∨ taken s [o.data] = ([v], s)) → (b + o.imm).toNat % o.sz.bytes ≠ 0 →
      ∃ t, exec (.st o) s = .next t ∧ trapTaken 5 o.sz.code.toNat (Instr.st o).word s.me.ar.pc (b + o.imm) s t)) ∧
  (∀ (n kind detail : Nat) (insn tpc tva : Word) (s t : State), (s.slot n).super = true → isWalker n = false →
    t = enterHandler n kind detail insn tpc tva s →
    t.task? (s.slot n).task = none ∧ ∃ e, t.blackbox.head? = some e ∧ e.w1.extractLsb' 0 8 = 4)

/-- R152, R154, R155, R156, R210, R211, R309, R311 and R301: MFSR gives the value of each readable register (the engine's as 0 where
the slot's task does not own it); MTSR of a register of the slot's
class writes it, with its reserved bits zero, and leaves a read-only register as it was. -/
def Obligations.systemRegisters : Prop :=
  (∀ (o : MfsrOps) (s : State), takesUp (mkForm (.mfsr o) o.gd .joint) s = true → earlierDone s = true →
    operandsReady s [] [.w o.d] = true → outOfClass s o.reg false = false →
    (∀ c, o.reg = .cdone c → chanRole c.toNat = s.myRole) →
    (o.reg = .wmb0 → (s.core s.myCore).mailbox ≠ []) →
    ∃ v u, exec (.mfsr o) s = .next (wroteJoint (.mfsr o) o.d v u) ∧ u.mem = s.mem ∧ u.me.xr = s.me.xr ∧ u.me.ar = s.me.ar ∧
      (∀ p ∈ ([(.nanmode, if (s.core s.myCore).nanmode then 1 else 0), (.tsr, s.me.sys.tsr), (.uivec, s.me.sys.uivec),
          (.srgen, s.me.xr.srgen.zeroExtend 64), (.semts, s.me.sys.semts), (.wbase, s.me.sys.wbase.zeroExtend 64),
          (.rslow, s.me.sys.rslow.zeroExtend 64), (.rsidx, s.me.sys.rsidx.zeroExtend 64), (.cfp, s.me.sys.cfp),
          (.cfda, s.me.sys.cfda), (.cfh, s.me.sys.cfh), (.qpend, s.me.sys.qpend), (.relpend, s.me.sys.relpend),
          (.tvec, (s.core s.myCore).tvec), (.tcause, s.me.trap.tcause), (.tinsn, s.me.trap.tinsn), (.tpc, s.me.trap.tpc),
          (.tva, s.me.trap.tva), (.tstat, if s.me.trap.tstat then 1 else 0),
          (.rsdata, s.me.xr.stack.toArray.getD s.me.sys.rsidx.toNat 0)] : List (SysReg × Word)),
        o.reg = p.1 → v = p.2 ∧ u = s) ∧
      (∀ k, o.reg = .cwin k → v = s.me.sys.cwin.toArray.getD k.toNat 0 ∧ u = s) ∧
      (∀ k, o.reg = .qpbuf k → v = s.me.sys.qpbuf.toArray.getD k.toNat 0 ∧ u = s) ∧
      (∀ k, o.reg = .mpdst k → v = s.me.sys.mpdst.toArray.getD k.toNat 0 ∧ u = s) ∧
      (∀ c, o.reg = .cdone c → v = (chanOf s s.myTile c.toNat).cdone.zeroExtend 64 ∧ u = s) ∧
      (o.reg = .wdcnt → v = (u.me.sys.wdcnt).zeroExtend 64 ∧ u.me.sys.wdcnt.toNat ≤ s.me.sys.wdcnt.toNat) ∧
      (o.reg = .wmb0 → ∃ m rest, (s.core s.myCore).mailbox = m :: rest ∧ v = m.1) ∧
      (o.reg = .wmb1 → ∀ m rest, (s.core s.myCore).mailbox = m :: rest → v = m.2) ∧
      (o.reg = .win0 → v = (s.core s.myCore).win0 ∧ u = s) ∧ (o.reg = .win1 → v = (s.core s.myCore).win1 ∧ u = s) ∧
      (o.reg = .vlim → v = (s.vault (clusterOfSlot s.cur.slot)).vlim.zeroExtend 64 ∧ u = s) ∧
      (o.reg = .slotstat → u = s ∧ v.extractLsb' 0 4 = BitVec.ofNat 4 s.me.awai.cause ∧ v.extractLsb' 4 4 = BitVec.ofNat 4 s.me.xwai.cause ∧
        v.getLsbD 8 = (s.me.bound || isWalker s.cur.slot) ∧
        v.getLsbD 9 = (s.me.super || (isWalker s.cur.slot && decide (6 ≤ s.stage))) ∧ v.extractLsb' 10 54 = 0) ∧
      (o.reg ∈ ([.mxstat, .mxgmode, .amskrow, .amskcol] : List SysReg) → u = s ∧ (ownsEngine s s.cur.slot = false → v = 0)) ∧
      (ownsEngine s s.cur.slot = true → ∀ e, e = s.engine s.myTile →
        (o.reg = .mxstat → v.extractLsb' 0 5 = BitVec.ofNat 5 e.g ∧ v.extractLsb' 5 3 = 0 ∧
          (∀ k < 8, v.getLsbD (8 + k) = e.ops.any fun x => x.streamed && x.strm.toNat == k) ∧ v.getLsbD 16 = e.gvalid ∧
          v.extractLsb' 17 3 = e.gfault ∧ v.extractLsb' 20 12 = e.gidx ∧ v.extractLsb' 32 13 = BitVec.ofNat 13 e.nrule ∧
          v.extractLsb' 45 19 = 0) ∧
        (o.reg = .mxgmode → (∀ g < 24, v.extractLsb' (2 * g) 2 = match e.modes.get g .none with
          | .none => 0#2 | .intS => 1#2 | .intU => 2#2 | .flt => 3#2) ∧ v.extractLsb' 48 16 = 0) ∧
        (o.reg = .amskrow → v = e.rows.zeroExtend 64) ∧
        (o.reg = .amskcol → v.extractLsb' 0 11 = e.collo ∧ v.extractLsb' 11 5 = 0 ∧ v.extractLsb' 16 11 = e.colhi ∧ v.extractLsb' 27 37 = 0))) ∧
  (∀ (o : MtsrOps) (s : State), takesUp (mkForm (.mtsr o) o.gd .joint) s = true → earlierDone s = true →
    operandsReady s [.w o.s1] [] = true → outOfClass s o.reg true = false →
    (o.reg = .nanmode → otherBound s s.cur.slot = false) → ∀ v u, taken s [o.s1] = ([v], u) →
    ∃ t, exec (.mtsr o) s = .next t ∧ movedBoth (.mtsr o) s t ∧ t.mem = s.mem ∧
      (o.reg = .nanmode → (t.core s.myCore).nanmode = v.getLsbD 0 ∧ t.me.sys = u.me.sys) ∧
      (o.reg = .tsr → t.me.sys = { u.me.sys with tsr := v }) ∧
      (o.reg = .uivec → t.me.sys = { u.me.sys with uivec := v }) ∧
      (o.reg = .srgen → t.me.xr.srgen = srWrite (v.truncate 32) ∧ t.me.sys = u.me.sys) ∧
      (∀ k, o.reg = .cwin k → t.me.sys = { u.me.sys with cwin := u.me.sys.cwin.set! k.toNat (v &&& 0x7FFFFFFFFFFFF8#64) }) ∧
      (o.reg = .rsidx → t.me.sys = { u.me.sys with rsidx := v.extractLsb' 0 7 }) ∧
      (o.reg = .rsdata → t.me.sys = u.me.sys ∧ t.me.xr.stack = u.me.xr.stack.set! u.me.sys.rsidx.toNat v) ∧
      (o.reg = .rslow → ∀ r, r = v.extractLsb' 0 32 →
        (r.toNat ≤ u.me.sys.wbase.toNat ∧ u.me.sys.wbase.toNat + 32 ≤ r.toNat + 128 → t.me.sys = { u.me.sys with rslow := r }) ∧
        (¬ (r.toNat ≤ u.me.sys.wbase.toNat ∧ u.me.sys.wbase.toNat + 32 ≤ r.toNat + 128) →
          t.me.sys = u.me.sys ∧ t.me.xr.stack = u.me.xr.stack)) ∧
      (∀ k, o.reg = .mpdst k → ∀ w, w = t.me.sys.mpdst.toArray.getD k.toNat 0 →
        w.extractLsb' 0 18 = v.extractLsb' 0 18 ∧ w.extractLsb' 18 44 = 0 ∧
        (w.getLsbD 63 = true → v.getLsbD 63 = true ∧ (v.extractLsb' 8 8).toNat ≤ 191 ∧ v.extractLsb' 4 2 ≠ 3#2 ∧ v.extractLsb' 0 4 ≠ 15#4)) ∧
      (o.reg = .tvec → (t.core s.myCore).tvec = v &&& 0x7FFFFFFFFFFFFC#64) ∧
      (o.reg = .win0 → (t.core s.myCore).win0 = v) ∧ (o.reg = .win1 → (t.core s.myCore).win1 = v) ∧
      (o.reg = .vlim → (t.vault (clusterOfSlot s.cur.slot)).vlim =
        if v.extractLsb' 0 7 = 0 ∨ 64 < (v.extractLsb' 0 7).toNat then (s.vault (clusterOfSlot s.cur.slot)).vlim else v.extractLsb' 0 7) ∧
      (o.reg ∈ ([.semts, .slotstat, .wdcnt, .wbase, .cfp, .cfda, .cfh, .qpend, .relpend, .mxstat, .mxgmode, .amskrow, .amskcol,
          .tcause, .tinsn, .tpc, .tva, .tstat] : List SysReg) → t.me.sys = u.me.sys ∧ t.me.trap = u.me.trap ∧ t.cores = u.cores))

/-- R31, R313, R316 and R317: UIRET resumes both halves where the completion handler interrupted them; TRET leaves the
supervisor handler for the saved addresses and the bank that TSTAT names; WAITE goes on when an event of R316 is due; SNAP
fires the trigger. -/
def Obligations.systemReturns : Prop :=
  ∀ (o : N0) (s : State), earlierDone s = true →
    (takesUp (mkForm (.uiret o) o.gd .joint) s = true → s.me.super = false → s.me.inUi = true →
      ∃ t, exec (.uiret o) s = .next t ∧ t.me.inUi = false ∧ t.me.ar.pc = s.me.uipca ∧ t.me.xr.pc = s.me.uipcx ∧
        t.me.ar.pos = t.me.xr.pos ∧ t.me.ar.user = s.me.ar.user ∧ t.me.ar.shadow = s.me.ar.shadow ∧ t.me.xr.g = s.me.xr.g ∧
        t.me.xr.stack = s.me.xr.stack ∧ t.me.sys = s.me.sys ∧ t.me.trap = s.me.trap ∧ t.mem = s.mem) ∧
    (takesUp (mkForm (.tret o) o.gd .joint) s = true → s.me.super = true →
      ∃ t, exec (.tret o) s = .next t ∧ t.me.super = false ∧ t.me.inUi = s.me.trap.tstat ∧ t.me.ar.pc = s.me.ctxa ∧
        t.me.xr.pc = s.me.ctxx ∧ t.me.ar.pos = t.me.xr.pos ∧ t.me.ar.user = s.me.ar.user ∧ t.me.ar.sup = s.me.ar.sup ∧
        t.me.xr.g = s.me.xr.g ∧ t.me.xr.stack = s.me.xr.stack ∧ t.me.sys = s.me.sys ∧ t.me.trap = s.me.trap ∧ t.mem = s.mem) ∧
    (takesUp (mkForm (.waite o) o.gd .joint) s = true →
      ((!s.me.done.isEmpty || s.me.ports.toList.any (fun q => !q.isEmpty)
        || (s.core s.myCore).preq.getLsbD (laneOfSlot s.cur.slot)) = true →
        exec (.waite o) s = .next (M.state (retireBoth (.waite o)) s)) ∧
      ((!s.me.done.isEmpty || s.me.ports.toList.any (fun q => !q.isEmpty)
        || (s.core s.myCore).preq.getLsbD (laneOfSlot s.cur.slot)) = false →
        exec (.waite o) s = .next (s.modMe fun sl => sl.setWait s.cur.half .waite))) ∧
    (takesUp (mkForm (.snap o) o.gd .joint) s = true → privileged s = true →
      ∃ t, exec (.snap o) s = .next t ∧ movedBoth (.snap o) s t ∧ t.pkg.snapDone = true ∧ t.mem = s.mem ∧ t.me.sys = s.me.sys)

/-- R308, R314 and R315: CSAVE writes the user context to the image at its address, CREST reads one back, and CREST of what CSAVE has
written gives the same context; TTLD loads an entry of the task's tensor table with its reserved bits zero, and TTST stores one. That
an image's word keeps the bits of its register's fields and no others, where CREST reads it, is the model's choice (log 78), and so is
`RSLOW` of an image that breaks the invariant of R154 (log 93). -/
def Obligations.imagesAndTensors : Prop :=
  (∀ (o : S1W) (s u : State) (a : Word) (key len frame : Nat), mayCsave o s u a key → len = frameLen s.me.sys.cfp →
    frame = frameKey s s.cur.slot 0 →
    ∃ t, exec (.csave o) s = .next t ∧ (a.getLsbD 0 = false → movedBoth (.csave o) s t) ∧
      (a.getLsbD 0 = true → t.me.bound = false ∧
        ∀ tk, s.task? s.me.task = some tk → ∃ x, t.task? s.me.task = some x ∧ x.saved = true ∧ x.words = tk.words) ∧
      (∀ p ∈ ([(2, u.me.ctxa), (3, u.me.ctxx), (6, u.me.sys.tsr), (7, u.me.xr.srgen.zeroExtend 64), (9, u.me.sys.uivec), (10, u.me.sys.semts),
          (24, u.me.sys.qpend), (33, u.me.sys.cfp), (34, u.me.sys.cfda), (35, u.me.sys.cfh), (393, u.me.sys.relpend)] : List (Nat × Word)),
        memWord t (key + 8 * p.1) = p.2) ∧
      (memWord t key).extractLsb' 0 32 = 0x58544358#32 ∧ (memWord t (key + 64)).toNat ≤ u.me.sys.wdcnt.toNat ∧
      (u.me.trap.tstat = true → memWord t (key + 32) = u.me.uipca ∧ memWord t (key + 40) = u.me.uipcx) ∧
      (memWord t (key + 88)).extractLsb' 0 32 = u.me.sys.wbase ∧ (memWord t (key + 88)).extractLsb' 32 32 = u.me.sys.rslow ∧
      (∀ k < 8, memWord t (key + 8 * (12 + k)) = u.me.sys.cwin.toArray.getD k 0) ∧
      (∀ k < 4, memWord t (key + 8 * (20 + k)) = u.me.sys.mpdst.toArray.getD k 0) ∧
      (∀ k < 8, memWord t (key + 8 * (25 + k)) = u.me.sys.qpbuf.toArray.getD k 0) ∧
      (∀ k < 7, memWord t (key + 8 * (36 + k)) = u.me.ar.lo.toArray.getD (k + 1) 0) ∧
      (∀ k < 8, memWord t (key + 8 * (43 + k)) = u.me.ar.user.toArray.getD k 0) ∧
      (∀ k < 8, memWord t (key + 8 * (51 + k)) = u.me.ar.shadow.toArray.getD k 0) ∧
      (∀ k < 7, memWord t (key + 8 * (59 + k)) = u.me.xr.g.toArray.getD (k + 1) 0) ∧
      (∀ k < 7, memWord t (key + 8 * (66 + k)) = u.me.xr.m.toArray.getD (k + 1) 0) ∧
      (∀ k < 16, ∀ j < 8, memWord t (key + 8 * (73 + 8 * k + j)) = (u.me.xr.v.toArray.getD k 0).extractLsb' (64 * j) 64) ∧
      (∀ k < 128, memWord t (key + 8 * (201 + k)) = u.me.xr.stack.toArray.getD k 0) ∧
      (∀ k < 32, memWord t (key + 8 * (329 + k)) = ((u.me.lq[k]?).bind (·.word)).getD 0) ∧
      (∀ k e, k < 16 → u.me.sq[k]? = some e → memWord t (key + 8 * (361 + k)) = e.word) ∧
      (∀ k e w, k < 8 → (u.me.bqa[k]? = some e ∧ w = memWord t (key + 8 * (377 + k)) ∨
          u.me.bqx[k]? = some e ∧ w = memWord t (key + 8 * (385 + k))) →
        w.getLsbD 0 = e.value ∧ (w.extractLsb' 1 2).toNat = (match e.type with | .outcome => 0 | .guard => 1 | .release => 2 | .acquire => 3) ∧
        w.extractLsb' 3 29 = 0 ∧ w.extractLsb' 32 32 = e.offset.extractLsb' 0 32) ∧
      (queuesFit u.me → ∀ w, w = memWord t (key + 8) → (w.extractLsb' 0 6).toNat = u.me.lq.length ∧
        (w.extractLsb' 6 5).toNat = u.me.sq.length ∧ (w.extractLsb' 11 4).toNat = u.me.bqa.length ∧
        (w.extractLsb' 15 4).toNat = u.me.bqx.length ∧ w.extractLsb' 19 2 = u.me.sys.rots ∧ w.extractLsb' 21 4 = u.me.xr.rb ∧
        w.extractLsb' 25 7 = u.me.xr.p.extractLsb' 1 7 ∧ w.extractLsb' 32 7 = u.me.sys.rsidx ∧ w.extractLsb' 39 25 = 0) ∧
      ((frame + len ≤ key ∨ key + 3152 + len ≤ frame) → ∀ k < len, t.mem.byte (key + 3152 + k) = s.mem.byte (frame + k)) ∧
      ∀ x, (x < key ∨ key + 3152 + len ≤ x) → t.mem.byte x = s.mem.byte x) ∧
  (∀ (o : S1W) (s u : State) (a : Word) (key len frame : Nat) (w w1 : Word), mayCrest o s u a key → w = memWord s key →
    w1 = memWord s (key + 8) → len = frameLen (memWord s (key + 264)) → frame = frameKey s s.cur.slot 0 →
    w.extractLsb' 0 32 = 0x58544358#32 → (w.extractLsb' 32 10).toNat = s.vfOf s.cur.slot % 1024 →
    (w.extractLsb' 42 2).toNat = coreOfSlot s.cur.slot % 3 → w.extractLsb' 46 16 = s.groupOf s.cur.slot →
    (w.getLsbD 44 = (s.core s.myCore).nanmode ∨ otherBound s s.cur.slot = false) →
    ∃ t, exec (.crest o) s = .next t ∧ movedBoth (.crest o) s t ∧ (t.core s.myCore).nanmode = w.getLsbD 44 ∧
      t.me.ctxa = memWord s (key + 16) ∧ t.me.ctxx = memWord s (key + 24) ∧ t.me.sys.tsr = memWord s (key + 48) ∧
      t.me.uipca = memWord s (key + 32) ∧ t.me.uipcx = memWord s (key + 40) ∧
      t.me.xr.srgen = srWrite ((memWord s (key + 56)).extractLsb' 0 32) ∧ t.me.sys.wdcnt = (memWord s (key + 64)).extractLsb' 0 32 ∧
      t.me.sys.uivec = memWord s (key + 72) ∧ t.me.sys.semts = memWord s (key + 80) ∧
      t.me.sys.wbase = (memWord s (key + 88)).extractLsb' 0 32 ∧
      t.me.sys.rslow = (if stackOk ((memWord s (key + 88)).extractLsb' 0 32) ((memWord s (key + 88)).extractLsb' 32 32) then
        (memWord s (key + 88)).extractLsb' 32 32 else (memWord s (key + 88)).extractLsb' 0 32) ∧
      (∀ k < 8, t.me.sys.cwin.toArray.getD k 0 = memWord s (key + 8 * (12 + k)) &&& 0x7FFFFFFFFFFFF8#64) ∧
      (∀ k < 4, (t.me.sys.mpdst.toArray.getD k 0).extractLsb' 0 18 = (memWord s (key + 8 * (20 + k))).extractLsb' 0 18) ∧
      t.me.sys.qpend = memWord s (key + 192) &&& 0xFFFFFFFF00000007#64 ∧
      (∀ k < 8, t.me.sys.qpbuf.toArray.getD k 0 = memWord s (key + 8 * (25 + k))) ∧
      t.me.sys.cfp = memWord s (key + 264) &&& 0x1FFF#64 ∧
      t.me.sys.cfda = memWord s (key + 272) ∧ t.me.sys.cfh = memWord s (key + 280) &&& 0xFFFFFFFF0000003F#64 ∧ t.me.trap.tstat = w.getLsbD 45 ∧
      (∀ k < 7, t.me.ar.lo.toArray.getD (k + 1) 0 = memWord s (key + 8 * (36 + k))) ∧
      (∀ k < 8, t.me.ar.user.toArray.getD k 0 = memWord s (key + 8 * (43 + k))) ∧
      (∀ k < 8, t.me.ar.shadow.toArray.getD k 0 = memWord s (key + 8 * (51 + k))) ∧
      (∀ k < 7, t.me.xr.g.toArray.getD (k + 1) 0 = memWord s (key + 8 * (59 + k))) ∧
      (∀ k < 7, t.me.xr.m.toArray.getD (k + 1) 0 = memWord s (key + 8 * (66 + k))) ∧
      (∀ k < 16, ∀ j < 8, (t.me.xr.v.toArray.getD k 0).extractLsb' (64 * j) 64 = memWord s (key + 8 * (73 + 8 * k + j))) ∧
      (∀ k < 128, t.me.xr.stack.toArray.getD k 0 = memWord s (key + 8 * (201 + k))) ∧
      t.me.sys.rots = w1.extractLsb' 19 2 ∧ t.me.xr.rb = w1.extractLsb' 21 4 ∧ t.me.xr.p.extractLsb' 1 7 = w1.extractLsb' 25 7 ∧
      t.me.sys.rsidx = w1.extractLsb' 32 7 ∧
      t.me.lq.map (·.word) = (List.range (min (w1.extractLsb' 0 6).toNat 32)).map (fun k => some (memWord s (key + 8 * (329 + k)))) ∧
      t.me.sq.map (·.word) = (List.range (min (w1.extractLsb' 6 5).toNat 16)).map (fun k => memWord s (key + 8 * (361 + k))) ∧
      t.me.bqa.map (·.value) = (List.range (min (w1.extractLsb' 11 4).toNat 8)).map (fun k => (memWord s (key + 8 * (377 + k))).getLsbD 0) ∧
      t.me.bqx.map (·.value) = (List.range (min (w1.extractLsb' 15 4).toNat 8)).map (fun k => (memWord s (key + 8 * (385 + k))).getLsbD 0) ∧
      t.me.ar.sup = s.me.ar.sup ∧ (∀ k < len, t.mem.byte (frame + k) = s.mem.byte (key + 3152 + k)) ∧
      ∀ x, (x < frame ∨ frame + len ≤ x) → t.mem.byte x = s.mem.byte x) ∧
  (∀ (o p : S1W) (s u t v w : State) (a b : Word) (key : Nat), mayCsave o s u a key → queuesFit u.me → exec (.csave o) s = .next t →
    mayCrest p v w b key → v.mem = t.mem → v.vfOf v.cur.slot = s.vfOf s.cur.slot →
    coreOfSlot v.cur.slot % 3 = coreOfSlot s.cur.slot % 3 → v.groupOf v.cur.slot = s.groupOf s.cur.slot →
    ((v.core v.myCore).nanmode = (s.core s.myCore).nanmode ∨ otherBound v v.cur.slot = false) →
    ∃ r, exec (.crest p) v = .next r ∧ movedBoth (.crest p) v r ∧ sameContext u.me r.me ∧
      (r.core v.myCore).nanmode = (s.core s.myCore).nanmode) ∧
  (∀ (o : S2W) (s : State), takesUp (mkForm (.ttld o) o.gd .joint) s = true → earlierDone s = true → lone s = true →
    operandsReady s [.w o.s1, .w o.s2] [] = true → ∀ n a u ws v tk, taken s [o.s1, o.s2] = ([n, a], u) → a.toNat % 64 = 0 →
    tensorRecord (.ttld o) a s = some (ws, v) → s.task? s.me.task = some tk →
    ∃ t x, exec (.ttld o) s = .next t ∧ movedBoth (.ttld o) s t ∧ t.task? s.me.task = some x ∧ x.words = tk.words ∧
      x.tensors.get (n.toNat % 256) [] = [ws.getD 0 0 &&& 0x0FFFFFFF063FFFFF#64, ws.getD 1 0 &&& 0x7FFFFF#64, ws.getD 2 0, ws.getD 3 0,
        ws.getD 4 0, ws.getD 5 0, 0, 0] ∧
      ∀ k, k ≠ n.toNat % 256 → x.tensors.get k [] = tk.tensors.get k []) ∧
  (∀ (o : S2W) (s : State), takesUp (mkForm (.ttst o) o.gd .joint) s = true → earlierDone s = true → lone s = true →
    operandsReady s [.w o.s1, .w o.s2] [] = true → sqFree s = true →
    ∀ n a, (taken s [o.s1, o.s2]).1 = [n, a] → a.toNat % 64 = 0 →
    ∀ data, data = (tensorRef s s.cur.slot (n.toNat % 256)).words.map .val →
    (∀ tgt u, isScratchForm a = false → reaches (.ttst o) a .v Access.store s = some (tgt, u) →
      ∃ t, exec (.ttst o) s = .next t ∧ movedBoth (.ttst o) s t ∧ t.mem = u.mem ∧
        t.me.stores = u.me.stores ++ [pstore (.ttst o) .st tgt .v data false false (relPends s a 64) .discard u]) ∧
    (∀ tile bank off u, recordScratch (.ttst o) a s = .ok (some (.scratch tile bank off)) u →
      ∃ t, exec (.ttst o) s = .next t ∧ movedBoth (.ttst o) s t ∧ t.mem = u.mem ∧
        t.me.stores = u.me.stores ++ [pstore (.ttst o) .st (.scratch tile bank off) .v data false false none .discard u]))

/-! ## Steps of the memory path, of accesses and of events -/

/-- R184, R185, R274 and R369: a demand for a line of resident code that the instruction cache holds finds it; one for a line
that it lacks, whose translation succeeds in resident code, starts a fill, and an arriving fill puts the whole line in the cache,
with the vault's bytes where the vault has them. A demand past the end of its function takes the illegal-instruction trap with
detail 3. R97 and R98: the walker reads a message in two words, the second read removes it, and its walk's result goes to the
slice in an install record, or it waits for a migration word to be full. R99: a record with a status reports it to the slots that
wait; one with a leaf that passes the checks is installed. -/
def Obligations.fetchAndWalkSteps : Prop :=
  (∀ (n : Nat) (h : Half) (s r : State) (pc : Word), r = { s with cur := { slot := n, half := h } } → (s.slot n).bound = true →
    (s.slot n).waitOf h = .none → (s.slot n).badOf h = false → pc = (s.slot n).pcOf h →
    (∀ l, findI s (coreOfSlot n) (s.asidOf n) (pc.toNat / 128) = some l → (codeAt s n pc).isSome = true →
      ∃ t l', exec (.demandFetch n h) s = .next t ∧ aside s t ∧
        findI t (coreOfSlot n) (s.asidOf n) (pc.toNat / 128) = some l' ∧ l'.data = l.data) ∧
    (∀ l, findI s (coreOfSlot n) (s.asidOf n) (pc.toNat / 128) = some l → codeAt s n pc = none → codeHolder r pc.toNat = none →
      mayTrap r = true → ∃ t, exec (.demandFetch n h) s = .next t ∧ trapTaken 1 3 0 pc pc r t) ∧
    (∀ l u, findI s (coreOfSlot n) (s.asidOf n) (pc.toNat / 128) = none →
      (s.core (coreOfSlot n)).ifills.any (fun f => f.asid == s.asidOf n && f.vline == pc.toNat / 128) = false →
      pc.toNat < 2 ^ 55 → lookupT (dieOfSlot n) pc.toNat (s.asidOf n) Access.fetch (!(s.slot n).super) r = .ok l u →
      isRegSpace l.key = false → isRemote l.key = false → (codeAt u n pc).isSome = true →
      ∃ t, exec (.demandFetch n h) s = .next t ∧ t.slots = s.slots ∧ t.mem = u.mem ∧
        (t.core (coreOfSlot n)).ifills = (u.core (coreOfSlot n)).ifills ++
          [{ vf := s.vfOf n, asid := s.asidOf n, vline := pc.toNat / 128, key := l.key - l.key % 128, demand := true }])) ∧
  (∀ (c k : Nat) (s : State) (f : IFill), (s.core c).ifills[k]? = some f →
    ∃ t, exec (.instructionLineFill c k) s = .next t ∧ aside s t ∧ (t.core c).ifills = (s.core c).ifills.eraseIdx k ∧
      ∃ x ∈ (t.core c).icache, x.asid = f.asid ∧ x.vline = f.vline ∧
        ∀ j < 128, x.data.extractLsb' (8 * j) 8 =
          match vaultByte s (clusterOfTile (c / 3)) f.vf (128 * f.vline + j) with
          | some b => b
          | none => (lineBytes s (dieOfTile (c / 3)) f.asid f.vline f.key).extractLsb' (8 * j) 8) ∧
  (∀ (c : Nat) (s : State) (m : Word × Word) (rest : List (Word × Word)), (s.core c).mailbox = m :: rest →
    (∃ t, exec (.wmb0Read c) s = .next t ∧ (t.core c).wmb0 = some m.1 ∧ (t.core c).mailbox = m :: rest ∧ t.mem = s.mem ∧
      (t.slot (16 * c + 15)).awai = .none) ∧
    (∃ t xs, exec (.wmb1Read c) s = .next t ∧ (t.core c).wmb1 = some m.2 ∧ (t.core c).mailbox = rest ++ xs ∧ aside s t)) ∧
  (∀ (c : Nat) (s : State), (s.core c).mailbox = [] →
    ∃ t, exec (.wmb0Read c) s = .next t ∧ (t.slot (16 * c + 15)).awai = .mailbox ∧ t.cores = s.cores) ∧
  (∀ (c n : Nat) (s u : State) (m0 m1 : Word), n = 16 * c + 15 → (s.core c).wmb0 = some m0 → (s.core c).wmb1 = some m1 →
    (∀ key b, (s.slot n).awai = .fullEmpty key b → isRemote key = false → feFull s key = false → exec (.win2Write c) s = .next s) ∧
    (u = s.modSlot n (fun sl => { sl with awai := .none }) →
      (∀ key b, (s.slot n).awai = .fullEmpty key b → isRemote key = false ∧ feFull s key = true) →
      (∀ pte ea lvl, (walk u (.walker c) (m0.extractLsb' 0 55).toNat (m1.extractLsb' 0 16)).1 = .leaf pte ea lvl →
        ∃ t w, exec (.win2Write c) s = .next t ∧ t.mem = s.mem ∧ t.full = s.full ∧ (∀ k, k ≠ n → t.slot k = s.slot k) ∧
          (t.core c).wmb0 = none ∧ (t.core c).wmb1 = none ∧
          (t.die (dieOfTile (c / 3))).installs = (s.die (dieOfTile (c / 3))).installs ++ [((m1.extractLsb' 16 6).toNat, pte, physForm ea, w)] ∧
          w.extractLsb' 0 22 = m1.extractLsb' 0 22 ∧ w.extractLsb' 32 16 = m1.extractLsb' 32 16 ∧ w.extractLsb' 48 4 = 0 ∧
          w.extractLsb' 52 2 = BitVec.ofNat 2 lvl) ∧
      (∀ code lvl, (walk u (.walker c) (m0.extractLsb' 0 55).toNat (m1.extractLsb' 0 16)).1 = .fault code lvl →
        ∃ t w, exec (.win2Write c) s = .next t ∧ t.mem = s.mem ∧ t.full = s.full ∧ (∀ k, k ≠ n → t.slot k = s.slot k) ∧
          (t.die (dieOfTile (c / 3))).installs = (s.die (dieOfTile (c / 3))).installs ++ [((m1.extractLsb' 16 6).toNat, 0, 0, w)] ∧
          w.extractLsb' 0 22 = m1.extractLsb' 0 22 ∧ w.extractLsb' 32 16 = m1.extractLsb' 32 16 ∧
          w.extractLsb' 48 4 = BitVec.ofNat 4 code) ∧
      (∀ key, (walk u (.walker c) (m0.extractLsb' 0 55).toNat (m1.extractLsb' 0 16)).1 = .wait key →
        ∃ t, exec (.win2Write c) s = .next t ∧ (t.slot n).awai = .fullEmpty key true ∧ (∀ k, k ≠ n → t.slot k = s.slot k) ∧
          t.mem = s.mem ∧ t.full = s.full ∧ t.cores = s.cores))) ∧
  (∀ (d k j : Nat) (s : State) (w0 w1 w2 : Word) (m : Miss), (s.die d).installs.find? (fun r => r.1 == k) = some (j, w0, w1, w2) →
    (s.die d).misses.find? (fun m => m.slice == (w2.extractLsb' 16 6).toNat && m.tag == w2.extractLsb' 32 16 && m.posted) = some m →
    m.stale = false →
    (1 ≤ (w2.extractLsb' 48 4).toNat → (w2.extractLsb' 48 4).toNat ≤ 7 →
      ∃ t, exec (.installRecordReceive d k) s = .next t ∧ aside s t ∧ m ∉ (t.die d).misses ∧
        ∀ n, .slot n ∈ m.waiters → { req := .slot n, vpage := m.va / 65536, code := w2.extractLsb' 48 4, level := w2.extractLsb' 52 2 }
          ∈ (t.die d).reports) ∧
    (w2.extractLsb' 48 4 = 0 → w2.extractLsb' 52 2 = 3 → pteW w0 = false → isRemote (physKey w1) = false →
      physBad (leafKey w0 false m.va) m.user = none → scopeBad w0 (leafKey w0 false m.va) d = false → permBad w0 m.access m.user = false → (∀ n a ws, .cfetch n a ws ∉ m.waiters) →
      ∃ t, exec (.installRecordReceive d k) s = .next t ∧ t.slots = s.slots ∧
        ∃ e ∈ (t.die d).tlb, e.asid = m.asid ∧ e.vpage = m.va / 65536 ∧ e.large = false ∧ e.ea = physKey w1 ∧
          e.pte &&& ~~~0x600#64 = w0 &&& ~~~0x600#64))

/-- R19, R24, R26, R134 and R140: data of a load that may return comes from its target, is extended as the load says, and goes to lq
at the load's place or to its a register; at a virtual address the bytes are those of memory where the page is not cacheable, else of
the first-level line, of the slice's line, or of the home, and those of an earlier store of the slot's that is not performed yet. R129: a scratchpad load whose tile has been fenced takes the scratch fault at its instruction.
R26, R50, R130 and R239: a store that may be performed, a free one where there are several (`nextStore`), takes its effect and
leaves the slot: one to SCRATCH or to a physical address writes its bytes and no others, and a push enters its words in its FIFO
bank. R36, R157, R158: a word arrives at the end
of its port, the oldest of one of the senders, or is discarded and sets DROP; one arrives at the end of its link. R151: a half goes
on when its cause is served, and not before. R305: a reply of 0 lets a slot go on and a reply of 1 makes it trap. -/
def Obligations.accessSteps : Prop :=
  (∀ (n k : Nat) (s : State) (x : PLoad), (s.slot n).loads[k]? = some x → loadReady s n x = true →
    (∀ v u, loadData n x s = some (v, u) →
      ∃ t, exec (.loadDataReturn n k) s = .next t ∧ t.mem = u.mem ∧ (∀ y ∈ (t.slot n).loads, y.pos ≠ x.pos) ∧
        (∀ a : BitVec 4, a ≠ 0 → x.dest = .a a → (t.slot n).readA a = (loadWords x.size x.sx v).getD 0 0) ∧
        (x.dest = .lq → (t.slot n).lq = fillLq (u.slot n).lq x.pos (loadWords x.size x.sx v)) ∧
        (t.slot n).stores = (u.slot n).stores ∧ ∀ m, m ≠ n → t.slot m = u.slot m) ∧
    (∀ (l : Loc) (d m : Nat) (v : VWord) (u : State), x.tgt = .mem l → d = dieOfTile (tileOfSlot n) → m = x.size.bytes → s.latent = [] →
      bypasses s n = false → escrowOver s n l m = [] → loadData n x s = some (v, u) →
      (pendingOver (s.slot n) x.pos (.mem l) m = [] →
        (l.c = false → v.toNat = s.mem.readNat l.key m) ∧
        (l.c = true → l.off + m ≤ 128 → ∀ (first : Option Line), first = findLine (s.tile (tileOfSlot n)).l1 l.asid l.vline →
          (x.acq = false → ∀ y, first = some y → bytesOf v m y.data l.off) ∧
          (x.acq = false → first = none → ∀ y, findLine (s.die d).lines l.asid l.vline = some y → bytesOf v m y.data l.off) ∧
          (x.acq = false → first = none → (s.die d).lines = [] → bytesOf v m (homeLine s l.asid l.vline l.key).1 l.off) ∧
          (x.acq = true → first = none → findLine (s.die d).lines l.asid l.vline = none →
            bytesOf v m (homeLine s l.asid l.vline l.key).1 l.off))) ∧
      (∀ y k, pendingOver (s.slot n) x.pos (.mem l) m = [y] → y.tgt = .mem k → k.key = l.key → y.size = x.size →
        v = wordsValue (dataWords y.data) &&& byteMask m)) ∧
    (∀ t0 b off, x.tgt = .scratch t0 b off → tileLost s (tileOfSlot n) t0 = true → (s.slot n).canBack x.pos = true →
      lateBefore s n x.pos = false → (s.slot n).super = false → isWalker n = false →
      ∃ t, exec (.loadDataReturn n k) s = .next t ∧ (t.slot n).super = true ∧
        (t.slot n).trap.tcause = BitVec.ofNat 64 (15 + 65536 * 5) ∧ (t.slot n).trap.tinsn = x.insn ∧
        (t.slot n).ar.pc = (s.core (coreOfSlot n)).tvec ∧ (∀ y ∈ (t.slot n).loads, y.pos ≠ x.pos) ∧ t.mem = s.mem)) ∧
  (∀ (n : Nat) (s0 s : State) (x : PStore), nextStore n s0 = (some x, s) → x.body = false →
    (∀ y, s.taskOf n = some y → y.twin = none) →
    (∀ l, x.tgt = .mem l → x.cut s n = false → x.op ≠ .bcPost → x.op.isAtom = false →
      exec (.storePerformed n) s0 = .next (endStore n x (applyStore n x s))) ∧
    (∀ l, x.tgt = .mem l → x.cut s n = false → x.op.isAtom = true →
      homePoison (toHome (tileOfSlot n) l s) l x.size.bytes = false →
      exec (.storePerformed n) s0 = .next (endStore n x (applyStore n x (toHome (tileOfSlot n) l s)))) ∧
    (∀ l u, x.tgt = .mem l → x.cut s n = false → x.op = .bcPost →
      bcPost n l ((dataWords x.data).getD 0 0) x.binds (toHome (tileOfSlot n) l s) = (0, u) →
      exec (.storePerformed n) s0 = .next (endStore n x u)) ∧
    (∀ pa va, x.tgt = .reg pa va → x.cut s n = false → x.op ≠ .bcPost →
      exec (.storePerformed n) s0 = .next (endStore n x (applyStore n x s))) ∧
    (∀ t0 b off, x.tgt = .fifo t0 b off → x.cut s n = false → x.op = .st → pushReady s n x = true →
      ∃ t, exec (.storePerformed n) s0 = .next t ∧ x ∉ (t.slot n).stores ∧ t.mem = s0.mem ∧
        (t.tile t0).fifos.get b [] = (s.tile t0).fifos.get b [] ++ (dataWords x.data).map fun w => { word := w, nm := x.nm }) ∧
    (x.op = .st → memoriesOk s = true → ∀ v, v = (wordsValue (dataWords x.data) &&& byteMask x.size.bytes).toNat →
      (∀ t0 b off, x.tgt = .scratch t0 b off → x.cut s n = false →
        ∃ t, exec (.storePerformed n) s0 = .next t ∧ x ∉ (t.slot n).stores ∧ t.mem = s0.mem ∧
          (t.tile t0).scratch.readNat (8192 * b + off) x.size.bytes = v ∧
          ∀ a, (a < 8192 * b + off ∨ 8192 * b + off + x.size.bytes ≤ a) → (t.tile t0).scratch.byte a = (s.tile t0).scratch.byte a) ∧
      (∀ key, x.tgt = .phys key →
        ∃ t, exec (.storePerformed n) s0 = .next t ∧ x ∉ (t.slot n).stores ∧ t.mem.readNat key x.size.bytes = v ∧
          ∀ a, (a < key ∨ key + x.size.bytes ≤ a) → t.mem.byte a = s.mem.byte a))) ∧
  (∀ (n p : Nat) (s : State), s.flights.filter (fun g => g.dest == n && g.dport == p) ≠ [] →
    ∃ t f, exec (.portWordArrival n p) s = .next t ∧ f.dest = n ∧ f.dport = p ∧
      s.flights.find? (fun g => g.dest == n && g.dport == p && g.sender == f.sender && g.port == f.port) = some f ∧
      t.flights = s.flights.erase f ∧ t.mem = s.mem ∧
      ((s.slot n).bound = true → s.vfOf n = f.vf → tileLost s (tileOfSlot f.sender) (tileOfSlot n) = false →
        tileCut s (dieOfSlot f.sender) (tileOfSlot n) = false → p < 4 →
        (t.slot n).portOf p = (s.slot n).portOf p ++ [f.word] ∧ ∀ m, m ≠ n → t.slot m = s.slot m) ∧
      (((s.slot n).bound = false ∨ s.vfOf n ≠ f.vf ∨ tileLost s (tileOfSlot f.sender) (tileOfSlot n) = true) → f.port < 4 →
        ((t.slot f.sender).sys.mpdst.toArray.getD f.port 0).getLsbD 62 = true ∧ (t.slot n).ports = (s.slot n).ports)) ∧
  (∀ (t0 : Nat) (s : State),
    (∃ t, exec (.linkWordArrival t0 true) s = .next t ∧ (t.tile t0).lkw = (s.tile t0).lkw ++ (s.tile t0).lkwFly.take 1 ∧
      (t.tile t0).lkwFly = (s.tile t0).lkwFly.drop 1 ∧ t.slots = s.slots ∧ t.mem = s.mem) ∧
    (∃ t, exec (.linkWordArrival t0 false) s = .next t ∧ (t.tile t0).lke = (s.tile t0).lke ++ (s.tile t0).lkeFly.take 1 ∧
      (t.tile t0).lkeFly = (s.tile t0).lkeFly.drop 1 ∧ t.slots = s.slots ∧ t.mem = s.mem)) ∧
  (∀ (n : Nat) (h : Half) (s : State),
    ((s.slot n).waitOf h = .branchEmpty → (s.slot n).bqIn h ≠ [] →
      exec (.slotUnpark n h) s = .next (s.modSlot n fun sl => sl.setWait h .none)) ∧
    ((s.slot n).waitOf h = .branchEmpty → (s.slot n).bqIn h = [] → exec (.slotUnpark n h) s = .next s) ∧
    (∀ k, (s.slot n).waitOf h = .portEmpty k → (s.slot n).portOf k ≠ [] →
      exec (.slotUnpark n h) s = .next (s.modSlot n fun sl => sl.setWait h .none)) ∧
    (∀ k, (s.slot n).waitOf h = .portEmpty k → (s.slot n).portOf k = [] → exec (.slotUnpark n h) s = .next s) ∧
    (∀ k, (s.slot n).waitOf h = .sqRoom k → ((s.slot n).sq.length + k ≤ 16) →
      exec (.slotUnpark n h) s = .next (s.modSlot n fun sl => sl.setWait h .none)) ∧
    (∀ k, (s.slot n).waitOf h = .lqRoom k → 32 < (s.slot n).lq.length + k → exec (.slotUnpark n h) s = .next s)) ∧
  (∀ (n key : Nat) (w : Word) (s : State), (s.slot n).awai = .faultWord key false → (∀ m, m ≠ n → waitsOn (s.slot m) key = none) →
    (∀ x ∈ s.tiles, ∀ c ∈ x.2.chans.toList, ∀ z ∈ c.exec, z.fault ≠ some key) → (∀ d, (s.die d).holds = []) → s.mem.wf = true →
    (w.toNat % 16 = 0 →
      ∃ t, exec (.faultEntryReply key w) s = .next t ∧ memWord t key = w ∧ feFull t key = true ∧ (t.slot n).awai = .none ∧
        (t.slot n).xwai = .none ∧ (t.slot n).ar.pc = (s.slot n).ar.pc ∧ (t.slot n).xr.pc = (s.slot n).xr.pc) ∧
    (w.toNat % 16 = 1 → (s.slot n).super = false → isWalker n = false →
      ∃ t, exec (.faultEntryReply key w) s = .next t ∧ memWord t key = w ∧ (t.slot n).super = true ∧
        (t.slot n).trap.tpc = (s.slot n).ar.pc ∧ (t.slot n).trap.tinsn = (s.slot n).finsn ∧
        (t.slot n).trap.tcause.extractLsb' 0 16 = 6#16 ∧ (t.slot n).ar.pc = (s.core (coreOfSlot n)).tvec))

/-- R31, R116, R241, R297, R299 and R307: at a slot's boundary the events are taken in their order: a pending pre-emption, a
due byte-count trap, a semaphore overflow, a completion. A trap enters the supervisor handler; a completion gives its record to
a8 to a11 of the shadow bank and enters the completion handler. A pre-empted body is discarded. -/
def Obligations.eventSteps : Prop :=
  ∀ (n : Nat) (s : State), atBoundary s n = true →
    (preDue s n = false → (s.slot n).bcDue = [] → (s.slot n).semDue = none → (s.slot n).scDue = none →
      ∀ c rest, (s.slot n).done = c :: rest →
      ∃ t, exec (.completionInterrupt n) s = .next t ∧ (t.slot n).inUi = true ∧ (t.slot n).uipca = (s.slot n).ar.pc ∧
        (t.slot n).uipcx = (s.slot n).xr.pc ∧ (t.slot n).ar.pc = (s.slot n).sys.uivec ∧ (t.slot n).xr.pc = (s.slot n).sys.uivec ∧
        (t.slot n).done = rest ∧ (t.slot n).readA 8 = c.id.zeroExtend 64 ∧ (t.slot n).readA 9 = BitVec.ofNat 64 c.ch ∧
        (t.slot n).readA 10 = c.ts ∧ (t.slot n).readA 11 = c.status ∧ (t.slot n).ar.user = (s.slot n).ar.user ∧
        (t.slot n).sys = (s.slot n).sys ∧ t.mem = s.mem) ∧
    (preDue s n = false → ∀ va d rest, (s.slot n).bcDue = (va, d) :: rest →
      ∃ t, exec (.byteCountTrapDelivery n) s = .next t ∧ eventTaken n 14 d.toNat va s t ∧ (t.slot n).bcDue = rest) ∧
    (preDue s n = false → (s.slot n).bcDue = [] → ∀ k, (s.slot n).semDue = some k →
      ∃ t, exec (.semaphoreOverflowDelivery n) s = .next t ∧ eventTaken n 21 k.toNat 0 s t ∧ (t.slot n).semDue = none) ∧
    (preDue s n = true → ∀ x, s.taskOf n = some x →
      (x.committed = true →
        ∃ t, exec (.preemptionTrap n) s = .next t ∧ eventTaken n 26 0 0 s t ∧ preDue t n = false) ∧
      (x.committed = false → unitBusy s x = false → ∃ t, exec (.preemptionTrap n) s = .next t ∧ t.task? (s.slot n).task = none ∧ preDue t n = false)) ∧
    (∀ c v, c = coreOfSlot n → (∀ k < 15, ∀ x, s.taskOf (16 * c + k) = some x → x.committed = true) →
      exec (.preqWrite c v) s = .next (s.modCore c fun y => { y with preq := v.extractLsb' 0 15 }))

/-! ## Steps of tasks, partitions and code -/

/-- R253 and R254: a launch record that arrives and passes admission joins its queue with the next SEQ, be it sent by the host, by a
launch flit sequence of a port that is up, or by a launch queue pair. R260 and R258: a dispatcher whose partition has one queue
with one record, which is no gang, not redundant and not pure and finds its slots free, places the record's first instance: a
task that is not committed, on the tile and the slots found. R266 rule 3: the first task of a clearing queue that may commit does
so. R127: a bank that no access uses takes its new mode, filled with zero. R272: redundant copies that do not agree in time end.
R309 and R310: at its limit a tail stops, its partition is disabled and drains, and the drain ends when no task and no operation is
left. R255 and R257: a rectangle that is well-formed and clashes with none is written; one that is not well-formed, or that clashes,
sets ERR and changes none. -/
def Obligations.tasksPlaced : Prop :=
  (∀ (s : State), s.pkg.admbase.getLsbD 0 = true → 7 ≤ s.stage →
    (∀ aqgal rec, admitFault s ((rec.headD 0).toNat % 1024) (rec.drop 1) none = none →
      ∃ t, exec (.launchRecordArrival aqgal rec) s = .next t ∧ admitted (rec.drop 1) s t ∧ t.slots = s.slots) ∧
    (∀ port rec, (aqPort s port).state = 2#2 → admitFault s ((rec.getD 32 0).toNat % 1024) (rec.take 32) none = none →
      ∃ t, exec (.launchFlitSequence port rec) s = .next t ∧ admitted (rec.take 32) s t ∧ t.slots = s.slots) ∧
    (∀ q x rec ws, s.qpairs.get? q = some x → x.launch = true → x.error = false → rec.length = 32 →
      ws = wordsOfBytes 32 (bytesOfWords rec) → admitFault s x.vf ws none = none →
      ∃ t, exec (.launchSend q rec) s = .next t ∧ admitted ws s t ∧ t.slots = s.slots)) ∧
  ((∀ (p d q : Nat) (s : State) (x : PQueue) (r : QRec) (i : Nat) (more : List Nat) (tile : Nat) (ns : List Nat), d < 4 → (s.part p).en = true →
    (∀ y ∈ s.dies, y.2.gangs = []) →
    bindPending d (retryDone d (replyHolds d (retryPosts d (cleanDomains s)))) = s → s.queues = [(q, x)] → x.part.toNat = p →
    queueOn x = true → x.recs = [r] → r.insts = i :: more → recGang r.words = false → recRed r.words = false → recPure r.words = false →
    headSpots s p d r = some [(tile, ns)] →
    ∃ t y, exec (.dispatcherPlace (4 * p + d)) s = .next t ∧ t.task? s.nextTask = some y ∧ y.words = r.words ∧ y.inst = i ∧
      y.tile = tile ∧ y.slots = ns ∧ y.committed = false ∧ t.nextTask = s.nextTask + 1) ∧
  (∀ (p k : Nat) (s : State) (x : Task), s.tasks.find? (fun y => y.2.clearing && !y.2.committed && y.2.twin.isNone
      && (s.queue (recQid y.2.words)).part.toNat == p && clearedToCommit s y.1) = some (k, x) → x.escrow = [] →
    (∀ n ∈ x.slots, (s.slot n).stores = []) → s.task? k = some x →
    ∃ t y, exec (.clearingQueueRelease p) s = .next t ∧ t.task? k = some y ∧ y.committed = true ∧ y.clearing = false ∧ y.words = x.words) ∧
  (∀ (tile b : Nat) (m : BitVec 2) (s : State), b < 40 → (s.tile tile).toMode.find? (fun x => x.1 == b) = some (b, m) →
    bankMode (s.tile tile) b ≠ 0 → bankInUse s tile b = false → (bankMode (s.tile tile) b = 3#2 → escrowHeld s tile = false) →
    ∃ t, exec (.bankModeChange tile b) s = .next t ∧ bankMode (t.tile tile) b = m ∧ (t.tile tile).fifos.get b [] = [] ∧
      (∀ x ∈ (t.tile tile).toMode, x.1 ≠ b) ∧ (∀ o < 8192, (t.tile tile).scratch.byte (8192 * b + o) = 0) ∧
      (∀ a, a / 8192 ≠ b → memoriesOk s = true → (t.tile tile).scratch.byte a = (s.tile tile).scratch.byte a) ∧ t.mem = s.mem) ∧
  (∀ (id : Nat) (s : State) (x : Task), s.task? id = some x → copiesApart s x = true →
    ∃ t, exec (.redundantMismatch id) s = .next t ∧ t.task? id = none) ∧
  (∀ (id p : Nat) (s : State) (x : Task), s.task? id = some x → x.committed = true → x.slots ≠ [] → p = taskPart s x →
    ∃ t, exec (.watchdogExpiry id) s = .next t ∧ t.task? id = none ∧ (t.part p).en = false ∧ (t.part p).active = true ∧
      (t.part p).expiries = (if (s.part p).expiries = -1 then -1 else (s.part p).expiries + 1)) ∧
  (∀ (p : Nat) (s : State), (s.part p).active = true →
    (∀ d < 4, ∀ tile ∈ partTiles s p d, (s.tile tile).eng.ops = [] ∧ ∀ c ∈ (s.tile tile).chans.toList, c.fifo = [] ∧ c.exec = []) →
    (∀ x ∈ s.tasks, x.2.slots = []) →
    ∃ t, exec (.partitionDrainComplete p) s = .next t ∧ (t.part p).active = false ∧ (t.part p).done = true ∧
      ∀ d < 4, ∀ tile ∈ partTiles s p d, (t.tile tile).eng = Engine.reset) ∧
  (∀ (k : Nat) (v : Word) (s : State) (r : PRect), r = PRect.of v → k < 256 →
    (r.x0 ≤ r.x1 → r.y0 ≤ r.y1 → r.y1 ≤ 11#4 → (∀ q < 64, q ≠ k / 4 → r.meets (s.prect (4 * q + k % 4)) = false) →
      (∀ x ∈ s.tasks, x.2.committed = true) →
      ∃ t, exec (.partitionResize k v) s = .next t ∧ t.prect k = r ∧ (∀ j, j ≠ k → t.prect j = s.prect j) ∧ t.parts = s.parts ∧ aside s t) ∧
    (r.x1 < r.x0 ∨ r.y1 < r.y0 ∨ 11#4 < r.y1 ∨ (∃ q < 64, q ≠ k / 4 ∧ r.meets (s.prect (4 * q + k % 4)) = true) →
      ∃ t, exec (.partitionResize k v) s = .next t ∧ (t.part (k / 4)).err = true ∧ t.prects = s.prects ∧ aside s t)))

/-- R275, R285, R286 and R291: a fetch whose digest has a translation in its die's heap installs it in an empty vault, in slot 0
under the vault's serial (that it is slot 0, the lowest that is free, is the model's choice: R275 asks only for a free number below
VLIM.N, log 50), and ends; the mint publishes a translation in the heap, or gives up for want of room; a fetch for
which the mint has nothing fails, and each slot that waits for it waits for the reply to an entry. VLIM takes the values 1 to
64. -/
def Obligations.codeSteps : Prop :=
  (∀ (c k : Nat) (s : State) (f : Fetch) (o : CodeObj) (h : Header), (s.vault c).fetches.find? (fun f => f.id == k) = some f →
    f.minting = false → f.addr = none → f.waiters = [] → offered s f.die f.digest nativeKind = some o → o.kind = .translation →
    o.place = .heap f.die → parseHeader (fun j => o.wordAt s (256 + j)) = some h → h.codelen ≤ 524288 → (s.vault c).entries = [] →
    1 ≤ (s.vault c).vlim.toNat →
    ∃ t e, exec (.codeFetchInstall c k) s = .next t ∧ (t.vault c).entries = [e] ∧ e.slot = 0 ∧ e.vf = f.vf ∧ e.digest = f.digest ∧
      e.serial = (s.vault c).serial ∧ e.entry = h.entry ∧ e.codelen = h.codelen ∧ e.frame = h.frame ∧ e.code = o.va + 256 + h.code ∧
      (t.vault c).serial = (s.vault c).serial + 1 ∧ (∀ g ∈ (t.vault c).fetches, g.id ≠ f.id) ∧ aside s t) ∧
  (∀ (c k : Nat) (s : State) (f : Fetch) (x : List Byte × BitVec 32), findFetch s k = some (c, f) → f.minting = true →
    mintFor s f.die f.digest = some x →
    ∃ t, exec (.mintPublish k) s = .next t ∧
      ((∃ o ∈ t.objects, o.digest = f.digest ∧ o.kind = .translation ∧ o.place = .heap f.die ∧ o.meas = s.dwedar) ∨
        ∀ g ∈ (t.vault c).fetches, g.id ≠ f.id)) ∧
  (∀ (c k : Nat) (s : State) (f : Fetch), (s.vault c).fetches.find? (fun f => f.id == k) = some f → f.minting = true →
    mintFor s f.die f.digest = none →
    ∃ t, exec (.codeFetchFailure c k) s = .next t ∧ (∀ g ∈ (t.vault c).fetches, g.id ≠ f.id) ∧
      ∀ w ∈ f.waiters, (t.slot w.slot).awai = .faultPost ∨ ∃ key, (t.slot w.slot).awai = .faultWord key true) ∧
  (∀ (c : Nat) (v : Word) (s : State), ∃ t, exec (.vlimWrite c v) s = .next t ∧ t.mem = s.mem ∧
    (t.vault c).vlim = if v.extractLsb' 0 7 = 0 ∨ 64 < (v.extractLsb' 0 7).toNat then (s.vault c).vlim else v.extractLsb' 0 7)

/-! ## Steps of registers, links and the package -/

/-- R103, R104, R135, R106: a write of TXCMD or L1CTL while GO reads 1 is ignored, a reserved KIND sets ERR, and GO clears when
nothing that the command names is left; SRPCTL gives a way to repair, SRPADD pins a sector, and the pin ends with an event. The model's
choices: that TXASID and TXVA are read when the invalidation completes (log 70), and what a write of SRPADD does while GO reads 1 or
for a sector that is pinned already (log 94). -/
def Obligations.commandSteps : Prop :=
  (∀ p ∈ ([Instr.txcmdInvalidatePage, .txcmdInvalidateAsid, .txcmdInvalidateAll] : List (Word → Instr)), ∀ (v : Word) (s : State),
    (s.pkg.txcmd.getLsbD 3 = true → exec (p v) s = .next s) ∧
    (s.pkg.txcmd.getLsbD 3 = false → v.getLsbD 3 = true →
      ∃ t, exec (p v) s = .next t ∧ aside s t ∧ t.dies = s.dies ∧ t.pkg.txcmd.extractLsb' 0 3 = v.extractLsb' 0 3 ∧
        t.pkg.txcmd.getLsbD 3 = (v.extractLsb' 0 2 != 3#2) ∧ (v.extractLsb' 0 2 = 3#2 → t.pkg.txcmd.getLsbD 4 = true))) ∧
  (∀ (s : State), s.pkg.txcmd.getLsbD 3 = true → txInFlight s = false →
    ∃ t, exec .invalidationComplete s = .next t ∧ t.pkg.txcmd.getLsbD 3 = false ∧
      (∀ n, t.slot n = match (s.slot n).awai with
        | .fullKeep _ | .fullEmpty _ _ => if isWalker n then s.slot n else { s.slot n with awai := .none }
        | _ => s.slot n) ∧
      ∀ d < 4, (∀ e ∈ (t.die d).tlb, txEntry s.pkg e = false) ∧
        ∀ m ∈ (t.die d).misses, m.posted = true → txNames s.pkg m.asid m.va true = true → m.stale = true) ∧
  (∀ p ∈ ([Instr.l1ctlFlushAsid, .l1ctlFlushTile] : List (Nat → Word → Instr)), ∀ (k : Nat) (v : Word) (s : State),
    ((s.tile k).l1ctl.getLsbD 2 = true → exec (p k v) s = .next s) ∧
    ((s.tile k).l1ctl.getLsbD 2 = false → v.getLsbD 2 = true →
      ∃ t, exec (p k v) s = .next t ∧ t.mem = s.mem ∧ t.slots = s.slots ∧ (t.tile k).l1 = (s.tile k).l1 ∧
        (t.tile k).l1ctl.getLsbD 2 = decide ((v.extractLsb' 0 2).toNat < 2) ∧ (t.tile k).l1ctl.extractLsb' 0 2 = v.extractLsb' 0 2 ∧
        (t.tile k).l1ctl.extractLsb' 16 16 = v.extractLsb' 16 16 ∧
        (2 ≤ (v.extractLsb' 0 2).toNat → (t.tile k).l1ctl.getLsbD 3 = true))) ∧
  (∀ (k : Nat) (s : State), (s.tile k).l1ctl.getLsbD 2 = true →
    ∃ t, exec (.l1FlushComplete k) s = .next t ∧ (t.tile k).l1ctl.getLsbD 2 = false ∧ t.slots = s.slots ∧
      ∀ l ∈ (t.tile k).l1, (s.tile k).l1ctl.extractLsb' 0 2 ≠ 1#2 ∧ l.asid ≠ (s.tile k).l1ctl.extractLsb' 16 16) ∧
  (∀ (d i : Nat) (v : Word) (s : State),
    (v.getLsbD 0 = true → ∃ t, exec (.srpctlEnable d i v) s = .next t ∧ (repairOf t d i).en = true ∧
      (repairOf t d i).pins = (repairOf s d i).pins ∧ t.slots = s.slots) ∧
    (v.getLsbD 63 = true → (repairOf s d i).en = true → (repairOf s d i).pins.length < 2048 →
      ∃ t, exec (.srpaddPin d i v) s = .next t ∧ aside s t ∧ (repairOf t d i).go = true ∧
        (repairOf t d i).pins = (repairOf s d i).pins ++ [(v.extractLsb' 5 43).toNat]) ∧
    (v.getLsbD 63 = true → (repairOf s d i).en = true → 2048 ≤ (repairOf s d i).pins.length →
      ∃ t, exec (.srpaddPin d i v) s = .next t ∧ aside s t ∧ (repairOf t d i).full = true ∧ (repairOf t d i).pins = (repairOf s d i).pins) ∧
    ((repairOf s d i).go = true →
      ∃ t, exec (.sectorPinComplete d i) s = .next t ∧ aside s t ∧ (repairOf t d i).go = false ∧ recorded 6 t))

/-- R9, R86, R155, R156, R73, R77 and R303: a write at an address of register space changes the register there and nothing where
none stands; RSLOW, MPDST, SRGEN and NANMODE take the writes that their rules allow, and a refused NANMODE traps; PFQBASE keeps
its field. The addresses are those of the field positions of R86, against its printed examples, which is the model's choice (log 16). -/
def Obligations.registerSteps : Prop :=
  (∀ (v : Word) (s : State),
    exec (.registerWrite 0xFF8000000010 v) s = .next { s with pkg := { s.pkg with txasid := v.extractLsb' 0 16 } } ∧
    exec (.registerWrite 0xFF8000000018 v) s = .next { s with pkg := { s.pkg with txva := v &&& 0x7FFFFFFFFF0000#64 } } ∧
    exec (.registerWrite 0xFF8010000000 v) s = .next { s with pkg := { s.pkg with admbase := v &&& 0xFFFFFFFF0001#64 } } ∧
    exec (.registerWrite 0xFF8020000008 v) s = .next { s with pkg := { s.pkg with featen := v.extractLsb' 0 4 } } ∧
    exec (.registerWrite 0xFF8020000010 v) s = .next { s with pkg := { s.pkg with xvmin := v.extractLsb' 0 32 } } ∧
    exec (.registerWrite 0xFF8040000008 v) s = .next { s with pkg := { s.pkg with bbidx := v.extractLsb' 0 12 } } ∧
    exec (.registerWrite 0xFF8050000000 v) s = .next { s with pkg := { s.pkg with aqtmo := v.extractLsb' 0 32 } } ∧
    exec (.registerWrite 0xFF8050000008 v) s = .next s ∧
    (∀ a, (a % 8 ≠ 0 ∨ a / 2 ^ 40 % 256 ≠ 0xFF) → exec (.registerWrite a v) s = .next s)) ∧
  (∀ (n : Nat) (v : Word) (s : State) (r : BitVec 32), r = v.extractLsb' 0 32 →
    (r.toNat ≤ (s.slot n).sys.wbase.toNat ∧ (s.slot n).sys.wbase.toNat + 32 ≤ r.toNat + 128 →
      ∃ t, exec (.rslowWrite n v) s = .next t ∧ (t.slot n).sys = { (s.slot n).sys with rslow := r } ∧ t.mem = s.mem) ∧
    (¬ (r.toNat ≤ (s.slot n).sys.wbase.toNat ∧ (s.slot n).sys.wbase.toNat + 32 ≤ r.toNat + 128) →
      ∃ t, exec (.rslowWrite n v) s = .next t ∧ t.slot n = s.slot n ∧ t.mem = s.mem)) ∧
  (∀ (n : Nat) (v : Word) (s : State), ∃ t, exec (.srgenWrite n v) s = .next t ∧
    (t.slot n).xr.srgen = (if v.extractLsb' 0 32 = 0 then 0x9E3779B9#32 else v.extractLsb' 0 32) ∧ (t.slot n).sys = (s.slot n).sys ∧
    t.mem = s.mem) ∧
  (∀ (n k : Nat) (v : Word) (s : State), k < 4 → ∃ t, exec (.mpdstWrite n k v) s = .next t ∧ t.mem = s.mem ∧
    ((t.slot n).sys.mpdst.toArray.getD k 0).extractLsb' 0 18 = v.extractLsb' 0 18 ∧
    ((t.slot n).sys.mpdst.toArray.getD k 0).getLsbD 63 = (v.getLsbD 63 && !(v.extractLsb' 4 2 == 3#2) && !(v.extractLsb' 0 4 == 15#4)
      && decide ((v.extractLsb' 8 8).toNat ≤ 191)) ∧
    ((t.slot n).sys.mpdst.toArray.getD k 0).getLsbD 62 = (((s.slot n).sys.mpdst.toArray.getD k 0).getLsbD 62 && !v.getLsbD 62)) ∧
  (∀ (n : Nat) (v : Word) (s : State),
    (otherBound s n = false → exec (.nanmodeWrite n v) s = .next (s.modCore (coreOfSlot n) fun c => { c with nanmode := v.getLsbD 0 })) ∧
    (otherBound s n = true → (s.slot n).super = false → isWalker n = false →
      ∃ t, exec (.nanmodeWrite n v) s = .next t ∧ (t.slot n).super = true ∧ (t.slot n).trap.tcause = BitVec.ofNat 64 (10 + 65536 * 0x300) ∧
        (t.slot n).trap.tpc = (s.slot n).ar.pc ∧ (t.core (coreOfSlot n)).nanmode = (s.core (coreOfSlot n)).nanmode)) ∧
  (∀ (v : Word) (s : State), (∀ x ∈ s.slots, x.2.post = none) → (∀ x ∈ s.dies, x.2.posts = []) →
    (∀ x ∈ s.tiles, ∀ c ∈ x.2.chans.toList, c.heldPost = []) →
    ∃ t, exec (.pfqbaseWrite v) s = .next t ∧ t.pkg = { s.pkg with pfqbase := v &&& 0xFFFFFFFFFFC0#64 } ∧ t.mem = s.mem)

/-- R321 to R325: LMCTL starts training at a rate it knows and clears the counters; training ends with the module up at the new
rate; a flit that fails its CRC is counted, and beyond the limit the module is marked degraded and falls back one rate, or fails
where there is none below; the window's count is zeroed; a retired lane takes a spare, and without one the module goes on at half
width or, with lanes lost in both halves, fails. That a lane which a spare has replaced counts as lost in its half is the model's
choice (log 67). -/
def Obligations.linkSteps : Prop :=
  ∀ (m : Nat) (s : State), m < 48 → ∀ a b, (a, b) = moduleEnds m →
    (∀ v : Word, (linkEnd s a m).retrain = false →
      (v.getLsbD 3 = true → (v.extractLsb' 0 3).toNat ≤ 2 →
        ∃ t, exec (.lmctlRetrain m v) s = .next t ∧ aside s t ∧ (linkEnd t a m).retrain = true ∧
          ∀ d ∈ [a, b], (linkEnd t d m).state = 1#2 ∧ (linkEnd t d m).target = v.extractLsb' 0 3) ∧
      (v.getLsbD 3 = true → 2 < (v.extractLsb' 0 3).toNat →
        ∃ t, exec (.lmctlRetrain m v) s = .next t ∧ (linkEnd t a m).retrain = false ∧ (linkEnd t a m).err = true ∧
          (linkEnd t a m).state = (linkEnd s a m).state) ∧
      (v.getLsbD 4 = true → v.getLsbD 3 = false →
        ∃ t, exec (.lmctlCounterClear m v) s = .next t ∧ aside s t ∧ (linkEnd t a m).crc = 0 ∧ (linkEnd t a m).rpl = 0 ∧
          (linkEnd t a m).state = (linkEnd s a m).state)) ∧
    (∀ v : Word, (linkEnd s a m).retrain = true → exec (.lmctlRetrain m v) s = .next s) ∧
    ((linkEnd s a m).state = 1#2 →
      ∃ t, exec (.linkTrainingComplete m) s = .next t ∧ aside s t ∧ ∀ d ∈ [a, b], (linkEnd t d m).retrain = false ∧
        ((linkEnd s a m).dead = false → (linkEnd s b m).dead = false →
          (linkEnd t d m).rate = (linkEnd s d m).target ∧ (linkEnd t d m).state = 2#2) ∧
        ((linkEnd s a m).dead = true ∨ (linkEnd s b m).dead = true → (linkEnd t d m).state = 3#2)) ∧
    (∃ t, exec (.ucieFlitReceive m true) s = .next t ∧ aside s t ∧ t.dies = s.dies ∧ t.errs = s.errs ∧ t.poison = s.poison) ∧
    (∃ d t, d ∈ [a, b] ∧ exec (.ucieFlitReceive m false) s = .next t ∧ aside s t ∧
      ((linkEnd s d m).state = 2#2 → (linkEnd s d m).win.toNat < 65535 →
        ((linkEnd s d m).win.toNat + 1 ≤ (s.die d).lmthr.toNat →
          (linkEnd t d m).crc = satAdd (linkEnd s d m).crc 1 ∧ (linkEnd t d m).rpl = satAdd (linkEnd s d m).rpl 1 ∧
          (linkEnd t d m).win.toNat = (linkEnd s d m).win.toNat + 1) ∧
        ((s.die d).lmthr.toNat < (linkEnd s d m).win.toNat + 1 →
          (linkEnd t d m).crc = satAdd (linkEnd s d m).crc 1 ∧ (linkEnd t a m).win = 0 ∧ (linkEnd t b m).win = 0 ∧
          (t.die a).lmdeg.getLsbD m = true ∧ (t.die b).lmdeg.getLsbD m = true ∧ recorded 3 t ∧
          (∀ r, stepDown (linkEnd s d m).rate = some r →
            ∀ x ∈ [a, b], (linkEnd t x m).rate = r ∧ (linkEnd t x m).target = r ∧ (linkEnd t x m).state = 1#2) ∧
          (stepDown (linkEnd s d m).rate = none → ∀ x ∈ [a, b], (linkEnd t x m).state = 3#2)))) ∧
    (∃ t, exec (.crcWindowEnd m) s = .next t ∧ aside s t ∧ (linkEnd t a m).win = 0 ∧ (linkEnd t b m).win = 0 ∧
      (linkEnd t a m).crc = (linkEnd s a m).crc) ∧
    (∀ lane < 68, ∃ d t, d ∈ [a, b] ∧ exec (.laneRetirement m lane) s = .next t ∧ aside s t ∧
      (lane ∉ (linkEnd s d m).retired → (linkEnd s d m).state ≠ 3#2 →
        (linkEnd t d m).retired = (linkEnd s d m).retired ++ [lane] ∧ (linkEnd t d m).last = BitVec.ofNat 7 lane ∧
        (linkEnd t d m).nret = (linkEnd s d m).nret + 1 ∧ recorded 3 t ∧
        ((linkEnd s d m).spare ≠ 0 → (linkEnd t d m).spare = (linkEnd s d m).spare - 1 ∧ (linkEnd t d m).state = 1#2 ∧
          (linkEnd t d m).target = (linkEnd s d m).rate) ∧
        ((linkEnd s d m).spare = 0 →
          (((∀ l ∈ (linkEnd s d m).retired ++ [lane], l / 32 ≠ 0) ∨ (∀ l ∈ (linkEnd s d m).retired ++ [lane], l / 32 ≠ 1)) →
            ∀ x ∈ [a, b], (linkEnd t x m).half = true ∧ (linkEnd t x m).state = 1#2) ∧
          (((∃ l ∈ (linkEnd s d m).retired ++ [lane], l / 32 = 0) ∧ (∃ l ∈ (linkEnd s d m).retired ++ [lane], l / 32 = 1)) →
            ∀ x ∈ [a, b], (linkEnd t x m).state = 3#2))))

/-- R329, R330, R333, R334 and R336: a flit of a port that is up is refused when its CRC or its order is wrong, and else moves the
receive sequence on; a request that times out reports the absent fault to the slot that waits; a port that fails leaves the
set; a sync flit carries device time; a packet that does not authenticate counts, and the sixteenth in a row puts its queue pair
in the error state; a probe is sent when there is no credit; only the master takes the time of a PTP message. The model's choices: the
place of the time in a sync flit (log 66), the byte order of the nonce's packet number (log 17), and the offsets of the headers' fields
and the form of a probe (log 30). -/
def Obligations.fabricSteps : Prop :=
  (∀ (n : Nat) (ws : List Word) (s : State), (aqPort s n).state = 2#2 →
    (flitGood ws = false ∨ 6 ≤ flitType ws →
      ∃ t, exec (.aqgalFlitReceive n ws) s = .next t ∧ aside s t ∧ (aqPort t n).crc = satAdd (aqPort s n).crc 1 ∧
        (aqPort t n).nak = true ∧ (aqPort t n).rxSeq = (aqPort s n).rxSeq) ∧
    (flitGood ws = true → flitType ws < 6 → flitSeq ws ≠ (aqPort s n).rxSeq →
      ∃ t, exec (.aqgalFlitReceive n ws) s = .next t ∧ aside s t ∧ (aqPort t n).nak = true ∧ (aqPort t n).rxSeq = (aqPort s n).rxSeq) ∧
    (flitGood ws = true → flitType ws < 6 → flitSeq ws = (aqPort s n).rxSeq →
      ∃ t, exec (.aqgalFlitReceive n ws) s = .next t ∧ (aqPort t n).rxSeq = (aqPort s n).rxSeq + 1 ∧ (aqPort t n).nak = false ∧
        (flitType ws ≠ 2 → flitType ws ≠ 4 →
          (aqPort t n).unacked = (aqPort s n).unacked.filter (fun f => decide (2048 ≤ (flitAck ws - flitSeq f).toNat)) ∧
          (flitNak ws = true → (aqPort t n).wire = (aqPort s n).wire ++ (aqPort t n).unacked ∧
            (aqPort t n).rpl = satAdd (aqPort s n).rpl 1)))) ∧
  (∀ (k n : Nat) (s : State) (r : RemoteReq), s.remotes.find? (fun r => r.tag == k && !r.answered) = some r → r.req = .slot n →
    s.mem.wf = true →
    ∃ t x, exec (.aqgalRequestTimeout k) s = .next t ∧ (∀ y ∈ t.remotes, y.tag ≠ k) ∧ x ∈ (t.die (dieOfSlot n)).reports ∧
      x.req = .slot n ∧ x.vpage = r.va / 65536 ∧ x.code = 4 ∧ ∀ a, a / 128 ≠ r.key / 128 → t.mem.byte a = s.mem.byte a) ∧
  (∀ (n : Nat) (s : State), n < 64 →
    ((aqPort s n).state = 2#2 → ∃ t, exec (.aqgalPortSetChange n false) s = .next t ∧ aside s t ∧ (aqPort t n).state = 3#2 ∧
      t.remoteWait = s.remotes.any (·.out) ∧ ((∃ k < 64, k ≠ n ∧ (aqPort s k).state = 2#2) → (aqPort t n).unacked = []) ∧
      ((∀ k < 64, k ≠ n → (aqPort s k).state ≠ 2#2) → (aqPort t n).unacked = (aqPort s n).unacked)) ∧
    ((aqPort s n).state ≠ 2#2 → (aqPort s n).en = true →
      ∃ t, exec (.aqgalPortSetChange n true) s = .next t ∧ aside s t ∧ (aqPort t n).state = 2#2)) ∧
  (∀ (n : Nat) (s : State), (aqPort s n).state = 2#2 → (aqPort s n).unacked.length < 1024 →
    ∃ t, exec (.syncFlitSend n) s = .next t ∧ aside s t ∧ s.pkg.dtime.toNat ≤ t.pkg.dtime.toNat ∧ (aqPort t n).txSeq = (aqPort s n).txSeq + 1 ∧
      (aqPort t n).unacked = (aqPort s n).unacked ++ [makeFlit 3 3 (aqPort s n).txSeq ((aqPort s n).rxSeq - 1) (aqPort s n).nak
        [t.pkg.dtime, 0, 0, 0, 0, 0, 0]]) ∧
  (∀ (port q : Nat) (pkt body : List Byte) (s : State) (x : QPair), q = natBE ((pkt.drop 5).take 3) % 65536 → s.qpairs.get? q = some x →
    x.error = false → 32 ≤ pkt.length → body = pkt.drop 12 →
    (gcmOpen (bytesLE 32 x.key.toNat) (bytesLE 4 x.salt.toNat ++ bytesLE 8 x.rxCount) (pkt.take 12) (body.take (body.length - 20))
        ((body.drop (body.length - 20)).take 16) = none →
      ∃ t y, exec (.rocePacketReceive port pkt) s = .next t ∧ aside s t ∧ t.qpairs.get? q = some y ∧ y.fails = x.fails + 1 ∧
        y.rxCount = x.rxCount ∧ y.error = decide (16 ≤ x.fails + 1) ∧
        t.pkg.etauth.toArray.getD (port % 2) 0 = satAdd (s.pkg.etauth.toArray.getD (port % 2) 0) 1) ∧
    (gcmOpen (bytesLE 32 x.key.toNat) (bytesLE 4 x.salt.toNat ++ bytesLE 8 x.rxCount) (pkt.take 12) (body.take (body.length - 20))
        ((body.drop (body.length - 20)).take 16) ≠ none →
      ∃ t y, exec (.rocePacketReceive port pkt) s = .next t ∧ t.qpairs.get? q = some y ∧ y.fails = 0 ∧ y.rxCount = x.rxCount + 1)) ∧
  (∀ (q : Nat) (s : State) (x : QPair), s.qpairs.get? q = some x → x.error = false → x.credit = 0 → x.txCount < 2 ^ 48 →
    ∃ t y, exec (.creditProbe q) s = .next t ∧ aside s t ∧ t.qpairs.get? q = some y ∧ y.probes = x.probes + 1 ∧ y.txCount = x.txCount + 1 ∧
      t.pkg.etstall.toArray.getD (x.port % 2) 0 = satAdd (s.pkg.etstall.toArray.getD (x.port % 2) 0) 64) ∧
  (∀ (w : Word) (s : State),
    (s.pkg.dtmaster = true → ∃ t, exec (.ptpMessage w) s = .next t ∧ aside s t ∧ t.pkg.dtsrc = 1 ∧ s.pkg.dtime.toNat ≤ t.pkg.dtime.toNat) ∧
    (s.pkg.dtmaster = false → exec (.ptpMessage w) s = .next s))

/-- R338 to R349: a fence marks a rectangle or a lone tile, ends every task in it, and its reset leaves the tiles empty; a write
of REJOIN after the reset clears the fence, of a lone tile too; a router's failure makes its tile dead and fences it; a scrubbed error is counted,
and poisons its sector when it cannot be corrected; an array with too many errors goes back to nominal voltage, and at nominal is
predicted to fail; SNAPCTL.GO fires the trigger; start goes through its stages and halts at one that fails; an attestation
report holds its nonce; a thermal trip is recorded; without power the package is as after reset but for what R346 keeps. That memory is
then empty is the model's choice (log 1: R88 gives DRAM no contents at power-on). -/
def Obligations.reliabilitySteps : Prop :=
  (∀ (r : Nat) (s : State), r < 64 → (ctRect s r).valid = true → (ctRect s r).fenced = false →
    ∃ t, exec (.containmentFence r) s = .next t ∧ (ctRect t r).fenced = true ∧ (ctRect t r).resetDone = false ∧
      ∀ id x n, s.task? id = some x → n ∈ x.slots → (ctRect s r).covers (tileOfSlot n) = true → dieOfTile (tileOfSlot n) = r / 16 →
        t.task? id = none) ∧
  (∀ (r : Nat) (s : State), r < 64 → (ctRect s r).fenced = true → (ctRect s r).resetDone = false → (ctRect s r).pending = false →
    ∃ t, exec (.containmentReset r) s = .next t ∧ (ctRect t r).fenced = true ∧ (ctRect t r).resetDone = true ∧
      ∀ tile, dieOfTile tile = r / 16 → (ctRect s r).covers tile = true →
        (t.tile tile).scratch = [] ∧ (t.tile tile).l1 = [] ∧ (t.tile tile).eng.ops = [] ∧
        ∀ n, tileOfSlot n = tile → (t.slot n).bound = false) ∧
  (∀ (r : Nat) (v : Word) (s : State) (c : CtRect), r < 64 → c = ctRect s r → c.fenced = true → c.resetDone = true → c.x0 ≤ c.x1 → c.y0 ≤ c.y1 →
    (∀ j < 16, j ≠ r % 16 → c.meets (ctRect s (16 * (r / 16) + j)) = false) →
    v.extractLsb' 0 4 = c.x0 → v.extractLsb' 4 4 = c.y0 → v.extractLsb' 8 4 = c.x1 → v.extractLsb' 12 4 = c.y1 → v.getLsbD 16 = c.valid →
    v.getLsbD 18 = true →
    ∃ t, exec (.ctrectRejoin r v) s = .next t ∧ aside s t ∧ (ctRect t r).fenced = false ∧ (ctRect t r).rejoin = true) ∧
  (∀ (r tile : Nat) (v : Word) (s : State), tile < 768 → r = 64 + tile → ∀ d, d = dieOfTile tile →
    (tile ∉ (s.die d).tileFence →
      ∃ t, exec (.containmentFence r) s = .next t ∧ tile ∈ (t.die d).tileFence ∧ tileFenced t tile = true ∧
        ∀ id x n, s.task? id = some x → n ∈ x.slots → tileOfSlot n = tile → t.task? id = none) ∧
    (tile ∈ (s.die d).tileFence → tile ∉ (s.die d).tileReset →
      ∃ t, exec (.containmentReset r) s = .next t ∧ tile ∈ (t.die d).tileFence ∧ tile ∈ (t.die d).tileReset ∧
        (t.tile tile).scratch = [] ∧ (t.tile tile).l1 = [] ∧ (t.tile tile).eng.ops = [] ∧
        ∀ n, tileOfSlot n = tile → (t.slot n).bound = false) ∧
    (tile ∈ (s.die d).tileFence → tile ∈ (s.die d).tileReset → v.getLsbD 18 = true →
      ∃ t, exec (.ctrectRejoin r v) s = .next t ∧ aside s t ∧ tile ∉ (t.die d).tileFence ∧ tile ∉ (t.die d).tileReset)) ∧
  (∀ (k : Nat) (s : State), k < 768 →
    ∃ t, exec (.routerLinkFailure k) s = .next t ∧ (t.tile k).dead = true ∧ tileFenced t k = true) ∧
  (∀ (a : Nat) (b : Bool) (s : State), isDram a = true → pinnedSector s a = true → exec (.scrubbing b a) s = .next s) ∧
  (∀ (a : Nat) (s : State), (isDram a = false ∨ pinnedSector s a = false) → s.latent = [] →
    (∃ t, exec (.scrubbing false a) s = .next t ∧ aside s t ∧ t.poison = s.poison ∧
      (t.errs.get 1024 ErrCnt.reset).corr = satAdd (s.errs.get 1024 ErrCnt.reset).corr 1) ∧
    (∃ t, exec (.scrubbing true a) s = .next t ∧ aside s t ∧ (isDram a = true → a / 32 ∈ t.poison) ∧
      (t.errs.get 1024 ErrCnt.reset).uncorr = satAdd (s.errs.get 1024 ErrCnt.reset).uncorr 1)) ∧
  (∀ (k e : Nat) (s : State) (v : Volt), v = s.volts.get k Volt.reset → v.pft < e →
    (v.below = true → ∃ t, exec (.undervoltWindowEnd k e) s = .next t ∧ aside s t ∧ (t.volts.get k Volt.reset).below = false ∧
      (t.volts.get k Volt.reset).predicted = v.predicted) ∧
    (v.below = false → v.prevBelow = false → v.windows ≠ 0 →
      ∃ t, exec (.undervoltWindowEnd k e) s = .next t ∧ aside s t ∧ (t.volts.get k Volt.reset).predicted = true ∧ recorded 5 t)) ∧
  (∀ (v : Word) (s : State), ∃ t, exec (.snapctlGo v) s = .next t ∧ aside s t ∧ t.pkg.snapOnct = v.getLsbD 1 ∧
    t.pkg.snapDone = (v.getLsbD 0 || (s.pkg.snapDone && !v.getLsbD 2))) ∧
  (∀ (s : State), s.stage = 0 → exec .powerGood s = .next { s with power := true, stage := 1 }) ∧
  (∀ (s : State), 1 ≤ s.stage → s.stage ≤ 6 → s.halted = false →
    (∃ t, exec .startStageComplete s = .next t ∧ aside s t ∧ t.stage = s.stage + 1 ∧ recorded 7 t ∧
      (s.stage = 4 → ∀ m < 48, (linkEnd t (moduleEnds m).1 m).state = 2#2 ∧ (linkEnd t (moduleEnds m).2 m).state = 2#2)) ∧
    ∀ w, ∃ t, exec (.startStageFailure w) s = .next t ∧ aside s t ∧ t.stage = s.stage ∧ t.halted = true ∧ recorded 8 t) ∧
  (∀ (nonce : List Byte) (s : State), nonce.length = 48 → 3 ≤ s.stage →
    ∃ t r, exec (.attestationChallenge nonce) s = .next t ∧ aside s t ∧ t.reports = s.reports ++ [r] ∧ (r.drop 4).take 48 = nonce) ∧
  (∀ (w : Word) (s : State), ∃ t, exec (.thermalTrip w) s = .next t ∧ aside s t ∧ recorded 9 t) ∧
  (∀ (s : State), ∃ t, exec .powerLoss s = .next t ∧ t.power = false ∧ t.stage = 0 ∧ t.mem = [] ∧ t.slots = [] ∧ t.tasks = [] ∧
    t.dwedar = s.dwedar ∧ t.repairs = s.repairs ∧ t.objects = s.objects.filter fun o => o.place == .storage)

/-! ## The step, the decoder, reset (00_scope.md, 03_encoding.md, 08_core.md) -/

/-- R39, R57, R147 to R149, R184, R185: once start has released the cores, where a turn of a half comes, its slot is bound and waits for nothing, no event is due
there, its line is in the core's instruction cache and holds resident code, and the bytes at its pc decode to i, the step is exec of
i, in the state whose only changes are the turn, the line used and the checkpoint kept; after it the pointers of the halves for
which the issue counts move past the slot, once for an instruction that parks after its turn and goes on (R151), and memory, the
tiles, the tasks and the other slots stay. A turn of a device is exec of its step, and a write of register space that a store has
made is one of its register. -/
def Obligations.stepRunsInstruction : Prop :=
  (∀ (s : State) (n : Nat) (h : Half) (rest : List Turn) (pc : Word) (l : ILine) (i : Instr),
    s.power = true → s.turns = .issue n h :: rest → 6 ≤ s.stage → (s.slot n).bound = true → (s.slot n).waitOf h = .none →
    (s.slot n).held = none → dueFirst s n = none → (s.slot n).badOf h = false → pc = (s.slot n).pcOf h →
    findI s (coreOfSlot n) (s.asidOf n) (pc.toNat / 128) = some l → (codeAt s n pc).isSome = true →
    decode (pc.toNat % 32) (wordsAt l.data pc).1 (wordsAt l.data pc).2 = .ok i →
    ∃ t, (∀ u, exec i t = .next u → step s = .next (afterIssue n h i t u)) ∧
      t = (useI (coreOfSlot n) (s.asidOf n) (pc.toNat / 128)
        { s with turns := rest, cur := { slot := n, half := h } }).modMe (fun sl => sl.keepCkpt h i) ∧
      t.cur = { slot := n, half := h } ∧ t.me = (s.slot n).keepCkpt h i ∧ t.mem = s.mem ∧ t.tiles = s.tiles ∧ t.tasks = s.tasks) ∧
  (∀ (n c : Nat) (h : Half) (i : Instr) (s u v : State), v = afterIssue n h i s u → c = coreOfSlot n →
    v.mem = u.mem ∧ v.full = u.full ∧ v.tiles = u.tiles ∧ v.tasks = u.tasks ∧ (∀ k, k ≠ n → v.slot k = u.slot k) ∧
    (∃ a x r, v.slot n = { u.slot n with tookA := a, tookX := x, refused := r }) ∧ (issued n h s u = false → v = u) ∧
    ((s.slot n).tookOf h = true → v.core c = u.core c) ∧
    (issued n h s u = true → isWalker n = false → (s.slot n).tookOf h = false →
      (Half.access ∈ issueHalves i h → (v.core c).rotA = (laneOfSlot n + 1) % 15) ∧
      (Half.access ∉ issueHalves i h → (v.core c).rotA = (u.core c).rotA) ∧
      (Half.execute ∈ issueHalves i h → (v.core c).rotX = (laneOfSlot n + 1) % 15) ∧
      (Half.execute ∉ issueHalves i h → (v.core c).rotX = (u.core c).rotX))) ∧
  (∀ (s : State) (i : Instr) (rest : List Turn), s.power = true → s.turns = .event i :: rest →
    step s = exec i { s with turns := rest }) ∧
  (∀ (s : State) (pa : Nat) (v : Word) (rest : List Turn), s.power = true → s.turns = .write pa v :: rest →
    step s = exec (.registerWrite pa v) { s with turns := rest })

/-- R57: an instruction that fails a check of decoding traps with the kind and the detail of the check. -/
def Obligations.decodingTraps : Prop :=
  ∀ (s : State) (n : Nat) (h : Half) (rest : List Turn) (pc w : Word) (l : ILine) (e : DecodeTrap),
    s.power = true → s.turns = .issue n h :: rest → 6 ≤ s.stage → (s.slot n).bound = true → (s.slot n).waitOf h = .none →
    (s.slot n).held = none → dueFirst s n = none → (s.slot n).badOf h = false → pc = (s.slot n).pcOf h →
    findI s (coreOfSlot n) (s.asidOf n) (pc.toNat / 128) = some l → (codeAt s n pc).isSome = true → w = (wordsAt l.data pc).1 →
    decode (pc.toNat % 32) w (wordsAt l.data pc).2 = .error e →
    ∀ u, u = { s with cur := { slot := n, half := h } } → mayTrap u = true →
    ∃ t, step s = .next t ∧
      match (match e with
        | .illegal d => DecodeTrap.illegal d
        | _ => match decodeRaw u.myRole (Raw.ofBits w (wordsAt l.data pc).2) with | .error x => x | .ok _ => e) with
      | .illegal d => trapTaken 1 d w pc 0 u t
      | .reserved b => trapTaken 2 b w pc 0 u t
      | .opclass f => trapTaken 3 f w pc 0 u t
      | .role d => trapTaken 4 d w pc 0 u t

/-- R38 to R63: words that the manual's encodings give, with the instructions that they stand for (R58, R59 and the worked
encodings of 03_encoding.md, 06, 09, 10, 11, 14). -/
def Obligations.decodeWords : Prop :=
  let g0 : Guard := { p := 0, neg := false }
  let is (w ext : Word) (i : Instr) : Prop := decode 0 w ext = .ok i
  is 0x0000000000000000 0 (.nop { gd := g0, len := .l64 }) ∧
  is 0x00000000E0618180 0 (.fadd { gd := g0, ty := .f32, d := .w 6, s1 := .w 6, s2 := .q }) ∧
  is 0x0000000402AAAC48 0 (.addi { gd := { p := 3, neg := true }, len := .l64, d := .a 2, s1 := .a 2, imm := 4 }) ∧
  is 0x00000004034C4140 0 (.cpy { gd := g0, d := .a 9, first := 12, ch := 4 }) ∧
  is 0x02300000E2D000D8 0 (.stf { gd := g0, rel := true, len := .l64, base := .a 5, imm := 0, data := .q }) ∧
  is 0x07B00000003082E4 0 (.mma { gd := g0, strm := 3, sem := some 7, t := .w 2, s1 := .w 3 }) ∧
  is 0x0014000603F00380 0 (.calld { gd := g0, rp := 1, s1 := .const 2 6 }) ∧
  decode 0 0x0000000000000003 0 = .error (.illegal 1) ∧
  decode 28 0x0000000000000000 0 = .error (.illegal 3)

/-- R38 to R63: decoding the words of a well-formed instruction gives the instruction back, with every operand at every value
that its encoding has. Steps of devices have no words; the zero word is NOP. -/
def Obligations.decodeEncode : Prop :=
  ∀ (i : Instr) (off : Nat), i.wf = true → ((encode i).toNat ≠ 0 ∨ i = .nop { gd := { p := 0, neg := false }, len := .l64 }) →
    off ≠ 28 → off + i.bytes ≤ 32 → decode off (encode i).word (encode i).ext = .ok i

/-- R57 and R58: whatever the decoder accepts is well formed and has the words that it was read from, so that no bit of an
accepted instruction is dropped, and every bit that has no meaning is refused. -/
def Obligations.encodeDecode : Prop :=
  ∀ (w ext : Word) (i : Instr), decodeAny (Raw.ofBits w ext) = .ok i → i.wf = true ∧ encode i = Raw.ofBits w ext

/-- The values that the manual gives for reset: rotation pointers (R149), banks in CACHE mode (R124), channels (R111), the
generator (R77), the window (R155), MPDST (R156), CFP (R276), engine state (R211), the admission counter (R253), the install counter (R274), FEATEN (R286),
the trap registers (R299), PREQ (R307), WDCNT (R309), LMTHR (R320), AQTMO (R329) and BBIDX (R346). Every memory has its canonical form. -/
def Obligations.resetState : Prop :=
  memoriesOk State.reset = true ∧
  (∀ n, (State.reset.slot n).xr.srgen = 1 ∧ (State.reset.slot n).sys.cfp = 64 ∧ (State.reset.slot n).sys.wdcnt = 0 ∧
    (State.reset.slot n).sys.wbase = 0 ∧ (State.reset.slot n).sys.rslow = 0 ∧ (State.reset.slot n).sys.rsidx = 0 ∧
    (∀ k < 4, (State.reset.slot n).mpdstOf (BitVec.ofNat 2 k) = 0) ∧
    (State.reset.slot n).trap = { tcause := 0, tinsn := 0, tpc := 0, tva := 0, tstat := false }) ∧
  (∀ c, (State.reset.core c).rotA = 0 ∧ (State.reset.core c).rotX = 0 ∧ (State.reset.core c).preq = 0 ∧
    (State.reset.core c).tvec = 0) ∧
  (∀ t b, bankMode (State.reset.tile t) b = 0#2) ∧
  (∀ t c, (chanOf State.reset t c).next = 0 ∧ (chanOf State.reset t c).cdone = 0) ∧
  (∀ t, (∀ k, (State.reset.engine t).modes.get k .none = .none) ∧ (∀ row col, (State.reset.engine t).entry row col = 0) ∧
    (∀ k, (State.reset.engine t).vals.get k 0 = 0) ∧ (State.reset.engine t).g = 1 ∧ (State.reset.engine t).gvalid = false ∧
    (State.reset.engine t).gfault = 0 ∧ (State.reset.engine t).gidx = 0) ∧
  (∀ c, (State.reset.vault c).serial = 1) ∧
  State.reset.seq = 0 ∧ State.reset.pkg.featen = 0xF ∧ State.reset.pkg.aqtmo = 0x01000000 ∧ State.reset.pkg.bbidx = 0 ∧
  (∀ d, (State.reset.die d).lmthr = 1024)

/-- Every instruction and every step of a device answers a next state in every state (no meaning stops the machine), and a
step of the machine answers one whenever the package has power: the model's own stop is the package without power (R346). -/
def Obligations.onlyStopIsPower : Prop :=
  (∀ (i : Instr) (s : State), ∃ t, exec i s = .next t) ∧
  (∀ s : State, s.power = true → ∃ t, step s = .next t) ∧
  (∀ s : State, (∃ t, step s = .next t) ∨ (step s = .fault .noPower ∧ s.power = false))
end

