-- ==== Sys2Proof/Laws/Memory.lean ====
section
/-! SUPPORT. Memory: every operation keeps the canonical form (log 1), and what a byte reads as after a write of one. -/
namespace Sys2Proof.Machine.Memory

theorem wfFrom_mono {m : Memory} {lo lo' : Nat} (h : wfFrom lo m = true) (hl : lo' ≤ lo) : wfFrom lo' m = true := by
  cases m with
  | nil => rfl
  | cons t m =>
    simp only [wfFrom, Bool.and_eq_true, decide_eq_true_eq] at h ⊢
    exact ⟨⟨by omega, h.1.2⟩, h.2⟩

theorem wfFrom_insert {m : Memory} {lo k : Nat} {v : Byte} (h : wfFrom lo m = true) (hk : lo ≤ k) (hv : v ≠ background) :
    wfFrom lo (m.insert k v) = true := by
  induction m generalizing lo with
  | nil => simp [insert, wfFrom, hk, hv]
  | cons t m ih =>
    obtain ⟨a, b⟩ := t
    simp only [wfFrom, Bool.and_eq_true, decide_eq_true_eq] at h
    obtain ⟨⟨h1, h2⟩, h3⟩ := h
    simp only [insert]
    split
    · subst k; simp [wfFrom, h1, hv, h3]
    · split
      · have : k + 1 ≤ a := by omega
        simp [wfFrom, hk, hv, h2, h3, this]
      · have hi := ih h3 (by omega : a + 1 ≤ k)
        simp [wfFrom, h1, h2, hi]

theorem wfFrom_remove {m : Memory} {lo : Nat} (k : Nat) (h : wfFrom lo m = true) : wfFrom lo (m.remove k) = true := by
  induction m generalizing lo with
  | nil => rfl
  | cons t m ih =>
    obtain ⟨a, b⟩ := t
    have h' := h
    simp only [wfFrom, Bool.and_eq_true, decide_eq_true_eq] at h'
    obtain ⟨⟨h1, h2⟩, h3⟩ := h'
    simp only [remove]
    split
    · exact wfFrom_mono h3 (by omega)
    · split
      · exact h
      · simp [wfFrom, h1, h2, ih h3]

theorem wf_setByte {m : Memory} (k : Nat) (v : Byte) (h : m.wf = true) : (m.setByte k v).wf = true := by
  unfold setByte; split
  · exact wfFrom_remove k h
  · next hv => exact wfFrom_insert h (Nat.zero_le k) hv

theorem wf_write {m : Memory} (k n v : Nat) (h : m.wf = true) : (m.write k n v).wf = true := by
  induction n generalizing m k v with
  | zero => exact h
  | succ n ih => exact ih _ _ (wf_setByte _ _ h)

theorem wf_setWord {m : Memory} (k : Nat) (v : Word) (h : m.wf = true) : (m.setWord k v).wf = true := wf_write _ _ _ h

/-- A bank that changes its mode drops the bytes of its range. -/
theorem wfFrom_filter {m : Memory} {lo : Nat} (p : Host.Cell → Bool) (h : wfFrom lo m = true) :
    wfFrom lo (m.filter p) = true := by
  induction m generalizing lo with
  | nil => rfl
  | cons t m ih =>
    simp only [wfFrom, Bool.and_eq_true, decide_eq_true_eq] at h
    obtain ⟨⟨h1, h2⟩, h3⟩ := h
    simp only [List.filter_cons]
    split
    · simp [wfFrom, h1, h2, ih h3]
    · exact wfFrom_mono (ih h3) (by omega)
theorem wf_filter {m : Memory} (p : Host.Cell → Bool) (h : m.wf = true) : Memory.wf (m.filter p) = true := wfFrom_filter p h

/-- Nothing is listed below the bound. -/
theorem byte_of_lt {m : Memory} {lo k : Nat} (h : wfFrom lo m = true) (hk : k < lo) : m.byte k = background := by
  cases m with
  | nil => rfl
  | cons t m =>
    obtain ⟨a, b⟩ := t
    simp only [wfFrom, Bool.and_eq_true, decide_eq_true_eq] at h
    obtain ⟨⟨h1, _⟩, _⟩ := h
    have h1 : ¬ k = a := by omega
    have h2 : k < a := by omega
    simp [byte, h1, h2]

theorem byte_insert (m : Memory) (k : Nat) (v : Byte) (j : Nat) : (m.insert k v).byte j = if j = k then v else m.byte j := by
  induction m with
  | nil => simp only [insert, byte]; split <;> simp_all
  | cons t m ih =>
    obtain ⟨a, b⟩ := t
    simp only [insert]
    split
    · subst k; simp only [byte]; split <;> simp_all
    · split
      · simp only [byte]
        split
        · rfl
        · split
          · have h1 : ¬ j = a := by omega
            have h2 : j < a := by omega
            simp [h1, h2]
          · rfl
      · simp only [byte, ih]
        by_cases h1 : j = a
        · have : ¬ j = k := by omega
          simp [h1, show ¬ a = k by omega]
        · by_cases h2 : j < a
          · have : ¬ j = k := by omega
            simp [h1, h2, this]
          · simp [h1, h2]

theorem byte_remove {m : Memory} {lo : Nat} (h : wfFrom lo m = true) (k j : Nat) :
    (m.remove k).byte j = if j = k then background else m.byte j := by
  induction m generalizing lo with
  | nil => simp [remove, byte]
  | cons t m ih =>
    obtain ⟨a, b⟩ := t
    simp only [wfFrom, Bool.and_eq_true, decide_eq_true_eq] at h
    obtain ⟨_, h3⟩ := h
    simp only [remove]
    split
    · subst k
      by_cases hj : j = a
      · subst j; simp [byte_of_lt h3 (Nat.lt_succ_self a)]
      · by_cases hl : j < a
        · simp [hj, byte, hl, byte_of_lt h3 (by omega : j < a + 1)]
        · simp [hj, byte, hl]
    · split
      · by_cases hj : j = k
        · subst j; simp [byte, *]
        · simp [hj]
      · simp only [byte, ih h3]
        by_cases h1 : j = a
        · simp [h1, show ¬ a = k by omega]
        · by_cases h2 : j < a
          · simp [h1, h2]
          · simp [h1, h2]

/-- What a byte reads as after a write of one. -/
theorem byte_setByte {m : Memory} (h : m.wf = true) (k : Nat) (v : Byte) (j : Nat) :
    (m.setByte k v).byte j = if j = k then v else m.byte j := by
  unfold setByte; split
  · next hv => rw [byte_remove h, hv]
  · exact byte_insert m k v j

theorem reset_wf : State.reset.mem.wf = true := rfl

theorem wf_setBytes {m : Memory} (p : Nat → Bool) (k : Nat) (f : Nat → Byte) (h : m.wf = true) :
    ∀ l : List Nat, Memory.wf (l.foldl (fun m i => if p i then Memory.setByte m (k + i) (f i) else m) m) = true := by
  intro l
  induction l generalizing m with
  | nil => exact h
  | cons i l ih =>
    simp only [List.foldl_cons]
    split
    · exact ih (wf_setByte _ _ h)
    · exact ih h

end Sys2Proof.Machine.Memory

namespace Sys2Proof.Machine

/-! ## The operations that write memory -/

theorem memPut_wf (key n : Nat) (v : VWord) {s : State} (h : s.mem.wf = true) : (memPut key n v s).mem.wf = true :=
  Memory.wf_write _ _ _ h
theorem memSetWord_wf (key : Nat) (v : Word) {s : State} (h : s.mem.wf = true) : (memSetWord key v s).mem.wf = true :=
  Memory.wf_setWord _ _ h
theorem memMerge_wf (key : Nat) (data : BitVec 1024) (dirty : BitVec 128) (poison : BitVec 4) {s : State} (h : s.mem.wf = true) :
    (memMerge key data dirty poison s).mem.wf = true :=
  Memory.wf_setBytes (fun i => dirty.getLsbD i) _ (fun i => data.extractLsb' (8 * i) 8) h _
theorem placeInHeap_wf (d : Nat) (k : CodeKind) (dig : List Word) (bs : List Byte) {s : State} (h : s.mem.wf = true) :
    (placeInHeap d k dig bs s).2.mem.wf = true := by
  unfold placeInHeap
  dsimp only [State.nextFree]
  generalize heapFree _ _ _ _ _ = b
  cases b
  · exact h
  · simpa using Memory.wf_setBytes (fun _ => true) _ (fun i => bs.getD i 0) h (List.range bs.length)

end Sys2Proof.Machine
end

