-- ==== Sys2Proof/Laws/Caches.lean ====
section
/-! SUPPORT. The caches: every operation that moves bytes between the caches and memory keeps memory's canonical form, so a statement
about a step needs none of their definitions. -/
namespace Sys2Proof.Machine

/-- What each member of a list leaves well formed, the whole list does. -/
theorem foldl_wf {α : Type} (f : State → α → State) (hf : ∀ s x, s.mem.wf = true → (f s x).mem.wf = true) :
    ∀ (l : List α) {s : State}, s.mem.wf = true → (l.foldl f s).mem.wf = true
  | [], _, h => h
  | x :: l, s, h => foldl_wf f hf l (hf s x h)

@[simp] theorem poisonAt_mem (e : ArrayErr) (s : State) : (poisonAt e s).mem = s.mem := by
  unfold poisonAt
  split
  · split <;> rfl
  all_goals rfl
theorem foldl_mem {α : Type} (f : State → α → State) (hf : ∀ s x, (f s x).mem = s.mem) :
    ∀ (l : List α) (s : State), (l.foldl f s).mem = s.mem
  | [], _ => rfl
  | x :: l, s => by rw [List.foldl_cons, foldl_mem f hf l, hf]
@[simp] theorem sense_mem (vf : Nat) (p : ErrAt → Bool) (s : State) : (sense vf p s).mem = s.mem := by
  unfold sense
  split
  · rfl
  · rw [foldl_mem _ (fun s e => poisonAt_mem e s)]
    split <;> rfl
@[simp] theorem crossing_mem (vf d key : Nat) (s : State) : (crossing vf d key s).2.mem = s.mem := by
  unfold crossing
  split
  · rfl
  · dsimp only
    split
    · rfl
    · split <;> rfl
@[simp] theorem senseHome_mem (a : BitVec 16) (v k : Nat) (s : State) : (senseHome a v k s).mem = s.mem := by
  unfold senseHome; split <;> simp
@[simp] theorem senseSlice_mem (d : Nat) (a : BitVec 16) (v : Nat) (s : State) : (senseSlice d a v s).mem = s.mem := by
  unfold senseSlice; split <;> simp
@[simp] theorem senseBack_mem (t : Nat) (a : BitVec 16) (v : Nat) (s : State) : (senseBack t a v s).mem = s.mem := by
  unfold senseBack
  split
  · rfl
  · split
    · split <;> simp
    · rfl

theorem homeMerge_wf (a : BitVec 16) (v k : Nat) (data : BitVec 1024) (dirty : BitVec 128) (p : BitVec 4) {s : State}
    (h : s.mem.wf = true) : (homeMerge a v k data dirty p s).mem.wf = true := by
  unfold homeMerge
  split
  · exact h
  · split
    · exact h
    · exact memMerge_wf _ _ _ _ h
theorem writeBack_wf (l : Line) {s : State} (h : s.mem.wf = true) : (writeBack l s).mem.wf = true := by
  unfold writeBack
  split
  · split
    · exact h
    · exact memMerge_wf _ _ _ _ h
  · exact memMerge_wf _ _ _ _ h
theorem dropSliceLine_wf (d : Nat) (a : BitVec 16) (v : Nat) {s : State} (h : s.mem.wf = true) : (dropSliceLine d a v s).mem.wf = true := by
  unfold dropSliceLine
  split
  · exact h
  · next l _ =>
    dsimp only
    generalize hs : (if l.dirty = 0#128 then s else sense unattributed (ErrAt.inSlice d a v) s) = s1
    have h1 : s1.mem.wf = true := by subst hs; split <;> simpa using h
    generalize (findLine (s1.die d).lines a v).getD l = l1
    generalize hc : (if l1.dirty = 0#128 then (false, s1) else crossing unattributed d l1.key s1) = c
    have h2 : c.2.mem.wf = true := by subst hc; split <;> simpa using h1
    generalize hk : (if c.1 = true then c.2.nextFree else (0, c.2)) = k
    have h3 : k.2.mem.wf = true := by subst hk; split <;> simpa [State.nextFree] using h2
    split
    · split
      · exact h3
      · exact writeBack_wf _ h3
    · split
      · exact h3
      · exact writeBack_wf _ h3
theorem evictSome_wf (d : Nat) {s : State} (h : s.mem.wf = true) : (evictSome d s).mem.wf = true := by
  unfold evictSome
  dsimp only [State.nextFree]
  split
  · exact dropSliceLine_wf _ _ _ h
  · exact h
theorem takeWay_wf (d i : Nat) {s : State} (h : s.mem.wf = true) : (takeWay d i s).2.mem.wf = true := by
  unfold takeWay
  dsimp only [State.nextFree]
  split
  · exact h
  · split
    · exact h
    · dsimp only
      split
      · exact dropSliceLine_wf _ _ _ h
      · exact h
theorem fillSlice_wf (d : Nat) (l : Loc) {s : State} (h : s.mem.wf = true) : (fillSlice d l s).mem.wf = true := by
  unfold fillSlice
  split
  · exact h
  · have h1 : (takeWay d (sliceOf (128 * l.vline)) (evictSome d s)).2.mem.wf = true := takeWay_wf _ _ (evictSome_wf _ h)
    dsimp only
    split
    · simpa [State.modDie, State.nextFree] using h1
    · simpa [State.modDie] using h1
theorem sliceMerge_wf (d : Nat) (l : Line) {s : State} (h : s.mem.wf = true) : (sliceMerge d l s).mem.wf = true := by
  unfold sliceMerge
  split
  · exact h
  · exact fillSlice_wf _ _ h
theorem cleanL1_wf (t : Nat) (a : BitVec 16) (v : Nat) {s : State} (h : s.mem.wf = true) : (cleanL1 t a v s).mem.wf = true := by
  have h1 : (senseBack t a v s).mem.wf = true := by simpa using h
  unfold cleanL1
  dsimp only
  split
  · exact h1
  · exact sliceMerge_wf _ _ h1
theorem dropL1_wf (t : Nat) (a : BitVec 16) (v : Nat) {s : State} (h : s.mem.wf = true) : (dropL1 t a v s).mem.wf = true := by
  have h1 : (senseBack t a v s).mem.wf = true := by simpa using h
  unfold dropL1
  dsimp only
  split
  · exact h1
  · exact sliceMerge_wf _ _ h1
theorem fillL1_wf (t : Nat) (l : Loc) {s : State} (h : s.mem.wf = true) : (fillL1 t l s).mem.wf = true := by
  have h1 : (senseSlice (dieOfTile t) l.asid l.vline (fillSlice (dieOfTile t) l s)).mem.wf = true := by
    simpa using fillSlice_wf _ _ h
  unfold fillL1
  split
  · exact h
  · dsimp only [State.nextFree]
    split
    · split
      · exact dropL1_wf _ _ _ h1
      · exact h1
    · exact h1
theorem loadBytes_wf (t : Nat) (l : Loc) (n : Nat) (b : Bool) {s : State} (h : s.mem.wf = true) : (loadBytes t l n b s).2.2.mem.wf = true := by
  unfold loadBytes
  split
  · dsimp only
    split <;> simpa using h
  · have h1 : (fillL1 t l s).mem.wf = true := fillL1_wf _ _ h
    have h2 : (fillSlice (dieOfTile t) l (dropL1 t l.asid l.vline s)).mem.wf = true := fillSlice_wf _ _ (dropL1_wf _ _ _ h)
    cases b <;> dsimp only <;> split <;> simp_all
    all_goals split <;> simp_all
@[simp] theorem watchIf_mem (l : Loc) (s : State) : (watchIf l s).mem = s.mem := by
  unfold watchIf
  split
  · unfold watchWrite
    exact foldl_mem (fun s d => s.modDie d _) (fun s d => rfl) _ _
  · rfl
@[simp] theorem keepOld_mem (l : Loc) (n : Nat) (v : VWord) (s : State) : (keepOld l n v s).mem = s.mem := by
  unfold keepOld; split <;> rfl
theorem slicePut_wf (d : Nat) (l : Loc) (n : Nat) (v : VWord) {s : State} (h : s.mem.wf = true) : (slicePut d l n v s).mem.wf = true :=
  fillSlice_wf d l h
theorem storeBytes_wf (t : Nat) (l : Loc) (n : Nat) (v : VWord) {s : State} (h : s.mem.wf = true) : (storeBytes t l n v s).mem.wf = true := by
  unfold storeBytes
  dsimp only
  generalize hk : keepOld _ _ _ _ = s1
  have h1 : s1.mem.wf = true := by subst hk; simpa using h
  split
  · split
    · simpa using memPut_wf _ _ _ h1
    · simpa using memPut_wf _ _ _ h1
  · split
    · split
      · exact h1
      · exact slicePut_wf _ _ _ _ (dropL1_wf _ _ _ h1)
    · exact slicePut_wf _ _ _ _ h1
theorem homePut_wf (l : Loc) (n : Nat) (v : VWord) {s : State} (h : s.mem.wf = true) : (homePut l n v s).mem.wf = true := by
  unfold homePut
  dsimp only
  generalize hk : keepOld _ _ _ _ = s1
  have h1 : s1.mem.wf = true := by subst hk; simpa using h
  split
  · exact memPut_wf _ _ _ h1
  · exact homeMerge_wf _ _ _ _ _ _ h1
theorem toHome_wf (t : Nat) (l : Loc) {s : State} (h : s.mem.wf = true) : (toHome t l s).mem.wf = true := by
  unfold toHome
  split
  · split <;> simpa using h
  · have h1 : (senseHome l.asid l.vline l.key (dropL1 t l.asid l.vline s)).mem.wf = true := by simpa using dropL1_wf _ _ _ h
    dsimp only
    split
    · exact h1
    · exact dropSliceLine_wf _ _ _ h1
theorem setFE_mem (key : Nat) (b : Bool) (s : State) : (setFE key b s).mem = s.mem := by cases b <;> rfl
theorem dropCopies_wf (a : BitVec 16) (v : Nat) {s : State} (h : s.mem.wf = true) : (dropCopies a v s).mem.wf = true := by
  refine foldl_wf _ (fun s d hs => ?_) _ (foldl_wf _ (fun s t hs => dropL1_wf _ _ _ hs) _ h)
  split
  · split
    · exact hs
    · exact dropSliceLine_wf _ _ _ hs
  · exact hs
theorem releaseWord_wf (bs : Binds) (t : Nat) (a : BitVec 16) (w : Nat) {s : State} (h : s.mem.wf = true) :
    (releaseWord bs t a w s).mem.wf = true := by
  refine foldl_wf _ (fun s l hs => ?_) _ (foldl_wf _ (fun s l hs => cleanL1_wf _ _ _ hs) _ h)
  split
  · exact hs
  · exact dropSliceLine_wf _ _ _ hs
theorem acquireWord_wf (bs : Binds) (t : Nat) (a : BitVec 16) (w : Nat) {s : State} (h : s.mem.wf = true) :
    (acquireWord bs t a w s).mem.wf = true :=
  foldl_wf _ (fun _ _ hs => dropSliceLine_wf _ _ _ hs) _ (foldl_wf _ (fun _ _ hs => dropL1_wf _ _ _ hs) _ h)

/-! ## Context images -/

theorem countDown_mem (n : Nat) (s : State) : (countDown n s).mem = s.mem := by
  unfold countDown
  dsimp only [State.nextFree]
  split
  · split <;> rfl
  · rfl
theorem saveImage_wf (n key : Nat) {s : State} (h : s.mem.wf = true) : (saveImage n key s).mem.wf = true := by
  unfold saveImage
  refine foldl_wf _ (fun s x hs => memPut_wf _ _ _ hs) _ (foldl_wf _ (fun s x hs => memPut_wf _ _ _ hs) _ ?_)
  simpa [State.nextFree, countDown_mem] using h
@[simp] theorem retireBoth_mem (i : Instr) (s : State) : (M.state (retireBoth i) s).mem = s.mem := rfl

end Sys2Proof.Machine
end

