-- ==== Sys2Proof/Laws/Monad.lean ====
section
/-! SUPPORT. How the parts of a meaning run on a state. -/
namespace Sys2Proof.Machine.M

@[simp] theorem bind_apply {α β : Type} (x : M α) (f : α → M β) (s : State) :
    (x >>= f) s = match x s with | .ok a t => f a t | .error e t => .error e t := by
  simp only [bind, EStateM.bind]; cases x s <;> rfl
@[simp] theorem pure_apply {α : Type} (a : α) (s : State) : (pure a : M α) s = .ok a s := rfl
@[simp] theorem get_apply (s : State) : (get : M State) s = .ok s s := rfl
@[simp] theorem set_apply (t s : State) : (set t : M PUnit) s = .ok PUnit.unit t := rfl
@[simp] theorem modify_apply (f : State → State) (s : State) : (modify f : M PUnit) s = .ok PUnit.unit (f s) := rfl
@[simp] theorem throw_apply {α : Type} (e : Unit) (s : State) : (throw e : M α) s = .error e s := rfl
@[simp] theorem map_apply {α β : Type} (f : α → β) (x : M α) (s : State) :
    (f <$> x) s = match x s with | .ok a t => .ok (f a) t | .error e t => .error e t := by
  simp only [Functor.map, EStateM.map]; cases x s <;> rfl
@[simp] theorem seqRight_apply {α β : Type} (x : M α) (y : M β) (s : State) :
    (x *> y) s = match x s with | .ok _ t => y t | .error e t => .error e t := by
  simp only [SeqRight.seqRight, EStateM.seqRight]; cases x s <;> rfl
@[simp] theorem ite_apply {α : Type} (c : Prop) [Decidable c] (x y : M α) (s : State) :
    (if c then x else y) s = if c then x s else y s := by split <;> rfl
@[simp] theorem actMe_apply (f : Slot → Slot) (s : State) : actMe f s = .ok () (s.modMe f) := rfl
@[simp] theorem getMe_apply (s : State) : getMe s = .ok s.me s := rfl
@[simp] theorem haltWith_apply {α : Type} (f : State → State) (s : State) : (haltWith f : M α) s = .error () (f s) := rfl
@[simp] theorem halt_apply {α : Type} (s : State) : (halt : M α) s = .error () s := rfl
@[simp] theorem holdUnless_true (s : State) : holdUnless true s = .ok () s := rfl
theorem step_ok {m : M Unit} {s t : State} (h : m s = .ok () t) : M.step m s = .next t := by simp [M.step, h]
theorem step_error {m : M Unit} {s t : State} (h : m s = .error () t) : M.step m s = .next t := by simp [M.step, h]
theorem step_eq_state (m : M Unit) (s : State) : M.step m s = .next (M.state m s) := by
  unfold M.step M.state; cases m s <;> rfl
/-- A meaning never stops the machine. -/
theorem step_next (m : M Unit) (s : State) : ∃ t, M.step m s = .next t := by
  unfold M.step; cases m s <;> exact ⟨_, rfl⟩

end Sys2Proof.Machine.M
end

