-- ==== Sys2Proof/Laws/State.lean ====
section
/-! SUPPORT. What an update leaves: one lemma for each field of the state, and of a slot, and each update. -/
namespace Sys2Proof.Machine

/-! ## Maps with number keys -/

@[simp] theorem SMap.get?_set_self {α : Type} (m : SMap α) (k : Nat) (v : α) : SMap.get? (SMap.set m k v) k = some v := by
  induction m with
  | nil => simp [SMap.set, SMap.get?]
  | cons t m ih =>
    obtain ⟨a, x⟩ := t
    simp only [SMap.set]
    split
    · simp [SMap.get?]
    · split
      · simp [SMap.get?]
      · simp_all [SMap.get?]

theorem SMap.get?_set_of_ne {α : Type} (m : SMap α) {j k : Nat} (h : j ≠ k) (v : α) :
    SMap.get? (SMap.set m k v) j = SMap.get? m j := by
  induction m with
  | nil => simp [SMap.set, SMap.get?, h]
  | cons t m ih =>
    obtain ⟨a, x⟩ := t
    simp only [SMap.set]
    split
    · next e => subst e; simp [SMap.get?, h]
    · split
      · simp [SMap.get?, h]
      · simp only [SMap.get?]; split
        · rfl
        · exact ih

@[simp] theorem SMap.get_set_self {α : Type} (m : SMap α) (k : Nat) (v d : α) : SMap.get (SMap.set m k v) k d = v := by
  simp [SMap.get]

theorem SMap.get_set_of_ne {α : Type} (m : SMap α) {j k : Nat} (h : j ≠ k) (v d : α) :
    SMap.get (SMap.set m k v) j d = SMap.get m j d := by
  simp [SMap.get, SMap.get?_set_of_ne m h]

@[simp] theorem SMap.set_set {α : Type} (m : SMap α) (k : Nat) (v w : α) : SMap.set (SMap.set m k v) k w = SMap.set m k w := by
  induction m with
  | nil => simp [SMap.set]
  | cons t m ih =>
    obtain ⟨a, x⟩ := t
    simp only [SMap.set]
    split
    · simp [SMap.set]
    · split
      · simp [SMap.set]
      · simp_all [SMap.set]

/-! ## Updates of the state -/

@[simp] theorem State.slot_setSlot (s : State) (n : Nat) (x : Slot) : (s.setSlot n x).slot n = x := by
  simp [State.slot, State.setSlot]
theorem State.slot_setSlot_of_ne (s : State) {n k : Nat} (h : k ≠ n) (x : Slot) : (s.setSlot n x).slot k = s.slot k := by
  simp [State.slot, State.setSlot, SMap.get_set_of_ne _ h]
@[simp] theorem State.setSlot_setSlot (s : State) (n : Nat) (x y : Slot) : (s.setSlot n x).setSlot n y = s.setSlot n y := by
  simp [State.setSlot]
@[simp] theorem State.slot_modSlot (n : Nat) (f : Slot → Slot) (s : State) : (s.modSlot n f).slot n = f (s.slot n) := by
  simp [State.modSlot]
theorem State.slot_modSlot_of_ne {n k : Nat} (h : k ≠ n) (f : Slot → Slot) (s : State) : (s.modSlot n f).slot k = s.slot k := by
  simp [State.modSlot, State.slot_setSlot_of_ne _ h]
@[simp] theorem State.me_modMe (f : Slot → Slot) (s : State) : (s.modMe f).me = f s.me := by
  simp [State.me, State.modMe, State.modSlot, State.slot, State.setSlot]
@[simp] theorem State.slot_cur (s : State) : s.slot s.cur.slot = s.me := rfl

@[simp] theorem State.setSlot_power (s : State) (n : Nat) (x : Slot) : (s.setSlot n x).power = s.power := rfl
@[simp] theorem State.setSlot_stage (s : State) (n : Nat) (x : Slot) : (s.setSlot n x).stage = s.stage := rfl
@[simp] theorem State.setSlot_halted (s : State) (n : Nat) (x : Slot) : (s.setSlot n x).halted = s.halted := rfl
@[simp] theorem State.setSlot_cur (s : State) (n : Nat) (x : Slot) : (s.setSlot n x).cur = s.cur := rfl
@[simp] theorem State.setSlot_turns (s : State) (n : Nat) (x : Slot) : (s.setSlot n x).turns = s.turns := rfl
@[simp] theorem State.setSlot_free (s : State) (n : Nat) (x : Slot) : (s.setSlot n x).free = s.free := rfl
@[simp] theorem State.setSlot_clock (s : State) (n : Nat) (x : Slot) : (s.setSlot n x).clock = s.clock := rfl
@[simp] theorem State.setSlot_mem (s : State) (n : Nat) (x : Slot) : (s.setSlot n x).mem = s.mem := rfl
@[simp] theorem State.setSlot_full (s : State) (n : Nat) (x : Slot) : (s.setSlot n x).full = s.full := rfl
@[simp] theorem State.setSlot_poison (s : State) (n : Nat) (x : Slot) : (s.setSlot n x).poison = s.poison := rfl
@[simp] theorem State.setSlot_latent (s : State) (n : Nat) (x : Slot) : (s.setSlot n x).latent = s.latent := rfl
@[simp] theorem State.setSlot_past (s : State) (n : Nat) (x : Slot) : (s.setSlot n x).past = s.past := rfl
@[simp] theorem State.setSlot_seen (s : State) (n : Nat) (x : Slot) : (s.setSlot n x).seen = s.seen := rfl
@[simp] theorem State.setSlot_kpast (s : State) (n : Nat) (x : Slot) : (s.setSlot n x).kpast = s.kpast := rfl
@[simp] theorem State.setSlot_gone (s : State) (n : Nat) (x : Slot) : (s.setSlot n x).gone = s.gone := rfl
@[simp] theorem State.setSlot_pkg (s : State) (n : Nat) (x : Slot) : (s.setSlot n x).pkg = s.pkg := rfl
@[simp] theorem State.setSlot_cores (s : State) (n : Nat) (x : Slot) : (s.setSlot n x).cores = s.cores := rfl
@[simp] theorem State.setSlot_tiles (s : State) (n : Nat) (x : Slot) : (s.setSlot n x).tiles = s.tiles := rfl
@[simp] theorem State.setSlot_vaults (s : State) (n : Nat) (x : Slot) : (s.setSlot n x).vaults = s.vaults := rfl
@[simp] theorem State.setSlot_dies (s : State) (n : Nat) (x : Slot) : (s.setSlot n x).dies = s.dies := rfl
@[simp] theorem State.setSlot_flights (s : State) (n : Nat) (x : Slot) : (s.setSlot n x).flights = s.flights := rfl
@[simp] theorem State.setSlot_rings (s : State) (n : Nat) (x : Slot) : (s.setSlot n x).rings = s.rings := rfl
@[simp] theorem State.setSlot_objects (s : State) (n : Nat) (x : Slot) : (s.setSlot n x).objects = s.objects := rfl
@[simp] theorem State.setSlot_nextFetch (s : State) (n : Nat) (x : Slot) : (s.setSlot n x).nextFetch = s.nextFetch := rfl
@[simp] theorem State.setSlot_tasks (s : State) (n : Nat) (x : Slot) : (s.setSlot n x).tasks = s.tasks := rfl
@[simp] theorem State.setSlot_nextTask (s : State) (n : Nat) (x : Slot) : (s.setSlot n x).nextTask = s.nextTask := rfl
@[simp] theorem State.setSlot_seq (s : State) (n : Nat) (x : Slot) : (s.setSlot n x).seq = s.seq := rfl
@[simp] theorem State.setSlot_queues (s : State) (n : Nat) (x : Slot) : (s.setSlot n x).queues = s.queues := rfl
@[simp] theorem State.setSlot_parts (s : State) (n : Nat) (x : Slot) : (s.setSlot n x).parts = s.parts := rfl
@[simp] theorem State.setSlot_prects (s : State) (n : Nat) (x : Slot) : (s.setSlot n x).prects = s.prects := rfl
@[simp] theorem State.setSlot_domains (s : State) (n : Nat) (x : Slot) : (s.setSlot n x).domains = s.domains := rfl
@[simp] theorem State.setSlot_ports (s : State) (n : Nat) (x : Slot) : (s.setSlot n x).ports = s.ports := rfl
@[simp] theorem State.setSlot_remotes (s : State) (n : Nat) (x : Slot) : (s.setSlot n x).remotes = s.remotes := rfl
@[simp] theorem State.setSlot_remoteWait (s : State) (n : Nat) (x : Slot) : (s.setSlot n x).remoteWait = s.remoteWait := rfl
@[simp] theorem State.setSlot_qpairs (s : State) (n : Nat) (x : Slot) : (s.setSlot n x).qpairs = s.qpairs := rfl
@[simp] theorem State.setSlot_volts (s : State) (n : Nat) (x : Slot) : (s.setSlot n x).volts = s.volts := rfl
@[simp] theorem State.setSlot_blackbox (s : State) (n : Nat) (x : Slot) : (s.setSlot n x).blackbox = s.blackbox := rfl
@[simp] theorem State.setSlot_errs (s : State) (n : Nat) (x : Slot) : (s.setSlot n x).errs = s.errs := rfl
@[simp] theorem State.setSlot_repairs (s : State) (n : Nat) (x : Slot) : (s.setSlot n x).repairs = s.repairs := rfl
@[simp] theorem State.setSlot_svcInt (s : State) (n : Nat) (x : Slot) : (s.setSlot n x).svcInt = s.svcInt := rfl
@[simp] theorem State.setSlot_reports (s : State) (n : Nat) (x : Slot) : (s.setSlot n x).reports = s.reports := rfl
@[simp] theorem State.setSlot_dwedar (s : State) (n : Nat) (x : Slot) : (s.setSlot n x).dwedar = s.dwedar := rfl
@[simp] theorem State.modSlot_power (s : State) (n : Nat) (f : Slot → Slot) : (s.modSlot n f).power = s.power := rfl
@[simp] theorem State.modSlot_stage (s : State) (n : Nat) (f : Slot → Slot) : (s.modSlot n f).stage = s.stage := rfl
@[simp] theorem State.modSlot_halted (s : State) (n : Nat) (f : Slot → Slot) : (s.modSlot n f).halted = s.halted := rfl
@[simp] theorem State.modSlot_cur (s : State) (n : Nat) (f : Slot → Slot) : (s.modSlot n f).cur = s.cur := rfl
@[simp] theorem State.modSlot_turns (s : State) (n : Nat) (f : Slot → Slot) : (s.modSlot n f).turns = s.turns := rfl
@[simp] theorem State.modSlot_free (s : State) (n : Nat) (f : Slot → Slot) : (s.modSlot n f).free = s.free := rfl
@[simp] theorem State.modSlot_clock (s : State) (n : Nat) (f : Slot → Slot) : (s.modSlot n f).clock = s.clock := rfl
@[simp] theorem State.modSlot_mem (s : State) (n : Nat) (f : Slot → Slot) : (s.modSlot n f).mem = s.mem := rfl
@[simp] theorem State.modSlot_full (s : State) (n : Nat) (f : Slot → Slot) : (s.modSlot n f).full = s.full := rfl
@[simp] theorem State.modSlot_poison (s : State) (n : Nat) (f : Slot → Slot) : (s.modSlot n f).poison = s.poison := rfl
@[simp] theorem State.modSlot_latent (s : State) (n : Nat) (f : Slot → Slot) : (s.modSlot n f).latent = s.latent := rfl
@[simp] theorem State.modSlot_past (s : State) (n : Nat) (f : Slot → Slot) : (s.modSlot n f).past = s.past := rfl
@[simp] theorem State.modSlot_seen (s : State) (n : Nat) (f : Slot → Slot) : (s.modSlot n f).seen = s.seen := rfl
@[simp] theorem State.modSlot_kpast (s : State) (n : Nat) (f : Slot → Slot) : (s.modSlot n f).kpast = s.kpast := rfl
@[simp] theorem State.modSlot_gone (s : State) (n : Nat) (f : Slot → Slot) : (s.modSlot n f).gone = s.gone := rfl
@[simp] theorem State.modSlot_pkg (s : State) (n : Nat) (f : Slot → Slot) : (s.modSlot n f).pkg = s.pkg := rfl
@[simp] theorem State.modSlot_cores (s : State) (n : Nat) (f : Slot → Slot) : (s.modSlot n f).cores = s.cores := rfl
@[simp] theorem State.modSlot_tiles (s : State) (n : Nat) (f : Slot → Slot) : (s.modSlot n f).tiles = s.tiles := rfl
@[simp] theorem State.modSlot_vaults (s : State) (n : Nat) (f : Slot → Slot) : (s.modSlot n f).vaults = s.vaults := rfl
@[simp] theorem State.modSlot_dies (s : State) (n : Nat) (f : Slot → Slot) : (s.modSlot n f).dies = s.dies := rfl
@[simp] theorem State.modSlot_flights (s : State) (n : Nat) (f : Slot → Slot) : (s.modSlot n f).flights = s.flights := rfl
@[simp] theorem State.modSlot_rings (s : State) (n : Nat) (f : Slot → Slot) : (s.modSlot n f).rings = s.rings := rfl
@[simp] theorem State.modSlot_objects (s : State) (n : Nat) (f : Slot → Slot) : (s.modSlot n f).objects = s.objects := rfl
@[simp] theorem State.modSlot_nextFetch (s : State) (n : Nat) (f : Slot → Slot) : (s.modSlot n f).nextFetch = s.nextFetch := rfl
@[simp] theorem State.modSlot_tasks (s : State) (n : Nat) (f : Slot → Slot) : (s.modSlot n f).tasks = s.tasks := rfl
@[simp] theorem State.modSlot_nextTask (s : State) (n : Nat) (f : Slot → Slot) : (s.modSlot n f).nextTask = s.nextTask := rfl
@[simp] theorem State.modSlot_seq (s : State) (n : Nat) (f : Slot → Slot) : (s.modSlot n f).seq = s.seq := rfl
@[simp] theorem State.modSlot_queues (s : State) (n : Nat) (f : Slot → Slot) : (s.modSlot n f).queues = s.queues := rfl
@[simp] theorem State.modSlot_parts (s : State) (n : Nat) (f : Slot → Slot) : (s.modSlot n f).parts = s.parts := rfl
@[simp] theorem State.modSlot_prects (s : State) (n : Nat) (f : Slot → Slot) : (s.modSlot n f).prects = s.prects := rfl
@[simp] theorem State.modSlot_domains (s : State) (n : Nat) (f : Slot → Slot) : (s.modSlot n f).domains = s.domains := rfl
@[simp] theorem State.modSlot_ports (s : State) (n : Nat) (f : Slot → Slot) : (s.modSlot n f).ports = s.ports := rfl
@[simp] theorem State.modSlot_remotes (s : State) (n : Nat) (f : Slot → Slot) : (s.modSlot n f).remotes = s.remotes := rfl
@[simp] theorem State.modSlot_remoteWait (s : State) (n : Nat) (f : Slot → Slot) : (s.modSlot n f).remoteWait = s.remoteWait := rfl
@[simp] theorem State.modSlot_qpairs (s : State) (n : Nat) (f : Slot → Slot) : (s.modSlot n f).qpairs = s.qpairs := rfl
@[simp] theorem State.modSlot_volts (s : State) (n : Nat) (f : Slot → Slot) : (s.modSlot n f).volts = s.volts := rfl
@[simp] theorem State.modSlot_blackbox (s : State) (n : Nat) (f : Slot → Slot) : (s.modSlot n f).blackbox = s.blackbox := rfl
@[simp] theorem State.modSlot_errs (s : State) (n : Nat) (f : Slot → Slot) : (s.modSlot n f).errs = s.errs := rfl
@[simp] theorem State.modSlot_repairs (s : State) (n : Nat) (f : Slot → Slot) : (s.modSlot n f).repairs = s.repairs := rfl
@[simp] theorem State.modSlot_svcInt (s : State) (n : Nat) (f : Slot → Slot) : (s.modSlot n f).svcInt = s.svcInt := rfl
@[simp] theorem State.modSlot_reports (s : State) (n : Nat) (f : Slot → Slot) : (s.modSlot n f).reports = s.reports := rfl
@[simp] theorem State.modSlot_dwedar (s : State) (n : Nat) (f : Slot → Slot) : (s.modSlot n f).dwedar = s.dwedar := rfl
@[simp] theorem State.modMe_power (s : State) (f : Slot → Slot) : (s.modMe f).power = s.power := rfl
@[simp] theorem State.modMe_stage (s : State) (f : Slot → Slot) : (s.modMe f).stage = s.stage := rfl
@[simp] theorem State.modMe_halted (s : State) (f : Slot → Slot) : (s.modMe f).halted = s.halted := rfl
@[simp] theorem State.modMe_cur (s : State) (f : Slot → Slot) : (s.modMe f).cur = s.cur := rfl
@[simp] theorem State.modMe_turns (s : State) (f : Slot → Slot) : (s.modMe f).turns = s.turns := rfl
@[simp] theorem State.modMe_free (s : State) (f : Slot → Slot) : (s.modMe f).free = s.free := rfl
@[simp] theorem State.modMe_clock (s : State) (f : Slot → Slot) : (s.modMe f).clock = s.clock := rfl
@[simp] theorem State.modMe_mem (s : State) (f : Slot → Slot) : (s.modMe f).mem = s.mem := rfl
@[simp] theorem State.modMe_full (s : State) (f : Slot → Slot) : (s.modMe f).full = s.full := rfl
@[simp] theorem State.modMe_poison (s : State) (f : Slot → Slot) : (s.modMe f).poison = s.poison := rfl
@[simp] theorem State.modMe_latent (s : State) (f : Slot → Slot) : (s.modMe f).latent = s.latent := rfl
@[simp] theorem State.modMe_past (s : State) (f : Slot → Slot) : (s.modMe f).past = s.past := rfl
@[simp] theorem State.modMe_seen (s : State) (f : Slot → Slot) : (s.modMe f).seen = s.seen := rfl
@[simp] theorem State.modMe_kpast (s : State) (f : Slot → Slot) : (s.modMe f).kpast = s.kpast := rfl
@[simp] theorem State.modMe_gone (s : State) (f : Slot → Slot) : (s.modMe f).gone = s.gone := rfl
@[simp] theorem State.modMe_pkg (s : State) (f : Slot → Slot) : (s.modMe f).pkg = s.pkg := rfl
@[simp] theorem State.modMe_cores (s : State) (f : Slot → Slot) : (s.modMe f).cores = s.cores := rfl
@[simp] theorem State.modMe_tiles (s : State) (f : Slot → Slot) : (s.modMe f).tiles = s.tiles := rfl
@[simp] theorem State.modMe_vaults (s : State) (f : Slot → Slot) : (s.modMe f).vaults = s.vaults := rfl
@[simp] theorem State.modMe_dies (s : State) (f : Slot → Slot) : (s.modMe f).dies = s.dies := rfl
@[simp] theorem State.modMe_flights (s : State) (f : Slot → Slot) : (s.modMe f).flights = s.flights := rfl
@[simp] theorem State.modMe_rings (s : State) (f : Slot → Slot) : (s.modMe f).rings = s.rings := rfl
@[simp] theorem State.modMe_objects (s : State) (f : Slot → Slot) : (s.modMe f).objects = s.objects := rfl
@[simp] theorem State.modMe_nextFetch (s : State) (f : Slot → Slot) : (s.modMe f).nextFetch = s.nextFetch := rfl
@[simp] theorem State.modMe_tasks (s : State) (f : Slot → Slot) : (s.modMe f).tasks = s.tasks := rfl
@[simp] theorem State.modMe_nextTask (s : State) (f : Slot → Slot) : (s.modMe f).nextTask = s.nextTask := rfl
@[simp] theorem State.modMe_seq (s : State) (f : Slot → Slot) : (s.modMe f).seq = s.seq := rfl
@[simp] theorem State.modMe_queues (s : State) (f : Slot → Slot) : (s.modMe f).queues = s.queues := rfl
@[simp] theorem State.modMe_parts (s : State) (f : Slot → Slot) : (s.modMe f).parts = s.parts := rfl
@[simp] theorem State.modMe_prects (s : State) (f : Slot → Slot) : (s.modMe f).prects = s.prects := rfl
@[simp] theorem State.modMe_domains (s : State) (f : Slot → Slot) : (s.modMe f).domains = s.domains := rfl
@[simp] theorem State.modMe_ports (s : State) (f : Slot → Slot) : (s.modMe f).ports = s.ports := rfl
@[simp] theorem State.modMe_remotes (s : State) (f : Slot → Slot) : (s.modMe f).remotes = s.remotes := rfl
@[simp] theorem State.modMe_remoteWait (s : State) (f : Slot → Slot) : (s.modMe f).remoteWait = s.remoteWait := rfl
@[simp] theorem State.modMe_qpairs (s : State) (f : Slot → Slot) : (s.modMe f).qpairs = s.qpairs := rfl
@[simp] theorem State.modMe_volts (s : State) (f : Slot → Slot) : (s.modMe f).volts = s.volts := rfl
@[simp] theorem State.modMe_blackbox (s : State) (f : Slot → Slot) : (s.modMe f).blackbox = s.blackbox := rfl
@[simp] theorem State.modMe_errs (s : State) (f : Slot → Slot) : (s.modMe f).errs = s.errs := rfl
@[simp] theorem State.modMe_repairs (s : State) (f : Slot → Slot) : (s.modMe f).repairs = s.repairs := rfl
@[simp] theorem State.modMe_svcInt (s : State) (f : Slot → Slot) : (s.modMe f).svcInt = s.svcInt := rfl
@[simp] theorem State.modMe_reports (s : State) (f : Slot → Slot) : (s.modMe f).reports = s.reports := rfl
@[simp] theorem State.modMe_dwedar (s : State) (f : Slot → Slot) : (s.modMe f).dwedar = s.dwedar := rfl
@[simp] theorem State.modCore_power (s : State) (n : Nat) (f : Core → Core) : (s.modCore n f).power = s.power := rfl
@[simp] theorem State.modCore_stage (s : State) (n : Nat) (f : Core → Core) : (s.modCore n f).stage = s.stage := rfl
@[simp] theorem State.modCore_halted (s : State) (n : Nat) (f : Core → Core) : (s.modCore n f).halted = s.halted := rfl
@[simp] theorem State.modCore_cur (s : State) (n : Nat) (f : Core → Core) : (s.modCore n f).cur = s.cur := rfl
@[simp] theorem State.modCore_turns (s : State) (n : Nat) (f : Core → Core) : (s.modCore n f).turns = s.turns := rfl
@[simp] theorem State.modCore_free (s : State) (n : Nat) (f : Core → Core) : (s.modCore n f).free = s.free := rfl
@[simp] theorem State.modCore_clock (s : State) (n : Nat) (f : Core → Core) : (s.modCore n f).clock = s.clock := rfl
@[simp] theorem State.modCore_mem (s : State) (n : Nat) (f : Core → Core) : (s.modCore n f).mem = s.mem := rfl
@[simp] theorem State.modCore_full (s : State) (n : Nat) (f : Core → Core) : (s.modCore n f).full = s.full := rfl
@[simp] theorem State.modCore_poison (s : State) (n : Nat) (f : Core → Core) : (s.modCore n f).poison = s.poison := rfl
@[simp] theorem State.modCore_latent (s : State) (n : Nat) (f : Core → Core) : (s.modCore n f).latent = s.latent := rfl
@[simp] theorem State.modCore_past (s : State) (n : Nat) (f : Core → Core) : (s.modCore n f).past = s.past := rfl
@[simp] theorem State.modCore_seen (s : State) (n : Nat) (f : Core → Core) : (s.modCore n f).seen = s.seen := rfl
@[simp] theorem State.modCore_kpast (s : State) (n : Nat) (f : Core → Core) : (s.modCore n f).kpast = s.kpast := rfl
@[simp] theorem State.modCore_gone (s : State) (n : Nat) (f : Core → Core) : (s.modCore n f).gone = s.gone := rfl
@[simp] theorem State.modCore_pkg (s : State) (n : Nat) (f : Core → Core) : (s.modCore n f).pkg = s.pkg := rfl
@[simp] theorem State.modCore_slots (s : State) (n : Nat) (f : Core → Core) : (s.modCore n f).slots = s.slots := rfl
@[simp] theorem State.modCore_tiles (s : State) (n : Nat) (f : Core → Core) : (s.modCore n f).tiles = s.tiles := rfl
@[simp] theorem State.modCore_vaults (s : State) (n : Nat) (f : Core → Core) : (s.modCore n f).vaults = s.vaults := rfl
@[simp] theorem State.modCore_dies (s : State) (n : Nat) (f : Core → Core) : (s.modCore n f).dies = s.dies := rfl
@[simp] theorem State.modCore_flights (s : State) (n : Nat) (f : Core → Core) : (s.modCore n f).flights = s.flights := rfl
@[simp] theorem State.modCore_rings (s : State) (n : Nat) (f : Core → Core) : (s.modCore n f).rings = s.rings := rfl
@[simp] theorem State.modCore_objects (s : State) (n : Nat) (f : Core → Core) : (s.modCore n f).objects = s.objects := rfl
@[simp] theorem State.modCore_nextFetch (s : State) (n : Nat) (f : Core → Core) : (s.modCore n f).nextFetch = s.nextFetch := rfl
@[simp] theorem State.modCore_tasks (s : State) (n : Nat) (f : Core → Core) : (s.modCore n f).tasks = s.tasks := rfl
@[simp] theorem State.modCore_nextTask (s : State) (n : Nat) (f : Core → Core) : (s.modCore n f).nextTask = s.nextTask := rfl
@[simp] theorem State.modCore_seq (s : State) (n : Nat) (f : Core → Core) : (s.modCore n f).seq = s.seq := rfl
@[simp] theorem State.modCore_queues (s : State) (n : Nat) (f : Core → Core) : (s.modCore n f).queues = s.queues := rfl
@[simp] theorem State.modCore_parts (s : State) (n : Nat) (f : Core → Core) : (s.modCore n f).parts = s.parts := rfl
@[simp] theorem State.modCore_prects (s : State) (n : Nat) (f : Core → Core) : (s.modCore n f).prects = s.prects := rfl
@[simp] theorem State.modCore_domains (s : State) (n : Nat) (f : Core → Core) : (s.modCore n f).domains = s.domains := rfl
@[simp] theorem State.modCore_ports (s : State) (n : Nat) (f : Core → Core) : (s.modCore n f).ports = s.ports := rfl
@[simp] theorem State.modCore_remotes (s : State) (n : Nat) (f : Core → Core) : (s.modCore n f).remotes = s.remotes := rfl
@[simp] theorem State.modCore_remoteWait (s : State) (n : Nat) (f : Core → Core) : (s.modCore n f).remoteWait = s.remoteWait := rfl
@[simp] theorem State.modCore_qpairs (s : State) (n : Nat) (f : Core → Core) : (s.modCore n f).qpairs = s.qpairs := rfl
@[simp] theorem State.modCore_volts (s : State) (n : Nat) (f : Core → Core) : (s.modCore n f).volts = s.volts := rfl
@[simp] theorem State.modCore_blackbox (s : State) (n : Nat) (f : Core → Core) : (s.modCore n f).blackbox = s.blackbox := rfl
@[simp] theorem State.modCore_errs (s : State) (n : Nat) (f : Core → Core) : (s.modCore n f).errs = s.errs := rfl
@[simp] theorem State.modCore_repairs (s : State) (n : Nat) (f : Core → Core) : (s.modCore n f).repairs = s.repairs := rfl
@[simp] theorem State.modCore_svcInt (s : State) (n : Nat) (f : Core → Core) : (s.modCore n f).svcInt = s.svcInt := rfl
@[simp] theorem State.modCore_reports (s : State) (n : Nat) (f : Core → Core) : (s.modCore n f).reports = s.reports := rfl
@[simp] theorem State.modCore_dwedar (s : State) (n : Nat) (f : Core → Core) : (s.modCore n f).dwedar = s.dwedar := rfl
@[simp] theorem State.modTile_power (s : State) (n : Nat) (f : Tile → Tile) : (s.modTile n f).power = s.power := rfl
@[simp] theorem State.modTile_stage (s : State) (n : Nat) (f : Tile → Tile) : (s.modTile n f).stage = s.stage := rfl
@[simp] theorem State.modTile_halted (s : State) (n : Nat) (f : Tile → Tile) : (s.modTile n f).halted = s.halted := rfl
@[simp] theorem State.modTile_cur (s : State) (n : Nat) (f : Tile → Tile) : (s.modTile n f).cur = s.cur := rfl
@[simp] theorem State.modTile_turns (s : State) (n : Nat) (f : Tile → Tile) : (s.modTile n f).turns = s.turns := rfl
@[simp] theorem State.modTile_free (s : State) (n : Nat) (f : Tile → Tile) : (s.modTile n f).free = s.free := rfl
@[simp] theorem State.modTile_clock (s : State) (n : Nat) (f : Tile → Tile) : (s.modTile n f).clock = s.clock := rfl
@[simp] theorem State.modTile_mem (s : State) (n : Nat) (f : Tile → Tile) : (s.modTile n f).mem = s.mem := rfl
@[simp] theorem State.modTile_full (s : State) (n : Nat) (f : Tile → Tile) : (s.modTile n f).full = s.full := rfl
@[simp] theorem State.modTile_poison (s : State) (n : Nat) (f : Tile → Tile) : (s.modTile n f).poison = s.poison := rfl
@[simp] theorem State.modTile_latent (s : State) (n : Nat) (f : Tile → Tile) : (s.modTile n f).latent = s.latent := rfl
@[simp] theorem State.modTile_past (s : State) (n : Nat) (f : Tile → Tile) : (s.modTile n f).past = s.past := rfl
@[simp] theorem State.modTile_seen (s : State) (n : Nat) (f : Tile → Tile) : (s.modTile n f).seen = s.seen := rfl
@[simp] theorem State.modTile_kpast (s : State) (n : Nat) (f : Tile → Tile) : (s.modTile n f).kpast = s.kpast := rfl
@[simp] theorem State.modTile_gone (s : State) (n : Nat) (f : Tile → Tile) : (s.modTile n f).gone = s.gone := rfl
@[simp] theorem State.modTile_pkg (s : State) (n : Nat) (f : Tile → Tile) : (s.modTile n f).pkg = s.pkg := rfl
@[simp] theorem State.modTile_slots (s : State) (n : Nat) (f : Tile → Tile) : (s.modTile n f).slots = s.slots := rfl
@[simp] theorem State.modTile_cores (s : State) (n : Nat) (f : Tile → Tile) : (s.modTile n f).cores = s.cores := rfl
@[simp] theorem State.modTile_vaults (s : State) (n : Nat) (f : Tile → Tile) : (s.modTile n f).vaults = s.vaults := rfl
@[simp] theorem State.modTile_dies (s : State) (n : Nat) (f : Tile → Tile) : (s.modTile n f).dies = s.dies := rfl
@[simp] theorem State.modTile_flights (s : State) (n : Nat) (f : Tile → Tile) : (s.modTile n f).flights = s.flights := rfl
@[simp] theorem State.modTile_rings (s : State) (n : Nat) (f : Tile → Tile) : (s.modTile n f).rings = s.rings := rfl
@[simp] theorem State.modTile_objects (s : State) (n : Nat) (f : Tile → Tile) : (s.modTile n f).objects = s.objects := rfl
@[simp] theorem State.modTile_nextFetch (s : State) (n : Nat) (f : Tile → Tile) : (s.modTile n f).nextFetch = s.nextFetch := rfl
@[simp] theorem State.modTile_tasks (s : State) (n : Nat) (f : Tile → Tile) : (s.modTile n f).tasks = s.tasks := rfl
@[simp] theorem State.modTile_nextTask (s : State) (n : Nat) (f : Tile → Tile) : (s.modTile n f).nextTask = s.nextTask := rfl
@[simp] theorem State.modTile_seq (s : State) (n : Nat) (f : Tile → Tile) : (s.modTile n f).seq = s.seq := rfl
@[simp] theorem State.modTile_queues (s : State) (n : Nat) (f : Tile → Tile) : (s.modTile n f).queues = s.queues := rfl
@[simp] theorem State.modTile_parts (s : State) (n : Nat) (f : Tile → Tile) : (s.modTile n f).parts = s.parts := rfl
@[simp] theorem State.modTile_prects (s : State) (n : Nat) (f : Tile → Tile) : (s.modTile n f).prects = s.prects := rfl
@[simp] theorem State.modTile_domains (s : State) (n : Nat) (f : Tile → Tile) : (s.modTile n f).domains = s.domains := rfl
@[simp] theorem State.modTile_ports (s : State) (n : Nat) (f : Tile → Tile) : (s.modTile n f).ports = s.ports := rfl
@[simp] theorem State.modTile_remotes (s : State) (n : Nat) (f : Tile → Tile) : (s.modTile n f).remotes = s.remotes := rfl
@[simp] theorem State.modTile_remoteWait (s : State) (n : Nat) (f : Tile → Tile) : (s.modTile n f).remoteWait = s.remoteWait := rfl
@[simp] theorem State.modTile_qpairs (s : State) (n : Nat) (f : Tile → Tile) : (s.modTile n f).qpairs = s.qpairs := rfl
@[simp] theorem State.modTile_volts (s : State) (n : Nat) (f : Tile → Tile) : (s.modTile n f).volts = s.volts := rfl
@[simp] theorem State.modTile_blackbox (s : State) (n : Nat) (f : Tile → Tile) : (s.modTile n f).blackbox = s.blackbox := rfl
@[simp] theorem State.modTile_errs (s : State) (n : Nat) (f : Tile → Tile) : (s.modTile n f).errs = s.errs := rfl
@[simp] theorem State.modTile_repairs (s : State) (n : Nat) (f : Tile → Tile) : (s.modTile n f).repairs = s.repairs := rfl
@[simp] theorem State.modTile_svcInt (s : State) (n : Nat) (f : Tile → Tile) : (s.modTile n f).svcInt = s.svcInt := rfl
@[simp] theorem State.modTile_reports (s : State) (n : Nat) (f : Tile → Tile) : (s.modTile n f).reports = s.reports := rfl
@[simp] theorem State.modTile_dwedar (s : State) (n : Nat) (f : Tile → Tile) : (s.modTile n f).dwedar = s.dwedar := rfl
@[simp] theorem State.modDie_power (s : State) (n : Nat) (f : Die → Die) : (s.modDie n f).power = s.power := rfl
@[simp] theorem State.modDie_stage (s : State) (n : Nat) (f : Die → Die) : (s.modDie n f).stage = s.stage := rfl
@[simp] theorem State.modDie_halted (s : State) (n : Nat) (f : Die → Die) : (s.modDie n f).halted = s.halted := rfl
@[simp] theorem State.modDie_cur (s : State) (n : Nat) (f : Die → Die) : (s.modDie n f).cur = s.cur := rfl
@[simp] theorem State.modDie_turns (s : State) (n : Nat) (f : Die → Die) : (s.modDie n f).turns = s.turns := rfl
@[simp] theorem State.modDie_free (s : State) (n : Nat) (f : Die → Die) : (s.modDie n f).free = s.free := rfl
@[simp] theorem State.modDie_clock (s : State) (n : Nat) (f : Die → Die) : (s.modDie n f).clock = s.clock := rfl
@[simp] theorem State.modDie_mem (s : State) (n : Nat) (f : Die → Die) : (s.modDie n f).mem = s.mem := rfl
@[simp] theorem State.modDie_full (s : State) (n : Nat) (f : Die → Die) : (s.modDie n f).full = s.full := rfl
@[simp] theorem State.modDie_poison (s : State) (n : Nat) (f : Die → Die) : (s.modDie n f).poison = s.poison := rfl
@[simp] theorem State.modDie_latent (s : State) (n : Nat) (f : Die → Die) : (s.modDie n f).latent = s.latent := rfl
@[simp] theorem State.modDie_past (s : State) (n : Nat) (f : Die → Die) : (s.modDie n f).past = s.past := rfl
@[simp] theorem State.modDie_seen (s : State) (n : Nat) (f : Die → Die) : (s.modDie n f).seen = s.seen := rfl
@[simp] theorem State.modDie_kpast (s : State) (n : Nat) (f : Die → Die) : (s.modDie n f).kpast = s.kpast := rfl
@[simp] theorem State.modDie_gone (s : State) (n : Nat) (f : Die → Die) : (s.modDie n f).gone = s.gone := rfl
@[simp] theorem State.modDie_pkg (s : State) (n : Nat) (f : Die → Die) : (s.modDie n f).pkg = s.pkg := rfl
@[simp] theorem State.modDie_slots (s : State) (n : Nat) (f : Die → Die) : (s.modDie n f).slots = s.slots := rfl
@[simp] theorem State.modDie_cores (s : State) (n : Nat) (f : Die → Die) : (s.modDie n f).cores = s.cores := rfl
@[simp] theorem State.modDie_tiles (s : State) (n : Nat) (f : Die → Die) : (s.modDie n f).tiles = s.tiles := rfl
@[simp] theorem State.modDie_vaults (s : State) (n : Nat) (f : Die → Die) : (s.modDie n f).vaults = s.vaults := rfl
@[simp] theorem State.modDie_flights (s : State) (n : Nat) (f : Die → Die) : (s.modDie n f).flights = s.flights := rfl
@[simp] theorem State.modDie_rings (s : State) (n : Nat) (f : Die → Die) : (s.modDie n f).rings = s.rings := rfl
@[simp] theorem State.modDie_objects (s : State) (n : Nat) (f : Die → Die) : (s.modDie n f).objects = s.objects := rfl
@[simp] theorem State.modDie_nextFetch (s : State) (n : Nat) (f : Die → Die) : (s.modDie n f).nextFetch = s.nextFetch := rfl
@[simp] theorem State.modDie_tasks (s : State) (n : Nat) (f : Die → Die) : (s.modDie n f).tasks = s.tasks := rfl
@[simp] theorem State.modDie_nextTask (s : State) (n : Nat) (f : Die → Die) : (s.modDie n f).nextTask = s.nextTask := rfl
@[simp] theorem State.modDie_seq (s : State) (n : Nat) (f : Die → Die) : (s.modDie n f).seq = s.seq := rfl
@[simp] theorem State.modDie_queues (s : State) (n : Nat) (f : Die → Die) : (s.modDie n f).queues = s.queues := rfl
@[simp] theorem State.modDie_parts (s : State) (n : Nat) (f : Die → Die) : (s.modDie n f).parts = s.parts := rfl
@[simp] theorem State.modDie_prects (s : State) (n : Nat) (f : Die → Die) : (s.modDie n f).prects = s.prects := rfl
@[simp] theorem State.modDie_domains (s : State) (n : Nat) (f : Die → Die) : (s.modDie n f).domains = s.domains := rfl
@[simp] theorem State.modDie_ports (s : State) (n : Nat) (f : Die → Die) : (s.modDie n f).ports = s.ports := rfl
@[simp] theorem State.modDie_remotes (s : State) (n : Nat) (f : Die → Die) : (s.modDie n f).remotes = s.remotes := rfl
@[simp] theorem State.modDie_remoteWait (s : State) (n : Nat) (f : Die → Die) : (s.modDie n f).remoteWait = s.remoteWait := rfl
@[simp] theorem State.modDie_qpairs (s : State) (n : Nat) (f : Die → Die) : (s.modDie n f).qpairs = s.qpairs := rfl
@[simp] theorem State.modDie_volts (s : State) (n : Nat) (f : Die → Die) : (s.modDie n f).volts = s.volts := rfl
@[simp] theorem State.modDie_blackbox (s : State) (n : Nat) (f : Die → Die) : (s.modDie n f).blackbox = s.blackbox := rfl
@[simp] theorem State.modDie_errs (s : State) (n : Nat) (f : Die → Die) : (s.modDie n f).errs = s.errs := rfl
@[simp] theorem State.modDie_repairs (s : State) (n : Nat) (f : Die → Die) : (s.modDie n f).repairs = s.repairs := rfl
@[simp] theorem State.modDie_svcInt (s : State) (n : Nat) (f : Die → Die) : (s.modDie n f).svcInt = s.svcInt := rfl
@[simp] theorem State.modDie_reports (s : State) (n : Nat) (f : Die → Die) : (s.modDie n f).reports = s.reports := rfl
@[simp] theorem State.modDie_dwedar (s : State) (n : Nat) (f : Die → Die) : (s.modDie n f).dwedar = s.dwedar := rfl
@[simp] theorem State.modVault_power (s : State) (n : Nat) (f : Vault → Vault) : (s.modVault n f).power = s.power := rfl
@[simp] theorem State.modVault_stage (s : State) (n : Nat) (f : Vault → Vault) : (s.modVault n f).stage = s.stage := rfl
@[simp] theorem State.modVault_halted (s : State) (n : Nat) (f : Vault → Vault) : (s.modVault n f).halted = s.halted := rfl
@[simp] theorem State.modVault_cur (s : State) (n : Nat) (f : Vault → Vault) : (s.modVault n f).cur = s.cur := rfl
@[simp] theorem State.modVault_turns (s : State) (n : Nat) (f : Vault → Vault) : (s.modVault n f).turns = s.turns := rfl
@[simp] theorem State.modVault_free (s : State) (n : Nat) (f : Vault → Vault) : (s.modVault n f).free = s.free := rfl
@[simp] theorem State.modVault_clock (s : State) (n : Nat) (f : Vault → Vault) : (s.modVault n f).clock = s.clock := rfl
@[simp] theorem State.modVault_mem (s : State) (n : Nat) (f : Vault → Vault) : (s.modVault n f).mem = s.mem := rfl
@[simp] theorem State.modVault_full (s : State) (n : Nat) (f : Vault → Vault) : (s.modVault n f).full = s.full := rfl
@[simp] theorem State.modVault_poison (s : State) (n : Nat) (f : Vault → Vault) : (s.modVault n f).poison = s.poison := rfl
@[simp] theorem State.modVault_latent (s : State) (n : Nat) (f : Vault → Vault) : (s.modVault n f).latent = s.latent := rfl
@[simp] theorem State.modVault_past (s : State) (n : Nat) (f : Vault → Vault) : (s.modVault n f).past = s.past := rfl
@[simp] theorem State.modVault_seen (s : State) (n : Nat) (f : Vault → Vault) : (s.modVault n f).seen = s.seen := rfl
@[simp] theorem State.modVault_kpast (s : State) (n : Nat) (f : Vault → Vault) : (s.modVault n f).kpast = s.kpast := rfl
@[simp] theorem State.modVault_gone (s : State) (n : Nat) (f : Vault → Vault) : (s.modVault n f).gone = s.gone := rfl
@[simp] theorem State.modVault_pkg (s : State) (n : Nat) (f : Vault → Vault) : (s.modVault n f).pkg = s.pkg := rfl
@[simp] theorem State.modVault_slots (s : State) (n : Nat) (f : Vault → Vault) : (s.modVault n f).slots = s.slots := rfl
@[simp] theorem State.modVault_cores (s : State) (n : Nat) (f : Vault → Vault) : (s.modVault n f).cores = s.cores := rfl
@[simp] theorem State.modVault_tiles (s : State) (n : Nat) (f : Vault → Vault) : (s.modVault n f).tiles = s.tiles := rfl
@[simp] theorem State.modVault_dies (s : State) (n : Nat) (f : Vault → Vault) : (s.modVault n f).dies = s.dies := rfl
@[simp] theorem State.modVault_flights (s : State) (n : Nat) (f : Vault → Vault) : (s.modVault n f).flights = s.flights := rfl
@[simp] theorem State.modVault_rings (s : State) (n : Nat) (f : Vault → Vault) : (s.modVault n f).rings = s.rings := rfl
@[simp] theorem State.modVault_objects (s : State) (n : Nat) (f : Vault → Vault) : (s.modVault n f).objects = s.objects := rfl
@[simp] theorem State.modVault_nextFetch (s : State) (n : Nat) (f : Vault → Vault) : (s.modVault n f).nextFetch = s.nextFetch := rfl
@[simp] theorem State.modVault_tasks (s : State) (n : Nat) (f : Vault → Vault) : (s.modVault n f).tasks = s.tasks := rfl
@[simp] theorem State.modVault_nextTask (s : State) (n : Nat) (f : Vault → Vault) : (s.modVault n f).nextTask = s.nextTask := rfl
@[simp] theorem State.modVault_seq (s : State) (n : Nat) (f : Vault → Vault) : (s.modVault n f).seq = s.seq := rfl
@[simp] theorem State.modVault_queues (s : State) (n : Nat) (f : Vault → Vault) : (s.modVault n f).queues = s.queues := rfl
@[simp] theorem State.modVault_parts (s : State) (n : Nat) (f : Vault → Vault) : (s.modVault n f).parts = s.parts := rfl
@[simp] theorem State.modVault_prects (s : State) (n : Nat) (f : Vault → Vault) : (s.modVault n f).prects = s.prects := rfl
@[simp] theorem State.modVault_domains (s : State) (n : Nat) (f : Vault → Vault) : (s.modVault n f).domains = s.domains := rfl
@[simp] theorem State.modVault_ports (s : State) (n : Nat) (f : Vault → Vault) : (s.modVault n f).ports = s.ports := rfl
@[simp] theorem State.modVault_remotes (s : State) (n : Nat) (f : Vault → Vault) : (s.modVault n f).remotes = s.remotes := rfl
@[simp] theorem State.modVault_remoteWait (s : State) (n : Nat) (f : Vault → Vault) : (s.modVault n f).remoteWait = s.remoteWait := rfl
@[simp] theorem State.modVault_qpairs (s : State) (n : Nat) (f : Vault → Vault) : (s.modVault n f).qpairs = s.qpairs := rfl
@[simp] theorem State.modVault_volts (s : State) (n : Nat) (f : Vault → Vault) : (s.modVault n f).volts = s.volts := rfl
@[simp] theorem State.modVault_blackbox (s : State) (n : Nat) (f : Vault → Vault) : (s.modVault n f).blackbox = s.blackbox := rfl
@[simp] theorem State.modVault_errs (s : State) (n : Nat) (f : Vault → Vault) : (s.modVault n f).errs = s.errs := rfl
@[simp] theorem State.modVault_repairs (s : State) (n : Nat) (f : Vault → Vault) : (s.modVault n f).repairs = s.repairs := rfl
@[simp] theorem State.modVault_svcInt (s : State) (n : Nat) (f : Vault → Vault) : (s.modVault n f).svcInt = s.svcInt := rfl
@[simp] theorem State.modVault_reports (s : State) (n : Nat) (f : Vault → Vault) : (s.modVault n f).reports = s.reports := rfl
@[simp] theorem State.modVault_dwedar (s : State) (n : Nat) (f : Vault → Vault) : (s.modVault n f).dwedar = s.dwedar := rfl
@[simp] theorem State.modQueue_power (s : State) (n : Nat) (f : PQueue → PQueue) : (s.modQueue n f).power = s.power := rfl
@[simp] theorem State.modQueue_stage (s : State) (n : Nat) (f : PQueue → PQueue) : (s.modQueue n f).stage = s.stage := rfl
@[simp] theorem State.modQueue_halted (s : State) (n : Nat) (f : PQueue → PQueue) : (s.modQueue n f).halted = s.halted := rfl
@[simp] theorem State.modQueue_cur (s : State) (n : Nat) (f : PQueue → PQueue) : (s.modQueue n f).cur = s.cur := rfl
@[simp] theorem State.modQueue_turns (s : State) (n : Nat) (f : PQueue → PQueue) : (s.modQueue n f).turns = s.turns := rfl
@[simp] theorem State.modQueue_free (s : State) (n : Nat) (f : PQueue → PQueue) : (s.modQueue n f).free = s.free := rfl
@[simp] theorem State.modQueue_clock (s : State) (n : Nat) (f : PQueue → PQueue) : (s.modQueue n f).clock = s.clock := rfl
@[simp] theorem State.modQueue_mem (s : State) (n : Nat) (f : PQueue → PQueue) : (s.modQueue n f).mem = s.mem := rfl
@[simp] theorem State.modQueue_full (s : State) (n : Nat) (f : PQueue → PQueue) : (s.modQueue n f).full = s.full := rfl
@[simp] theorem State.modQueue_poison (s : State) (n : Nat) (f : PQueue → PQueue) : (s.modQueue n f).poison = s.poison := rfl
@[simp] theorem State.modQueue_latent (s : State) (n : Nat) (f : PQueue → PQueue) : (s.modQueue n f).latent = s.latent := rfl
@[simp] theorem State.modQueue_past (s : State) (n : Nat) (f : PQueue → PQueue) : (s.modQueue n f).past = s.past := rfl
@[simp] theorem State.modQueue_seen (s : State) (n : Nat) (f : PQueue → PQueue) : (s.modQueue n f).seen = s.seen := rfl
@[simp] theorem State.modQueue_kpast (s : State) (n : Nat) (f : PQueue → PQueue) : (s.modQueue n f).kpast = s.kpast := rfl
@[simp] theorem State.modQueue_gone (s : State) (n : Nat) (f : PQueue → PQueue) : (s.modQueue n f).gone = s.gone := rfl
@[simp] theorem State.modQueue_pkg (s : State) (n : Nat) (f : PQueue → PQueue) : (s.modQueue n f).pkg = s.pkg := rfl
@[simp] theorem State.modQueue_slots (s : State) (n : Nat) (f : PQueue → PQueue) : (s.modQueue n f).slots = s.slots := rfl
@[simp] theorem State.modQueue_cores (s : State) (n : Nat) (f : PQueue → PQueue) : (s.modQueue n f).cores = s.cores := rfl
@[simp] theorem State.modQueue_tiles (s : State) (n : Nat) (f : PQueue → PQueue) : (s.modQueue n f).tiles = s.tiles := rfl
@[simp] theorem State.modQueue_vaults (s : State) (n : Nat) (f : PQueue → PQueue) : (s.modQueue n f).vaults = s.vaults := rfl
@[simp] theorem State.modQueue_dies (s : State) (n : Nat) (f : PQueue → PQueue) : (s.modQueue n f).dies = s.dies := rfl
@[simp] theorem State.modQueue_flights (s : State) (n : Nat) (f : PQueue → PQueue) : (s.modQueue n f).flights = s.flights := rfl
@[simp] theorem State.modQueue_rings (s : State) (n : Nat) (f : PQueue → PQueue) : (s.modQueue n f).rings = s.rings := rfl
@[simp] theorem State.modQueue_objects (s : State) (n : Nat) (f : PQueue → PQueue) : (s.modQueue n f).objects = s.objects := rfl
@[simp] theorem State.modQueue_nextFetch (s : State) (n : Nat) (f : PQueue → PQueue) : (s.modQueue n f).nextFetch = s.nextFetch := rfl
@[simp] theorem State.modQueue_tasks (s : State) (n : Nat) (f : PQueue → PQueue) : (s.modQueue n f).tasks = s.tasks := rfl
@[simp] theorem State.modQueue_nextTask (s : State) (n : Nat) (f : PQueue → PQueue) : (s.modQueue n f).nextTask = s.nextTask := rfl
@[simp] theorem State.modQueue_seq (s : State) (n : Nat) (f : PQueue → PQueue) : (s.modQueue n f).seq = s.seq := rfl
@[simp] theorem State.modQueue_parts (s : State) (n : Nat) (f : PQueue → PQueue) : (s.modQueue n f).parts = s.parts := rfl
@[simp] theorem State.modQueue_prects (s : State) (n : Nat) (f : PQueue → PQueue) : (s.modQueue n f).prects = s.prects := rfl
@[simp] theorem State.modQueue_domains (s : State) (n : Nat) (f : PQueue → PQueue) : (s.modQueue n f).domains = s.domains := rfl
@[simp] theorem State.modQueue_ports (s : State) (n : Nat) (f : PQueue → PQueue) : (s.modQueue n f).ports = s.ports := rfl
@[simp] theorem State.modQueue_remotes (s : State) (n : Nat) (f : PQueue → PQueue) : (s.modQueue n f).remotes = s.remotes := rfl
@[simp] theorem State.modQueue_remoteWait (s : State) (n : Nat) (f : PQueue → PQueue) : (s.modQueue n f).remoteWait = s.remoteWait := rfl
@[simp] theorem State.modQueue_qpairs (s : State) (n : Nat) (f : PQueue → PQueue) : (s.modQueue n f).qpairs = s.qpairs := rfl
@[simp] theorem State.modQueue_volts (s : State) (n : Nat) (f : PQueue → PQueue) : (s.modQueue n f).volts = s.volts := rfl
@[simp] theorem State.modQueue_blackbox (s : State) (n : Nat) (f : PQueue → PQueue) : (s.modQueue n f).blackbox = s.blackbox := rfl
@[simp] theorem State.modQueue_errs (s : State) (n : Nat) (f : PQueue → PQueue) : (s.modQueue n f).errs = s.errs := rfl
@[simp] theorem State.modQueue_repairs (s : State) (n : Nat) (f : PQueue → PQueue) : (s.modQueue n f).repairs = s.repairs := rfl
@[simp] theorem State.modQueue_svcInt (s : State) (n : Nat) (f : PQueue → PQueue) : (s.modQueue n f).svcInt = s.svcInt := rfl
@[simp] theorem State.modQueue_reports (s : State) (n : Nat) (f : PQueue → PQueue) : (s.modQueue n f).reports = s.reports := rfl
@[simp] theorem State.modQueue_dwedar (s : State) (n : Nat) (f : PQueue → PQueue) : (s.modQueue n f).dwedar = s.dwedar := rfl
@[simp] theorem State.modPart_power (s : State) (n : Nat) (f : Part → Part) : (s.modPart n f).power = s.power := rfl
@[simp] theorem State.modPart_stage (s : State) (n : Nat) (f : Part → Part) : (s.modPart n f).stage = s.stage := rfl
@[simp] theorem State.modPart_halted (s : State) (n : Nat) (f : Part → Part) : (s.modPart n f).halted = s.halted := rfl
@[simp] theorem State.modPart_cur (s : State) (n : Nat) (f : Part → Part) : (s.modPart n f).cur = s.cur := rfl
@[simp] theorem State.modPart_turns (s : State) (n : Nat) (f : Part → Part) : (s.modPart n f).turns = s.turns := rfl
@[simp] theorem State.modPart_free (s : State) (n : Nat) (f : Part → Part) : (s.modPart n f).free = s.free := rfl
@[simp] theorem State.modPart_clock (s : State) (n : Nat) (f : Part → Part) : (s.modPart n f).clock = s.clock := rfl
@[simp] theorem State.modPart_mem (s : State) (n : Nat) (f : Part → Part) : (s.modPart n f).mem = s.mem := rfl
@[simp] theorem State.modPart_full (s : State) (n : Nat) (f : Part → Part) : (s.modPart n f).full = s.full := rfl
@[simp] theorem State.modPart_poison (s : State) (n : Nat) (f : Part → Part) : (s.modPart n f).poison = s.poison := rfl
@[simp] theorem State.modPart_latent (s : State) (n : Nat) (f : Part → Part) : (s.modPart n f).latent = s.latent := rfl
@[simp] theorem State.modPart_past (s : State) (n : Nat) (f : Part → Part) : (s.modPart n f).past = s.past := rfl
@[simp] theorem State.modPart_seen (s : State) (n : Nat) (f : Part → Part) : (s.modPart n f).seen = s.seen := rfl
@[simp] theorem State.modPart_kpast (s : State) (n : Nat) (f : Part → Part) : (s.modPart n f).kpast = s.kpast := rfl
@[simp] theorem State.modPart_gone (s : State) (n : Nat) (f : Part → Part) : (s.modPart n f).gone = s.gone := rfl
@[simp] theorem State.modPart_pkg (s : State) (n : Nat) (f : Part → Part) : (s.modPart n f).pkg = s.pkg := rfl
@[simp] theorem State.modPart_slots (s : State) (n : Nat) (f : Part → Part) : (s.modPart n f).slots = s.slots := rfl
@[simp] theorem State.modPart_cores (s : State) (n : Nat) (f : Part → Part) : (s.modPart n f).cores = s.cores := rfl
@[simp] theorem State.modPart_tiles (s : State) (n : Nat) (f : Part → Part) : (s.modPart n f).tiles = s.tiles := rfl
@[simp] theorem State.modPart_vaults (s : State) (n : Nat) (f : Part → Part) : (s.modPart n f).vaults = s.vaults := rfl
@[simp] theorem State.modPart_dies (s : State) (n : Nat) (f : Part → Part) : (s.modPart n f).dies = s.dies := rfl
@[simp] theorem State.modPart_flights (s : State) (n : Nat) (f : Part → Part) : (s.modPart n f).flights = s.flights := rfl
@[simp] theorem State.modPart_rings (s : State) (n : Nat) (f : Part → Part) : (s.modPart n f).rings = s.rings := rfl
@[simp] theorem State.modPart_objects (s : State) (n : Nat) (f : Part → Part) : (s.modPart n f).objects = s.objects := rfl
@[simp] theorem State.modPart_nextFetch (s : State) (n : Nat) (f : Part → Part) : (s.modPart n f).nextFetch = s.nextFetch := rfl
@[simp] theorem State.modPart_tasks (s : State) (n : Nat) (f : Part → Part) : (s.modPart n f).tasks = s.tasks := rfl
@[simp] theorem State.modPart_nextTask (s : State) (n : Nat) (f : Part → Part) : (s.modPart n f).nextTask = s.nextTask := rfl
@[simp] theorem State.modPart_seq (s : State) (n : Nat) (f : Part → Part) : (s.modPart n f).seq = s.seq := rfl
@[simp] theorem State.modPart_queues (s : State) (n : Nat) (f : Part → Part) : (s.modPart n f).queues = s.queues := rfl
@[simp] theorem State.modPart_prects (s : State) (n : Nat) (f : Part → Part) : (s.modPart n f).prects = s.prects := rfl
@[simp] theorem State.modPart_domains (s : State) (n : Nat) (f : Part → Part) : (s.modPart n f).domains = s.domains := rfl
@[simp] theorem State.modPart_ports (s : State) (n : Nat) (f : Part → Part) : (s.modPart n f).ports = s.ports := rfl
@[simp] theorem State.modPart_remotes (s : State) (n : Nat) (f : Part → Part) : (s.modPart n f).remotes = s.remotes := rfl
@[simp] theorem State.modPart_remoteWait (s : State) (n : Nat) (f : Part → Part) : (s.modPart n f).remoteWait = s.remoteWait := rfl
@[simp] theorem State.modPart_qpairs (s : State) (n : Nat) (f : Part → Part) : (s.modPart n f).qpairs = s.qpairs := rfl
@[simp] theorem State.modPart_volts (s : State) (n : Nat) (f : Part → Part) : (s.modPart n f).volts = s.volts := rfl
@[simp] theorem State.modPart_blackbox (s : State) (n : Nat) (f : Part → Part) : (s.modPart n f).blackbox = s.blackbox := rfl
@[simp] theorem State.modPart_errs (s : State) (n : Nat) (f : Part → Part) : (s.modPart n f).errs = s.errs := rfl
@[simp] theorem State.modPart_repairs (s : State) (n : Nat) (f : Part → Part) : (s.modPart n f).repairs = s.repairs := rfl
@[simp] theorem State.modPart_svcInt (s : State) (n : Nat) (f : Part → Part) : (s.modPart n f).svcInt = s.svcInt := rfl
@[simp] theorem State.modPart_reports (s : State) (n : Nat) (f : Part → Part) : (s.modPart n f).reports = s.reports := rfl
@[simp] theorem State.modPart_dwedar (s : State) (n : Nat) (f : Part → Part) : (s.modPart n f).dwedar = s.dwedar := rfl
@[simp] theorem State.modPkg_power (s : State) (f : Pkg → Pkg) : (s.modPkg f).power = s.power := rfl
@[simp] theorem State.modPkg_stage (s : State) (f : Pkg → Pkg) : (s.modPkg f).stage = s.stage := rfl
@[simp] theorem State.modPkg_halted (s : State) (f : Pkg → Pkg) : (s.modPkg f).halted = s.halted := rfl
@[simp] theorem State.modPkg_cur (s : State) (f : Pkg → Pkg) : (s.modPkg f).cur = s.cur := rfl
@[simp] theorem State.modPkg_turns (s : State) (f : Pkg → Pkg) : (s.modPkg f).turns = s.turns := rfl
@[simp] theorem State.modPkg_free (s : State) (f : Pkg → Pkg) : (s.modPkg f).free = s.free := rfl
@[simp] theorem State.modPkg_clock (s : State) (f : Pkg → Pkg) : (s.modPkg f).clock = s.clock := rfl
@[simp] theorem State.modPkg_mem (s : State) (f : Pkg → Pkg) : (s.modPkg f).mem = s.mem := rfl
@[simp] theorem State.modPkg_full (s : State) (f : Pkg → Pkg) : (s.modPkg f).full = s.full := rfl
@[simp] theorem State.modPkg_poison (s : State) (f : Pkg → Pkg) : (s.modPkg f).poison = s.poison := rfl
@[simp] theorem State.modPkg_latent (s : State) (f : Pkg → Pkg) : (s.modPkg f).latent = s.latent := rfl
@[simp] theorem State.modPkg_past (s : State) (f : Pkg → Pkg) : (s.modPkg f).past = s.past := rfl
@[simp] theorem State.modPkg_seen (s : State) (f : Pkg → Pkg) : (s.modPkg f).seen = s.seen := rfl
@[simp] theorem State.modPkg_kpast (s : State) (f : Pkg → Pkg) : (s.modPkg f).kpast = s.kpast := rfl
@[simp] theorem State.modPkg_gone (s : State) (f : Pkg → Pkg) : (s.modPkg f).gone = s.gone := rfl
@[simp] theorem State.modPkg_slots (s : State) (f : Pkg → Pkg) : (s.modPkg f).slots = s.slots := rfl
@[simp] theorem State.modPkg_cores (s : State) (f : Pkg → Pkg) : (s.modPkg f).cores = s.cores := rfl
@[simp] theorem State.modPkg_tiles (s : State) (f : Pkg → Pkg) : (s.modPkg f).tiles = s.tiles := rfl
@[simp] theorem State.modPkg_vaults (s : State) (f : Pkg → Pkg) : (s.modPkg f).vaults = s.vaults := rfl
@[simp] theorem State.modPkg_dies (s : State) (f : Pkg → Pkg) : (s.modPkg f).dies = s.dies := rfl
@[simp] theorem State.modPkg_flights (s : State) (f : Pkg → Pkg) : (s.modPkg f).flights = s.flights := rfl
@[simp] theorem State.modPkg_rings (s : State) (f : Pkg → Pkg) : (s.modPkg f).rings = s.rings := rfl
@[simp] theorem State.modPkg_objects (s : State) (f : Pkg → Pkg) : (s.modPkg f).objects = s.objects := rfl
@[simp] theorem State.modPkg_nextFetch (s : State) (f : Pkg → Pkg) : (s.modPkg f).nextFetch = s.nextFetch := rfl
@[simp] theorem State.modPkg_tasks (s : State) (f : Pkg → Pkg) : (s.modPkg f).tasks = s.tasks := rfl
@[simp] theorem State.modPkg_nextTask (s : State) (f : Pkg → Pkg) : (s.modPkg f).nextTask = s.nextTask := rfl
@[simp] theorem State.modPkg_seq (s : State) (f : Pkg → Pkg) : (s.modPkg f).seq = s.seq := rfl
@[simp] theorem State.modPkg_queues (s : State) (f : Pkg → Pkg) : (s.modPkg f).queues = s.queues := rfl
@[simp] theorem State.modPkg_parts (s : State) (f : Pkg → Pkg) : (s.modPkg f).parts = s.parts := rfl
@[simp] theorem State.modPkg_prects (s : State) (f : Pkg → Pkg) : (s.modPkg f).prects = s.prects := rfl
@[simp] theorem State.modPkg_domains (s : State) (f : Pkg → Pkg) : (s.modPkg f).domains = s.domains := rfl
@[simp] theorem State.modPkg_ports (s : State) (f : Pkg → Pkg) : (s.modPkg f).ports = s.ports := rfl
@[simp] theorem State.modPkg_remotes (s : State) (f : Pkg → Pkg) : (s.modPkg f).remotes = s.remotes := rfl
@[simp] theorem State.modPkg_remoteWait (s : State) (f : Pkg → Pkg) : (s.modPkg f).remoteWait = s.remoteWait := rfl
@[simp] theorem State.modPkg_qpairs (s : State) (f : Pkg → Pkg) : (s.modPkg f).qpairs = s.qpairs := rfl
@[simp] theorem State.modPkg_volts (s : State) (f : Pkg → Pkg) : (s.modPkg f).volts = s.volts := rfl
@[simp] theorem State.modPkg_blackbox (s : State) (f : Pkg → Pkg) : (s.modPkg f).blackbox = s.blackbox := rfl
@[simp] theorem State.modPkg_errs (s : State) (f : Pkg → Pkg) : (s.modPkg f).errs = s.errs := rfl
@[simp] theorem State.modPkg_repairs (s : State) (f : Pkg → Pkg) : (s.modPkg f).repairs = s.repairs := rfl
@[simp] theorem State.modPkg_svcInt (s : State) (f : Pkg → Pkg) : (s.modPkg f).svcInt = s.svcInt := rfl
@[simp] theorem State.modPkg_reports (s : State) (f : Pkg → Pkg) : (s.modPkg f).reports = s.reports := rfl
@[simp] theorem State.modPkg_dwedar (s : State) (f : Pkg → Pkg) : (s.modPkg f).dwedar = s.dwedar := rfl
@[simp] theorem State.modTask_power (s : State) (n : Nat) (f : Task → Task) : (s.modTask n f).power = s.power := by
  simp only [State.modTask]; split <;> rfl
@[simp] theorem State.modTask_stage (s : State) (n : Nat) (f : Task → Task) : (s.modTask n f).stage = s.stage := by
  simp only [State.modTask]; split <;> rfl
@[simp] theorem State.modTask_halted (s : State) (n : Nat) (f : Task → Task) : (s.modTask n f).halted = s.halted := by
  simp only [State.modTask]; split <;> rfl
@[simp] theorem State.modTask_cur (s : State) (n : Nat) (f : Task → Task) : (s.modTask n f).cur = s.cur := by
  simp only [State.modTask]; split <;> rfl
@[simp] theorem State.modTask_turns (s : State) (n : Nat) (f : Task → Task) : (s.modTask n f).turns = s.turns := by
  simp only [State.modTask]; split <;> rfl
@[simp] theorem State.modTask_free (s : State) (n : Nat) (f : Task → Task) : (s.modTask n f).free = s.free := by
  simp only [State.modTask]; split <;> rfl
@[simp] theorem State.modTask_clock (s : State) (n : Nat) (f : Task → Task) : (s.modTask n f).clock = s.clock := by
  simp only [State.modTask]; split <;> rfl
@[simp] theorem State.modTask_mem (s : State) (n : Nat) (f : Task → Task) : (s.modTask n f).mem = s.mem := by
  simp only [State.modTask]; split <;> rfl
@[simp] theorem State.modTask_full (s : State) (n : Nat) (f : Task → Task) : (s.modTask n f).full = s.full := by
  simp only [State.modTask]; split <;> rfl
@[simp] theorem State.modTask_poison (s : State) (n : Nat) (f : Task → Task) : (s.modTask n f).poison = s.poison := by
  simp only [State.modTask]; split <;> rfl
@[simp] theorem State.modTask_latent (s : State) (n : Nat) (f : Task → Task) : (s.modTask n f).latent = s.latent := by
  simp only [State.modTask]; split <;> rfl
@[simp] theorem State.modTask_past (s : State) (n : Nat) (f : Task → Task) : (s.modTask n f).past = s.past := by
  simp only [State.modTask]; split <;> rfl
@[simp] theorem State.modTask_seen (s : State) (n : Nat) (f : Task → Task) : (s.modTask n f).seen = s.seen := by
  simp only [State.modTask]; split <;> rfl
@[simp] theorem State.modTask_kpast (s : State) (n : Nat) (f : Task → Task) : (s.modTask n f).kpast = s.kpast := by
  simp only [State.modTask]; split <;> rfl
@[simp] theorem State.modTask_gone (s : State) (n : Nat) (f : Task → Task) : (s.modTask n f).gone = s.gone := by
  simp only [State.modTask]; split <;> rfl
@[simp] theorem State.modTask_pkg (s : State) (n : Nat) (f : Task → Task) : (s.modTask n f).pkg = s.pkg := by
  simp only [State.modTask]; split <;> rfl
@[simp] theorem State.modTask_slots (s : State) (n : Nat) (f : Task → Task) : (s.modTask n f).slots = s.slots := by
  simp only [State.modTask]; split <;> rfl
@[simp] theorem State.modTask_cores (s : State) (n : Nat) (f : Task → Task) : (s.modTask n f).cores = s.cores := by
  simp only [State.modTask]; split <;> rfl
@[simp] theorem State.modTask_tiles (s : State) (n : Nat) (f : Task → Task) : (s.modTask n f).tiles = s.tiles := by
  simp only [State.modTask]; split <;> rfl
@[simp] theorem State.modTask_vaults (s : State) (n : Nat) (f : Task → Task) : (s.modTask n f).vaults = s.vaults := by
  simp only [State.modTask]; split <;> rfl
@[simp] theorem State.modTask_dies (s : State) (n : Nat) (f : Task → Task) : (s.modTask n f).dies = s.dies := by
  simp only [State.modTask]; split <;> rfl
@[simp] theorem State.modTask_flights (s : State) (n : Nat) (f : Task → Task) : (s.modTask n f).flights = s.flights := by
  simp only [State.modTask]; split <;> rfl
@[simp] theorem State.modTask_rings (s : State) (n : Nat) (f : Task → Task) : (s.modTask n f).rings = s.rings := by
  simp only [State.modTask]; split <;> rfl
@[simp] theorem State.modTask_objects (s : State) (n : Nat) (f : Task → Task) : (s.modTask n f).objects = s.objects := by
  simp only [State.modTask]; split <;> rfl
@[simp] theorem State.modTask_nextFetch (s : State) (n : Nat) (f : Task → Task) : (s.modTask n f).nextFetch = s.nextFetch := by
  simp only [State.modTask]; split <;> rfl
@[simp] theorem State.modTask_nextTask (s : State) (n : Nat) (f : Task → Task) : (s.modTask n f).nextTask = s.nextTask := by
  simp only [State.modTask]; split <;> rfl
@[simp] theorem State.modTask_seq (s : State) (n : Nat) (f : Task → Task) : (s.modTask n f).seq = s.seq := by
  simp only [State.modTask]; split <;> rfl
@[simp] theorem State.modTask_queues (s : State) (n : Nat) (f : Task → Task) : (s.modTask n f).queues = s.queues := by
  simp only [State.modTask]; split <;> rfl
@[simp] theorem State.modTask_parts (s : State) (n : Nat) (f : Task → Task) : (s.modTask n f).parts = s.parts := by
  simp only [State.modTask]; split <;> rfl
@[simp] theorem State.modTask_prects (s : State) (n : Nat) (f : Task → Task) : (s.modTask n f).prects = s.prects := by
  simp only [State.modTask]; split <;> rfl
@[simp] theorem State.modTask_domains (s : State) (n : Nat) (f : Task → Task) : (s.modTask n f).domains = s.domains := by
  simp only [State.modTask]; split <;> rfl
@[simp] theorem State.modTask_ports (s : State) (n : Nat) (f : Task → Task) : (s.modTask n f).ports = s.ports := by
  simp only [State.modTask]; split <;> rfl
@[simp] theorem State.modTask_remotes (s : State) (n : Nat) (f : Task → Task) : (s.modTask n f).remotes = s.remotes := by
  simp only [State.modTask]; split <;> rfl
@[simp] theorem State.modTask_remoteWait (s : State) (n : Nat) (f : Task → Task) : (s.modTask n f).remoteWait = s.remoteWait := by
  simp only [State.modTask]; split <;> rfl
@[simp] theorem State.modTask_qpairs (s : State) (n : Nat) (f : Task → Task) : (s.modTask n f).qpairs = s.qpairs := by
  simp only [State.modTask]; split <;> rfl
@[simp] theorem State.modTask_volts (s : State) (n : Nat) (f : Task → Task) : (s.modTask n f).volts = s.volts := by
  simp only [State.modTask]; split <;> rfl
@[simp] theorem State.modTask_blackbox (s : State) (n : Nat) (f : Task → Task) : (s.modTask n f).blackbox = s.blackbox := by
  simp only [State.modTask]; split <;> rfl
@[simp] theorem State.modTask_errs (s : State) (n : Nat) (f : Task → Task) : (s.modTask n f).errs = s.errs := by
  simp only [State.modTask]; split <;> rfl
@[simp] theorem State.modTask_repairs (s : State) (n : Nat) (f : Task → Task) : (s.modTask n f).repairs = s.repairs := by
  simp only [State.modTask]; split <;> rfl
@[simp] theorem State.modTask_svcInt (s : State) (n : Nat) (f : Task → Task) : (s.modTask n f).svcInt = s.svcInt := by
  simp only [State.modTask]; split <;> rfl
@[simp] theorem State.modTask_reports (s : State) (n : Nat) (f : Task → Task) : (s.modTask n f).reports = s.reports := by
  simp only [State.modTask]; split <;> rfl
@[simp] theorem State.modTask_dwedar (s : State) (n : Nat) (f : Task → Task) : (s.modTask n f).dwedar = s.dwedar := by
  simp only [State.modTask]; split <;> rfl
@[simp] theorem State.nextFree_power (s : State) : s.nextFree.2.power = s.power := rfl
@[simp] theorem State.nextFree_stage (s : State) : s.nextFree.2.stage = s.stage := rfl
@[simp] theorem State.nextFree_halted (s : State) : s.nextFree.2.halted = s.halted := rfl
@[simp] theorem State.nextFree_cur (s : State) : s.nextFree.2.cur = s.cur := rfl
@[simp] theorem State.nextFree_turns (s : State) : s.nextFree.2.turns = s.turns := rfl
@[simp] theorem State.nextFree_clock (s : State) : s.nextFree.2.clock = s.clock := rfl
@[simp] theorem State.nextFree_mem (s : State) : s.nextFree.2.mem = s.mem := rfl
@[simp] theorem State.nextFree_full (s : State) : s.nextFree.2.full = s.full := rfl
@[simp] theorem State.nextFree_poison (s : State) : s.nextFree.2.poison = s.poison := rfl
@[simp] theorem State.nextFree_latent (s : State) : s.nextFree.2.latent = s.latent := rfl
@[simp] theorem State.nextFree_past (s : State) : s.nextFree.2.past = s.past := rfl
@[simp] theorem State.nextFree_seen (s : State) : s.nextFree.2.seen = s.seen := rfl
@[simp] theorem State.nextFree_kpast (s : State) : s.nextFree.2.kpast = s.kpast := rfl
@[simp] theorem State.nextFree_gone (s : State) : s.nextFree.2.gone = s.gone := rfl
@[simp] theorem State.nextFree_pkg (s : State) : s.nextFree.2.pkg = s.pkg := rfl
@[simp] theorem State.nextFree_slots (s : State) : s.nextFree.2.slots = s.slots := rfl
@[simp] theorem State.nextFree_cores (s : State) : s.nextFree.2.cores = s.cores := rfl
@[simp] theorem State.nextFree_tiles (s : State) : s.nextFree.2.tiles = s.tiles := rfl
@[simp] theorem State.nextFree_vaults (s : State) : s.nextFree.2.vaults = s.vaults := rfl
@[simp] theorem State.nextFree_dies (s : State) : s.nextFree.2.dies = s.dies := rfl
@[simp] theorem State.nextFree_flights (s : State) : s.nextFree.2.flights = s.flights := rfl
@[simp] theorem State.nextFree_rings (s : State) : s.nextFree.2.rings = s.rings := rfl
@[simp] theorem State.nextFree_objects (s : State) : s.nextFree.2.objects = s.objects := rfl
@[simp] theorem State.nextFree_nextFetch (s : State) : s.nextFree.2.nextFetch = s.nextFetch := rfl
@[simp] theorem State.nextFree_tasks (s : State) : s.nextFree.2.tasks = s.tasks := rfl
@[simp] theorem State.nextFree_nextTask (s : State) : s.nextFree.2.nextTask = s.nextTask := rfl
@[simp] theorem State.nextFree_seq (s : State) : s.nextFree.2.seq = s.seq := rfl
@[simp] theorem State.nextFree_queues (s : State) : s.nextFree.2.queues = s.queues := rfl
@[simp] theorem State.nextFree_parts (s : State) : s.nextFree.2.parts = s.parts := rfl
@[simp] theorem State.nextFree_prects (s : State) : s.nextFree.2.prects = s.prects := rfl
@[simp] theorem State.nextFree_domains (s : State) : s.nextFree.2.domains = s.domains := rfl
@[simp] theorem State.nextFree_ports (s : State) : s.nextFree.2.ports = s.ports := rfl
@[simp] theorem State.nextFree_remotes (s : State) : s.nextFree.2.remotes = s.remotes := rfl
@[simp] theorem State.nextFree_remoteWait (s : State) : s.nextFree.2.remoteWait = s.remoteWait := rfl
@[simp] theorem State.nextFree_qpairs (s : State) : s.nextFree.2.qpairs = s.qpairs := rfl
@[simp] theorem State.nextFree_volts (s : State) : s.nextFree.2.volts = s.volts := rfl
@[simp] theorem State.nextFree_blackbox (s : State) : s.nextFree.2.blackbox = s.blackbox := rfl
@[simp] theorem State.nextFree_errs (s : State) : s.nextFree.2.errs = s.errs := rfl
@[simp] theorem State.nextFree_repairs (s : State) : s.nextFree.2.repairs = s.repairs := rfl
@[simp] theorem State.nextFree_svcInt (s : State) : s.nextFree.2.svcInt = s.svcInt := rfl
@[simp] theorem State.nextFree_reports (s : State) : s.nextFree.2.reports = s.reports := rfl
@[simp] theorem State.nextFree_dwedar (s : State) : s.nextFree.2.dwedar = s.dwedar := rfl

/-! ## Updates of a slot -/

@[simp] theorem Slot.setPc_bound (sl : Slot) (h : Half) (v : Word) : (sl.setPc h v).bound = sl.bound := by cases h <;> rfl
@[simp] theorem Slot.setPc_task (sl : Slot) (h : Half) (v : Word) : (sl.setPc h v).task = sl.task := by cases h <;> rfl
@[simp] theorem Slot.setPc_sys (sl : Slot) (h : Half) (v : Word) : (sl.setPc h v).sys = sl.sys := by cases h <;> rfl
@[simp] theorem Slot.setPc_trap (sl : Slot) (h : Half) (v : Word) : (sl.setPc h v).trap = sl.trap := by cases h <;> rfl
@[simp] theorem Slot.setPc_super (sl : Slot) (h : Half) (v : Word) : (sl.setPc h v).super = sl.super := by cases h <;> rfl
@[simp] theorem Slot.setPc_inUi (sl : Slot) (h : Half) (v : Word) : (sl.setPc h v).inUi = sl.inUi := by cases h <;> rfl
@[simp] theorem Slot.setPc_uiHold (sl : Slot) (h : Half) (v : Word) : (sl.setPc h v).uiHold = sl.uiHold := by cases h <;> rfl
@[simp] theorem Slot.setPc_ctxa (sl : Slot) (h : Half) (v : Word) : (sl.setPc h v).ctxa = sl.ctxa := by cases h <;> rfl
@[simp] theorem Slot.setPc_ctxx (sl : Slot) (h : Half) (v : Word) : (sl.setPc h v).ctxx = sl.ctxx := by cases h <;> rfl
@[simp] theorem Slot.setPc_uipca (sl : Slot) (h : Half) (v : Word) : (sl.setPc h v).uipca = sl.uipca := by cases h <;> rfl
@[simp] theorem Slot.setPc_uipcx (sl : Slot) (h : Half) (v : Word) : (sl.setPc h v).uipcx = sl.uipcx := by cases h <;> rfl
@[simp] theorem Slot.setPc_lq (sl : Slot) (h : Half) (v : Word) : (sl.setPc h v).lq = sl.lq := by cases h <;> rfl
@[simp] theorem Slot.setPc_sq (sl : Slot) (h : Half) (v : Word) : (sl.setPc h v).sq = sl.sq := by cases h <;> rfl
@[simp] theorem Slot.setPc_sqTaken (sl : Slot) (h : Half) (v : Word) : (sl.setPc h v).sqTaken = sl.sqTaken := by cases h <;> rfl
@[simp] theorem Slot.setPc_bqa (sl : Slot) (h : Half) (v : Word) : (sl.setPc h v).bqa = sl.bqa := by cases h <;> rfl
@[simp] theorem Slot.setPc_bqx (sl : Slot) (h : Half) (v : Word) : (sl.setPc h v).bqx = sl.bqx := by cases h <;> rfl
@[simp] theorem Slot.setPc_awai (sl : Slot) (h : Half) (v : Word) : (sl.setPc h v).awai = sl.awai := by cases h <;> rfl
@[simp] theorem Slot.setPc_xwai (sl : Slot) (h : Half) (v : Word) : (sl.setPc h v).xwai = sl.xwai := by cases h <;> rfl
@[simp] theorem Slot.setPc_ckpts (sl : Slot) (h : Half) (v : Word) : (sl.setPc h v).ckpts = sl.ckpts := by cases h <;> rfl
@[simp] theorem Slot.setPc_loads (sl : Slot) (h : Half) (v : Word) : (sl.setPc h v).loads = sl.loads := by cases h <;> rfl
@[simp] theorem Slot.setPc_stores (sl : Slot) (h : Half) (v : Word) : (sl.setPc h v).stores = sl.stores := by cases h <;> rfl
@[simp] theorem Slot.setPc_ports (sl : Slot) (h : Half) (v : Word) : (sl.setPc h v).ports = sl.ports := by cases h <;> rfl
@[simp] theorem Slot.setPc_done (sl : Slot) (h : Half) (v : Word) : (sl.setPc h v).done = sl.done := by cases h <;> rfl
@[simp] theorem Slot.setPc_bcDue (sl : Slot) (h : Half) (v : Word) : (sl.setPc h v).bcDue = sl.bcDue := by cases h <;> rfl
@[simp] theorem Slot.setPc_bcKeys (sl : Slot) (h : Half) (v : Word) : (sl.setPc h v).bcKeys = sl.bcKeys := by cases h <;> rfl
@[simp] theorem Slot.setPc_semDue (sl : Slot) (h : Half) (v : Word) : (sl.setPc h v).semDue = sl.semDue := by cases h <;> rfl
@[simp] theorem Slot.setPc_scDue (sl : Slot) (h : Half) (v : Word) : (sl.setPc h v).scDue = sl.scDue := by cases h <;> rfl
@[simp] theorem Slot.setPc_scout (sl : Slot) (h : Half) (v : Word) : (sl.setPc h v).scout = sl.scout := by cases h <;> rfl
@[simp] theorem Slot.setPc_post (sl : Slot) (h : Half) (v : Word) : (sl.setPc h v).post = sl.post := by cases h <;> rfl
@[simp] theorem Slot.setPc_held (sl : Slot) (h : Half) (v : Word) : (sl.setPc h v).held = sl.held := by cases h <;> rfl
@[simp] theorem Slot.setPc_fentry (sl : Slot) (h : Half) (v : Word) : (sl.setPc h v).fentry = sl.fentry := by cases h <;> rfl
@[simp] theorem Slot.setPc_finsn (sl : Slot) (h : Half) (v : Word) : (sl.setPc h v).finsn = sl.finsn := by cases h <;> rfl
@[simp] theorem Slot.setPc_ffGot (sl : Slot) (h : Half) (v : Word) : (sl.setPc h v).ffGot = sl.ffGot := by cases h <;> rfl
@[simp] theorem Slot.setPc_eff (sl : Slot) (h : Half) (v : Word) : (sl.setPc h v).eff = sl.eff := by cases h <;> rfl
@[simp] theorem Slot.setPc_fva (sl : Slot) (h : Half) (v : Word) : (sl.setPc h v).fva = sl.fva := by cases h <;> rfl
@[simp] theorem Slot.setPc_tookA (sl : Slot) (h : Half) (v : Word) : (sl.setPc h v).tookA = sl.tookA := by cases h <;> rfl
@[simp] theorem Slot.setPc_tookX (sl : Slot) (h : Half) (v : Word) : (sl.setPc h v).tookX = sl.tookX := by cases h <;> rfl
@[simp] theorem Slot.setPc_refused (sl : Slot) (h : Half) (v : Word) : (sl.setPc h v).refused = sl.refused := by cases h <;> rfl
@[simp] theorem Slot.setPc_kmark (sl : Slot) (h : Half) (v : Word) : (sl.setPc h v).kmark = sl.kmark := by cases h <;> rfl
@[simp] theorem Slot.setPos_bound (sl : Slot) (h : Half) (v : Nat) : (sl.setPos h v).bound = sl.bound := by cases h <;> rfl
@[simp] theorem Slot.setPos_task (sl : Slot) (h : Half) (v : Nat) : (sl.setPos h v).task = sl.task := by cases h <;> rfl
@[simp] theorem Slot.setPos_sys (sl : Slot) (h : Half) (v : Nat) : (sl.setPos h v).sys = sl.sys := by cases h <;> rfl
@[simp] theorem Slot.setPos_trap (sl : Slot) (h : Half) (v : Nat) : (sl.setPos h v).trap = sl.trap := by cases h <;> rfl
@[simp] theorem Slot.setPos_super (sl : Slot) (h : Half) (v : Nat) : (sl.setPos h v).super = sl.super := by cases h <;> rfl
@[simp] theorem Slot.setPos_inUi (sl : Slot) (h : Half) (v : Nat) : (sl.setPos h v).inUi = sl.inUi := by cases h <;> rfl
@[simp] theorem Slot.setPos_uiHold (sl : Slot) (h : Half) (v : Nat) : (sl.setPos h v).uiHold = sl.uiHold := by cases h <;> rfl
@[simp] theorem Slot.setPos_ctxa (sl : Slot) (h : Half) (v : Nat) : (sl.setPos h v).ctxa = sl.ctxa := by cases h <;> rfl
@[simp] theorem Slot.setPos_ctxx (sl : Slot) (h : Half) (v : Nat) : (sl.setPos h v).ctxx = sl.ctxx := by cases h <;> rfl
@[simp] theorem Slot.setPos_uipca (sl : Slot) (h : Half) (v : Nat) : (sl.setPos h v).uipca = sl.uipca := by cases h <;> rfl
@[simp] theorem Slot.setPos_uipcx (sl : Slot) (h : Half) (v : Nat) : (sl.setPos h v).uipcx = sl.uipcx := by cases h <;> rfl
@[simp] theorem Slot.setPos_lq (sl : Slot) (h : Half) (v : Nat) : (sl.setPos h v).lq = sl.lq := by cases h <;> rfl
@[simp] theorem Slot.setPos_sq (sl : Slot) (h : Half) (v : Nat) : (sl.setPos h v).sq = sl.sq := by cases h <;> rfl
@[simp] theorem Slot.setPos_sqTaken (sl : Slot) (h : Half) (v : Nat) : (sl.setPos h v).sqTaken = sl.sqTaken := by cases h <;> rfl
@[simp] theorem Slot.setPos_bqa (sl : Slot) (h : Half) (v : Nat) : (sl.setPos h v).bqa = sl.bqa := by cases h <;> rfl
@[simp] theorem Slot.setPos_bqx (sl : Slot) (h : Half) (v : Nat) : (sl.setPos h v).bqx = sl.bqx := by cases h <;> rfl
@[simp] theorem Slot.setPos_awai (sl : Slot) (h : Half) (v : Nat) : (sl.setPos h v).awai = sl.awai := by cases h <;> rfl
@[simp] theorem Slot.setPos_xwai (sl : Slot) (h : Half) (v : Nat) : (sl.setPos h v).xwai = sl.xwai := by cases h <;> rfl
@[simp] theorem Slot.setPos_ckpts (sl : Slot) (h : Half) (v : Nat) : (sl.setPos h v).ckpts = sl.ckpts := by cases h <;> rfl
@[simp] theorem Slot.setPos_loads (sl : Slot) (h : Half) (v : Nat) : (sl.setPos h v).loads = sl.loads := by cases h <;> rfl
@[simp] theorem Slot.setPos_stores (sl : Slot) (h : Half) (v : Nat) : (sl.setPos h v).stores = sl.stores := by cases h <;> rfl
@[simp] theorem Slot.setPos_ports (sl : Slot) (h : Half) (v : Nat) : (sl.setPos h v).ports = sl.ports := by cases h <;> rfl
@[simp] theorem Slot.setPos_done (sl : Slot) (h : Half) (v : Nat) : (sl.setPos h v).done = sl.done := by cases h <;> rfl
@[simp] theorem Slot.setPos_bcDue (sl : Slot) (h : Half) (v : Nat) : (sl.setPos h v).bcDue = sl.bcDue := by cases h <;> rfl
@[simp] theorem Slot.setPos_bcKeys (sl : Slot) (h : Half) (v : Nat) : (sl.setPos h v).bcKeys = sl.bcKeys := by cases h <;> rfl
@[simp] theorem Slot.setPos_semDue (sl : Slot) (h : Half) (v : Nat) : (sl.setPos h v).semDue = sl.semDue := by cases h <;> rfl
@[simp] theorem Slot.setPos_scDue (sl : Slot) (h : Half) (v : Nat) : (sl.setPos h v).scDue = sl.scDue := by cases h <;> rfl
@[simp] theorem Slot.setPos_scout (sl : Slot) (h : Half) (v : Nat) : (sl.setPos h v).scout = sl.scout := by cases h <;> rfl
@[simp] theorem Slot.setPos_post (sl : Slot) (h : Half) (v : Nat) : (sl.setPos h v).post = sl.post := by cases h <;> rfl
@[simp] theorem Slot.setPos_held (sl : Slot) (h : Half) (v : Nat) : (sl.setPos h v).held = sl.held := by cases h <;> rfl
@[simp] theorem Slot.setPos_fentry (sl : Slot) (h : Half) (v : Nat) : (sl.setPos h v).fentry = sl.fentry := by cases h <;> rfl
@[simp] theorem Slot.setPos_finsn (sl : Slot) (h : Half) (v : Nat) : (sl.setPos h v).finsn = sl.finsn := by cases h <;> rfl
@[simp] theorem Slot.setPos_ffGot (sl : Slot) (h : Half) (v : Nat) : (sl.setPos h v).ffGot = sl.ffGot := by cases h <;> rfl
@[simp] theorem Slot.setPos_eff (sl : Slot) (h : Half) (v : Nat) : (sl.setPos h v).eff = sl.eff := by cases h <;> rfl
@[simp] theorem Slot.setPos_fva (sl : Slot) (h : Half) (v : Nat) : (sl.setPos h v).fva = sl.fva := by cases h <;> rfl
@[simp] theorem Slot.setPos_tookA (sl : Slot) (h : Half) (v : Nat) : (sl.setPos h v).tookA = sl.tookA := by cases h <;> rfl
@[simp] theorem Slot.setPos_tookX (sl : Slot) (h : Half) (v : Nat) : (sl.setPos h v).tookX = sl.tookX := by cases h <;> rfl
@[simp] theorem Slot.setPos_refused (sl : Slot) (h : Half) (v : Nat) : (sl.setPos h v).refused = sl.refused := by cases h <;> rfl
@[simp] theorem Slot.setPos_kmark (sl : Slot) (h : Half) (v : Nat) : (sl.setPos h v).kmark = sl.kmark := by cases h <;> rfl
@[simp] theorem Slot.setWait_bound (sl : Slot) (h : Half) (v : Wait) : (sl.setWait h v).bound = sl.bound := by cases h <;> rfl
@[simp] theorem Slot.setWait_task (sl : Slot) (h : Half) (v : Wait) : (sl.setWait h v).task = sl.task := by cases h <;> rfl
@[simp] theorem Slot.setWait_ar (sl : Slot) (h : Half) (v : Wait) : (sl.setWait h v).ar = sl.ar := by cases h <;> rfl
@[simp] theorem Slot.setWait_xr (sl : Slot) (h : Half) (v : Wait) : (sl.setWait h v).xr = sl.xr := by cases h <;> rfl
@[simp] theorem Slot.setWait_sys (sl : Slot) (h : Half) (v : Wait) : (sl.setWait h v).sys = sl.sys := by cases h <;> rfl
@[simp] theorem Slot.setWait_trap (sl : Slot) (h : Half) (v : Wait) : (sl.setWait h v).trap = sl.trap := by cases h <;> rfl
@[simp] theorem Slot.setWait_super (sl : Slot) (h : Half) (v : Wait) : (sl.setWait h v).super = sl.super := by cases h <;> rfl
@[simp] theorem Slot.setWait_inUi (sl : Slot) (h : Half) (v : Wait) : (sl.setWait h v).inUi = sl.inUi := by cases h <;> rfl
@[simp] theorem Slot.setWait_uiHold (sl : Slot) (h : Half) (v : Wait) : (sl.setWait h v).uiHold = sl.uiHold := by cases h <;> rfl
@[simp] theorem Slot.setWait_ctxa (sl : Slot) (h : Half) (v : Wait) : (sl.setWait h v).ctxa = sl.ctxa := by cases h <;> rfl
@[simp] theorem Slot.setWait_ctxx (sl : Slot) (h : Half) (v : Wait) : (sl.setWait h v).ctxx = sl.ctxx := by cases h <;> rfl
@[simp] theorem Slot.setWait_uipca (sl : Slot) (h : Half) (v : Wait) : (sl.setWait h v).uipca = sl.uipca := by cases h <;> rfl
@[simp] theorem Slot.setWait_uipcx (sl : Slot) (h : Half) (v : Wait) : (sl.setWait h v).uipcx = sl.uipcx := by cases h <;> rfl
@[simp] theorem Slot.setWait_lq (sl : Slot) (h : Half) (v : Wait) : (sl.setWait h v).lq = sl.lq := by cases h <;> rfl
@[simp] theorem Slot.setWait_sq (sl : Slot) (h : Half) (v : Wait) : (sl.setWait h v).sq = sl.sq := by cases h <;> rfl
@[simp] theorem Slot.setWait_sqTaken (sl : Slot) (h : Half) (v : Wait) : (sl.setWait h v).sqTaken = sl.sqTaken := by cases h <;> rfl
@[simp] theorem Slot.setWait_bqa (sl : Slot) (h : Half) (v : Wait) : (sl.setWait h v).bqa = sl.bqa := by cases h <;> rfl
@[simp] theorem Slot.setWait_bqx (sl : Slot) (h : Half) (v : Wait) : (sl.setWait h v).bqx = sl.bqx := by cases h <;> rfl
@[simp] theorem Slot.setWait_ckpts (sl : Slot) (h : Half) (v : Wait) : (sl.setWait h v).ckpts = sl.ckpts := by cases h <;> rfl
@[simp] theorem Slot.setWait_loads (sl : Slot) (h : Half) (v : Wait) : (sl.setWait h v).loads = sl.loads := by cases h <;> rfl
@[simp] theorem Slot.setWait_stores (sl : Slot) (h : Half) (v : Wait) : (sl.setWait h v).stores = sl.stores := by cases h <;> rfl
@[simp] theorem Slot.setWait_ports (sl : Slot) (h : Half) (v : Wait) : (sl.setWait h v).ports = sl.ports := by cases h <;> rfl
@[simp] theorem Slot.setWait_done (sl : Slot) (h : Half) (v : Wait) : (sl.setWait h v).done = sl.done := by cases h <;> rfl
@[simp] theorem Slot.setWait_bcDue (sl : Slot) (h : Half) (v : Wait) : (sl.setWait h v).bcDue = sl.bcDue := by cases h <;> rfl
@[simp] theorem Slot.setWait_bcKeys (sl : Slot) (h : Half) (v : Wait) : (sl.setWait h v).bcKeys = sl.bcKeys := by cases h <;> rfl
@[simp] theorem Slot.setWait_semDue (sl : Slot) (h : Half) (v : Wait) : (sl.setWait h v).semDue = sl.semDue := by cases h <;> rfl
@[simp] theorem Slot.setWait_scDue (sl : Slot) (h : Half) (v : Wait) : (sl.setWait h v).scDue = sl.scDue := by cases h <;> rfl
@[simp] theorem Slot.setWait_scout (sl : Slot) (h : Half) (v : Wait) : (sl.setWait h v).scout = sl.scout := by cases h <;> rfl
@[simp] theorem Slot.setWait_post (sl : Slot) (h : Half) (v : Wait) : (sl.setWait h v).post = sl.post := by cases h <;> rfl
@[simp] theorem Slot.setWait_held (sl : Slot) (h : Half) (v : Wait) : (sl.setWait h v).held = sl.held := by cases h <;> rfl
@[simp] theorem Slot.setWait_fentry (sl : Slot) (h : Half) (v : Wait) : (sl.setWait h v).fentry = sl.fentry := by cases h <;> rfl
@[simp] theorem Slot.setWait_finsn (sl : Slot) (h : Half) (v : Wait) : (sl.setWait h v).finsn = sl.finsn := by cases h <;> rfl
@[simp] theorem Slot.setWait_ffGot (sl : Slot) (h : Half) (v : Wait) : (sl.setWait h v).ffGot = sl.ffGot := by cases h <;> rfl
@[simp] theorem Slot.setWait_eff (sl : Slot) (h : Half) (v : Wait) : (sl.setWait h v).eff = sl.eff := by cases h <;> rfl
@[simp] theorem Slot.setWait_fva (sl : Slot) (h : Half) (v : Wait) : (sl.setWait h v).fva = sl.fva := by cases h <;> rfl
@[simp] theorem Slot.setWait_tookA (sl : Slot) (h : Half) (v : Wait) : (sl.setWait h v).tookA = sl.tookA := by cases h <;> rfl
@[simp] theorem Slot.setWait_tookX (sl : Slot) (h : Half) (v : Wait) : (sl.setWait h v).tookX = sl.tookX := by cases h <;> rfl
@[simp] theorem Slot.setWait_refused (sl : Slot) (h : Half) (v : Wait) : (sl.setWait h v).refused = sl.refused := by cases h <;> rfl
@[simp] theorem Slot.setWait_kmark (sl : Slot) (h : Half) (v : Wait) : (sl.setWait h v).kmark = sl.kmark := by cases h <;> rfl
@[simp] theorem Slot.setBad_bound (sl : Slot) (h : Half) (v : Bool) : (sl.setBad h v).bound = sl.bound := by cases h <;> rfl
@[simp] theorem Slot.setBad_task (sl : Slot) (h : Half) (v : Bool) : (sl.setBad h v).task = sl.task := by cases h <;> rfl
@[simp] theorem Slot.setBad_sys (sl : Slot) (h : Half) (v : Bool) : (sl.setBad h v).sys = sl.sys := by cases h <;> rfl
@[simp] theorem Slot.setBad_trap (sl : Slot) (h : Half) (v : Bool) : (sl.setBad h v).trap = sl.trap := by cases h <;> rfl
@[simp] theorem Slot.setBad_super (sl : Slot) (h : Half) (v : Bool) : (sl.setBad h v).super = sl.super := by cases h <;> rfl
@[simp] theorem Slot.setBad_inUi (sl : Slot) (h : Half) (v : Bool) : (sl.setBad h v).inUi = sl.inUi := by cases h <;> rfl
@[simp] theorem Slot.setBad_uiHold (sl : Slot) (h : Half) (v : Bool) : (sl.setBad h v).uiHold = sl.uiHold := by cases h <;> rfl
@[simp] theorem Slot.setBad_ctxa (sl : Slot) (h : Half) (v : Bool) : (sl.setBad h v).ctxa = sl.ctxa := by cases h <;> rfl
@[simp] theorem Slot.setBad_ctxx (sl : Slot) (h : Half) (v : Bool) : (sl.setBad h v).ctxx = sl.ctxx := by cases h <;> rfl
@[simp] theorem Slot.setBad_uipca (sl : Slot) (h : Half) (v : Bool) : (sl.setBad h v).uipca = sl.uipca := by cases h <;> rfl
@[simp] theorem Slot.setBad_uipcx (sl : Slot) (h : Half) (v : Bool) : (sl.setBad h v).uipcx = sl.uipcx := by cases h <;> rfl
@[simp] theorem Slot.setBad_lq (sl : Slot) (h : Half) (v : Bool) : (sl.setBad h v).lq = sl.lq := by cases h <;> rfl
@[simp] theorem Slot.setBad_sq (sl : Slot) (h : Half) (v : Bool) : (sl.setBad h v).sq = sl.sq := by cases h <;> rfl
@[simp] theorem Slot.setBad_sqTaken (sl : Slot) (h : Half) (v : Bool) : (sl.setBad h v).sqTaken = sl.sqTaken := by cases h <;> rfl
@[simp] theorem Slot.setBad_bqa (sl : Slot) (h : Half) (v : Bool) : (sl.setBad h v).bqa = sl.bqa := by cases h <;> rfl
@[simp] theorem Slot.setBad_bqx (sl : Slot) (h : Half) (v : Bool) : (sl.setBad h v).bqx = sl.bqx := by cases h <;> rfl
@[simp] theorem Slot.setBad_awai (sl : Slot) (h : Half) (v : Bool) : (sl.setBad h v).awai = sl.awai := by cases h <;> rfl
@[simp] theorem Slot.setBad_xwai (sl : Slot) (h : Half) (v : Bool) : (sl.setBad h v).xwai = sl.xwai := by cases h <;> rfl
@[simp] theorem Slot.setBad_ckpts (sl : Slot) (h : Half) (v : Bool) : (sl.setBad h v).ckpts = sl.ckpts := by cases h <;> rfl
@[simp] theorem Slot.setBad_loads (sl : Slot) (h : Half) (v : Bool) : (sl.setBad h v).loads = sl.loads := by cases h <;> rfl
@[simp] theorem Slot.setBad_stores (sl : Slot) (h : Half) (v : Bool) : (sl.setBad h v).stores = sl.stores := by cases h <;> rfl
@[simp] theorem Slot.setBad_ports (sl : Slot) (h : Half) (v : Bool) : (sl.setBad h v).ports = sl.ports := by cases h <;> rfl
@[simp] theorem Slot.setBad_done (sl : Slot) (h : Half) (v : Bool) : (sl.setBad h v).done = sl.done := by cases h <;> rfl
@[simp] theorem Slot.setBad_bcDue (sl : Slot) (h : Half) (v : Bool) : (sl.setBad h v).bcDue = sl.bcDue := by cases h <;> rfl
@[simp] theorem Slot.setBad_bcKeys (sl : Slot) (h : Half) (v : Bool) : (sl.setBad h v).bcKeys = sl.bcKeys := by cases h <;> rfl
@[simp] theorem Slot.setBad_semDue (sl : Slot) (h : Half) (v : Bool) : (sl.setBad h v).semDue = sl.semDue := by cases h <;> rfl
@[simp] theorem Slot.setBad_scDue (sl : Slot) (h : Half) (v : Bool) : (sl.setBad h v).scDue = sl.scDue := by cases h <;> rfl
@[simp] theorem Slot.setBad_scout (sl : Slot) (h : Half) (v : Bool) : (sl.setBad h v).scout = sl.scout := by cases h <;> rfl
@[simp] theorem Slot.setBad_post (sl : Slot) (h : Half) (v : Bool) : (sl.setBad h v).post = sl.post := by cases h <;> rfl
@[simp] theorem Slot.setBad_held (sl : Slot) (h : Half) (v : Bool) : (sl.setBad h v).held = sl.held := by cases h <;> rfl
@[simp] theorem Slot.setBad_fentry (sl : Slot) (h : Half) (v : Bool) : (sl.setBad h v).fentry = sl.fentry := by cases h <;> rfl
@[simp] theorem Slot.setBad_finsn (sl : Slot) (h : Half) (v : Bool) : (sl.setBad h v).finsn = sl.finsn := by cases h <;> rfl
@[simp] theorem Slot.setBad_ffGot (sl : Slot) (h : Half) (v : Bool) : (sl.setBad h v).ffGot = sl.ffGot := by cases h <;> rfl
@[simp] theorem Slot.setBad_eff (sl : Slot) (h : Half) (v : Bool) : (sl.setBad h v).eff = sl.eff := by cases h <;> rfl
@[simp] theorem Slot.setBad_fva (sl : Slot) (h : Half) (v : Bool) : (sl.setBad h v).fva = sl.fva := by cases h <;> rfl
@[simp] theorem Slot.setBad_tookA (sl : Slot) (h : Half) (v : Bool) : (sl.setBad h v).tookA = sl.tookA := by cases h <;> rfl
@[simp] theorem Slot.setBad_tookX (sl : Slot) (h : Half) (v : Bool) : (sl.setBad h v).tookX = sl.tookX := by cases h <;> rfl
@[simp] theorem Slot.setBad_refused (sl : Slot) (h : Half) (v : Bool) : (sl.setBad h v).refused = sl.refused := by cases h <;> rfl
@[simp] theorem Slot.setBad_kmark (sl : Slot) (h : Half) (v : Bool) : (sl.setBad h v).kmark = sl.kmark := by cases h <;> rfl
@[simp] theorem Slot.advance_bound (sl : Slot) (h : Half) (v : Word) : (sl.advance h v).bound = sl.bound := by cases h <;> rfl
@[simp] theorem Slot.advance_task (sl : Slot) (h : Half) (v : Word) : (sl.advance h v).task = sl.task := by cases h <;> rfl
@[simp] theorem Slot.advance_sys (sl : Slot) (h : Half) (v : Word) : (sl.advance h v).sys = sl.sys := by cases h <;> rfl
@[simp] theorem Slot.advance_trap (sl : Slot) (h : Half) (v : Word) : (sl.advance h v).trap = sl.trap := by cases h <;> rfl
@[simp] theorem Slot.advance_super (sl : Slot) (h : Half) (v : Word) : (sl.advance h v).super = sl.super := by cases h <;> rfl
@[simp] theorem Slot.advance_inUi (sl : Slot) (h : Half) (v : Word) : (sl.advance h v).inUi = sl.inUi := by cases h <;> rfl
@[simp] theorem Slot.advance_uiHold (sl : Slot) (h : Half) (v : Word) : (sl.advance h v).uiHold = sl.uiHold := by cases h <;> rfl
@[simp] theorem Slot.advance_ctxa (sl : Slot) (h : Half) (v : Word) : (sl.advance h v).ctxa = sl.ctxa := by cases h <;> rfl
@[simp] theorem Slot.advance_ctxx (sl : Slot) (h : Half) (v : Word) : (sl.advance h v).ctxx = sl.ctxx := by cases h <;> rfl
@[simp] theorem Slot.advance_uipca (sl : Slot) (h : Half) (v : Word) : (sl.advance h v).uipca = sl.uipca := by cases h <;> rfl
@[simp] theorem Slot.advance_uipcx (sl : Slot) (h : Half) (v : Word) : (sl.advance h v).uipcx = sl.uipcx := by cases h <;> rfl
@[simp] theorem Slot.advance_lq (sl : Slot) (h : Half) (v : Word) : (sl.advance h v).lq = sl.lq := by cases h <;> rfl
@[simp] theorem Slot.advance_sq (sl : Slot) (h : Half) (v : Word) : (sl.advance h v).sq = sl.sq := by cases h <;> rfl
@[simp] theorem Slot.advance_sqTaken (sl : Slot) (h : Half) (v : Word) : (sl.advance h v).sqTaken = sl.sqTaken := by cases h <;> rfl
@[simp] theorem Slot.advance_bqa (sl : Slot) (h : Half) (v : Word) : (sl.advance h v).bqa = sl.bqa := by cases h <;> rfl
@[simp] theorem Slot.advance_bqx (sl : Slot) (h : Half) (v : Word) : (sl.advance h v).bqx = sl.bqx := by cases h <;> rfl
@[simp] theorem Slot.advance_loads (sl : Slot) (h : Half) (v : Word) : (sl.advance h v).loads = sl.loads := by cases h <;> rfl
@[simp] theorem Slot.advance_stores (sl : Slot) (h : Half) (v : Word) : (sl.advance h v).stores = sl.stores := by cases h <;> rfl
@[simp] theorem Slot.advance_ports (sl : Slot) (h : Half) (v : Word) : (sl.advance h v).ports = sl.ports := by cases h <;> rfl
@[simp] theorem Slot.advance_done (sl : Slot) (h : Half) (v : Word) : (sl.advance h v).done = sl.done := by cases h <;> rfl
@[simp] theorem Slot.advance_bcDue (sl : Slot) (h : Half) (v : Word) : (sl.advance h v).bcDue = sl.bcDue := by cases h <;> rfl
@[simp] theorem Slot.advance_bcKeys (sl : Slot) (h : Half) (v : Word) : (sl.advance h v).bcKeys = sl.bcKeys := by cases h <;> rfl
@[simp] theorem Slot.advance_semDue (sl : Slot) (h : Half) (v : Word) : (sl.advance h v).semDue = sl.semDue := by cases h <;> rfl
@[simp] theorem Slot.advance_scDue (sl : Slot) (h : Half) (v : Word) : (sl.advance h v).scDue = sl.scDue := by cases h <;> rfl
@[simp] theorem Slot.advance_scout (sl : Slot) (h : Half) (v : Word) : (sl.advance h v).scout = sl.scout := by cases h <;> rfl
@[simp] theorem Slot.advance_post (sl : Slot) (h : Half) (v : Word) : (sl.advance h v).post = sl.post := by cases h <;> rfl
@[simp] theorem Slot.advance_fentry (sl : Slot) (h : Half) (v : Word) : (sl.advance h v).fentry = sl.fentry := by cases h <;> rfl
@[simp] theorem Slot.advance_finsn (sl : Slot) (h : Half) (v : Word) : (sl.advance h v).finsn = sl.finsn := by cases h <;> rfl
@[simp] theorem Slot.advance_ffGot (sl : Slot) (h : Half) (v : Word) : (sl.advance h v).ffGot = sl.ffGot := by cases h <;> rfl
@[simp] theorem Slot.advance_eff (sl : Slot) (h : Half) (v : Word) : (sl.advance h v).eff = sl.eff := by cases h <;> rfl
@[simp] theorem Slot.advance_fva (sl : Slot) (h : Half) (v : Word) : (sl.advance h v).fva = sl.fva := by cases h <;> rfl
@[simp] theorem Slot.advance_tookA (sl : Slot) (h : Half) (v : Word) : (sl.advance h v).tookA = sl.tookA := by cases h <;> rfl
@[simp] theorem Slot.advance_tookX (sl : Slot) (h : Half) (v : Word) : (sl.advance h v).tookX = sl.tookX := by cases h <;> rfl
@[simp] theorem Slot.advance_refused (sl : Slot) (h : Half) (v : Word) : (sl.advance h v).refused = sl.refused := by cases h <;> rfl
@[simp] theorem Slot.advance_kmark (sl : Slot) (h : Half) (v : Word) : (sl.advance h v).kmark = sl.kmark := by cases h <;> rfl

end Sys2Proof.Machine
end

