-- ==== Sys2Proof/Laws/Issue.lean ====
section
/-! SUPPORT. The beginning of an instruction: what it does where the instruction is taken up. -/
namespace Sys2Proof.Machine
open Safety

theorem scoutCount_none {s : State} (h : s.me.scout = none) (b : Bool) : scoutCount b s = .ok () s := by
  simp [scoutCount, h]
theorem scoutGuard_none {s : State} (h : s.me.scout = none) (g : Guard) : scoutGuard g s = .ok () s := by
  simp [scoutGuard, h]

/-- An instruction that is taken up begins without changing anything. -/
theorem begin_ok {f : Form} {s : State} (h : takesUp f s = true) (out : Bool) : begin f out s = .ok () s := by
  obtain ⟨i, g, st, rel, acq⟩ := f
  simp only [takesUp, Bool.and_eq_true, Option.isNone_iff_eq_none] at h
  obtain ⟨⟨hr, hs⟩, h⟩ := h
  have hr' : i.roleBad s.myRole = false := by simpa using hr
  cases st
  · simp at h
  · simp only [Bool.and_eq_true, beq_iff_eq] at h
    obtain ⟨⟨hh, hg⟩, hq⟩ := h
    have hroom : acq = true → needBqRoom 1 s = .ok () s := by
      intro ha
      have : (s.me.bqOut .access).length < 8 := by simpa [ha] using hq
      simp [needBqRoom, hh, Nat.lt_succ_iff, Nat.not_le.mpr this]
    by_cases hf : guardFixed g = true
    · simp only [hf, if_true, Bool.and_eq_true, Bool.not_eq_true'] at hg
      have hhead : rel = true → ∃ e, needBqHead s = .ok e s := by
        intro hr
        cases hb : s.me.bqIn .access with
        | nil => simp [hb, hr] at hg
        | cons e q => exact ⟨e, by simp [needBqHead, hh, hb]⟩
      cases rel
      · cases acq
        · simp [begin, hr', hh, hf, hg.1, scoutCount_none hs]
        · simp [begin, hr', hh, hf, hg.1, scoutCount_none hs, hroom rfl]
      · obtain ⟨e, he⟩ := hhead rfl
        cases acq
        · simp [begin, hr', hh, hf, hg.1, scoutCount_none hs, he]
        · simp [begin, hr', hh, hf, hg.1, scoutCount_none hs, he, hroom rfl]
    · simp only [Bool.not_eq_true] at hf
      simp only [hf, Bool.false_eq_true, if_false, Bool.and_eq_true] at hg
      obtain ⟨hv, hl⟩ := hg
      cases hb : s.me.bqIn .access with
      | nil => simp [hb] at hv
      | cons e q =>
        have hv' : e.value = true := by simpa [hb] using hv
        have he : needBqHead s = .ok e s := by simp [needBqHead, hh, hb]
        cases rel
        · cases acq
          · simp [begin, hr', hh, hf, scoutCount_none hs, he, hv']
          · simp [begin, hr', hh, hf, scoutCount_none hs, he, hv', hroom rfl]
        · cases q with
          | nil => simp [hb] at hl
          | cons e' q =>
            have h2 : ¬ q.length + 1 + 1 < 2 := by omega
            cases acq
            · simp [begin, hr', hh, hf, scoutCount_none hs, he, hv', hb, h2]
            · simp [begin, hr', hh, hf, scoutCount_none hs, he, hv', hb, h2, hroom rfl]
  · simp only [Bool.and_eq_true, beq_iff_eq] at h
    simp [begin, hr', h.1, h.2, scoutCount_none hs, scoutGuard_none hs]
  · simp [begin, hr', scoutCount_none hs]
  · simp [begin, hr', scoutCount_none hs]
  · simp only [Bool.and_eq_true, beq_iff_eq] at h
    simp [begin, hr', h.1.1, h.1.2, h.2, scoutCount_none hs, scoutGuard_none hs]

end Sys2Proof.Machine
end

