-- ==== Sys2Proof/Laws/Operands.lean ====
section
/-! SUPPORT. Operands: what `prepare` does where they are ready, and what taking and writing one does. -/
namespace Sys2Proof.Machine
open Safety

theorem waits_ok {s : State} {srcs dsts : List Opnd} (h : roomAndWords s srcs dsts = true) : waits srcs dsts s = .ok () s := by
  simp only [roomAndWords, Bool.and_eq_true, decide_eq_true_eq, Bool.not_eq_true'] at h
  obtain ⟨⟨⟨⟨⟨⟨⟨⟨h1, h2⟩, h3⟩, h4⟩, h5⟩, h6⟩, h7⟩, h8⟩, h9⟩ := h
  have e1 : ((decide (s.me.lq.length < lqNeed srcs) || (s.me.lq.take (lqNeed srcs)).any fun e => e.word.isNone)) = false := by
    have : ¬ s.me.lq.length < lqNeed srcs := by omega
    simp only [this, decide_false, Bool.false_or, List.any_eq_false]
    intro e he
    have := List.all_eq_true.1 h2 e he
    cases hw : e.word <;> simp_all
  have e2 : (List.range 4).find? (fun k => decide ((s.me.portOf k).length < portNeed srcs (BitVec.ofNat 2 k))) = none := by
    rw [List.find?_eq_none]
    intro k hk
    have := List.all_eq_true.1 h3 k hk
    simp only [decide_eq_true_eq] at this ⊢
    omega
  have e6 : (decide (sqNeed dsts ≠ 0) && s.me.scout.isNone && decide (16 < s.me.sq.length + sqNeed dsts)) = false := by
    simp only [Bool.or_eq_true, beq_iff_eq, decide_eq_true_eq] at h6
    rcases h6 with h6 | h6
    · simp [h6]
    · have : ¬ 16 < s.me.sq.length + sqNeed dsts := by omega
      simp [this]
  have n4 : ¬ (s.tile s.myTile).lkw.length < linkNeed srcs true := by omega
  have n5 : ¬ (s.tile s.myTile).lke.length < linkNeed srcs false := by omega
  simp only [waits, M.bind_apply, M.get_apply, M.ite_apply, e1, if_false, e2, n4, n5, e6, h8, h9, Bool.false_eq_true]
  cases hk : portDest dsts with
  | none => simp
  | some k =>
    have : portFull s (mpDest s.cur.slot (s.me.mpdstOf k)) = false := by simp [hk] at h7; exact h7.2
    simp [this]

theorem foldl_fixed {α β : Type} (f : β → α → β) (b : β) : ∀ l : List α, (∀ a ∈ l, f b a = b) → l.foldl f b = b
  | [], _ => rfl
  | a :: l, h => by
    rw [List.foldl_cons, h a (List.mem_cons_self ..)]
    exact foldl_fixed f b l fun a' ha => h a' (List.mem_cons_of_mem _ ha)

/-- A constant word of one value is the word that the cached line holds. -/
theorem mixConst_fixed {s : State} {va : Word} (h : constFixed s va = true) (v : Word) :
    mixConst s.cur.slot (s.asidOf s.cur.slot) va.toNat v s = (v, s) := by
  refine foldl_fixed _ _ _ fun i hi => ?_
  have := List.all_eq_true.1 h i hi
  simp only [Bool.and_eq_true, List.isEmpty_iff] at this
  simp [this.1, this.2]

theorem constLine_fixed {s : State} {va : Word} (h : constFixed s va = true) :
    constLine (s.asidOf s.cur.slot) va s = ((s.core s.myCore).kcache.find? (fun x =>
      x.asid == s.asidOf s.cur.slot && x.vline == va.toNat / 128), s) := by
  have h : ((List.range 8).all fun i => (olderBytes s s.cur.slot (s.asidOf s.cur.slot) (va.toNat + i)).isEmpty) = true := by
    refine List.all_eq_true.2 fun i hi => ?_
    have := List.all_eq_true.1 h i hi
    simp only [Bool.and_eq_true] at this
    exact this.1
  unfold constLine
  split
  · next e => rw [e]
  · next e => rw [e, if_pos h]

theorem constReads_ok (i : Instr) (skip : M Unit) {s : State} : ∀ {srcs : List Opnd}, constsCached s srcs = true →
    constReads i skip srcs s = .ok (constWords s srcs) s := by
  intro srcs
  induction srcs with
  | nil => intro _; rfl
  | cons x xs ih =>
    intro h
    simp only [constsCached, List.all_cons, Bool.and_eq_true] at h
    have ih := ih h.2
    cases x with
    | w r =>
      cases r with
      | const w k =>
        cases hl : constHit s w k with
        | none => simp [hl] at h
        | some x =>
          have hr : constRead i w k skip s = .ok (x.data.extractLsb' (8 * ((s.me.constAddr w k).toNat % 128)) 64) s := by
            obtain ⟨hl, hp⟩ := Option.filter_eq_some_iff.1 hl
            simp only [Bool.and_eq_true, Bool.not_eq_true'] at hp
            simp [constRead, constWord, constLine_fixed hp.2, hl, hp.1, checkPoison, giveConst, mixConst_fixed hp.2]
          simp [constReads, hr, ih, constWords, hl]
      | _ => simpa [constReads, constWords] using ih
    | _ => simpa [constReads, constWords] using ih

theorem needEarlier_ok {s : State} (h : earlierDone s = true) : needEarlier s = .ok () s := by
  simp only [earlierDone, Bool.and_eq_true, Bool.not_eq_true'] at h
  obtain ⟨⟨⟨⟨⟨h1, h2⟩, h3⟩, h4⟩, h5⟩, h6⟩ := h
  simp only [needEarlier, M.bind_apply, M.get_apply, h1, h2, h3, h4, h5]
  cases hw : s.me.awai <;> simp_all

theorem checkPure_ok {s : State} (h : isPure s = false) : checkPureIrrevocable s = .ok () s := by
  simp [checkPureIrrevocable, h]

theorem markAll_none {s : State} (hs : s.me.scout = none) (na : Bool) (d : List Opnd) : markAll na d s = .ok () s := by
  simp [markAll, hs]

/-- Where operands are ready, nothing happens before they are taken. -/
theorem prepare_ok (f : Form) (next : M Unit) {s : State} {srcs dsts : List Opnd} (h : operandsReady s srcs dsts = true)
    (hs : s.me.scout = none) : prepare f srcs dsts next s = .ok (constWords s srcs) s := by
  simp only [operandsReady, Bool.and_eq_true] at h
  obtain ⟨⟨⟨h1, h2⟩, h3⟩, h4⟩ := h
  have hw := waits_ok h1
  have hp : waitPorts srcs dsts s = .ok () s := by
    cases hu : usesPorts srcs dsts with
    | false => simp [waitPorts, hu]
    | true =>
      simp only [hu, Bool.not_true, Bool.false_or, Bool.and_eq_true, Bool.not_eq_true'] at h4
      simp [waitPorts, hu, needEarlier_ok h4.1, checkPure_ok h4.2]
  have hsc (skip : M Unit) : scoutSources srcs dsts skip s = .ok () s := by simp [scoutSources, hs]
  have hd : checkDest f.instr dsts s = .ok () s := by
    cases hk : portDest dsts with
    | none => simp [checkDest, hk]
    | some k =>
      simp only [roomAndWords, Bool.and_eq_true] at h1
      have h7 := h1.1.1.2
      simp only [hk, Option.all_some, Bool.and_eq_true] at h7
      simp [checkDest, hk, h7.1]
  have hm (cs) : checkModes f.instr cs srcs s = .ok () s := by
    simp only [Option.isNone_iff_eq_none] at h3
    simp [checkModes, h3]
  simp [prepare, hw, hp, hsc, constReads_ok _ _ h2, markAll_none hs, hd, hm]

/-- Taking a source never ends the step. -/
theorem takeW_ok (cs : List (WReg × Word)) (r : WReg) (s : State) : ∃ v t, takeW cs r s = .ok v t := by
  cases r <;> exact ⟨_, _, rfl⟩

theorem takeAll_ok (cs : List (WReg × Word)) (rs : List WReg) (s : State) : ∃ vs t, rs.mapM (takeW cs) s = .ok vs t := by
  induction rs generalizing s with
  | nil => exact ⟨_, _, rfl⟩
  | cons r rs ih =>
    obtain ⟨v, t, h⟩ := takeW_ok cs r s
    obtain ⟨vs, u, h'⟩ := ih t
    exact ⟨v :: vs, u, by simp [List.mapM_cons, h, h']⟩

theorem takeAll_eq (s : State) (rs : List WReg) :
    rs.mapM (takeW (constWords s (rs.map .w))) s = .ok (taken s rs).1 (taken s rs).2 := by
  obtain ⟨vs, t, h⟩ := takeAll_ok (constWords s (rs.map .w)) rs s
  simp [taken, h]

theorem takeV_ok (r : VReg) (s : State) : ∃ v t, takeV r s = .ok v t := by
  cases r <;> exact ⟨_, _, rfl⟩

theorem takeAllV_ok (rs : List VReg) (s : State) : ∃ vs t, rs.mapM takeV s = .ok vs t := by
  induction rs generalizing s with
  | nil => exact ⟨_, _, rfl⟩
  | cons r rs ih =>
    obtain ⟨v, t, h⟩ := takeV_ok r s
    obtain ⟨vs, u, h'⟩ := ih t
    exact ⟨v :: vs, u, by simp [List.mapM_cons, h, h']⟩

theorem takeAllV_eq (s : State) (rs : List VReg) : rs.mapM takeV s = .ok (takenV s rs).1 (takenV s rs).2 := by
  obtain ⟨vs, t, h⟩ := takeAllV_ok rs s
  simp [takenV, h]

theorem takesUp_scout {f : Form} {s : State} (h : takesUp f s = true) : s.me.scout = none := by
  simp only [takesUp, Bool.and_eq_true, Option.isNone_iff_eq_none] at h
  exact h.1.2

/-- The W-class shapes: taken up with their operands ready, they write the result and move on. -/
theorem compute_ok {i : Instr} {g : Guard} {st : Stream} {d : WReg} {srcs : List WReg} (op : List Word → Word) {s : State}
    (hu : takesUp (mkForm i g st) s = true) (hr : operandsReady s (srcs.map .w) [.w d] = true) :
    compute i g st d srcs op s = .next (wrote (mkForm i g st) d (op (taken s srcs).1) (taken s srcs).2) := by
  simp only [compute, wrote, andOn, ← M.step_eq_state]
  simp only [M.step, M.bind_apply, begin_ok hu, prepare_ok _ _ hr (takesUp_scout hu), takeAll_eq]
  rfl

end Sys2Proof.Machine
end

