-- ==== Sys2Proof/Laws/PerInstr.lean ====
section
/-! SUPPORT. One law for every instruction: its encoding has the opcode that the map of R55 gives its mnemonic. A step of a
device has no opcode. -/
namespace Sys2Proof.Laws.Opcode

/-- The opcode of an instruction in the map of R55; a reserved opcode is its own (R56). -/
def byMap : Instr → Option (BitVec 8)
  | .nop _ => some 0x00#8
  | .reservedOpcode w => some (bits w 2 8)
  | .br _ => some 0x01#8
  | .bz _ => some 0x02#8
  | .bnz _ => some 0x03#8
  | .bp _ => some 0x04#8
  | .bnp _ => some 0x05#8
  | .beq _ => some 0x06#8
  | .bne _ => some 0x07#8
  | .blt _ => some 0x08#8
  | .bge _ => some 0x09#8
  | .bltu _ => some 0x0A#8
  | .bgeu _ => some 0x0B#8
  | .loopr _ => some 0x0C#8
  | .brx _ => some 0x0D#8
  | .ipf _ => some 0x0E#8
  | .add _ => some 0x10#8
  | .sub _ => some 0x11#8
  | .addi _ => some 0x12#8
  | .subi _ => some 0x13#8
  | .mul _ => some 0x14#8
  | .mulh _ => some 0x15#8
  | .mulhu _ => some 0x16#8
  | .div _ => some 0x17#8
  | .divu _ => some 0x18#8
  | .rem _ => some 0x19#8
  | .remu _ => some 0x1A#8
  | .and _ => some 0x1B#8
  | .or _ => some 0x1C#8
  | .xor _ => some 0x1D#8
  | .andi _ => some 0x1E#8
  | .ori _ => some 0x1F#8
  | .xori _ => some 0x20#8
  | .shl _ => some 0x21#8
  | .shr _ => some 0x22#8
  | .sar _ => some 0x23#8
  | .shli _ => some 0x24#8
  | .shri _ => some 0x25#8
  | .sari _ => some 0x26#8
  | .mov _ => some 0x27#8
  | .movi _ => some 0x28#8
  | .cmp _ => some 0x29#8
  | .cmpi _ => some 0x2A#8
  | .plog _ => some 0x2B#8
  | .sel _ => some 0x2C#8
  | .bitc _ => some 0x2D#8
  | .extr _ => some 0x2E#8
  | .insr _ => some 0x2F#8
  | .ld _ => some 0x30#8
  | .ldx _ => some 0x31#8
  | .st _ => some 0x32#8
  | .stx _ => some 0x33#8
  | .ldfe _ => some 0x34#8
  | .ldff _ => some 0x35#8
  | .stf _ => some 0x36#8
  | .sete _ => some 0x37#8
  | .aadd _ => some 0x38#8
  | .afadd _ => some 0x39#8
  | .amin _ => some 0x3A#8
  | .amax _ => some 0x3B#8
  | .aand _ => some 0x3C#8
  | .aor _ => some 0x3D#8
  | .axor _ => some 0x3E#8
  | .aswp _ => some 0x3F#8
  | .acas _ => some 0x40#8
  | .pfh _ => some 0x41#8
  | .lds _ => some 0x42#8
  | .sts _ => some 0x43#8
  | .ldsx _ => some 0x44#8
  | .stsx _ => some 0x45#8
  | .cflush _ => some 0x46#8
  | .cinv _ => some 0x47#8
  | .bcpost _ => some 0x48#8
  | .bcrd _ => some 0x49#8
  | .cpy _ => some 0x50#8
  | .cpynb _ => some 0x51#8
  | .cwait _ => some 0x52#8
  | .ctest _ => some 0x53#8
  | .coll _ => some 0x54#8
  | .collnb _ => some 0x55#8
  | .cstat _ => some 0x56#8
  | .bind _ => some 0x58#8
  | .unbind _ => some 0x59#8
  | .qput _ => some 0x5A#8
  | .qget _ => some 0x5B#8
  | .sempost _ => some 0x5C#8
  | .semwait _ => some 0x5D#8
  | .acq _ => some 0x5E#8
  | .rel _ => some 0x5F#8
  | .fadd _ => some 0x60#8
  | .fsub _ => some 0x61#8
  | .fmul _ => some 0x62#8
  | .ffma _ => some 0x63#8
  | .fdiv _ => some 0x64#8
  | .fsqrt _ => some 0x65#8
  | .fmin _ => some 0x66#8
  | .fmax _ => some 0x67#8
  | .fcmp _ => some 0x68#8
  | .fcvt _ => some 0x69#8
  | .fabs _ => some 0x6A#8
  | .fneg _ => some 0x6B#8
  | .vadd _ => some 0x70#8
  | .vsub _ => some 0x71#8
  | .vmul _ => some 0x72#8
  | .vfma _ => some 0x73#8
  | .vfms _ => some 0x74#8
  | .vfnma _ => some 0x75#8
  | .vdiv _ => some 0x76#8
  | .vsqrt _ => some 0x77#8
  | .vmin _ => some 0x78#8
  | .vmax _ => some 0x79#8
  | .vabs _ => some 0x7A#8
  | .vneg _ => some 0x7B#8
  | .vand _ => some 0x7C#8
  | .vor _ => some 0x7D#8
  | .vxor _ => some 0x7E#8
  | .vnot _ => some 0x7F#8
  | .vshl _ => some 0x80#8
  | .vshr _ => some 0x81#8
  | .vsar _ => some 0x82#8
  | .vcmp _ => some 0x83#8
  | .vsel _ => some 0x84#8
  | .vmov _ => some 0x85#8
  | .vbcast _ => some 0x86#8
  | .vins _ => some 0x87#8
  | .vext _ => some 0x88#8
  | .vperm _ => some 0x89#8
  | .vshuf _ => some 0x8A#8
  | .vrot _ => some 0x8B#8
  | .vzip _ => some 0x8C#8
  | .vunzip _ => some 0x8D#8
  | .vcvt _ => some 0x8E#8
  | .vrcp _ => some 0x8F#8
  | .vrsq _ => some 0x90#8
  | .vexp _ => some 0x91#8
  | .vlog _ => some 0x92#8
  | .vradd _ => some 0x93#8
  | .vrmax _ => some 0x94#8
  | .vrmin _ => some 0x95#8
  | .vdot _ => some 0x96#8
  | .mand _ => some 0x97#8
  | .mor _ => some 0x98#8
  | .mxor _ => some 0x99#8
  | .mnot _ => some 0x9A#8
  | .mpop _ => some 0x9B#8
  | .mfirst _ => some 0x9C#8
  | .mtop _ => some 0x9D#8
  | .cvt _ => some 0xA0#8
  | .align _ => some 0xA1#8
  | .dealign _ => some 0xA2#8
  | .bscale _ => some 0xA3#8
  | .seed _ => some 0xA4#8
  | .vpack _ => some 0xA5#8
  | .vunpk _ => some 0xA6#8
  | .cvld _ => some 0xA7#8
  | .cvst _ => some 0xA8#8
  | .mload _ => some 0xB8#8
  | .mma _ => some 0xB9#8
  | .mmaf _ => some 0xBA#8
  | .aclr _ => some 0xBB#8
  | .ard _ => some 0xBC#8
  | .asto _ => some 0xBD#8
  | .mgrp _ => some 0xBE#8
  | .amask _ => some 0xBF#8
  | .grule _ => some 0xC0#8
  | .geval _ => some 0xC1#8
  | .gclr _ => some 0xC2#8
  | .grd _ => some 0xC3#8
  | .tspawn _ => some 0xD0#8
  | .tcommit _ => some 0xD1#8
  | .tend _ => some 0xD2#8
  | .tabort _ => some 0xD3#8
  | .tsadv _ => some 0xD4#8
  | .tscmp _ => some 0xD5#8
  | .rinv _ => some 0xD6#8
  | .calld _ => some 0xE0#8
  | .calldr _ => some 0xE1#8
  | .retd _ => some 0xE2#8
  | .taild _ => some 0xE3#8
  | .cfetch _ => some 0xE4#8
  | .vevict _ => some 0xE5#8
  | .vprobe _ => some 0xE6#8
  | .mtsr _ => some 0xE8#8
  | .mfsr _ => some 0xE9#8
  | .trap _ => some 0xEA#8
  | .uiret _ => some 0xEB#8
  | .tret _ => some 0xEC#8
  | .csave _ => some 0xED#8
  | .crest _ => some 0xEE#8
  | .ttld _ => some 0xEF#8
  | .ttst _ => some 0xF0#8
  | .waite _ => some 0xF1#8
  | .bkpt _ => some 0xF2#8
  | .snap _ => some 0xF3#8
  | .demandFetch _ _ => none
  | .instructionLineFill _ _ => none
  | .loadDataReturn _ _ => none
  | .wmb0Read _ => none
  | .wmb1Read _ => none
  | .win2Write _ => none
  | .installRecordReceive _ _ => none
  | .clearingQueueRelease _ => none
  | .transferStart _ _ => none
  | .transferComplete _ _ _ => none
  | .transferFault _ _ _ => none
  | .collectiveMatchComplete _ _ => none
  | .completionInterrupt _ => none
  | .byteCountTrapDelivery _ => none
  | .semaphoreOverflowDelivery _ => none
  | .portWordArrival _ _ => none
  | .linkWordArrival _ _ => none
  | .slotUnpark _ _ => none
  | .faultEntryReply _ _ => none
  | .engineOperationStart _ => none
  | .engineSemPost _ => none
  | .engineOperationComplete _ => none
  | .conversionUnitComplete _ => none
  | .dispatcherPlace _ => none
  | .bankModeChange _ _ => none
  | .redundantMismatch _ => none
  | .watchdogExpiry _ => none
  | .partitionDrainComplete _ => none
  | .preemptionTrap _ => none
  | .codeFetchInstall _ _ => none
  | .mintPublish _ => none
  | .codeFetchFailure _ _ => none
  | .invalidationComplete => none
  | .l1FlushComplete _ => none
  | .sectorPinComplete _ _ => none
  | .containmentFence _ => none
  | .containmentReset _ => none
  | .linkTrainingComplete _ => none
  | .aqgalRequestTimeout _ => none
  | .syncFlitSend _ => none
  | .creditProbe _ => none
  | .startStageComplete => none
  | .storePerformed _ => none
  | .collectiveMemberLost _ _ => none
  | .pfqbaseWrite _ => none
  | .launchRecordArrival _ _ => none
  | .preqWrite _ _ => none
  | .partitionResize _ _ => none
  | .vlimWrite _ _ => none
  | .txcmdInvalidatePage _ => none
  | .txcmdInvalidateAsid _ => none
  | .txcmdInvalidateAll _ => none
  | .l1ctlFlushAsid _ _ => none
  | .l1ctlFlushTile _ _ => none
  | .srpctlEnable _ _ _ => none
  | .srpaddPin _ _ _ => none
  | .rslowWrite _ _ => none
  | .nanmodeWrite _ _ => none
  | .srgenWrite _ _ => none
  | .mpdstWrite _ _ _ => none
  | .registerWrite _ _ => none
  | .ctrectRejoin _ _ => none
  | .routerLinkFailure _ => none
  | .lmctlRetrain _ _ => none
  | .lmctlCounterClear _ _ => none
  | .ucieFlitReceive _ _ => none
  | .crcWindowEnd _ => none
  | .laneRetirement _ _ => none
  | .aqgalFlitReceive _ _ => none
  | .aqgalPortSetChange _ _ => none
  | .launchFlitSequence _ _ => none
  | .rocePacketReceive _ _ => none
  | .launchSend _ _ => none
  | .ptpMessage _ => none
  | .undervoltWindowEnd _ _ => none
  | .snapctlGo _ => none
  | .powerGood => none
  | .startStageFailure _ => none
  | .attestationChallenge _ => none
  | .thermalTrip _ => none
  | .powerLoss => none
  | .scrubbing _ _ => none

def Statement (i : Instr) : Prop := ∀ n, byMap i = some n → (encode i).op = n

theorem nop (o : NopOps) : Statement (.nop o) := fun _ h => Option.some.inj h ▸ rfl
theorem reservedOpcode (w : BitVec 64) : Statement (.reservedOpcode w) := fun _ h => Option.some.inj h ▸ rfl
theorem br (o : B0) : Statement (.br o) := fun _ h => Option.some.inj h ▸ rfl
theorem bz (o : B1W) : Statement (.bz o) := fun _ h => Option.some.inj h ▸ rfl
theorem bnz (o : B1W) : Statement (.bnz o) := fun _ h => Option.some.inj h ▸ rfl
theorem bp (o : B1P) : Statement (.bp o) := fun _ h => Option.some.inj h ▸ rfl
theorem bnp (o : B1P) : Statement (.bnp o) := fun _ h => Option.some.inj h ▸ rfl
theorem beq (o : B2W) : Statement (.beq o) := fun _ h => Option.some.inj h ▸ rfl
theorem bne (o : B2W) : Statement (.bne o) := fun _ h => Option.some.inj h ▸ rfl
theorem blt (o : B2W) : Statement (.blt o) := fun _ h => Option.some.inj h ▸ rfl
theorem bge (o : B2W) : Statement (.bge o) := fun _ h => Option.some.inj h ▸ rfl
theorem bltu (o : B2W) : Statement (.bltu o) := fun _ h => Option.some.inj h ▸ rfl
theorem bgeu (o : B2W) : Statement (.bgeu o) := fun _ h => Option.some.inj h ▸ rfl
theorem loopr (o : B1W) : Statement (.loopr o) := fun _ h => Option.some.inj h ▸ rfl
theorem brx (o : S1W) : Statement (.brx o) := fun _ h => Option.some.inj h ▸ rfl
theorem ipf (o : B0) : Statement (.ipf o) := fun _ h => Option.some.inj h ▸ rfl
theorem add (o : R3W) : Statement (.add o) := fun _ h => Option.some.inj h ▸ rfl
theorem sub (o : R3W) : Statement (.sub o) := fun _ h => Option.some.inj h ▸ rfl
theorem addi (o : RIW) : Statement (.addi o) := fun _ h => Option.some.inj h ▸ rfl
theorem subi (o : RIW) : Statement (.subi o) := fun _ h => Option.some.inj h ▸ rfl
theorem mul (o : R3W) : Statement (.mul o) := fun _ h => Option.some.inj h ▸ rfl
theorem mulh (o : R3W) : Statement (.mulh o) := fun _ h => Option.some.inj h ▸ rfl
theorem mulhu (o : R3W) : Statement (.mulhu o) := fun _ h => Option.some.inj h ▸ rfl
theorem div (o : R3W) : Statement (.div o) := fun _ h => Option.some.inj h ▸ rfl
theorem divu (o : R3W) : Statement (.divu o) := fun _ h => Option.some.inj h ▸ rfl
theorem rem (o : R3W) : Statement (.rem o) := fun _ h => Option.some.inj h ▸ rfl
theorem remu (o : R3W) : Statement (.remu o) := fun _ h => Option.some.inj h ▸ rfl
theorem and (o : R3W) : Statement (.and o) := fun _ h => Option.some.inj h ▸ rfl
theorem or (o : R3W) : Statement (.or o) := fun _ h => Option.some.inj h ▸ rfl
theorem xor (o : R3W) : Statement (.xor o) := fun _ h => Option.some.inj h ▸ rfl
theorem andi (o : RIW) : Statement (.andi o) := fun _ h => Option.some.inj h ▸ rfl
theorem ori (o : RIW) : Statement (.ori o) := fun _ h => Option.some.inj h ▸ rfl
theorem xori (o : RIW) : Statement (.xori o) := fun _ h => Option.some.inj h ▸ rfl
theorem shl (o : R3W) : Statement (.shl o) := fun _ h => Option.some.inj h ▸ rfl
theorem shr (o : R3W) : Statement (.shr o) := fun _ h => Option.some.inj h ▸ rfl
theorem sar (o : R3W) : Statement (.sar o) := fun _ h => Option.some.inj h ▸ rfl
theorem shli (o : RIW) : Statement (.shli o) := fun _ h => Option.some.inj h ▸ rfl
theorem shri (o : RIW) : Statement (.shri o) := fun _ h => Option.some.inj h ▸ rfl
theorem sari (o : RIW) : Statement (.sari o) := fun _ h => Option.some.inj h ▸ rfl
theorem mov (o : R2W) : Statement (.mov o) := fun _ h => Option.some.inj h ▸ rfl
theorem movi (o : I1W) : Statement (.movi o) := fun _ h => Option.some.inj h ▸ rfl
theorem cmp (o : CmpR) : Statement (.cmp o) := fun _ h => Option.some.inj h ▸ rfl
theorem cmpi (o : CmpI) : Statement (.cmpi o) := fun _ h => Option.some.inj h ▸ rfl
theorem plog (o : PlogR) : Statement (.plog o) := fun _ h => Option.some.inj h ▸ rfl
theorem sel (o : SelR) : Statement (.sel o) := fun _ h => Option.some.inj h ▸ rfl
theorem bitc (o : BitcR) : Statement (.bitc o) := fun _ h => Option.some.inj h ▸ rfl
theorem extr (o : ExtrI) : Statement (.extr o) := fun _ h => Option.some.inj h ▸ rfl
theorem insr (o : RIW) : Statement (.insr o) := fun _ h => Option.some.inj h ▸ rfl
theorem ld (o : LdOps) : Statement (.ld o) := fun _ h => Option.some.inj h ▸ rfl
theorem ldx (o : LxOps) : Statement (.ldx o) := fun _ h => Option.some.inj h ▸ rfl
theorem st (o : StOps) : Statement (.st o) := fun _ h => Option.some.inj h ▸ rfl
theorem stx (o : SxOps) : Statement (.stx o) := fun _ h => Option.some.inj h ▸ rfl
theorem ldfe (o : FeLd) : Statement (.ldfe o) := fun _ h => Option.some.inj h ▸ rfl
theorem ldff (o : FeLd) : Statement (.ldff o) := fun _ h => Option.some.inj h ▸ rfl
theorem stf (o : FeSt) : Statement (.stf o) := fun _ h => Option.some.inj h ▸ rfl
theorem sete (o : FeSet) : Statement (.sete o) := fun _ h => Option.some.inj h ▸ rfl
theorem aadd (o : AtOps) : Statement (.aadd o) := fun _ h => Option.some.inj h ▸ rfl
theorem afadd (o : AtOps) : Statement (.afadd o) := fun _ h => Option.some.inj h ▸ rfl
theorem amin (o : AtOps) : Statement (.amin o) := fun _ h => Option.some.inj h ▸ rfl
theorem amax (o : AtOps) : Statement (.amax o) := fun _ h => Option.some.inj h ▸ rfl
theorem aand (o : AtOps) : Statement (.aand o) := fun _ h => Option.some.inj h ▸ rfl
theorem aor (o : AtOps) : Statement (.aor o) := fun _ h => Option.some.inj h ▸ rfl
theorem axor (o : AtOps) : Statement (.axor o) := fun _ h => Option.some.inj h ▸ rfl
theorem aswp (o : AtOps) : Statement (.aswp o) := fun _ h => Option.some.inj h ▸ rfl
theorem acas (o : AcasOps) : Statement (.acas o) := fun _ h => Option.some.inj h ▸ rfl
theorem pfh (o : BoOps) : Statement (.pfh o) := fun _ h => Option.some.inj h ▸ rfl
theorem lds (o : LdOps) : Statement (.lds o) := fun _ h => Option.some.inj h ▸ rfl
theorem sts (o : StOps) : Statement (.sts o) := fun _ h => Option.some.inj h ▸ rfl
theorem ldsx (o : LxOps) : Statement (.ldsx o) := fun _ h => Option.some.inj h ▸ rfl
theorem stsx (o : SxOps) : Statement (.stsx o) := fun _ h => Option.some.inj h ▸ rfl
theorem cflush (o : BoOps) : Statement (.cflush o) := fun _ h => Option.some.inj h ▸ rfl
theorem cinv (o : BoOps) : Statement (.cinv o) := fun _ h => Option.some.inj h ▸ rfl
theorem bcpost (o : FeSt) : Statement (.bcpost o) := fun _ h => Option.some.inj h ▸ rfl
theorem bcrd (o : BcrdOps) : Statement (.bcrd o) := fun _ h => Option.some.inj h ▸ rfl
theorem cpy (o : CpOps) : Statement (.cpy o) := fun _ h => Option.some.inj h ▸ rfl
theorem cpynb (o : CpOps) : Statement (.cpynb o) := fun _ h => Option.some.inj h ▸ rfl
theorem cwait (o : CwOps) : Statement (.cwait o) := fun _ h => Option.some.inj h ▸ rfl
theorem ctest (o : CtOps) : Statement (.ctest o) := fun _ h => Option.some.inj h ▸ rfl
theorem coll (o : CpOps) : Statement (.coll o) := fun _ h => Option.some.inj h ▸ rfl
theorem collnb (o : CpOps) : Statement (.collnb o) := fun _ h => Option.some.inj h ▸ rfl
theorem cstat (o : CsOps) : Statement (.cstat o) := fun _ h => Option.some.inj h ▸ rfl
theorem bind (o : T3W) : Statement (.bind o) := fun _ h => Option.some.inj h ▸ rfl
theorem unbind (o : S1W) : Statement (.unbind o) := fun _ h => Option.some.inj h ▸ rfl
theorem qput (o : S2W) : Statement (.qput o) := fun _ h => Option.some.inj h ▸ rfl
theorem qget (o : S2W) : Statement (.qget o) := fun _ h => Option.some.inj h ▸ rfl
theorem sempost (o : KSem) : Statement (.sempost o) := fun _ h => Option.some.inj h ▸ rfl
theorem semwait (o : KSem) : Statement (.semwait o) := fun _ h => Option.some.inj h ▸ rfl
theorem acq (o : BoOps) : Statement (.acq o) := fun _ h => Option.some.inj h ▸ rfl
theorem rel (o : BoOps) : Statement (.rel o) := fun _ h => Option.some.inj h ▸ rfl
theorem fadd (o : F3) : Statement (.fadd o) := fun _ h => Option.some.inj h ▸ rfl
theorem fsub (o : F3) : Statement (.fsub o) := fun _ h => Option.some.inj h ▸ rfl
theorem fmul (o : F3) : Statement (.fmul o) := fun _ h => Option.some.inj h ▸ rfl
theorem ffma (o : F4) : Statement (.ffma o) := fun _ h => Option.some.inj h ▸ rfl
theorem fdiv (o : F3) : Statement (.fdiv o) := fun _ h => Option.some.inj h ▸ rfl
theorem fsqrt (o : F2) : Statement (.fsqrt o) := fun _ h => Option.some.inj h ▸ rfl
theorem fmin (o : F3) : Statement (.fmin o) := fun _ h => Option.some.inj h ▸ rfl
theorem fmax (o : F3) : Statement (.fmax o) := fun _ h => Option.some.inj h ▸ rfl
theorem fcmp (o : FcmpR) : Statement (.fcmp o) := fun _ h => Option.some.inj h ▸ rfl
theorem fcvt (o : FcvtR) : Statement (.fcvt o) := fun _ h => Option.some.inj h ▸ rfl
theorem fabs (o : F2) : Statement (.fabs o) := fun _ h => Option.some.inj h ▸ rfl
theorem fneg (o : F2) : Statement (.fneg o) := fun _ h => Option.some.inj h ▸ rfl
theorem vadd (o : V3) : Statement (.vadd o) := fun _ h => Option.some.inj h ▸ rfl
theorem vsub (o : V3) : Statement (.vsub o) := fun _ h => Option.some.inj h ▸ rfl
theorem vmul (o : V3) : Statement (.vmul o) := fun _ h => Option.some.inj h ▸ rfl
theorem vfma (o : V4) : Statement (.vfma o) := fun _ h => Option.some.inj h ▸ rfl
theorem vfms (o : V4) : Statement (.vfms o) := fun _ h => Option.some.inj h ▸ rfl
theorem vfnma (o : V4) : Statement (.vfnma o) := fun _ h => Option.some.inj h ▸ rfl
theorem vdiv (o : V3) : Statement (.vdiv o) := fun _ h => Option.some.inj h ▸ rfl
theorem vsqrt (o : V2) : Statement (.vsqrt o) := fun _ h => Option.some.inj h ▸ rfl
theorem vmin (o : V3) : Statement (.vmin o) := fun _ h => Option.some.inj h ▸ rfl
theorem vmax (o : V3) : Statement (.vmax o) := fun _ h => Option.some.inj h ▸ rfl
theorem vabs (o : V2) : Statement (.vabs o) := fun _ h => Option.some.inj h ▸ rfl
theorem vneg (o : V2) : Statement (.vneg o) := fun _ h => Option.some.inj h ▸ rfl
theorem vand (o : V3) : Statement (.vand o) := fun _ h => Option.some.inj h ▸ rfl
theorem vor (o : V3) : Statement (.vor o) := fun _ h => Option.some.inj h ▸ rfl
theorem vxor (o : V3) : Statement (.vxor o) := fun _ h => Option.some.inj h ▸ rfl
theorem vnot (o : V2) : Statement (.vnot o) := fun _ h => Option.some.inj h ▸ rfl
theorem vshl (o : V3) : Statement (.vshl o) := fun _ h => Option.some.inj h ▸ rfl
theorem vshr (o : V3) : Statement (.vshr o) := fun _ h => Option.some.inj h ▸ rfl
theorem vsar (o : V3) : Statement (.vsar o) := fun _ h => Option.some.inj h ▸ rfl
theorem vcmp (o : VcmpR) : Statement (.vcmp o) := fun _ h => Option.some.inj h ▸ rfl
theorem vsel (o : VselR) : Statement (.vsel o) := fun _ h => Option.some.inj h ▸ rfl
theorem vmov (o : V2) : Statement (.vmov o) := fun _ h => Option.some.inj h ▸ rfl
theorem vbcast (o : VbcR) : Statement (.vbcast o) := fun _ h => Option.some.inj h ▸ rfl
theorem vins (o : VinsR) : Statement (.vins o) := fun _ h => Option.some.inj h ▸ rfl
theorem vext (o : VextR) : Statement (.vext o) := fun _ h => Option.some.inj h ▸ rfl
theorem vperm (o : V3) : Statement (.vperm o) := fun _ h => Option.some.inj h ▸ rfl
theorem vshuf (o : V3) : Statement (.vshuf o) := fun _ h => Option.some.inj h ▸ rfl
theorem vrot (o : VrotR) : Statement (.vrot o) := fun _ h => Option.some.inj h ▸ rfl
theorem vzip (o : V3) : Statement (.vzip o) := fun _ h => Option.some.inj h ▸ rfl
theorem vunzip (o : V3) : Statement (.vunzip o) := fun _ h => Option.some.inj h ▸ rfl
theorem vcvt (o : VcvtR) : Statement (.vcvt o) := fun _ h => Option.some.inj h ▸ rfl
theorem vrcp (o : V2) : Statement (.vrcp o) := fun _ h => Option.some.inj h ▸ rfl
theorem vrsq (o : V2) : Statement (.vrsq o) := fun _ h => Option.some.inj h ▸ rfl
theorem vexp (o : V2) : Statement (.vexp o) := fun _ h => Option.some.inj h ▸ rfl
theorem vlog (o : V2) : Statement (.vlog o) := fun _ h => Option.some.inj h ▸ rfl
theorem vradd (o : VredR) : Statement (.vradd o) := fun _ h => Option.some.inj h ▸ rfl
theorem vrmax (o : VredR) : Statement (.vrmax o) := fun _ h => Option.some.inj h ▸ rfl
theorem vrmin (o : VredR) : Statement (.vrmin o) := fun _ h => Option.some.inj h ▸ rfl
theorem vdot (o : VdotR) : Statement (.vdot o) := fun _ h => Option.some.inj h ▸ rfl
theorem mand (o : M3) : Statement (.mand o) := fun _ h => Option.some.inj h ▸ rfl
theorem mor (o : M3) : Statement (.mor o) := fun _ h => Option.some.inj h ▸ rfl
theorem mxor (o : M3) : Statement (.mxor o) := fun _ h => Option.some.inj h ▸ rfl
theorem mnot (o : M2) : Statement (.mnot o) := fun _ h => Option.some.inj h ▸ rfl
theorem mpop (o : MW) : Statement (.mpop o) := fun _ h => Option.some.inj h ▸ rfl
theorem mfirst (o : MW) : Statement (.mfirst o) := fun _ h => Option.some.inj h ▸ rfl
theorem mtop (o : MP) : Statement (.mtop o) := fun _ h => Option.some.inj h ▸ rfl
theorem cvt (o : T2C) : Statement (.cvt o) := fun _ h => Option.some.inj h ▸ rfl
theorem align (o : T2C) : Statement (.align o) := fun _ h => Option.some.inj h ▸ rfl
theorem dealign (o : T2C) : Statement (.dealign o) := fun _ h => Option.some.inj h ▸ rfl
theorem bscale (o : T2C) : Statement (.bscale o) := fun _ h => Option.some.inj h ▸ rfl
theorem seed (o : S1W) : Statement (.seed o) := fun _ h => Option.some.inj h ▸ rfl
theorem vpack (o : VpackR) : Statement (.vpack o) := fun _ h => Option.some.inj h ▸ rfl
theorem vunpk (o : VunpkR) : Statement (.vunpk o) := fun _ h => Option.some.inj h ▸ rfl
theorem cvld (o : CvldR) : Statement (.cvld o) := fun _ h => Option.some.inj h ▸ rfl
theorem cvst (o : CvstR) : Statement (.cvst o) := fun _ h => Option.some.inj h ▸ rfl
theorem mload (o : T2X) : Statement (.mload o) := fun _ h => Option.some.inj h ▸ rfl
theorem mma (o : T2X) : Statement (.mma o) := fun _ h => Option.some.inj h ▸ rfl
theorem mmaf (o : T2X) : Statement (.mmaf o) := fun _ h => Option.some.inj h ▸ rfl
theorem aclr (o : S2W) : Statement (.aclr o) := fun _ h => Option.some.inj h ▸ rfl
theorem ard (o : ArdR) : Statement (.ard o) := fun _ h => Option.some.inj h ▸ rfl
theorem asto (o : T2X) : Statement (.asto o) := fun _ h => Option.some.inj h ▸ rfl
theorem mgrp (o : S1W) : Statement (.mgrp o) := fun _ h => Option.some.inj h ▸ rfl
theorem amask (o : S2W) : Statement (.amask o) := fun _ h => Option.some.inj h ▸ rfl
theorem grule (o : S1W) : Statement (.grule o) := fun _ h => Option.some.inj h ▸ rfl
theorem geval (o : T2X) : Statement (.geval o) := fun _ h => Option.some.inj h ▸ rfl
theorem gclr (o : N0) : Statement (.gclr o) := fun _ h => Option.some.inj h ▸ rfl
theorem grd (o : R2W) : Statement (.grd o) := fun _ h => Option.some.inj h ▸ rfl
theorem tspawn (o : S1W) : Statement (.tspawn o) := fun _ h => Option.some.inj h ▸ rfl
theorem tcommit (o : N0) : Statement (.tcommit o) := fun _ h => Option.some.inj h ▸ rfl
theorem tend (o : N0) : Statement (.tend o) := fun _ h => Option.some.inj h ▸ rfl
theorem tabort (o : N0) : Statement (.tabort o) := fun _ h => Option.some.inj h ▸ rfl
theorem tsadv (o : S1W) : Statement (.tsadv o) := fun _ h => Option.some.inj h ▸ rfl
theorem tscmp (o : R3W) : Statement (.tscmp o) := fun _ h => Option.some.inj h ▸ rfl
theorem rinv (o : S2W) : Statement (.rinv o) := fun _ h => Option.some.inj h ▸ rfl
theorem calld (o : CalldOps) : Statement (.calld o) := fun _ h => Option.some.inj h ▸ rfl
theorem calldr (o : CalldrOps) : Statement (.calldr o) := fun _ h => Option.some.inj h ▸ rfl
theorem retd (o : N0) : Statement (.retd o) := fun _ h => Option.some.inj h ▸ rfl
theorem taild (o : S1W) : Statement (.taild o) := fun _ h => Option.some.inj h ▸ rfl
theorem cfetch (o : S1W) : Statement (.cfetch o) := fun _ h => Option.some.inj h ▸ rfl
theorem vevict (o : S1W) : Statement (.vevict o) := fun _ h => Option.some.inj h ▸ rfl
theorem vprobe (o : R2W) : Statement (.vprobe o) := fun _ h => Option.some.inj h ▸ rfl
theorem mtsr (o : MtsrOps) : Statement (.mtsr o) := fun _ h => Option.some.inj h ▸ rfl
theorem mfsr (o : MfsrOps) : Statement (.mfsr o) := fun _ h => Option.some.inj h ▸ rfl
theorem trap (o : KTrap) : Statement (.trap o) := fun _ h => Option.some.inj h ▸ rfl
theorem uiret (o : N0) : Statement (.uiret o) := fun _ h => Option.some.inj h ▸ rfl
theorem tret (o : N0) : Statement (.tret o) := fun _ h => Option.some.inj h ▸ rfl
theorem csave (o : S1W) : Statement (.csave o) := fun _ h => Option.some.inj h ▸ rfl
theorem crest (o : S1W) : Statement (.crest o) := fun _ h => Option.some.inj h ▸ rfl
theorem ttld (o : S2W) : Statement (.ttld o) := fun _ h => Option.some.inj h ▸ rfl
theorem ttst (o : S2W) : Statement (.ttst o) := fun _ h => Option.some.inj h ▸ rfl
theorem waite (o : N0) : Statement (.waite o) := fun _ h => Option.some.inj h ▸ rfl
theorem bkpt (o : N0) : Statement (.bkpt o) := fun _ h => Option.some.inj h ▸ rfl
theorem snap (o : N0) : Statement (.snap o) := fun _ h => Option.some.inj h ▸ rfl
theorem demandFetch (slot : Nat) (half : Half) : Statement (.demandFetch slot half) := nofun
theorem instructionLineFill (core : Nat) (line : Nat) : Statement (.instructionLineFill core line) := nofun
theorem loadDataReturn (slot : Nat) (k : Nat) : Statement (.loadDataReturn slot k) := nofun
theorem wmb0Read (core : Nat) : Statement (.wmb0Read core) := nofun
theorem wmb1Read (core : Nat) : Statement (.wmb1Read core) := nofun
theorem win2Write (core : Nat) : Statement (.win2Write core) := nofun
theorem installRecordReceive (die : Nat) (slice : Nat) : Statement (.installRecordReceive die slice) := nofun
theorem clearingQueueRelease (part : Nat) : Statement (.clearingQueueRelease part) := nofun
theorem transferStart (tile : Nat) (ch : Nat) : Statement (.transferStart tile ch) := nofun
theorem transferComplete (tile : Nat) (ch : Nat) (id : Nat) : Statement (.transferComplete tile ch id) := nofun
theorem transferFault (tile : Nat) (ch : Nat) (id : Nat) : Statement (.transferFault tile ch id) := nofun
theorem collectiveMatchComplete (group : Nat) (k : Nat) : Statement (.collectiveMatchComplete group k) := nofun
theorem completionInterrupt (slot : Nat) : Statement (.completionInterrupt slot) := nofun
theorem byteCountTrapDelivery (slot : Nat) : Statement (.byteCountTrapDelivery slot) := nofun
theorem semaphoreOverflowDelivery (slot : Nat) : Statement (.semaphoreOverflowDelivery slot) := nofun
theorem portWordArrival (slot : Nat) (port : Nat) : Statement (.portWordArrival slot port) := nofun
theorem linkWordArrival (tile : Nat) (west : Bool) : Statement (.linkWordArrival tile west) := nofun
theorem slotUnpark (slot : Nat) (half : Half) : Statement (.slotUnpark slot half) := nofun
theorem faultEntryReply (key : Nat) (word0 : Word) : Statement (.faultEntryReply key word0) := nofun
theorem engineOperationStart (tile : Nat) : Statement (.engineOperationStart tile) := nofun
theorem engineSemPost (tile : Nat) : Statement (.engineSemPost tile) := nofun
theorem engineOperationComplete (tile : Nat) : Statement (.engineOperationComplete tile) := nofun
theorem conversionUnitComplete (tile : Nat) : Statement (.conversionUnitComplete tile) := nofun
theorem dispatcherPlace (part : Nat) : Statement (.dispatcherPlace part) := nofun
theorem bankModeChange (tile : Nat) (bank : Nat) : Statement (.bankModeChange tile bank) := nofun
theorem redundantMismatch (task : Nat) : Statement (.redundantMismatch task) := nofun
theorem watchdogExpiry (task : Nat) : Statement (.watchdogExpiry task) := nofun
theorem partitionDrainComplete (part : Nat) : Statement (.partitionDrainComplete part) := nofun
theorem preemptionTrap (slot : Nat) : Statement (.preemptionTrap slot) := nofun
theorem codeFetchInstall (cluster : Nat) (k : Nat) : Statement (.codeFetchInstall cluster k) := nofun
theorem mintPublish (k : Nat) : Statement (.mintPublish k) := nofun
theorem codeFetchFailure (cluster : Nat) (k : Nat) : Statement (.codeFetchFailure cluster k) := nofun
theorem invalidationComplete : Statement (.invalidationComplete) := nofun
theorem l1FlushComplete (tile : Nat) : Statement (.l1FlushComplete tile) := nofun
theorem sectorPinComplete (die : Nat) (slice : Nat) : Statement (.sectorPinComplete die slice) := nofun
theorem containmentFence (rect : Nat) : Statement (.containmentFence rect) := nofun
theorem containmentReset (rect : Nat) : Statement (.containmentReset rect) := nofun
theorem linkTrainingComplete (module : Nat) : Statement (.linkTrainingComplete module) := nofun
theorem aqgalRequestTimeout (k : Nat) : Statement (.aqgalRequestTimeout k) := nofun
theorem syncFlitSend (port : Nat) : Statement (.syncFlitSend port) := nofun
theorem creditProbe (qp : Nat) : Statement (.creditProbe qp) := nofun
theorem startStageComplete : Statement (.startStageComplete) := nofun
theorem storePerformed (slot : Nat) : Statement (.storePerformed slot) := nofun
theorem collectiveMemberLost (group : Nat) (k : Nat) : Statement (.collectiveMemberLost group k) := nofun
theorem pfqbaseWrite (v : Word) : Statement (.pfqbaseWrite v) := nofun
theorem launchRecordArrival (aqgal : Bool) (record : List (BitVec 64)) : Statement (.launchRecordArrival aqgal record) := nofun
theorem preqWrite (core : Nat) (v : Word) : Statement (.preqWrite core v) := nofun
theorem partitionResize (part : Nat) (v : Word) : Statement (.partitionResize part v) := nofun
theorem vlimWrite (cluster : Nat) (v : Word) : Statement (.vlimWrite cluster v) := nofun
theorem txcmdInvalidatePage (v : Word) : Statement (.txcmdInvalidatePage v) := nofun
theorem txcmdInvalidateAsid (v : Word) : Statement (.txcmdInvalidateAsid v) := nofun
theorem txcmdInvalidateAll (v : Word) : Statement (.txcmdInvalidateAll v) := nofun
theorem l1ctlFlushAsid (tile : Nat) (v : Word) : Statement (.l1ctlFlushAsid tile v) := nofun
theorem l1ctlFlushTile (tile : Nat) (v : Word) : Statement (.l1ctlFlushTile tile v) := nofun
theorem srpctlEnable (die : Nat) (slice : Nat) (v : Word) : Statement (.srpctlEnable die slice v) := nofun
theorem srpaddPin (die : Nat) (slice : Nat) (v : Word) : Statement (.srpaddPin die slice v) := nofun
theorem rslowWrite (slot : Nat) (v : Word) : Statement (.rslowWrite slot v) := nofun
theorem nanmodeWrite (slot : Nat) (v : Word) : Statement (.nanmodeWrite slot v) := nofun
theorem srgenWrite (slot : Nat) (v : Word) : Statement (.srgenWrite slot v) := nofun
theorem mpdstWrite (slot : Nat) (n : Nat) (v : Word) : Statement (.mpdstWrite slot n v) := nofun
theorem registerWrite (addr : Nat) (v : Word) : Statement (.registerWrite addr v) := nofun
theorem ctrectRejoin (rect : Nat) (v : Word) : Statement (.ctrectRejoin rect v) := nofun
theorem routerLinkFailure (tile : Nat) : Statement (.routerLinkFailure tile) := nofun
theorem lmctlRetrain (module : Nat) (v : Word) : Statement (.lmctlRetrain module v) := nofun
theorem lmctlCounterClear (module : Nat) (v : Word) : Statement (.lmctlCounterClear module v) := nofun
theorem ucieFlitReceive (module : Nat) (crcOk : Bool) : Statement (.ucieFlitReceive module crcOk) := nofun
theorem crcWindowEnd (module : Nat) : Statement (.crcWindowEnd module) := nofun
theorem laneRetirement (module : Nat) (lane : Nat) : Statement (.laneRetirement module lane) := nofun
theorem aqgalFlitReceive (port : Nat) (flit : List (BitVec 64)) : Statement (.aqgalFlitReceive port flit) := nofun
theorem aqgalPortSetChange (port : Nat) (up : Bool) : Statement (.aqgalPortSetChange port up) := nofun
theorem launchFlitSequence (port : Nat) (record : List (BitVec 64)) : Statement (.launchFlitSequence port record) := nofun
theorem rocePacketReceive (port : Nat) (packet : List (BitVec 8)) : Statement (.rocePacketReceive port packet) := nofun
theorem launchSend (qp : Nat) (record : List (BitVec 64)) : Statement (.launchSend qp record) := nofun
theorem ptpMessage (time : Word) : Statement (.ptpMessage time) := nofun
theorem undervoltWindowEnd (array : Nat) (errors : Nat) : Statement (.undervoltWindowEnd array errors) := nofun
theorem snapctlGo (v : Word) : Statement (.snapctlGo v) := nofun
theorem powerGood : Statement (.powerGood) := nofun
theorem startStageFailure (reason : Word) : Statement (.startStageFailure reason) := nofun
theorem attestationChallenge (nonce : List (BitVec 8)) : Statement (.attestationChallenge nonce) := nofun
theorem thermalTrip (info : Word) : Statement (.thermalTrip info) := nofun
theorem powerLoss : Statement (.powerLoss) := nofun
theorem scrubbing (uncorrectable : Bool) (addr : Nat) : Statement (.scrubbing uncorrectable addr) := nofun

end Sys2Proof.Laws.Opcode
end

