-- ==== Sys2Proof/Tests/Slice0.lean ====
section
/-! SUPPORT. Tests: words of the manual's encodings, ill-formed instructions, worked examples of the manual, and for every
statement of Certificates/Slice0/Obligations.lean a state and operands that meet its hypotheses. Expected values come from the
manual or are worked out from its tables by hand. -/
set_option Elab.async false
namespace Sys2Proof.Tests
open Sys2Proof Sys2Proof.Machine Sys2Proof.Safety

/-! ## Words

Each word is written out from R40, R42, R43, R52 to R55 and R63 of spec/03_encoding.md; the guard is `(!p5)` where nothing else
is said. -/

/-- Every listed word decodes to the instruction beside it. -/
def decodesTo (l : List (Word × Word × Instr)) : Bool :=
  l.all fun t => match decode 0 t.1 t.2.1 with | .ok i => decide (i = t.2.2) | .error _ => false

theorem test_integer_words : decodesTo ([
    (0x0000000078127440, 0, .add ⟨⟨5, true⟩, .w 9, .w 1, .w 30⟩),
    (0x000000007422B444, 0, .sub ⟨⟨5, true⟩, .w 10, .w 2, .w 29⟩),
    (0x000000007032F450, 0, .mul ⟨⟨5, true⟩, .w 11, .w 3, .w 28⟩),
    (0x000000006C433454, 0, .mulh ⟨⟨5, true⟩, .w 12, .w 4, .w 27⟩),
    (0x0000000068537458, 0, .mulhu ⟨⟨5, true⟩, .w 13, .w 5, .w 26⟩),
    (0x000000006463B45C, 0, .div ⟨⟨5, true⟩, .w 14, .w 6, .w 25⟩),
    (0x000000006073F460, 0, .divu ⟨⟨5, true⟩, .w 15, .w 7, .w 24⟩),
    (0x000000005C843464, 0, .rem ⟨⟨5, true⟩, .w 16, .w 8, .w 23⟩),
    (0x0000000058947468, 0, .remu ⟨⟨5, true⟩, .w 17, .w 9, .w 22⟩),
    (0x0000000054A4B46C, 0, .and ⟨⟨5, true⟩, .w 18, .w 10, .w 21⟩),
    (0x0000000050B4F470, 0, .or ⟨⟨5, true⟩, .w 19, .w 11, .w 20⟩),
    (0x000000004CC53474, 0, .xor ⟨⟨5, true⟩, .w 20, .w 12, .w 19⟩),
    (0x0000000048D57484, 0, .shl ⟨⟨5, true⟩, .w 21, .w 13, .w 18⟩),
    (0x0000000044E5B488, 0, .shr ⟨⟨5, true⟩, .w 22, .w 14, .w 17⟩),
    (0x0000000040F5F48C, 0, .sar ⟨⟨5, true⟩, .w 23, .w 15, .w 16⟩),
    (0x000FFFFD02BC7448, 0, .addi ⟨⟨5, true⟩, .l64, .a 9, .a 3, -3⟩),
    (0x000FFFFC02CCB44C, 0, .subi ⟨⟨5, true⟩, .l64, .a 10, .a 4, -4⟩),
    (0x000FFFFB02DCF478, 0, .andi ⟨⟨5, true⟩, .l64, .a 11, .a 5, -5⟩),
    (0x000FFFFA02ED347C, 0, .ori ⟨⟨5, true⟩, .l64, .a 12, .a 6, -6⟩),
    (0x000FFFF902FD7480, 0, .xori ⟨⟨5, true⟩, .l64, .a 13, .a 7, -7⟩)] ++ [
    (0x0000003D03B8F490, 0, .shli ⟨⟨5, true⟩, .l64, .g 3, .mp 2, 61⟩),
    (0x0000003E03B8F494, 0, .shri ⟨⟨5, true⟩, .l64, .g 3, .mp 2, 62⟩),
    (0x0000003F03B8F498, 0, .sari ⟨⟨5, true⟩, .l64, .g 3, .mp 2, 63⟩),
    (0x000BFFFF03F0F449, 0xfffffffe, .addi ⟨⟨5, true⟩, .l96, .w 3, .const 5 131071, -2⟩),
    (0x000000000040F44A, 0x8000000000000001, .addi ⟨⟨5, true⟩, .l128, .w 3, .w 4, 0x8000000000000001⟩)]) = true := by decide +kernel

theorem test_moves_words : decodesTo ([
    (0x0000000003DFB49C, 0, .mov ⟨⟨5, true⟩, .lke, .lkw⟩),
    (0x00080000000E34A0, 0, .movi ⟨⟨5, true⟩, .l64, .q, -524288⟩),
    (0x00700000E071B4A4, 0, .cmp ⟨⟨5, true⟩, .gt, 6, .w 7, .q⟩),
    (0x004000090071B4A8, 0, .cmpi ⟨⟨5, true⟩, .ltu, .l64, 6, .w 7, 9⟩),
    (0x003000000841B4AC, 0, .plog ⟨⟨5, true⟩, .andn, 6, 4, 2⟩),
    (0x00600000042134B0, 0, .sel ⟨⟨5, true⟩, 6, .w 4, .w 2, .w 1⟩),
    (0x00000000002134B4, 0, .bitc ⟨⟨5, true⟩, .clz, .w 4, .w 2⟩),
    (0x00100000002134B4, 0, .bitc ⟨⟨5, true⟩, .ctz, .w 4, .w 2⟩),
    (0x00200000002134B4, 0, .bitc ⟨⟨5, true⟩, .pop, .w 4, .w 2⟩),
    (0x001001CC0080F4B8, 0, .extr ⟨⟨5, true⟩, true, .l64, .w 3, .w 8, 460⟩),
    (0x000001F80080F4BC, 0, .insr ⟨⟨5, true⟩, .l64, .w 3, .w 8, 504⟩)]) = true := by decide +kernel

theorem test_control_words : decodesTo ([
    (0x0000000000000000, 0, .nop ⟨⟨0, false⟩, .l64⟩),
    (0x0000000000003401, 0, .nop ⟨⟨5, true⟩, .l96⟩),
    (0x000FFFFB00000004, 0, .br ⟨⟨0, false⟩, .l64, -5⟩),
    (0x0000000000003439, 0x100000, .ipf ⟨⟨5, true⟩, .l96, 1048576⟩),
    (0x0000000702C00008, 0, .bz ⟨⟨0, false⟩, .l64, .a 4, 7⟩),
    (0x0000000802D0000C, 0, .bnz ⟨⟨0, false⟩, .l64, .a 5, 8⟩),
    (0x0000000902E00030, 0, .loopr ⟨⟨0, false⟩, .l64, .a 6, 9⟩),
    (0x0000000700403410, 0, .bp ⟨⟨5, true⟩, .l64, 4, 7⟩),
    (0x0000000800503414, 0, .bnp ⟨⟨5, true⟩, .l64, 5, 8⟩),
    (0x0000000750403418, 0, .beq ⟨⟨5, true⟩, .l64, .w 4, .w 20, 7⟩),
    (0x000000085450341C, 0, .bne ⟨⟨5, true⟩, .l64, .w 5, .w 21, 8⟩),
    (0x0000000958603420, 0, .blt ⟨⟨5, true⟩, .l64, .w 6, .w 22, 9⟩),
    (0x0000000A5C703424, 0, .bge ⟨⟨5, true⟩, .l64, .w 7, .w 23, 10⟩),
    (0x0000000B60803428, 0, .bltu ⟨⟨5, true⟩, .l64, .w 8, .w 24, 11⟩),
    (0x0000000C6490342C, 0, .bgeu ⟨⟨5, true⟩, .l64, .w 9, .w 25, 12⟩),
    (0x0000000001103434, 0, .brx ⟨⟨5, true⟩, .w 17⟩),
    (0x000000000000143C, 0, .reservedOpcode 0x143C)]) = true := by decide +kernel

theorem test_memory_words : decodesTo ([
    (0x01AFFFF8031BB4C0, 0, .ld ⟨⟨5, true⟩, .w, true, true, .l64, .a 6, .a 9, -8⟩),
    (0x00AFFFF8031BB508, 0, .lds ⟨⟨5, true⟩, .w, true, false, .l64, .a 6, .a 9, -8⟩),
    (0x00400000031E34C1, 0x100000, .ld ⟨⟨5, true⟩, .v, false, false, .l96, .q, .a 9, 1048576⟩),
    (0x00100000D31E34C4, 0, .ldx ⟨⟨5, true⟩, .h, false, false, .q, .a 9, .a 12⟩),
    (0x00100000D31E3510, 0, .ldsx ⟨⟨5, true⟩, .h, false, false, .q, .a 9, .a 12⟩),
    (0x02300018B71034C8, 0, .st ⟨⟨5, true⟩, .d, true, .l64, .a 9, 24, .a 5⟩),
    (0x00300018B710350C, 0, .sts ⟨⟨5, true⟩, .d, false, .l64, .a 9, 24, .a 5⟩),
    (0x00000000D31E34CC, 0, .stx ⟨⟨5, true⟩, .b, false, .a 9, .a 12, .q⟩),
    (0x00000000D31E3514, 0, .stsx ⟨⟨5, true⟩, .b, false, .a 9, .a 12, .q⟩),
    (0x01300008037834D0, 0, .ldfe ⟨⟨5, true⟩, true, .l64, .g 0, .a 15, 8⟩),
    (0x01300008037834D4, 0, .ldff ⟨⟨5, true⟩, true, .l64, .g 0, .a 15, 8⟩),
    (0x02300008E37034D8, 0, .stf ⟨⟨5, true⟩, true, .l64, .a 15, 8, .q⟩),
    (0x02300008037034DC, 0, .sete ⟨⟨5, true⟩, true, .l64, .a 15, 8⟩),
    (0x00200000A70A34E0, 0, .aadd ⟨⟨5, true⟩, false, .none, .a 0, .a 8, .a 1⟩),
    (0x01300000A70A74E8, 0, .amin ⟨⟨5, true⟩, true, .acq, .a 1, .a 8, .a 1⟩),
    (0x02200000A70AB4EC, 0, .amax ⟨⟨5, true⟩, false, .rel, .a 2, .a 8, .a 1⟩),
    (0x03300000A70AF4F0, 0, .aand ⟨⟨5, true⟩, true, .ar, .a 3, .a 8, .a 1⟩),
    (0x00200000A70B34F4, 0, .aor ⟨⟨5, true⟩, false, .none, .a 4, .a 8, .a 1⟩),
    (0x01300000A70B74F8, 0, .axor ⟨⟨5, true⟩, true, .acq, .a 5, .a 8, .a 1⟩),
    (0x02200000A70BB4FC, 0, .aswp ⟨⟨5, true⟩, false, .rel, .a 6, .a 8, .a 1⟩)] ++ [
    (0x03200000E30E34E4, 0, .afadd ⟨⟨5, true⟩, false, .ar, .q, .a 8, .q⟩),
    (0x02300000A70E3502, 0x38, .acas ⟨⟨5, true⟩, true, .rel, .q, .a 8, .a 1, .q⟩),
    (0x0000008003003504, 0, .pfh ⟨⟨5, true⟩, .l64, .a 8, 128⟩),
    (0x0000008003003518, 0, .cflush ⟨⟨5, true⟩, .l64, .a 8, 128⟩),
    (0x000000800300351C, 0, .cinv ⟨⟨5, true⟩, .l64, .a 8, 128⟩),
    (0x00300010B3003520, 0, .bcpost ⟨⟨5, true⟩, false, .l64, .a 8, 16, .a 4⟩),
    (0x00300000030AF524, 0, .bcrd ⟨⟨5, true⟩, .a 3, .a 8⟩)]) = true := by decide +kernel

theorem test_copyAndSync_words : decodesTo ([
    (0x00000007034AF540, 0, .cpy ⟨⟨5, true⟩, .a 3, 12, 7⟩),
    (0x00000006033AF544, 0, .cpynb ⟨⟨5, true⟩, .a 3, 11, 6⟩),
    (0x00000005032AF550, 0, .coll ⟨⟨5, true⟩, .a 3, 10, 5⟩),
    (0x00000004031AF554, 0, .collnb ⟨⟨5, true⟩, .a 3, 9, 4⟩),
    (0x0000000502B03548, 0, .cwait ⟨⟨5, true⟩, .a 3, 5⟩),
    (0x0000000502CAF54C, 0, .ctest ⟨⟨5, true⟩, .l64, .a 3, .a 4, 5⟩),
    (0x00000000000AF559, 6, .cstat ⟨⟨5, true⟩, .l96, .a 3, 6⟩),
    (0x00000000B6CAF560, 0, .bind ⟨⟨5, true⟩, .a 3, .a 4, .a 5⟩),
    (0x0000000002C03564, 0, .unbind ⟨⟨5, true⟩, .a 4⟩),
    (0x00000000BEC03568, 0, .qput ⟨⟨5, true⟩, .a 4, .a 7⟩),
    (0x00000000BEC0356C, 0, .qget ⟨⟨5, true⟩, .a 4, .a 7⟩),
    (0x0000001F00003570, 0, .sempost ⟨⟨5, true⟩, 31⟩),
    (0x0000001E00003574, 0, .semwait ⟨⟨5, true⟩, 30⟩),
    (0x0000004002C03578, 0, .acq ⟨⟨5, true⟩, .l64, .a 4, 64⟩),
    (0x0000004002C0357C, 0, .rel ⟨⟨5, true⟩, .l64, .a 4, 64⟩)]) = true := by decide +kernel

theorem test_scalarFloat_words : decodesTo ([
    (0x000000001440F580, 0, .fadd ⟨⟨5, true⟩, .f32, .w 3, .w 4, .w 5⟩),
    (0x001000001440F584, 0, .fsub ⟨⟨5, true⟩, .f16, .w 3, .w 4, .w 5⟩),
    (0x002000001440F588, 0, .fmul ⟨⟨5, true⟩, .bf16, .w 3, .w 4, .w 5⟩),
    (0x000000001440F590, 0, .fdiv ⟨⟨5, true⟩, .f32, .w 3, .w 4, .w 5⟩),
    (0x001000001440F598, 0, .fmin ⟨⟨5, true⟩, .f16, .w 3, .w 4, .w 5⟩),
    (0x002000001440F59C, 0, .fmax ⟨⟨5, true⟩, .bf16, .w 3, .w 4, .w 5⟩),
    (0x001000001440F58E, 6, .ffma ⟨⟨5, true⟩, .f16, .w 3, .w 4, .w 5, .w 6⟩),
    (0x002000000040F594, 0, .fsqrt ⟨⟨5, true⟩, .bf16, .w 3, .w 4⟩),
    (0x002000000040F5A8, 0, .fabs ⟨⟨5, true⟩, .bf16, .w 3, .w 4⟩),
    (0x002000000040F5AC, 0, .fneg ⟨⟨5, true⟩, .bf16, .w 3, .w 4⟩),
    (0x801000001440F5A0, 0, .fcmp ⟨⟨5, true⟩, .un, .f16, 3, .w 4, .w 5⟩),
    (0xC0400000005135A4, 0, .fcvt ⟨⟨5, true⟩, .i16, .f32, .rsr, true, .w 4, .w 5⟩)]) = true := by decide +kernel

theorem test_vector_words : decodesTo ([
    (0x0040000034E035C0, 0, .vadd ⟨⟨5, true⟩, .i16, 0, false, .v 0, .v 14, .v 13⟩),
    (0x0940000034E075C4, 0, .vsub ⟨⟨5, true⟩, .i16, 1, true, .v 1, .v 14, .v 13⟩),
    (0x0240000034E0B5C8, 0, .vmul ⟨⟨5, true⟩, .i16, 2, false, .v 2, .v 14, .v 13⟩),
    (0x0B10000034E0F5D8, 0, .vdiv ⟨⟨5, true⟩, .f16, 3, true, .v 3, .v 14, .v 13⟩),
    (0x0440000034E135E0, 0, .vmin ⟨⟨5, true⟩, .i16, 4, false, .v 4, .v 14, .v 13⟩),
    (0x0D40000034E175E4, 0, .vmax ⟨⟨5, true⟩, .i16, 5, true, .v 5, .v 14, .v 13⟩),
    (0x0660000034E1B5F0, 0, .vand ⟨⟨5, true⟩, .u32, 6, false, .v 6, .v 14, .v 13⟩),
    (0x0F70000034E1F5F4, 0, .vor ⟨⟨5, true⟩, .u16, 7, true, .v 7, .v 14, .v 13⟩),
    (0x0080000034E235F8, 0, .vxor ⟨⟨5, true⟩, .u8, 0, false, .v 8, .v 14, .v 13⟩),
    (0x0990000034E27600, 0, .vshl ⟨⟨5, true⟩, .i64, 1, true, .v 9, .v 14, .v 13⟩),
    (0x02A0000034E2B604, 0, .vshr ⟨⟨5, true⟩, .u64, 2, false, .v 10, .v 14, .v 13⟩),
    (0x0B50000034E2F608, 0, .vsar ⟨⟨5, true⟩, .i8, 3, true, .v 11, .v 14, .v 13⟩),
    (0x0440000034E33624, 0, .vperm ⟨⟨5, true⟩, .i16, 4, false, .v 12, .v 14, .v 13⟩),
    (0x0D80000034E37628, 0, .vshuf ⟨⟨5, true⟩, .u8, 5, true, .v 13, .v 14, .v 13⟩),
    (0x0640000034E3B630, 0, .vzip ⟨⟨5, true⟩, .i16, 6, false, .v 14, .v 14, .v 13⟩),
    (0x0F40000034E3F634, 0, .vunzip ⟨⟨5, true⟩, .i16, 7, true, .v 15, .v 14, .v 13⟩),
    (0x0B0000000C2075CE, 4, .vfma ⟨⟨5, true⟩, .f32, 3, true, .v 1, .v 2, .v 3, .v 4⟩),
    (0x0B0000000C2075D2, 4, .vfms ⟨⟨5, true⟩, .f32, 3, true, .v 1, .v 2, .v 3, .v 4⟩),
    (0x0B0000000C2075D6, 4, .vfnma ⟨⟨5, true⟩, .f32, 3, true, .v 1, .v 2, .v 3, .v 4⟩)]) = true := by decide +kernel

theorem test_vectorTwo_words : decodesTo ([
    (0x03200000002E35DC, 0, .vsqrt ⟨⟨5, true⟩, .bf16, 3, false, .q, .v 2⟩),
    (0x03200000002E35E8, 0, .vabs ⟨⟨5, true⟩, .bf16, 3, false, .q, .v 2⟩),
    (0x03200000002E35EC, 0, .vneg ⟨⟨5, true⟩, .bf16, 3, false, .q, .v 2⟩),
    (0x03200000002E363C, 0, .vrcp ⟨⟨5, true⟩, .bf16, 3, false, .q, .v 2⟩),
    (0x03200000002E3640, 0, .vrsq ⟨⟨5, true⟩, .bf16, 3, false, .q, .v 2⟩),
    (0x03200000002E3644, 0, .vexp ⟨⟨5, true⟩, .bf16, 3, false, .q, .v 2⟩),
    (0x03200000002E3648, 0, .vlog ⟨⟨5, true⟩, .bf16, 3, false, .q, .v 2⟩),
    (0x0B700000038075FC, 0, .vnot ⟨⟨5, true⟩, .u16, 3, true, .v 1, .q⟩),
    (0x0B70000003807614, 0, .vmov ⟨⟨5, true⟩, .u16, 3, true, .v 1, .q⟩),
    (0x043000000C207610, 0, .vsel ⟨⟨5, true⟩, .i32, 4, .v 1, .v 2, .v 3⟩),
    (0x6C5000000C20760C, 0, .vcmp ⟨⟨5, true⟩, .le, .i8, 4, true, 1, .v 2, .v 3⟩),
    (0x0C10000000207618, 0, .vbcast ⟨⟨5, true⟩, .f16, 4, true, .v 1, .w 2⟩),
    (0x049000070020762C, 0, .vrot ⟨⟨5, true⟩, .i64, 4, false, .l64, .v 1, .v 2, 7⟩),
    (0x2020000000207638, 0, .vcvt ⟨⟨5, true⟩, .bf16, .f32, .rup, false, .v 1, .v 2⟩),
    (0x055000000020764C, 0, .vradd ⟨⟨5, true⟩, .i8, 5, .w 1, .v 2⟩),
    (0x0550000000207650, 0, .vrmax ⟨⟨5, true⟩, .i8, 5, .w 1, .v 2⟩),
    (0x0550000000207654, 0, .vrmin ⟨⟨5, true⟩, .i8, 5, .w 1, .v 2⟩),
    (0x054000000C207658, 0, .vdot ⟨⟨5, true⟩, .i16, 5, .w 1, .v 2, .v 3⟩),
    (0x009000070020761C, 0, .vins ⟨⟨5, true⟩, false, .l64, .v 1, .w 2, 7⟩),
    (0x08A0000600207620, 0, .vext ⟨⟨5, true⟩, true, true, .l64, .w 1, .v 2, 6⟩)]) = true := by decide +kernel

theorem test_masks_words : decodesTo ([
    (0x008000001C61765C, 0, .mand ⟨⟨5, true⟩, .u8, 5, 6, 7⟩),
    (0x008000001C617660, 0, .mor ⟨⟨5, true⟩, .u8, 5, 6, 7⟩),
    (0x008000001C617664, 0, .mxor ⟨⟨5, true⟩, .u8, 5, 6, 7⟩),
    (0x0070000000617668, 0, .mnot ⟨⟨5, true⟩, .u16, 5, 6⟩),
    (0x007000000061766C, 0, .mpop ⟨⟨5, true⟩, .u16, .w 5, 6⟩),
    (0x0070000000617670, 0, .mfirst ⟨⟨5, true⟩, .u16, .w 5, 6⟩),
    (0x0000000000617674, 0, .mtop ⟨⟨5, true⟩, .f32, 5, 6⟩)]) = true := by decide +kernel

theorem test_conversion_words : decodesTo ([
    (0x0080000000617680, 0, .cvt ⟨⟨5, true⟩, .rne, true, .w 5, .w 6⟩),
    (0x0090000000617684, 0, .align ⟨⟨5, true⟩, .rtz, true, .w 5, .w 6⟩),
    (0x00A0000000617688, 0, .dealign ⟨⟨5, true⟩, .rup, true, .w 5, .w 6⟩),
    (0x00B000000061768C, 0, .bscale ⟨⟨5, true⟩, .rdn, true, .w 5, .w 6⟩),
    (0x0000000000603690, 0, .seed ⟨⟨5, true⟩, .w 6⟩),
    (0x004000001C617694, 0, .vpack ⟨⟨5, true⟩, .rsr, false, .v 5, .v 6, .w 7⟩),
    (0x000000001C617698, 0, .vunpk ⟨⟨5, true⟩, .v 5, .v 6, .w 7⟩),
    (0x000000001C61769C, 0, .cvld ⟨⟨5, true⟩, .v 5, .w 6, .w 7⟩),
    (0x000000001C6176A0, 0, .cvst ⟨⟨5, true⟩, .w 5, .w 6, .v 7⟩)]) = true := by decide +kernel

theorem test_matrix_words : decodesTo ([
    (0x1FA00000006176E0, 0, .mload ⟨⟨5, true⟩, 2, some 31, .w 5, .w 6⟩),
    (0x1EB00000006176E4, 0, .mma ⟨⟨5, true⟩, 3, some 30, .w 5, .w 6⟩),
    (0x1DC00000006176E8, 0, .mmaf ⟨⟨5, true⟩, 4, some 29, .w 5, .w 6⟩),
    (0x1CD00000006176F4, 0, .asto ⟨⟨5, true⟩, 5, some 28, .w 5, .w 6⟩),
    (0x1BE0000000617704, 0, .geval ⟨⟨5, true⟩, 6, some 27, .w 5, .w 6⟩),
    (0x00700000006176E4, 0, .mma ⟨⟨5, true⟩, 7, none, .w 5, .w 6⟩),
    (0x00000000185036EC, 0, .aclr ⟨⟨5, true⟩, .w 5, .w 6⟩),
    (0x00000000185036FC, 0, .amask ⟨⟨5, true⟩, .w 5, .w 6⟩),
    (0x00000000006E36F0, 0, .ard ⟨⟨5, true⟩, .q, .w 6⟩),
    (0x00000000006036F8, 0, .mgrp ⟨⟨5, true⟩, .w 6⟩),
    (0x0000000000603700, 0, .grule ⟨⟨5, true⟩, .w 6⟩),
    (0x0000000000003708, 0, .gclr ⟨⟨5, true⟩⟩),
    (0x000000000061370C, 0, .grd ⟨⟨5, true⟩, .w 4, .w 6⟩)]) = true := by decide +kernel

theorem test_tasksAndSystem_words : decodesTo ([
    (0x0000000002E03740, 0, .tspawn ⟨⟨5, true⟩, .a 6⟩),
    (0x0000000002E03750, 0, .tsadv ⟨⟨5, true⟩, .a 6⟩),
    (0x0000000002E0378C, 0, .taild ⟨⟨5, true⟩, .a 6⟩),
    (0x0000000002E03790, 0, .cfetch ⟨⟨5, true⟩, .a 6⟩),
    (0x0000000002E03794, 0, .vevict ⟨⟨5, true⟩, .a 6⟩),
    (0x0000000002E037B4, 0, .csave ⟨⟨5, true⟩, .a 6⟩),
    (0x0000000002E037B8, 0, .crest ⟨⟨5, true⟩, .a 6⟩),
    (0x0000000000003744, 0, .tcommit ⟨⟨5, true⟩⟩),
    (0x0000000000003748, 0, .tend ⟨⟨5, true⟩⟩),
    (0x000000000000374C, 0, .tabort ⟨⟨5, true⟩⟩),
    (0x0000000000003788, 0, .retd ⟨⟨5, true⟩⟩),
    (0x00000000000037AC, 0, .uiret ⟨⟨5, true⟩⟩),
    (0x00000000000037B0, 0, .tret ⟨⟨5, true⟩⟩),
    (0x00000000000037C4, 0, .waite ⟨⟨5, true⟩⟩),
    (0x00000000000037C8, 0, .bkpt ⟨⟨5, true⟩⟩),
    (0x00000000000037CC, 0, .snap ⟨⟨5, true⟩⟩),
    (0x000000001C613754, 0, .tscmp ⟨⟨5, true⟩, .w 4, .w 6, .w 7⟩),
    (0x000000001C603758, 0, .rinv ⟨⟨5, true⟩, .w 6, .w 7⟩),
    (0x000000001C6037BC, 0, .ttld ⟨⟨5, true⟩, .w 6, .w 7⟩),
    (0x000000001C6037C0, 0, .ttst ⟨⟨5, true⟩, .w 6, .w 7⟩)] ++ [
    (0xFFFFFFFA03F03780, 0, .calld ⟨⟨5, true⟩, 4095, .const 7 131066⟩),
    (0x0010000000603784, 0, .calldr ⟨⟨5, true⟩, 1, .w 6⟩),
    (0x0000000000613798, 0, .vprobe ⟨⟨5, true⟩, .w 4, .w 6⟩),
    (0x0000000F006037A0, 0, .mtsr ⟨⟨5, true⟩, .cwin 7, .w 6⟩),
    (0x0000001B000137A4, 0, .mfsr ⟨⟨5, true⟩, .w 4, .mpdst 3⟩),
    (0x00000FFF000037A8, 0, .trap ⟨⟨5, true⟩, 4095⟩)]) = true := by decide +kernel

/-! ## Ill-formed instructions: one for each check of WellFormed.lean -/

/-- A guard that always passes. -/
def gd0 : Guard := ⟨0, false⟩

/-- R45, R49, R41: a constant-window operand may not be written, nor may two fields hold one; classes do not mix; an immediate
fits its field and meets no constant-window operand in a 64-bit form. -/
theorem test_ill_formed_registers :
    ([.add ⟨gd0, .const 0 0, .w 1, .w 2⟩, .add ⟨gd0, .w 0, .const 0 0, .const 1 0⟩, .add ⟨gd0, .w 0, .a 1, .w 2⟩,
      .mov ⟨gd0, .const 0 0, .w 1⟩, .mov ⟨gd0, .a 1, .w 1⟩, .addi ⟨gd0, .l64, .const 0 0, .w 1, 0⟩,
      .addi ⟨gd0, .l64, .w 1, .w 1, 524288⟩, .addi ⟨gd0, .l96, .w 1, .w 1, 2147483648⟩, .addi ⟨gd0, .l64, .w 1, .const 0 0, 0⟩,
      .addi ⟨gd0, .l64, .w 1, .a 1, 0⟩, .movi ⟨gd0, .l64, .const 0 0, 0⟩, .movi ⟨gd0, .l96, .w 0, 2147483648⟩,
      .bitc ⟨gd0, .clz, .a 1, .w 1⟩, .fadd ⟨gd0, .f32, .a 1, .w 1, .w 2⟩, .ffma ⟨gd0, .f32, .w 1, .w 2, .const 0 0, .const 0 1⟩,
      .fsqrt ⟨gd0, .f32, .w 1, .a 1⟩, .fcvt ⟨gd0, .f32, .f16, .rne, false, .a 1, .w 1⟩, .mtsr ⟨gd0, .tsr, .const 0 0⟩,
      .mfsr ⟨gd0, .const 0 0, .tsr⟩] : List Instr).all (fun i => !i.wf) = true := by decide +kernel

/-- R52, R53, R162 to R164, R173, R179: conditions, fields and guards of compares, bit fields, shifts and branches. -/
theorem test_ill_formed_scalar :
    ([.cmp ⟨gd0, .un, 1, .w 1, .w 2⟩, .cmp ⟨gd0, .eq, 1, .a 1, .w 2⟩, .cmpi ⟨gd0, .or, .l64, 1, .w 1, 0⟩,
      .cmpi ⟨gd0, .eq, .l64, 1, .const 0 0, 0⟩, .sel ⟨gd0, 1, .w 1, .a 1, .w 2⟩, .sel ⟨gd0, 1, .a 1, .w 1, .w 2⟩,
      .extr ⟨gd0, false, .l64, .w 1, .w 2, 0x1000⟩, .extr ⟨gd0, false, .l64, .w 1, .w 2, 60 + 64 * 4⟩,
      .insr ⟨gd0, .l64, .q, .w 2, 0⟩, .insr ⟨gd0, .l64, .g 0, .w 2, 0⟩, .shli ⟨gd0, .l64, .w 1, .w 2, 64⟩,
      .shri ⟨gd0, .l64, .w 1, .w 2, 64⟩, .sari ⟨gd0, .l64, .w 1, .w 2, -1⟩, .br ⟨gd0, .l128, 0⟩, .bp ⟨gd0, .l128, 1, 0⟩,
      .bz ⟨⟨1, false⟩, .l64, .a 1, 0⟩, .bz ⟨gd0, .l64, .const 0 0, 0⟩, .beq ⟨gd0, .l64, .a 1, .w 1, 0⟩,
      .beq ⟨⟨1, false⟩, .l64, .a 1, .a 2, 0⟩, .loopr ⟨gd0, .l64, .q, 0⟩, .loopr ⟨gd0, .l64, .a 0, 0⟩,
      .brx ⟨⟨1, false⟩, .a 1⟩, .fcmp ⟨gd0, .ltu, .f32, 1, .w 1, .w 2⟩, .fcmp ⟨gd0, .lt, .f32, 1, .a 1, .w 2⟩] :
      List Instr).all (fun i => !i.wf) = true := by decide +kernel

/-- R49, R52, R109, R137, R231: sizes, orders, bases, data and destinations of memory, copy and queue instructions. -/
theorem test_ill_formed_memory :
    ([.ld ⟨gd0, .d, true, false, .l64, .q, .a 1, 0⟩, .ld ⟨gd0, .d, false, false, .l128, .q, .a 1, 0⟩,
      .ld ⟨gd0, .v, false, false, .l64, .a 1, .a 1, 0⟩, .ld ⟨gd0, .d, false, false, .l64, .w 1, .a 1, 0⟩,
      .ld ⟨gd0, .d, false, false, .l64, .q, .w 1, 0⟩, .ldx ⟨gd0, .d, false, false, .q, .a 1, .w 1⟩,
      .st ⟨gd0, .d, false, .l64, .a 1, 0, .w 1⟩, .st ⟨gd0, .v, false, .l64, .a 1, 0, .a 1⟩, .stx ⟨gd0, .v, false, .a 1, .a 2, .a 3⟩,
      .stx ⟨gd0, .d, false, .const 0 0, .a 2, .const 0 1⟩, .lds ⟨gd0, .d, false, true, .l64, .q, .a 1, 0⟩,
      .sts ⟨gd0, .d, true, .l64, .a 1, 0, .q⟩, .ldsx ⟨gd0, .d, false, true, .q, .a 1, .a 2⟩, .stsx ⟨gd0, .d, true, .a 1, .a 2, .q⟩,
      .ldfe ⟨gd0, false, .l64, .w 1, .a 1, 0⟩, .stf ⟨gd0, false, .l64, .a 1, 0, .w 1⟩, .sete ⟨gd0, false, .l64, .w 1, 0⟩,
      .bcpost ⟨gd0, true, .l64, .a 1, 0, .q⟩, .bcrd ⟨gd0, .w 1, .a 1⟩, .afadd ⟨gd0, true, .none, .q, .a 1, .q⟩,
      .aadd ⟨gd0, true, .none, .q, .a 1, .w 1⟩, .acas ⟨gd0, true, .none, .q, .a 1, .const 0 0, .const 0 1⟩,
      .pfh ⟨gd0, .l64, .w 1, 0⟩, .cpy ⟨gd0, .w 1, 0, 0⟩, .cpy ⟨gd0, .a 1, 13, 0⟩, .cwait ⟨gd0, .w 1, 0⟩,
      .cwait ⟨gd0, .const 0 0, 0⟩, .ctest ⟨gd0, .l64, .w 1, .a 1, 0⟩, .cstat ⟨gd0, .l64, .w 1, 0⟩,
      .bind ⟨gd0, .w 1, .a 1, .a 2⟩, .unbind ⟨gd0, .w 1⟩, .qput ⟨gd0, .w 1, .a 1⟩, .qget ⟨gd0, .a 1, .w 1⟩] :
      List Instr).all (fun i => !i.wf) = true := by decide +kernel

/-- R52, R54, R187, R192, R212, R278 and R56: types, lanes and registers of vector and engine instructions, a digest offset, a
code that is not reserved. -/
theorem test_ill_formed_vector :
    ([.vdiv ⟨gd0, .i32, 0, false, .v 0, .v 1, .v 2⟩, .vfma ⟨gd0, .i32, 0, false, .v 0, .v 1, .v 2, .v 3⟩,
      .vfms ⟨gd0, .u8, 0, false, .v 0, .v 1, .v 2, .v 3⟩, .vfnma ⟨gd0, .i64, 0, false, .v 0, .v 1, .v 2, .v 3⟩,
      .vsqrt ⟨gd0, .i32, 0, false, .v 0, .v 1⟩, .vrcp ⟨gd0, .i32, 0, false, .v 0, .v 1⟩, .vrsq ⟨gd0, .i32, 0, false, .v 0, .v 1⟩,
      .vexp ⟨gd0, .i32, 0, false, .v 0, .v 1⟩, .vlog ⟨gd0, .i32, 0, false, .v 0, .v 1⟩, .vshl ⟨gd0, .f32, 0, false, .v 0, .v 1, .v 2⟩,
      .vshr ⟨gd0, .f16, 0, false, .v 0, .v 1, .v 2⟩, .vsar ⟨gd0, .bf16, 0, false, .v 0, .v 1, .v 2⟩,
      .vcmp ⟨gd0, .un, .i32, 0, false, 1, .v 0, .v 1⟩, .vcmp ⟨gd0, .ltu, .f32, 0, false, 1, .v 0, .v 1⟩,
      .vcmp ⟨gd0, .eq, .f32, 1, false, 1, .q, .v 1⟩, .vbcast ⟨gd0, .f32, 0, false, .v 0, .a 1⟩,
      .vins ⟨gd0, false, .l64, .q, .w 1, 0⟩, .vins ⟨gd0, false, .l64, .v 1, .a 1, 0⟩, .vins ⟨gd0, false, .l64, .v 1, .const 0 0, 0⟩,
      .vext ⟨gd0, false, false, .l64, .a 1, .v 1, 0⟩, .vrot ⟨gd0, .i64, 0, false, .l64, .v 0, .v 1, 8⟩, .vradd ⟨gd0, .f32, 0, .a 1, .v 1⟩,
      .vdot ⟨gd0, .f32, 0, .const 0 0, .v 1, .v 2⟩, .mpop ⟨gd0, .f32, .a 1, 1⟩, .cvt ⟨gd0, .rne, false, .a 1, .w 1⟩,
      .vpack ⟨gd0, .rne, false, .v 0, .v 1, .a 1⟩, .vunpk ⟨gd0, .v 0, .v 1, .a 1⟩, .cvld ⟨gd0, .v 0, .const 0 0, .const 0 1⟩,
      .cvst ⟨gd0, .a 1, .w 1, .v 0⟩, .mma ⟨gd0, 0, none, .q, .w 1⟩, .mma ⟨gd0, 0, none, .w 1, .a 1⟩, .ard ⟨gd0, .v 0, .a 1⟩,
      .seed ⟨gd0, .a 1⟩, .aclr ⟨gd0, .a 1, .w 1⟩, .mgrp ⟨gd0, .a 1⟩, .amask ⟨gd0, .w 1, .a 1⟩, .grule ⟨gd0, .a 1⟩,
      .grd ⟨gd0, .a 1, .w 1⟩, .tscmp ⟨gd0, .const 0 0, .w 1, .w 2⟩, .vprobe ⟨gd0, .const 0 0, .w 1⟩, .rinv ⟨gd0, .const 0 0, .const 0 1⟩,
      .calld ⟨gd0, 0, .const 0 131067⟩, .reservedOpcode 0, .reservedOpcode 0x3F] :
      List Instr).all (fun i => !i.wf) = true := by decide +kernel

/-! ## A small state: one slot, bound to task 1 -/

/-- What a next state satisfies. -/
def after (o : Host.Outcome State Fault Refusal) (p : State → Bool) : Bool := match o with | .next t => p t | _ => false

/-- All hold. -/
def allOf (l : List Bool) : Bool := l.all id

/-- A committed core task on a slot. -/
def task (n : Nat) : Task := {
  words := List.replicate 32 0, inst := 0, vf := 0, asid := 0, die := 0, tile := 0, slots := [n], ended := [],
  committed := true, clearing := false, escrow := [], reads := [], spawner := none, watched := false, hash := none,
  twin := none, misses := 0, out := [], used := [], gifts := [], saved := false, tensors := [] }

/-- Slot n issues: 0 is on the M core of tile 0 of die 0, 16 on its V core, 32 on its A core. -/
def here (n : Nat) (h : Half) (f : Slot → Slot) : State :=
  State.setSlot { State.reset with stage := 7, cur := ⟨n, h⟩, tasks := [(1, task n)], nextTask := 2 } n
    (f { Slot.reset with bound := true, task := 1 })

/-- Registers w, a and g, words of lq, and predicates. -/
def setW (l : List (Nat × Word)) (sl : Slot) : Slot :=
  { sl with xr := { sl.xr with stack := l.foldl (fun v t => v.set! t.1 t.2) sl.xr.stack } }
def setA (l : List (Nat × Word)) (sl : Slot) : Slot :=
  { sl with ar := { sl.ar with lo := l.foldl (fun v t => if t.1 < 8 then v.set! t.1 t.2 else v) sl.ar.lo,
                               user := l.foldl (fun v t => if t.1 < 8 then v else v.set! (t.1 - 8) t.2) sl.ar.user } }
def setV (l : List (Nat × VWord)) (sl : Slot) : Slot :=
  { sl with xr := { sl.xr with v := l.foldl (fun v t => v.set! t.1 t.2) sl.xr.v } }
def setLq (l : List Word) (sl : Slot) : Slot := { sl with lq := l.map fun w => { pos := 0, word := some w } }
def setP (p : BitVec 8) (sl : Slot) : Slot := { sl with xr := { sl.xr with p := p } }
def readW (t : State) (r : WReg) : Word := (taken t [r]).1.headD 0

/-! ## Integer instructions -/

def intState : State := here 16 .execute (setW [(1, -7), (2, 2), (3, 0), (4, 0x8000000000000000), (5, -1), (6, 65)] ∘ setLq [9, 8])
/-- A word of three registers or queues: the hypotheses of `integerResults`, and its value. -/
def int3 (c : R3W → Instr) (d s1 s2 : WReg) (v : Word) : Bool :=
  let o : R3W := ⟨gd0, d, s1, s2⟩
  let f := mkForm (c o) o.gd (aluStream [o.d, o.s1, o.s2])
  takesUp f intState && operandsReady intState [.w s1, .w s2] [.w d]
    && after (exec (c o) intState) fun t => readW t d == v && t.me.xr.pc == 8 && t.me.xr.pos == 1

/-- R168's example and corners: -7 by 2, division by zero, the signed overflow. -/
theorem test_division :
    allOf [
      int3 .div (.w 9) (.w 1) (.w 2) (-3),
      int3 .rem (.w 9) (.w 1) (.w 2) (-1),
      int3 .divu (.w 9) (.w 1) (.w 2) 0x7FFFFFFFFFFFFFFC,
      int3 .remu (.w 9) (.w 1) (.w 2) 1,
      int3 .div (.w 9) (.w 1) (.w 3) (-1),
      int3 .rem (.w 9) (.w 1) (.w 3) (-7),
      int3 .divu (.w 9) (.w 1) (.w 3) (-1),
      int3 .remu (.w 9) (.w 1) (.w 3) (-7),
      int3 .div (.w 9) (.w 4) (.w 5) 0x8000000000000000,
      int3 .rem (.w 9) (.w 4) (.w 5) 0] = true := by decide +kernel

/-- R167, R169 and R170 by hand: sources from lq (R44), g0 as destination, a destination that is a source. -/
theorem test_integer :
    allOf [
      int3 .add (.w 9) .q (.w 1) 2,
      int3 .sub (.w 1) .q .q 1,
      int3 .mul (.g 0) (.w 4) (.w 2) 0,
      int3 .mulh (.w 9) (.w 4) (.w 5) 0,
      int3 .mulhu (.w 9) (.w 4) (.w 5) 0x7FFFFFFFFFFFFFFF,
      int3 .and (.w 9) (.w 1) (.w 6) 65,
      int3 .or (.w 9) (.w 2) (.w 6) 67,
      int3 .xor (.w 9) (.w 1) (.w 5) 6,
      int3 .shl (.w 9) (.w 1) (.w 6) (-14),
      int3 .shr (.w 9) (.w 4) (.w 6) 0x4000000000000000,
      int3 .sar (.w 9) (.w 1) (.w 6) (-4)] = true := by decide +kernel

/-- The hypotheses of `integerResults` for an immediate, and its value; here in the access half, with a registers. -/
def intAcc : State := here 0 .access (setA [(1, -7), (9, 5)])
def intI (c : RIW → Instr) (d s1 : WReg) (imm v : Word) : Bool :=
  let o : RIW := ⟨gd0, .l64, d, s1, imm⟩
  let f := mkForm (c o) o.gd (aluStream [o.d, o.s1])
  takesUp f intAcc && operandsReady intAcc [.w s1] [.w d]
    && after (exec (c o) intAcc) fun t => readW t d == v && t.me.ar.pc == 8 && t.me.ar.pos == 1
/-- R167, R169 and R170: the I forms; `ANDI -16` clears the low four bits. -/
theorem test_immediates :
    allOf [
      intI .addi (.a 9) (.a 9) 4 9,
      intI .subi (.a 0) (.a 1) 1 0,
      intI .andi (.a 2) (.a 1) (-16) (-16),
      intI .ori (.a 2) (.a 9) 2 7,
      intI .xori (.a 2) (.a 9) (-1) (-6),
      intI .shli (.a 2) (.a 1) 63 0x8000000000000000,
      intI .shri (.a 2) (.a 1) 63 1,
      intI .sari (.a 2) (.a 1) 63 (-1)] = true := by decide +kernel

def fieldState : State := here 16 .execute (setW [(8, 0x8A5C0), (3, 0)])
/-- R173's example: EXTR.SX, EXTR and INSR of w8. -/
theorem test_fields :
    allOf [
      (takesUp (mkForm (.extr ⟨gd0, true, .l64, .w 3, .w 8, 12 + 64 * 7⟩) gd0 .execute) fieldState
      && operandsReady fieldState [.w (.w 8), .w (.w 3)] [.w (.w 3)]
      && after (exec (.extr ⟨gd0, true, .l64, .w 3, .w 8, 12 + 64 * 7⟩) fieldState) fun t => readW t (.w 3) == 0xFFFFFFFFFFFFFF8A),
      after (exec (.extr ⟨gd0, false, .l64, .w 3, .w 8, 12 + 64 * 7⟩) fieldState) fun t => readW t (.w 3) == 0x8A,
      after (exec (.insr ⟨gd0, .l64, .w 3, .w 8, 56 + 64 * 7⟩) fieldState) fun t => readW t (.w 3) == 0xC000000000000000] = true := by decide +kernel

/-! ## Moves, counts, predicates -/

def exeState : State := here 16 .execute (setP 0b00000110 ∘ setW [(1, 0x00F0000000000000), (2, 5), (3, -1), (4, 0x3F800000), (5, 0x7FC00000)]
  ∘ setLq [9, 8])

/-- The hypotheses of `movesAndCounts`, and values worked out by hand (R171, R172, R176). -/
theorem witness_movesAndCounts :
    allOf [
      (takesUp (mkForm (.mov ⟨gd0, .q, .q⟩) gd0 (aluStream [.q, .q])) exeState && operandsReady exeState [.w .q] [.w .q]
      && after (exec (.mov ⟨gd0, .q, .q⟩) exeState) fun t => t.me.sq.map (·.word) == [9] && t.me.lq.map (·.word) == [some 8]),
      (takesUp (mkForm (.movi ⟨gd0, .l64, .w 31, -5⟩) gd0 .execute) exeState && operandsReady exeState [] [.w (.w 31)]
      && after (exec (.movi ⟨gd0, .l64, .w 31, -5⟩) exeState) fun t => readW t (.w 31) == -5),
      (operandsReady exeState [.w (.w 1)] [.w (.w 6)] && takesUp (mkForm (.bitc ⟨gd0, .clz, .w 6, .w 1⟩) gd0 .execute) exeState
      && ([(BitcOp.clz, 8), (.ctz, 52), (.pop, 4)] : List (BitcOp × Word)).all fun p =>
        after (exec (.bitc ⟨gd0, p.1, .w 6, .w 1⟩) exeState) fun t => readW t (.w 6) == p.2),
      ([BitcOp.clz, .ctz] : List BitcOp).all fun p => after (exec (.bitc ⟨gd0, p, .w 6, .g 0⟩) exeState) fun t => readW t (.w 6) == 64,
      (takesUp (mkForm (.sel ⟨gd0, 2, .w 6, .w 1, .w 2⟩) gd0 .execute) exeState
      && operandsReady exeState [.w (.w 1), .w (.w 2), .p 2] [.w (.w 6)]
      && after (exec (.sel ⟨gd0, 3, .w 6, .w 1, .w 2⟩) exeState) fun t => readW t (.w 6) == 5)] = true := by decide +kernel

/-- The hypotheses of `predicateResults`: signed and unsigned compares of 5 and -1, a NaN, and the discarded p0. -/
theorem witness_predicateResults :
    allOf [
      (takesUp (mkForm (.cmp ⟨gd0, .lt, 3, .w 2, .w 3⟩) gd0 .execute) exeState
      && operandsReady exeState [.w (.w 2), .w (.w 3)] [.p 3]
      && ([(Cond.lt, false), (.ltu, true), (.gt, true), (.geu, false), (.ne, true)] : List (Cond × Bool)).all fun p =>
        after (exec (.cmp ⟨gd0, p.1, 3, .w 2, .w 3⟩) exeState) fun t => t.me.readP 3 == p.2),
      (takesUp (mkForm (.cmpi ⟨gd0, .ltu, .l64, 3, .w 2, -1⟩) gd0 .execute) exeState && operandsReady exeState [.w (.w 2)] [.p 3]
      && after (exec (.cmpi ⟨gd0, .ltu, .l64, 3, .w 2, -1⟩) exeState) fun t => t.me.readP 3),
      (takesUp (mkForm (.plog ⟨gd0, .andn, 3, 1, 4⟩) gd0 .execute) exeState && operandsReady exeState [.p 1, .p 4] [.p 3]
      && after (exec (.plog ⟨gd0, .andn, 3, 1, 4⟩) exeState) fun t => t.me.readP 3),
      (takesUp (mkForm (.fcmp ⟨gd0, .un, .f32, 3, .w 4, .w 5⟩) gd0 .execute) exeState && operandsReady exeState [.w (.w 4), .w (.w 5)] [.p 3]
      && ([(Cond.un, true), (.ne, true), (.le, false), (.or, false)] : List (Cond × Bool)).all fun p =>
        after (exec (.fcmp ⟨gd0, p.1, .f32, 3, .w 4, .w 5⟩) exeState) fun t => t.me.readP 3 == p.2)] = true := by decide +kernel

/-! ## Operands, streams, frames -/

def portState : State :=
  let s := here 32 .execute (setLq [7] ∘ setW [(3, 33)] ∘ fun sl => { sl with
    ports := sl.ports.set! 2 [⟨11, 5, false⟩, ⟨12, 5, false⟩],
    sys := { sl.sys with mpdst := sl.sys.mpdst.set! 1 0x8000000000000541, rots := 1, tsr := 77 }, xr := { sl.xr with rb := 3 } })
  let s := s.modTile 0 fun t => { t with lkw := [⟨21, 0, false⟩], lke := [⟨22, 0, false⟩] }
  s.modCore 2 fun c => { c with kcache := [⟨0, 0, BitVec.ofNat 1024 (99 * 2 ^ 64), 0⟩] }

/-- `sourceValues` and `destinationWrites`: the clauses' conditions, met in one state. -/
theorem witness_operands :
    allOf [
      portState.me.lq.map (·.word) == [some 7],
      (portState.me.portOf 2).length == 2,
      (taken portState [.mp 2]).1 == [11],
      (taken portState [.lkw, .lke]).1 == [21, 22],
      (constHit portState 0 1).isSome,
      (taken portState [.const 0 1]).1 == [99],
      (taken portState [.w 3]).1 == [33],
      (taken (State.modMe (setW [(19, 5)]) portState) [.w 16]).1 == [5],
      (portState.task? portState.me.task).any (fun t => t.twin.isNone && t.escrow.isEmpty),
      portState.me.scout.isNone,
      decide (portState.me.sqTaken ≤ portState.me.xr.sqPushed),
      portState.me.stores.isEmpty,
      (M.state (putW (.mp 1) 5) portState).flights.map (fun f => (f.dest, f.dport)) == [(16 * (3 * 5 + 0) + 1, 1)],
      (portState.task? 1).any (fun t => t.twin.isNone),
      (M.state (putW .lke 5) portState).tiles.map (fun t => (t.1, t.2.lkwFly.length)) == [(0, 0), (1, 1)]] = true := by decide +kernel

def chgS (f : Slot → Slot) (s : State) : State := s.modMe f
/-- The two halves of `guardsAndStreams`, a guard that fails, and a frame: ADDI of an a register, seen by either half. -/
theorem witness_guardsAndStreams :
    allOf [
      (registerForm (.addi ⟨⟨3, true⟩, .l64, .a 2, .a 2, 4⟩)).any (fun f => f.2.1 == .access),
      (registerForm (.add ⟨⟨3, false⟩, .w 2, .w 2, .w 1⟩)).any (fun f => f.2.1 == .execute),
      !(Instr.addi ⟨⟨3, true⟩, .l64, .a 2, .a 2, 4⟩).roleBad exeState.myRole,
      exeState.me.scout.isNone,
      decide (exeState.me.bqx.length < 8),
      exeState.cur.half == .execute,
      !exeState.me.guardPasses ⟨3, false⟩,
      after (exec (.addi ⟨⟨3, true⟩, .l64, .a 2, .a 2, 4⟩) exeState) fun t => t.me.xr.pc == 8 && t.me.bqx.map (·.value) == [true],
      after (exec (.add ⟨⟨3, false⟩, .w 2, .w 2, .w 1⟩) exeState) fun t => t.me.xr.pc == 8 && readW t (.w 2) == 5,
      after (exec (.add ⟨⟨3, false⟩, .w 2, .w 2, .w 1⟩) intAcc) fun t => t.me.ar.pc == 8 && t.me.bqa.isEmpty] = true := by decide +kernel

/-- The last clause of `guardsAndStreams`: each stream seen by either half, tokens, an acquire that has and has not taken effect. -/
def bqState (h : Half) (l : List BqEntry) : State := chgS (fun sl => { sl with bqa := l, bqx := l }) { exeState with cur := ⟨exeState.cur.slot, h⟩ }
def ldAcq : Instr := .ld ⟨⟨3, true⟩, .d, false, true, .l64, .q, .a 1, 16⟩
theorem witness_streamsPassed :
    allOf [
      (formOf (.cmp ⟨⟨3, false⟩, .eq, 1, .w 1, .w 2⟩)).any (·.stream == .execute), !exeState.me.guardPasses ⟨3, false⟩,
      after (exec (.cmp ⟨⟨3, false⟩, .eq, 1, .w 1, .w 2⟩) exeState) fun t => t.me.xr.pc == 8,
      (formOf (.st ⟨⟨3, true⟩, .d, true, .l64, .a 1, 8, .a 3⟩)).any (fun f => (tokens f exeState.me).length == 2 && f.stream == .access),
      after (exec (.st ⟨⟨3, true⟩, .d, true, .l64, .a 1, 8, .a 3⟩) exeState) fun t =>
        t.me.xr.pc == 8 && t.me.bqx.map (fun e => (e.type, e.value)) == [(.guard, true), (.release, true)],
      exeState.me.guardPasses ⟨3, true⟩, exeState.me.xr.tok == none, (formOf ldAcq).any (fun f => f.acq),
      after (exec ldAcq (bqState .execute [⟨0, .acquire, true, 0⟩])) fun t => t.me.xr.pc == 8 && t.me.bqa.isEmpty && t.me.bqx.length == 2,
      after (exec ldAcq (bqState .execute [⟨0, .acquire, false, 0⟩])) fun t => t.me.xr.pc == 0 && t.me.xwai == .branchEmpty && t.me.bqx.length == 2,
      after (exec (.pfh ⟨⟨0, true⟩, .l64, .a 1, 0⟩) (bqState .access [])) fun t => t.me.ar.pc == 8,
      after (exec (.pfh ⟨⟨3, false⟩, .l64, .a 1, 0⟩) (bqState .access [⟨0, .guard, false, 0⟩])) fun t => t.me.ar.pc == 8 && t.me.bqx.isEmpty,
      (formOf (.tcommit ⟨⟨3, false⟩⟩)).any (·.stream == .joint), exeState.me.waitOf .access |>.mayMeet,
      after (exec (.tcommit ⟨⟨3, false⟩⟩) exeState) fun t => t.me.ar.pc == 8 && t.me.xr.pc == 8] = true := by decide +kernel

/-- `registerFrame`: an instruction of each stream that completes between plain registers. -/
theorem witness_registerFrame :
    allOf [
      takesUp (mkForm (.add ⟨gd0, .w 9, .w 1, .w 2⟩) gd0 .execute) intState,
      operandsReady intState [.w (.w 1), .w (.w 2)] [.w (.w 9)],
      [WReg.w 9, .w 1, .w 2].all plain,
      after (exec (.add ⟨gd0, .w 9, .w 1, .w 2⟩) intState) fun _ => true,
      takesUp (mkForm (.mov ⟨gd0, .a 9, .a 1⟩) gd0 .access) intAcc,
      operandsReady intAcc [.w (.a 1)] [.w (.a 9)],
      after (exec (.mov ⟨gd0, .a 9, .a 1⟩) intAcc) fun t => readW t (.a 9) == -7] = true := by decide +kernel

/-! ## Branches -/

/-- Code at 0x80, and a slot that runs it. -/
def entry : VaultEntry := {
  slot := 0, vf := 0, digest := [1, 2, 3, 4, 5, 6], serial := 1, base := 0, code := 0x80, entry := 0, codelen := 0x400, frame := 1,
  rot := 1, rpmap := [0, 0x40], win := 0, winoff := List.replicate 8 0, used := 0, units := 1, bytes := [] }
def inCode (sl : Slot) : Slot :=
  let sys := { sl.sys with cfda := 0, cfh := cfhWord 0 1, rots := 1 }
  { sl with ar := { sl.ar with pc := 0x100 }, xr := { sl.xr with pc := 0x100 }, sys := sys, bqa := [⟨0, .outcome, true, 0⟩] }
def brState (h : Half) : State :=
  (here 16 h (setP 0b00000010 ∘ setW [(1, 5), (2, -1), (3, 1)] ∘ setA [(1, 0), (2, 64)] ∘ inCode)).modVault 0
    fun v => { v with entries := [entry] }

/-- `branchesResolve`: BLT and BLTU of 5 and -1, BZ of a0 in the access half, BP of p1, BRX, a guarded BR and BR. -/
theorem witness_branchesResolve :
    allOf [
      (takesUp (mkForm (.blt ⟨gd0, .l64, .w 1, .w 2, 4⟩) gd0 (branchStream [.w 1, .w 2])) (brState .execute)
      && branchHalf [.w 1, .w 2] == .execute && operandsReady (brState .execute) [.w (.w 1), .w (.w 2)] []
      && (after (exec (.blt ⟨gd0, .l64, .w 1, .w 2, 4⟩) (brState .execute)) fun t => t.me.xr.pc == 0x108 && t.me.bqx.map (·.value) == [false])
      && (after (exec (.bltu ⟨gd0, .l64, .w 1, .w 2, 4⟩) (brState .execute)) fun t => t.me.xr.pc == 0x110 && t.me.bqx.map (·.value) == [true])),
      (takesUp (mkForm (.bz ⟨gd0, .l64, .a 0, -8⟩) gd0 (branchStream [.a 0])) (brState .access) && branchHalf [.a 0] == .access
      && (after (exec (.bz ⟨gd0, .l64, .a 0, -8⟩) (brState .access)) fun t => t.me.ar.pc == 0xE0 && t.me.bqa.length == 2)),
      (takesUp (mkForm (.bp ⟨gd0, .l64, 1, 4⟩) gd0 (.branch .execute)) (brState .execute)
      && (after (exec (.bnp ⟨gd0, .l64, 1, 4⟩) (brState .execute)) fun t => t.me.xr.pc == 0x108)),
      ((codeAt (brState .access) 16 0x100).isSome && takesUp (mkForm (.brx ⟨gd0, .a 2⟩) gd0 (branchStream [.a 2])) (brState .access)
      && (after (exec (.brx ⟨gd0, .a 2⟩) (brState .access)) fun t => t.me.ar.pc == 0xC0 && !t.me.ar.bad)),
      (takesUp (mkForm (.br ⟨⟨1, false⟩, .l64, 4⟩) ⟨1, false⟩ (.branch .execute)) (brState .execute)
      && (brState .execute).me.guardPasses ⟨1, false⟩ && decide ((brState .execute).me.bqx.length < 8)
      && (after (exec (.br ⟨⟨1, false⟩, .l64, 4⟩) (brState .execute)) fun t => t.me.xr.pc == 0x110 && t.me.bqx.length == 1)),
      (takesUp (mkForm (.br ⟨gd0, .l64, 4096⟩) gd0 .each) (brState .access)
      && (after (exec (.br ⟨gd0, .l64, 4096⟩) (brState .access)) fun t => t.me.ar.pc == 0x4100 && t.me.ar.bad && t.me.bqa.length == 1))] = true := by decide +kernel

/-- RB 1 in a rotating region, and a count of 3 in the register that w16 then names, or in g1. -/
def loopAt (rb : BitVec 4) (r : WReg) : State :=
  M.state (putW r 3) (chgS (fun sl => { sl with xr := { sl.xr with rb := rb } }) (brState .execute))
/-- `branchesFollowed`: the other half's outcome, a guard that fails, LOOPR with a rotating region and without. -/
theorem witness_branchesFollowed :
    allOf [
      ((brState .execute).me.bqIn .execute != [] && branchHalf [.a 1, .a 2] == .access
      && takesUp (mkForm (.beq ⟨gd0, .l64, .a 1, .a 2, 4⟩) gd0 (branchStream [.a 1, .a 2])) (brState .execute)
      && (after (exec (.beq ⟨gd0, .l64, .a 1, .a 2, 4⟩) (brState .execute)) fun t => t.me.xr.pc == 0x110 && t.me.bqa.isEmpty)),
      (!(brState .execute).me.guardPasses ⟨2, false⟩
      && takesUp (mkForm (.beq ⟨⟨2, false⟩, .l64, .w 1, .w 1, 4⟩) ⟨2, false⟩ (branchStream [.w 1, .w 1])) (brState .execute)
      && (after (exec (.beq ⟨⟨2, false⟩, .l64, .w 1, .w 1, 4⟩) (brState .execute)) fun t => t.me.xr.pc == 0x108
        && t.me.bqx.map (·.value) == [false])),
      (takesUp (mkForm (.loopr ⟨gd0, .l64, .w 1, -8⟩) gd0 (branchStream [.w 1])) (brState .execute) && plain (.w 1)
      && (after (exec (.loopr ⟨gd0, .l64, .w 1, -8⟩) (brState .execute)) fun t => t.me.xr.pc == 0xE0 && t.me.xr.rb == 7 && readW t (.w 1) == 4)
      && (after (exec (.loopr ⟨gd0, .l64, .w 3, -8⟩) (brState .execute)) fun t => t.me.xr.pc == 0x108 && t.me.xr.rb == 0 && readW t (.w 3) == 0)),
      readW (loopAt 1 (.w 16)) (.w 16) == 3,
      after (exec (.loopr ⟨gd0, .l64, .w 16, -8⟩) (loopAt 1 (.w 16))) fun t => t.me.xr.rb == 0 && t.me.xr.stack.toArray.getD 17 0 == 2,
      after (exec (.loopr ⟨gd0, .l64, .g 1, -8⟩) (loopAt 0 (.g 1))) fun t => t.me.readG 1 == 2 && t.me.xr.pc == 0xE0,
      after (exec (.loopr ⟨gd0, .l64, .g 0, -8⟩) (loopAt 0 (.g 1))) fun t => t.me.readG 0 == 0 && t.me.xr.pc == 0xE0,
      after (exec (.loopr ⟨gd0, .l64, .a 2, -8⟩) (brState .access)) fun t => t.me.readA 2 == 63 && t.me.ar.pc == 0xE0,
      after (exec (.loopr ⟨⟨2, false⟩, .l64, .w 1, -8⟩) (brState .execute)) fun t => t.me.xr.pc == 0x108 && readW t (.w 1) == 5,
      after (exec (.brx ⟨gd0, .a 2⟩) (chgS (fun sl => { sl with bqa := [⟨0, .outcome, true, 24⟩] }) (brState .execute))) fun t => t.me.xr.pc == 0x98] = true := by decide +kernel

/-! ## Floating and vector instructions -/

/-- w4 is 1.0, w5 2.5 and w6 a NaN of binary32; v1 holds 1.0 and 2.0 in its lanes 0 and 1, v2 holds 3.0 in both; m1 is 1. -/
def fltState : State :=
  here 16 .execute (setW [(4, 0xFFFFFFFF3F800000), (5, 0x40200000), (6, 0x7FC00000)]
    ∘ setV [(1, 0x400000003F800000), (2, 0x4040000040400000), (3, 0x1111111122222222), (4, 0xFFFF0003)]
    ∘ fun sl => { sl with xr := { sl.xr with m := sl.xr.m.set! 1 1 } })

/-- The hypotheses of `floatResults`, and sums, products and a fused product worked out by hand; higher bits are zero (R191). -/
theorem witness_floatResults :
    allOf [
      takesUp (mkForm (.fadd ⟨gd0, .f32, .w 7, .w 4, .w 5⟩) gd0 .execute) fltState,
      operandsReady fltState [.w (.w 4), .w (.w 5)] [.w (.w 7)],
      after (exec (.fadd ⟨gd0, .f32, .w 7, .w 4, .w 5⟩) fltState) fun t => readW t (.w 7) == 0x40600000,
      after (exec (.fsub ⟨gd0, .f32, .w 7, .w 4, .w 5⟩) fltState) fun t => readW t (.w 7) == 0xBFC00000,
      after (exec (.fmul ⟨gd0, .f32, .w 7, .w 4, .w 5⟩) fltState) fun t => readW t (.w 7) == 0x40200000,
      after (exec (.fdiv ⟨gd0, .f32, .w 7, .w 5, .w 4⟩) fltState) fun t => readW t (.w 7) == 0x40200000,
      after (exec (.fmin ⟨gd0, .f32, .w 7, .w 5, .w 4⟩) fltState) fun t => readW t (.w 7) == 0x3F800000,
      after (exec (.fmax ⟨gd0, .f32, .w 7, .w 5, .w 4⟩) fltState) fun t => readW t (.w 7) == 0x40200000,
      takesUp (mkForm (.fsqrt ⟨gd0, .f32, .w 7, .w 4⟩) gd0 .execute) fltState,
      operandsReady fltState [.w (.w 4)] [.w (.w 7)],
      after (exec (.fsqrt ⟨gd0, .f32, .w 7, .w 4⟩) fltState) fun t => readW t (.w 7) == 0x3F800000,
      after (exec (.fneg ⟨gd0, .f32, .w 7, .w 4⟩) fltState) fun t => readW t (.w 7) == 0xBF800000,
      takesUp (mkForm (.ffma ⟨gd0, .f32, .w 7, .w 5, .w 5, .w 4⟩) gd0 .execute) fltState,
      operandsReady fltState [.w (.w 5), .w (.w 5), .w (.w 4)] [.w (.w 7)],
      after (exec (.ffma ⟨gd0, .f32, .w 7, .w 5, .w 5, .w 4⟩) fltState) fun t => readW t (.w 7) == 0x40E80000] = true := by decide +kernel

/-- The hypotheses of `laneResults`: an unmasked sum, a masked one that keeps a lane and one that zeroes it, a fused product. -/
theorem witness_laneResults :
    allOf [
      takesUp (mkForm (.vadd ⟨gd0, .f32, 0, false, .v 3, .v 1, .v 2⟩) gd0 .execute) fltState,
      operandsReady fltState [.v (.v 1), .v (.v 2)] [.v (.v 3)],
      after (exec (.vadd ⟨gd0, .f32, 0, false, .v 3, .v 1, .v 2⟩) fltState) fun t => t.me.readV 3 == 0x40A0000040800000 ||| (t.me.readV 3 >>> 64) <<< 64,
      after (exec (.vadd ⟨gd0, .f32, 1, false, .v 3, .v 1, .v 2⟩) fltState) fun t => t.me.readV 3 == 0x1111111140800000,
      after (exec (.vadd ⟨gd0, .f32, 1, true, .v 3, .v 1, .v 2⟩) fltState) fun t => t.me.readV 3 == 0x40800000,
      after (exec (.vadd ⟨gd0, .u16, 1, false, .v 3, .v 4, .v 4⟩) fltState) fun t => lane 16 (t.me.readV 3) 0 == 6,
      after (exec (.vmul ⟨gd0, .i16, 0, false, .v 3, .v 4, .v 4⟩) fltState) fun t => lane 16 (t.me.readV 3) 1 == 1,
      takesUp (mkForm (.vdiv ⟨gd0, .f32, 1, true, .v 3, .v 2, .v 1⟩) gd0 .execute) fltState,
      after (exec (.vdiv ⟨gd0, .f32, 1, true, .v 3, .v 2, .v 1⟩) fltState) fun t => t.me.readV 3 == 0x40400000,
      takesUp (mkForm (.vfms ⟨gd0, .f32, 1, true, .v 3, .v 2, .v 2, .v 1⟩) gd0 .execute) fltState,
      operandsReady fltState [.v (.v 2), .v (.v 2), .v (.v 1)] [.v (.v 3)],
      after (exec (.vfms ⟨gd0, .f32, 1, true, .v 3, .v 2, .v 2, .v 1⟩) fltState) fun t => t.me.readV 3 == 0x41000000] = true := by decide +kernel

/-- The hypotheses of `laneUnaryAndBits`. -/
theorem witness_laneUnaryAndBits :
    allOf [
      takesUp (mkForm (.vneg ⟨gd0, .f32, 1, true, .v 3, .v 1⟩) gd0 .execute) fltState,
      operandsReady fltState [.v (.v 1)] [.v (.v 3)],
      after (exec (.vneg ⟨gd0, .f32, 1, true, .v 3, .v 1⟩) fltState) fun t => t.me.readV 3 == 0xBF800000,
      after (exec (.vabs ⟨gd0, .i8, 0, true, .v 3, .v 4⟩) fltState) fun t => lane 8 (t.me.readV 3) 2 == 1,
      takesUp (mkForm (.vnot ⟨gd0, .u8, 1, true, .v 3, .v 4⟩) gd0 .execute) fltState,
      after (exec (.vnot ⟨gd0, .u8, 1, true, .v 3, .v 4⟩) fltState) fun t => t.me.readV 3 == 0xFC,
      takesUp (mkForm (.vshl ⟨gd0, .i16, 1, true, .v 3, .v 4, .v 4⟩) gd0 .execute) fltState,
      operandsReady fltState [.v (.v 4), .v (.v 4)] [.v (.v 3)],
      after (exec (.vshl ⟨gd0, .i16, 1, true, .v 3, .v 4, .v 4⟩) fltState) fun t => t.me.readV 3 == 24,
      after (exec (.vsar ⟨gd0, .i16, 0, true, .v 3, .v 4, .v 4⟩) fltState) fun t => lane 16 (t.me.readV 3) 1 == 0xFFFF,
      after (exec (.vshr ⟨gd0, .i16, 0, true, .v 3, .v 4, .v 4⟩) fltState) fun t => lane 16 (t.me.readV 3) 1 == 0] = true := by decide +kernel

/-- The hypotheses of `laneMoves`. -/
theorem witness_laneMoves :
    allOf [
      takesUp (mkForm (.vperm ⟨gd0, .i16, 0, false, .v 3, .v 4, .v 4⟩) gd0 .execute) fltState,
      operandsReady fltState [.v (.v 4), .v (.v 4)] [.v (.v 3)],
      after (exec (.vzip ⟨gd0, .u16, 0, false, .v 3, .v 4, .v 2⟩) fltState) fun t => lane 64 (t.me.readV 3) 0 == 0x4040FFFF00000003,
      takesUp (mkForm (.vmov ⟨gd0, .u16, 1, true, .v 3, .v 4⟩) gd0 .execute) fltState,
      operandsReady fltState [.v (.v 4)] [.v (.v 3)],
      takesUp (mkForm (.vrot ⟨gd0, .u16, 0, true, .l64, .v 3, .v 4, 31⟩) gd0 .execute) fltState,
      after (exec (.vrot ⟨gd0, .u16, 0, true, .l64, .v 3, .v 4, 31⟩) fltState) fun t => lane 16 (t.me.readV 3) 1 == 3,
      takesUp (mkForm (.vsel ⟨gd0, .u16, 1, .v 3, .v 4, .v 2⟩) gd0 .execute) fltState,
      after (exec (.vsel ⟨gd0, .u16, 1, .v 3, .v 4, .v 2⟩) fltState) fun t => lane 32 (t.me.readV 3) 0 == 0x40400003,
      takesUp (mkForm (.vbcast ⟨gd0, .u8, 1, true, .v 3, .w 5⟩) gd0 .execute) fltState,
      operandsReady fltState [.w (.w 5)] [.v (.v 3)],
      after (exec (.vbcast ⟨gd0, .u16, 0, true, .v 3, .w 4⟩) fltState) fun t => t.me.readV 3 == 0] = true := by decide +kernel

/-- The hypotheses of `vectorMixed`. -/
theorem witness_vectorMixed :
    allOf [
      takesUp (mkForm (.vins ⟨gd0, false, .l64, .v 3, .w 5, 7⟩) gd0 .execute) fltState,
      operandsReady fltState [.w (.w 5), .v (.v 3)] [.v (.v 3)],
      after (exec (.vins ⟨gd0, false, .l64, .v 3, .w 5, 7⟩) fltState) fun t =>
        lane 64 (t.me.readV 3) 7 == 0x40200000 && lane 64 (t.me.readV 3) 0 == 0x1111111122222222,
      takesUp (mkForm (.vext ⟨gd0, false, false, .l64, .w 3, .v 3, 0⟩) gd0 .execute) fltState,
      operandsReady fltState [.v (.v 3)] [.w (.w 3)],
      after (exec (.vext ⟨gd0, false, false, .l64, .w 3, .v 3, 0⟩) fltState) fun t => readW t (.w 3) == 0x1111111122222222,
      takesUp (mkForm (.vcmp ⟨gd0, .lt, .f32, 0, false, 2, .v 1, .v 2⟩) gd0 .execute) fltState,
      operandsReady fltState [.v (.v 1), .v (.v 2)] [.m 2],
      after (exec (.vcmp ⟨gd0, .lt, .f32, 0, false, 2, .v 1, .v 2⟩) fltState) fun t => t.me.readM 2 == 3,
      takesUp (mkForm (.fcvt ⟨gd0, .i16, .f32, .rne, true, .w 3, .w 5⟩) gd0 .execute) fltState,
      operandsReady fltState [.w (.w 5)] [.w (.w 3)],
      after (exec (.fcvt ⟨gd0, .i16, .f32, .rne, true, .w 3, .w 5⟩) fltState) fun t => readW t (.w 3) == 2,
      after (exec (.fcvt ⟨gd0, .i16, .f32, .rup, true, .w 3, .w 5⟩) fltState) fun t => readW t (.w 3) == 3,
      after (exec (.fcvt ⟨gd0, .f32, .f32, .rsr, true, .w 3, .w 5⟩) fltState) fun t => t.me.xr.srgen == 0x42021,
      takesUp (mkForm (.vcvt ⟨gd0, .f16, .f32, .rne, false, .v 3, .v 1⟩) gd0 .execute) fltState,
      operandsReady fltState [.v (.v 1)] [.v (.v 3)],
      after (exec (.vcvt ⟨gd0, .f16, .f32, .rne, false, .v 3, .v 1⟩) fltState) fun t => t.me.readV 3 == 0x40003C00] = true := by decide +kernel

/-- The hypotheses of `reductions` and `maskResults`. -/
theorem witness_reductions :
    allOf [
      takesUp (mkForm (.vradd ⟨gd0, .i16, 0, .w 3, .v 4⟩) gd0 .execute) fltState, operandsReady fltState [.v (.v 4)] [.w (.w 3)],
      after (exec (.vradd ⟨gd0, .i16, 0, .w 3, .v 4⟩) fltState) fun t => readW t (.w 3) == 2,
      after (exec (.vrmax ⟨gd0, .u16, 0, .w 3, .v 4⟩) fltState) fun t => readW t (.w 3) == 0xFFFF,
      after (exec (.vrmin ⟨gd0, .i16, 1, .w 3, .v 4⟩) fltState) fun t => readW t (.w 3) == 3,
      takesUp (mkForm (.vdot ⟨gd0, .i16, 0, .w 3, .v 4, .v 4⟩) gd0 .execute) fltState, operandsReady fltState [.v (.v 4), .v (.v 4)] [.w (.w 3)],
      after (exec (.vdot ⟨gd0, .i16, 0, .w 3, .v 4, .v 4⟩) fltState) fun t => readW t (.w 3) == 10,
      after (exec (.vradd ⟨gd0, .f32, 0, .w 3, .v 1⟩) fltState) fun t => readW t (.w 3) == 0x40400000,
      after (exec (.vradd ⟨gd0, .f32, 2, .w 3, .v 1⟩) fltState) fun t => readW t (.w 3) == 0x80000000,
      after (exec (.vrmax ⟨gd0, .f32, 2, .w 3, .v 1⟩) fltState) fun t => readW t (.w 3) == 0xFF7FFFFF,
      after (exec (.vdot ⟨gd0, .f32, 0, .w 3, .v 1, .v 2⟩) fltState) fun t => readW t (.w 3) == 0x41100000] = true := by decide +kernel

theorem witness_maskResults :
    allOf [
      takesUp (mkForm (.mand ⟨gd0, .f32, 2, 0, 1⟩) gd0 .execute) fltState,
      after (exec (.mor ⟨gd0, .f32, 2, 0, 1⟩) fltState) fun t => t.me.readM 2 == 0xFFFF,
      after (exec (.mxor ⟨gd0, .f16, 2, 0, 1⟩) fltState) fun t => t.me.readM 2 == 0xFFFFFFFE,
      takesUp (mkForm (.mnot ⟨gd0, .u8, 2, 1⟩) gd0 .execute) fltState,
      after (exec (.mnot ⟨gd0, .u8, 2, 1⟩) fltState) fun t => t.me.readM 2 == 0xFFFFFFFFFFFFFFFE,
      takesUp (mkForm (.mpop ⟨gd0, .f16, .w 3, 0⟩) gd0 .execute) fltState, operandsReady fltState [.m 0] [.w (.w 3)],
      after (exec (.mpop ⟨gd0, .f16, .w 3, 0⟩) fltState) fun t => readW t (.w 3) == 32,
      takesUp (mkForm (.mfirst ⟨gd0, .i64, .w 3, 2⟩) gd0 .execute) fltState,
      after (exec (.mfirst ⟨gd0, .i64, .w 3, 2⟩) fltState) fun t => readW t (.w 3) == 8,
      takesUp (mkForm (.mtop ⟨gd0, .i64, 3, 1⟩) gd0 .execute) fltState,
      after (exec (.mtop ⟨gd0, .i64, 3, 1⟩) fltState) fun t => t.me.readP 3] = true := by decide +kernel

/-! ## Memory -/

/-- The page at 0x10000 lies at the physical page 4: readable, writable, user, not cached, with A and D set. SCRATCH is bank 2
of tile 0 and bank 3 is a FIFO bank, granted to VF 0 and group 0. -/
def mapped (s : State) : State :=
  let e (k : Nat) : TEntry := { slice := k, asid := 0, vpage := 1, large := false, pte := 0x4261F, ea := 0x8000, owned := true }
  let s := s.modDie 0 fun x => { x with tlb := (List.range 48).map e }
  s.modTile 0 fun t => { t with
    modes := (t.modes.set! 2 1).set! 3 2, grants := t.grants.set! 0 { valid := true, vf := 0, group := 0, mask := 0xC },
    fifos := [(3, [⟨5, false⟩, ⟨6, false⟩])] }
/-- a1 names the page, a2 its word 1, a3 holds data and a4 an index; FIFO bank 3 is at 0x2000. -/
def memState : State :=
  let s := mapped (here 0 .access (setA [(1, 0x10000), (2, 0x10008), (3, 0x1122334455667788), (4, 3), (5, 0x2000)]))
  { s with mem := Memory.setWord [] 0x40000 0xF1, full := [0x40000 / 8] }
/-- An address reaches the location of a key. -/
def reachesKey (i : Instr) (va : Word) (sz : Size) (a : Access) (s : State) (k : Nat) : Bool :=
  match reaches i va sz a s with | some (.mem l, _) => l.key == k | _ => false
def ready (s : State) (rs : List WReg) : Bool := operandsReady s (rs.map .w) []
def up (i : Instr) (rel acq : Bool := false) (s : State := memState) : Bool :=
  i.wf && takesUp { mkForm i gd0 .access with rel := rel, acq := acq } s

/-- The hypotheses of `loadsIssue`: LD and LDX of a page, LDS and LDSX of SCRATCH, LDS of a FIFO bank. -/
theorem witness_loadsIssue :
    allOf [
      up (.ld ⟨gd0, .d, false, true, .l64, .q, .a 1, 16⟩) false true, ready memState [.a 1], !isPure memState,
      reachesKey (.ld ⟨gd0, .d, false, true, .l64, .q, .a 1, 16⟩) 0x10010 .d Access.load memState 0x40010,
      after (exec (.ld ⟨gd0, .d, false, true, .l64, .q, .a 1, 16⟩) memState) fun t =>
        t.me.lq.length == 1 && t.me.loads.length == 1 && t.me.ar.pc == 8,
      up (.ldx ⟨gd0, .w, true, false, .a 6, .a 1, .a 4⟩), ready memState [.a 1, .a 4],
      reachesKey (.ldx ⟨gd0, .w, true, false, .a 6, .a 1, .a 4⟩) 0x1000C .w Access.load memState 0x4000C,
      after (exec (.ldx ⟨gd0, .w, true, false, .a 6, .a 1, .a 4⟩) memState) fun t =>
        t.me.lq.isEmpty && t.me.loads.map (·.dest) == [.a 6],
      up (.lds ⟨gd0, .v, false, false, .l64, .q, .a 0, 64⟩), scratchTarget memState 0 0 0 64 true matches .ok (.scratch 0 2 64),
      after (exec (.lds ⟨gd0, .v, false, false, .l64, .q, .a 0, 64⟩) memState) fun t => t.me.lq.length == 8,
      up (.ldsx ⟨gd0, .h, false, false, .q, .a 0, .a 4⟩), scratchTarget memState 0 0 0 6 false matches .ok (.scratch 0 2 6),
      after (exec (.ldsx ⟨gd0, .h, false, false, .q, .a 0, .a 4⟩) memState) fun t => t.me.loads.length == 1,
      up (.lds ⟨gd0, .d, false, false, .l64, .q, .a 5, 0⟩), lone memState, settled memState,
      scratchTarget memState 0 0 0 0x2000 true matches .ok (.fifo 0 3 0x2000), (memState.tile 0).fifoWait.isEmpty,
      after (exec (.lds ⟨gd0, .d, false, false, .l64, .q, .a 5, 0⟩) memState) fun t =>
        t.me.lq.map (·.word) == [some 5] && ((t.tile 0).fifos.get 3 []).length == 1] = true := by decide +kernel

/-- The hypotheses of `storesIssue`. -/
theorem witness_storesIssue :
    allOf [
      lone memState, memState.me.sq.isEmpty, up (.st ⟨gd0, .d, true, .l64, .a 1, 8, .a 3⟩) true false
        { memState with slots := memState.slots.map fun t => (t.1, { t.2 with bqx := [⟨0, .release, true, 0⟩] }) },
      up (.st ⟨gd0, .d, false, .l64, .a 1, 8, .a 3⟩), ready memState [.a 1, .a 3],
      reachesKey (.st ⟨gd0, .d, false, .l64, .a 1, 8, .a 3⟩) 0x10008 .d Access.store memState 0x40008,
      after (exec (.st ⟨gd0, .d, false, .l64, .a 1, 8, .a 3⟩) memState) fun t =>
        t.me.stores.map (·.data) == [[.val 0x1122334455667788]] && t.mem == memState.mem,
      up (.stx ⟨gd0, .v, false, .a 1, .a 0, .q⟩), ready memState [.a 1, .a 0],
      after (exec (.stx ⟨gd0, .v, false, .a 1, .a 0, .q⟩) memState) fun t =>
        t.me.stores.map (·.data) == [List.replicate 8 .owed],
      up (.stf ⟨gd0, false, .l64, .a 1, 8, .q⟩),
      reachesKey (.stf ⟨gd0, false, .l64, .a 1, 8, .q⟩) 0x10008 .d Access.atomic memState 0x40008,
      after (exec (.stf ⟨gd0, false, .l64, .a 1, 8, .q⟩) memState) fun t => t.me.stores.map (·.op) == [.stf],
      up (.sete ⟨gd0, false, .l64, .a 1, 8⟩),
      after (exec (.sete ⟨gd0, false, .l64, .a 1, 8⟩) memState) fun t => t.me.stores.map (·.op) == [.sete],
      up (.sts ⟨gd0, .b, false, .l64, .a 0, 7, .a 3⟩), scratchTarget memState 0 0 0 7 false matches .ok (.scratch 0 2 7),
      after (exec (.sts ⟨gd0, .b, false, .l64, .a 0, 7, .a 3⟩) memState) fun t => t.me.stores.length == 1,
      up (.stsx ⟨gd0, .w, false, .a 0, .a 4, .q⟩),
      after (exec (.stsx ⟨gd0, .w, false, .a 0, .a 4, .q⟩) memState) fun t => t.me.stores.length == 1] = true := by decide +kernel

/-- The hypotheses of `atomicsIssue`, of both widths. -/
theorem witness_atomicsIssue :
    allOf [
      up (.aadd ⟨gd0, true, .none, .a 6, .a 2, .a 3⟩), ready memState [.a 2, .a 3],
      reachesKey (.aadd ⟨gd0, true, .none, .a 6, .a 2, .a 3⟩) 0x10008 .d Access.atomic memState 0x40008,
      after (exec (.aadd ⟨gd0, true, .none, .a 6, .a 2, .a 3⟩) memState) fun t =>
        t.me.stores.map (·.op) == [.atom .add] && t.me.lq.isEmpty,
      up (.acas ⟨gd0, false, .none, .q, .a 2, .a 3, .q⟩),
      after (exec (.acas ⟨gd0, false, .none, .q, .a 2, .a 3, .q⟩) memState) fun t =>
        t.me.stores.map (·.data) == [[.val 0x1122334455667788, .owed]] && t.me.lq.length == 1] = true := by decide +kernel

/-- The hypotheses of `fullEmptyAndByteCounts`: a full word, a word of count -3 that 2 makes -1, one of count 0 that 0 fills. -/
theorem witness_fullEmptyAndByteCounts :
    allOf [
      up (.ldfe ⟨gd0, false, .l64, .q, .a 1, 0⟩), lone memState, settled memState, feFull memState 0x40000,
      after (exec (.ldfe ⟨gd0, false, .l64, .q, .a 1, 0⟩) memState) fun t => t.me.lq.map (·.word) == [some 0xF1] && t.full.isEmpty,
      after (exec (.ldff ⟨gd0, false, .l64, .a 6, .a 1, 0⟩) memState) fun t => readW t (.a 6) == 0xF1 && feFull t 0x40000,
      up (.bcpost ⟨gd0, false, .l64, .a 1, 16, .a 4⟩) true false
        { memState with slots := memState.slots.map fun t => (t.1, { t.2 with bqx := [⟨0, .release, true, 0⟩] }) },
      reachesKey (.bcpost ⟨gd0, false, .l64, .a 1, 16, .a 4⟩) 0x10010 .d Access.bcPost memState 0x40010,
      memState.mem.wf, up (.bcrd ⟨gd0, .q, .a 1⟩), ready memState [.a 1],
      after (exec (.bcrd ⟨gd0, .q, .a 1⟩) memState) fun t => t.me.lq.map (·.word) == [some 0xF1] && feFull t 0x40000] = true := by decide +kernel

/-- The last clauses of BCPOST: a load under way before it, and its word from sq. -/
def busyState : State := (memState.modMe fun sl => { sl with
  stores := [{ pos := 0, op := .st, tgt := .phys 0x40020, size := .d, data := [.val 1], rel := false, acq := false, dest := .discard, tsr := 0,
               nm := false, body := false, binds := [], relWas := none, insn := 0, key := none }], ar := { sl.ar with pos := 1 },
  xr := { sl.xr with pos := 1 }, bqx := [⟨0, .release, true, 0⟩] })
theorem witness_postsWait :
    allOf [
      up (.bcpost ⟨gd0, false, .l64, .a 1, 16, .a 4⟩) true false busyState, lone busyState, !alone busyState, sqFree busyState,
      reachesKey (.bcpost ⟨gd0, false, .l64, .a 1, 16, .a 4⟩) 0x10010 .d Access.bcPost busyState 0x40010,
      after (exec (.bcpost ⟨gd0, false, .l64, .a 1, 16, .a 4⟩) busyState) fun t =>
        t.me.stores.map (fun x => (x.op, x.data)) == [(.st, [.val 1]), (.bcPost, [.val 3])] && t.me.ar.pc == 8,
      after (exec (.bcpost ⟨gd0, false, .l64, .a 1, 16, .q⟩) busyState) fun t => t.me.stores.map (·.data) == [[.val 1], [.owed]]] = true := by decide +kernel

/-- The hypotheses of `lineControl`, with a dirty first-level line of the page. -/
def lineState : State := memState.modTile 0 fun t => { t with
  l1 := [{ asid := 0, vline := 0x200, key := 0x40000, data := 0x2200, dirty := 2, w := true, scope := 0, watch := false, large := false, poison := 0, bank := 0 }] }
/-- The page as one that is cached, one that is absent, and one that no slice knows. -/
def cachedPage (pte : Word) : State := memState.modDie 0 fun d => { d with tlb := d.tlb.map fun e => { e with pte := pte } }
def unknownPage : State := memState.modDie 0 fun d => { d with tlb := [] }
theorem witness_lineControl :
    allOf [
      up (.cflush ⟨gd0, .l64, .a 1, 0⟩) false false lineState, ready lineState [.a 1], settled lineState, lineState.latent.isEmpty,
      (findLine (lineState.tile 0).l1 0 0x200).isSome, (lineState.die 0).lines.isEmpty,
      after (exec (.cflush ⟨gd0, .l64, .a 1, 0⟩) lineState) fun t => (t.tile 0).l1.map (fun x => (x.dirty, x.data)) == [(0, 0x2200)] &&
        (t.die 0).lines.map (fun x => (x.dirty, x.data)) == [(2, 0x22F1)] && t.mem == lineState.mem && t.me.ar.pc == 8,
      up (.cinv ⟨gd0, .l64, .a 1, 0⟩) false false lineState,
      after (exec (.cinv ⟨gd0, .l64, .a 1, 0⟩) lineState) fun t =>
        (t.tile 0).l1.isEmpty && (t.die 0).lines.map (·.data) == [0x22F1] && t.me.ar.pc == 8,
      up (.pfh ⟨gd0, .l64, .a 1, 0⟩) false false (cachedPage 0x4271F), lone (cachedPage 0x4271F),
      (cacheBanks ((cachedPage 0x4271F).tile 0)).length != 0,
      (match lookupT 0 0x10000 0 Access.prefetch true (cachedPage 0x4271F) with | .ok l _ => l.c && isDram l.key | _ => false),
      (match lookupT 0 0x10000 0 Access.prefetch true (cachedPage 0x400004271F) with | .fault _ _ _ => true | _ => false),
      (match lookupT 0 0x10000 0 Access.prefetch true unknownPage with | .miss _ _ => true | _ => false),
      after (exec (.pfh ⟨gd0, .l64, .a 1, 0⟩) unknownPage) fun t =>
        (t.die 0).misses.map (fun m => (m.asid, m.va / 65536, m.waiters)) == [(0, 1, [.pfh 0 0x10000])] && t.me.ar.pc == 8,
      (0x80000000010000 : Word).extractLsb' 55 9 != 0] = true := by decide +kernel

/-- A store of a slot with its data. -/
def stHere (op : StoreOp) (tgt : Target) (size : Size) (ws : List Word) : PStore := {
  pos := 0, op := op, tgt := tgt, size := size, data := ws.map .val, rel := false, acq := false, dest := .discard,
  tsr := 0, nm := false, body := false, binds := [], relWas := none, insn := 0, key := none }
/-- Byte 2 of the page, where it is cached; and the line of `lineState` in a slice. -/
def pageLoc : Loc := { key := 0x40002, va := 0x10002, asid := 0, large := false, scope := 0, c := true, w := true, watch := false }
def sliceState : State := memState.modDie 0 fun d => { d with lines := (lineState.tile 0).l1 }
/-- The hypotheses of `storesPerformed` and `memoryLaws`; bytes go least significant first (R6). -/
theorem witness_storesPerformed :
    allOf [
      memoriesOk memState,
      ((applyStore 0 (stHere .st (.scratch 0 2 7) .w [0x11223344]) memState).tile 0).scratch
        == [(16391, 0x44), (16392, 0x33), (16393, 0x22), (16394, 0x11)],
      (applyStore 0 (stHere .st (.phys 0x40001) .h [0x0011]) memState).mem == [(0x40000, 0xF1), (0x40001, 0x11)],
      (applyStore 0 (stHere .sete (.mem (physLoc 0x40000)) .d []) memState).full == [],
      noReaders memState, memState.latent.isEmpty,
      (applyStore 0 (stHere .stf (.mem (physLoc 0x40100)) .d [7]) memState).mem == Memory.setWord memState.mem 0x40100 7,
      (applyStore 0 { stHere .st (.mem (physLoc 0x40100)) .b [7] with rel := true } memState).mem == [(0x40000, 0xF1), (0x40100, 7)],
      (applyStore 0 (stHere .st (.mem (physLoc 0x40100)) .b [7]) memState).mem == [(0x40000, 0xF1), (0x40100, 7)],
      (findLine (lineState.tile 0).l1 0 0x200).any (·.w),
      ((applyStore 0 (stHere .st (.mem pageLoc) .h [0x4433]) lineState).tile 0).l1.map (fun x => (x.data, x.dirty)) == [(0x44332200, 14)],
      (findLine (sliceState.tile 0).l1 0 0x200).isNone, (findLine (sliceState.die 0).lines 0 0x200).isSome,
      ((applyStore 0 (stHere .st (.mem pageLoc) .h [0x4433]) sliceState).die 0).lines.map (fun x => (x.data, x.dirty)) == [(0x44332200, 14)],
      ((applyStore 0 (stHere .st (.mem pageLoc) .h [0x4433]) memState).die 0).lines.map (fun x => (x.data, x.dirty)) == [(0x443300F1, 12)],
      atomResult .min false false 0xFFFFFFFF [1] == 0xFFFFFFFF, atomResult .add true false (-1) [1] == 0] = true := by decide +kernel

/-! ## Bindings, fences, queues, copies -/

/-- The slot holds the token that a release of its own takes (R50), and other changes. -/
def tok (s : State) : State := s.modMe fun sl => { sl with bqx := [⟨0, .release, true, 0⟩] }
def chg (f : Slot → Slot) (s : State) : State := s.modMe f

/-- The binding table of VF 0 lies at 0x100000 and holds one binding: 128 bytes from 0x20000 on, to the word at 0x30000. -/
def bindState : State :=
  let s := chg (setA [(1, 128), (2, 0x10010), (3, 0x10100), (4, 0x20000)]) memState
  let m := Memory.setWord (Memory.setWord (Memory.setWord s.mem 0x100000 0x20001) 0x100008 128) 0x100010 0x30000
  { s with mem := m, pkg := { s.pkg with btbase := 0x100001 } }
/-- The hypotheses of `bindingTable`, with what its two clauses leave in the second and the first entry. -/
theorem witness_bindingTable :
    allOf [
      lone bindState, settled bindState, bindEn bindState, bindState.mem.wf,
      up (.bind ⟨gd0, .a 3, .a 1, .a 2⟩) false false bindState, (taken bindState [.a 1, .a 2, .a 3]).1 == [128, 0x10010, 0x10100],
      bindCheck bindState 0 0x10100 128 0x10010 == none, bindKey bindState 0 (bindFree (bindings bindState 0) 4096 0) 0 == 0x100020,
      after (exec (.bind ⟨gd0, .a 3, .a 1, .a 2⟩) bindState) fun t => memWord t 0x100020 == 0x10101 && memWord t 0x100028 == 128,
      up (.unbind ⟨gd0, .a 4⟩) false false bindState, ready bindState [.a 4],
      (bindings bindState 0).find? (fun y => y.2.1 == 0x20000) == some (0, 0x20000, 128, 0x30000),
      after (exec (.unbind ⟨gd0, .a 4⟩) bindState) fun t => memWord t 0x100000 == 0 && memWord t 0x100010 == 0] = true := by decide +kernel

/-- A slot of a tile task, whose semaphores 3 and 31 hold 5 and 65,534. -/
def semState : State :=
  let s := tok memState
  let s := { s with tasks := [(1, { task 0 with words := 3 :: List.replicate 31 0 })] }
  s.modTile 0 fun t => { t with sems := (t.sems.set! 3 ⟨5, 70⟩).set! 31 ⟨65534, 1⟩ }
def relAcq (i : Instr) (rel acq : Bool) : Form := { mkForm i gd0 .access with rel := rel, acq := acq }
/-- The hypotheses of `fencesAndSemaphores`; the line of `lineState` has scope 0, so ACQ keeps it. -/
theorem witness_fencesAndSemaphores :
    allOf [
      up (.acq ⟨gd0, .l64, .a 1, 8⟩) false true, reachesKey (.acq ⟨gd0, .l64, .a 1, 8⟩) 0x10008 .d Access.load memState 0x40008,
      after (exec (.acq ⟨gd0, .l64, .a 1, 8⟩) lineState) fun t => (t.tile 0).l1.length == 1 && t.me.ar.pc == 8,
      up (.rel ⟨gd0, .l64, .a 1, 8⟩) true false (tok memState), lone (tok memState), (tok memState).me.sq.isEmpty,
      after (exec (.rel ⟨gd0, .l64, .a 1, 8⟩) (tok memState)) fun t =>
        t.me.sys.relpend == 0x10009 && t.me.stores.map (·.op) == [.relFence],
      inTileTask semState, earlierDone semState, lone semState, scratchDone semState,
      takesUp (relAcq (.sempost ⟨gd0, 31⟩) true false) semState, Machine.semOf (semState.tile 0) 31 == ⟨65534, 1⟩,
      after (exec (.sempost ⟨gd0, 31⟩) semState) fun t => Machine.semOf (t.tile 0) 31 == ⟨65535, 1⟩,
      takesUp (relAcq (.semwait ⟨gd0, 3⟩) false true) semState, (semState.tile 0).semWait.isEmpty,
      after (exec (.semwait ⟨gd0, 3⟩) semState) fun t => Machine.semOf (t.tile 0) 3 == ⟨4, 70⟩ && t.me.sys.semts == 70] = true := by decide +kernel

def located (x : Option (Target × State)) : Option (Loc × State) := x.bind fun y => match y.1 with | .mem l => some (l, y.2) | _ => none
/-- A queue of four slots at 0x10000 whose ring lies at 0x10080: slot 1 is full; QPUT takes number 2, QGET number 1. -/
def queueState : State :=
  let s := chg (setA [(1, 0x10000), (2, 0x10040)]) (tok memState)
  let m := [(0x40000, 0x10080), (0x40008, 0x100070002), (0x40010, 2), (0x40018, 1), (0x40048, 7), (0x40050, 99),
    (0x400C0, 11), (0x400C8, 7), (0x400D0, 98)].foldl (fun m t => Memory.setWord m t.1 t.2) []
  { s with mem := m, full := [0x400C0 / 8] }
/-- QPUT finds its descriptor, TAIL, its buffer at 0x10040, number 2, and the empty ring slot of that number. -/
def mayPut (i : Instr) (s : State) : Bool := ((do
  let (d, u0) ← located (reaches i 0x10000 .v Access.load s)
  let (nx, u1) ← counterFound i 0x10000 d false u0
  let (buf, u2) ← bufferFound i 0x10040 Access.load u1
  let x := descAt 0x10000 d nx buf (toHome 0 d u2)
  let (pkt, bad, u3) := buf.read 0 0 8 (toHome 0 d u2)
  let (k, u4) ← reserved x false u3
  let (e, u) ← located (reaches i (ringSlot x k) .v Access.atomic u4)
  return nx.off == 16 && descOk x.w0 x.w1 && !bad && (pkt.getD 1 0).extractLsb' 0 16 == x.w1.extractLsb' 16 16 && k == 2
    && e.key == 0x40100 && !feFull u e.key && !ringBehind u x false k && u.mem.wf : Option Bool)).getD false
/-- QGET finds its descriptor, HEAD, its buffer, number 1, and the full ring slot of that number. -/
def mayGet (i : Instr) (s : State) : Bool := ((do
  let (d, u0) ← located (reaches i 0x10000 .v Access.load s)
  let (nx, u1) ← counterFound i 0x10000 d true u0
  let (buf, u2) ← bufferFound i 0x10040 Access.store u1
  let x := descAt 0x10000 d nx buf (toHome 0 d u2)
  let (k, u3) ← reserved x true (toHome 0 d u2)
  let (e, u) ← located (reaches i (ringSlot x k) .v Access.atomic u3)
  let pkt := valueWords (homeGet (toHome 0 e u) e 64) 8
  return nx.off == 24 && descOk x.w0 x.w1 && k == 1 && e.key == 0x400C0 && feFull u e.key && !ringBehind u x true k
    && !homePoison (toHome 0 e u) e 64 && (pkt.getD 1 0).getLsbD 16 == (s.core 0).nanmode
    && (pkt.getD 1 0).extractLsb' 0 16 == x.w1.extractLsb' 16 16 : Option Bool)).getD false
/-- The hypotheses of `memoryQueues`. -/
theorem witness_memoryQueues :
    allOf [
      up (.qput ⟨gd0, .a 1, .a 2⟩) true false queueState, ready queueState [.a 1, .a 2], lone queueState, settled queueState,
      mayPut (.qput ⟨gd0, .a 1, .a 2⟩) queueState, mayGet (.qget ⟨gd0, .a 1, .a 2⟩) queueState,
      after (exec (.qput ⟨gd0, .a 1, .a 2⟩) queueState) fun t => feFull t 0x40100 && memWord t 0x40110 == 99 && memWord t 0x40010 == 3,
      up (.qget ⟨gd0, .a 1, .a 2⟩) false true queueState, feFull queueState 0x400C0,
      after (exec (.qget ⟨gd0, .a 1, .a 2⟩) queueState) fun t =>
        !feFull t 0x400C0 && memWord t 0x40050 == 98 && t.me.sys.qpbuf.toList.getD 2 0 == 98 && memWord t 0x40018 == 2] = true := by decide +kernel

/-- A copy of 16 bytes from 0x10000 to 0x10100, of slot 0. -/
def xfer : Transfer := {
  id := 0, w0 := 0x10000, w1 := 0x10100, w2 := 16, w3 := 0x10200, ts := 9, slot := 0, pos := 0, task := 1, vf := 0, asid := 0, group := 0,
  nm := false, held := false, body := false, coll := false, started := false, written := 0, desc := [], seq := 0, ended := none,
  fault := none, fcode := 0, fwhere := 0, carry := [], ready := false, bufs := [], twin := none }
/-- Its channel 2 with places and a FIFO. -/
def chanState (ex fi : List Transfer) : State :=
  (chg (setA [(1, 0), (12, 0x10000), (13, 0x10100), (14, 16), (15, 0x10200)]) (tok memState)).modTile 0
    (Tile.modChan 2 fun c => { c with next := 8, exec := ex, fifo := fi })
/-- The hypotheses of `copyRequests`: a copy and a collective, with room and without. -/
theorem witness_copyRequests :
    allOf [
      up (.cpy ⟨gd0, .a 9, 12, 2⟩) true false (chanState [] []), lone (chanState [] []), settled (chanState [] []),
      checkRequest 0x10000 0x10100 16 0x10200 0 false == none, checkRequest 0x10000 0x10100 (16 + 2 * 2 ^ 44) 0x10200 0 true == none,
      after (exec (.cpy ⟨gd0, .a 9, 12, 2⟩) (chanState [] [])) fun t =>
        readW t (.a 9) == 8 && (chanOf t 0 2).fifo.map (fun x => (x.w1, x.w2)) == [(0x10100, 16)] && (chanOf t 0 2).next == 9,
      after (exec (.collnb ⟨gd0, .a 9, 12, 2⟩) (chg (setA [(14, 16 + 2 * 2 ^ 44)]) (chanState [] []))) fun t =>
        (chanOf t 0 2).fifo.map (fun x => (x.coll, x.w3)) == [(true, 0x10200)],
      after (exec (.cpynb ⟨gd0, .a 9, 12, 2⟩) (chanState [] (List.replicate 8 xfer))) fun t =>
        readW t (.a 9) == -1 && (chanOf t 0 2).fifo.length == 8,
      after (exec (.cpy ⟨gd0, .a 9, 12, 2⟩) (chanState [] (List.replicate 8 xfer))) fun t =>
        t.me.awai == .copyRoom 2 && t.me.ar.pc == 0] = true := by decide +kernel

/-- A source page that is absent. -/
def lostState : State := (chanState [{ xfer with started := true, w0 := 0x20000 }] []).modDie 0 fun d =>
  { d with reports := [{ req := .chan 0 2 0, vpage := 2, code := 4, level := 3 }] }
/-- A copy of 64 bytes of SCRATCH bank 2, 8 of which have been written; 24 go on to the end of the sector. -/
def scratchCopy : Transfer := { xfer with started := true, written := 8, w0 := 0x8000000000000000, w1 := 0x8000000000000040, w2 := 64 }
def scratchState : State :=
  (chanState [scratchCopy] []).modTile 0 fun t => { t with scratch := t.scratch.write (8192 * 2 + 8) 1 0x55 }
/-- The hypotheses of `copyChannels`. The test of CDONE goes round at 2^31. -/
theorem witness_copyChannels :
    allOf [
      up (.cwait ⟨gd0, .a 1, 2⟩) false true ((chanState [] []).modTile 0 (Tile.modChan 2 fun c => { c with cdone := 1 })),
      after (exec (.cwait ⟨gd0, .a 1, 2⟩) ((chanState [] []).modTile 0 (Tile.modChan 2 fun c => { c with cdone := 1 }))) fun t =>
        t.me.ar.pc == 8 && t.me.awai == .none,
      up (.ctest ⟨gd0, .l64, .a 9, .a 1, 2⟩) false false (chanState [] []),
      after (exec (.ctest ⟨gd0, .l64, .a 9, .a 1, 2⟩) (chanState [] [])) fun t => readW t (.a 9) == 0,
      after (exec (.ctest ⟨gd0, .l64, .a 9, .a 1, 2⟩) ((chanState [] []).modTile 0 (Tile.modChan 2 fun c => { c with cdone := 0x80000000 })))
        fun t => readW t (.a 9) == 1,
      up (.cstat ⟨gd0, .l64, .a 9, 2⟩) false false (chanState [] []),
      after (exec (.cstat ⟨gd0, .l64, .a 9, 2⟩) (chanState [xfer] [xfer, xfer])) fun t => readW t (.a 9) == 0x1200000000,
      (chanOf (chanState [xfer] []) 0 2).exec.find? (fun z => !z.started && !z.held && z.ended.isNone) == some xfer,
      after (exec (.transferStart 0 2) (chanState [xfer] [])) fun t => (chanOf t 0 2).exec.map (·.started) == [true],
      (match copyXlat 0 2 xfer 0x10200 Access.copyWrite memState with | .ok l _ => l.key == 0x40200 && !l.c | _ => false),
      after (exec (.transferComplete 0 2 0) (chanState [{ xfer with started := true, written := 16 }] [])) fun t =>
        (chanOf t 0 2).cdone == 1 && (chanOf t 0 2).exec.isEmpty && memWord t 0x40200 == 9 && feFull t 0x40200,
      after (exec (.transferComplete 0 2 0) (chanState [{ xfer with started := true, written := 16, w3 := 0 }] [])) fun t =>
        (chanOf t 0 2).cdone == 1 && (chanOf t 0 2).exec.isEmpty && !feFull t 0x40200,
      ({ xfer with started := true, w0 := 0x20000 } : Transfer).unwritten,
      (match readPiece 0 2 { xfer with started := true, w0 := 0x20000 } 0x20000 16 lostState with | .fault 0x34 _ _ => true | _ => false),
      after (exec (.transferFault 0 2 0) lostState) fun t =>
        (chanOf t 0 2).paused && (chanOf t 0 2).exec.all fun y => y.fault.isSome && y.written == 0,
      scratchCopy.unwritten, !mixes scratchState 0 scratchCopy, isScratchForm scratchCopy.w0, scratchState.latent.isEmpty,
      (match copyScratch scratchState 0 scratchCopy (scratchCopy.w0 + 8), copyScratch scratchState 0 scratchCopy (scratchCopy.w1 + 8) with
        | .ok (.scratch 0 2 8), .ok (.scratch 0 2 72) => true | _, _ => false),
      after (exec (.transferFault 0 2 0) scratchState) fun t =>
        (t.tile 0).scratch.readNat (8192 * 2 + 72) 24 == 0x55 && (chanOf t 0 2).exec.map (·.written) == [32]] = true := by decide +kernel

/-! ## Collectives -/

/-- A barrier of two members, of channels 0 and 1 of tile 0 of package p; `a` is a bit in which the second differs. -/
def barrier (p : BitVec 9) (c : Nat) (a : Word) : Transfer := { xfer with
  id := 5, w2 := 2 ^ 44 + a, coll := true, started := true,
  desc := [if c = 0 then 0x20007 else 0x100020007, 0x10200, 0, 0, 0, 0, 0, 0, p.zeroExtend 64, p.zeroExtend 64 ||| 0x80000] }
def collState (p : BitVec 9) (a : Word) : State :=
  State.reset.modTile 0 fun t => Tile.modChan 1 (fun c => { c with exec := [barrier p 1 a] })
    (Tile.modChan 0 (fun c => { c with exec := [barrier p 0 0] }) t)
/-- A member of a barrier that has its result. -/
def readyOne : Transfer := { barrier 3 0 0 with id := 0, ready := true }
def readyState : State := chanState [readyOne] []
/-- The members of that barrier that have started. -/
def pair (p : BitVec 9) (a : Word) : List Member := [⟨0, 0, barrier p 0 0⟩, ⟨0, 1, barrier p 1 a⟩]
theorem test_started : ∀ p : BitVec 9,
    (started (collState p 0) 7 0).map (fun m => (m.tile, m.ch, m.x)) = (pair p 0).map fun m => (m.tile, m.ch, m.x) := by decide +kernel
/-- What the first statement of `collectiveSteps` asks of members that agree, each of which names both. -/
def matched (p : BitVec 9) : List Bool := [
  (pair p 0).all fun m => !m.x.ready && m.table.length == 2 && m.whole (pair p 0) && m.table.all memberHere,
  (pair p 0).all fun m => m.lost (collState p 0) == none && m.echoed (collState p 0), (pair p 0).all memberOk]
/-- Whatever the number of the package is. -/
theorem witness_collectiveMatch : allOf (matched Config.selfPackage) = true := by
  unfold matched Member.lost Member.whole Member.names memberOk memberIs memberHere
  generalize Config.selfPackage = p
  revert p
  decide +kernel
/-- Two members of a collective of a kind whose elements are 32-bit words, 4 to each block; they have read their sources, and the
root is rank 0. In an all-gather and a reduce-scatter LEN is 2 words. -/
def dataTwo (p : BitVec 9) (kind : Nat) : List Member := [0, 1].map fun c => { tile := 0, ch := c, x :=
  { barrier p c 0 with
    w2 := BitVec.ofNat 64 (2 ^ 44 * kind + (if kind = 5 ∨ kind = 6 then 8 else 16) + 2 ^ 32 * 2 + if kind = 2 ∨ kind = 5 then 0 else 2 ^ 36)
    carry := if kind = 2 ∧ c = 1 then [] else (List.range (if kind = 5 then 8 else 16)).map fun i => BitVec.ofNat 8 (16 * c + i) } }
def dataState (p : BitVec 9) (kind : Nat) : State :=
  (dataTwo p kind).foldl (fun s m => s.modTile 0 (Tile.modChan m.ch fun c => { c with exec := [m.x] })) State.reset
/-- The same of each kind, as the third clause of the statement asks; the tables are those of `matched`. -/
theorem witness_collectiveData :
    allOf [
      ([2, 3, 4, 5, 6] : List Nat).all fun k => allOf [
        (dataTwo 3 k).all fun m => reqKind m.x.w2 == k && m.x.carry.length == m.srcLen && m.echoed (dataState 3 k)
          && findTransfer (dataState 3 k) 0 m.ch m.x.id == some m.x && m.x.twin.isNone && m.x.fault.isNone && m.x.ended.isNone,
        (dataTwo 3 k).all fun m => (dataTwo 3 k).all (memberAgree m), (dataTwo 3 k).map (fun m => descRank m.x.desc) == [0, 1]]] = true := by decide +kernel
theorem witness_collectiveOk : ∀ k ∈ ([2, 3, 4, 5, 6] : List Nat), ∀ m ∈ dataTwo Config.selfPackage k, memberOk m = true := by
  unfold memberOk memberIs memberHere
  generalize Config.selfPackage = p
  revert p
  decide +kernel
/-- A member that writes 16 bytes of its result to SCRATCH bank 2, from byte 8 of a sector on. -/
def pieceX : Transfer := { barrier 3 0 0 with id := 0, w1 := 0x8000000000000008, w2 := BitVec.ofNat 64 (2 * 2 ^ 44 + 16), ready := true, carry := (List.range 16).map (BitVec.ofNat 8) }
/-- A lost member ends both with status 12, be the package number 3; and the hypotheses on a member that is ready. -/
theorem witness_collectiveSteps :
    allOf [
      (pair 3 0).all (memberAgree ⟨0, 0, barrier 3 0 0⟩), !(pair 3 1).all (memberAgree ⟨0, 0, barrier 3 0 0⟩), (started (collState 3 0) 8 0).isEmpty, (started (collState 3 0) 7 0).length == 2,
      (chanOf readyState 0 2).exec == [readyOne], readyOne.id == (chanOf readyState 0 2).cdone, !readyOne.ci, !reqBcw readyOne.w2,
      noReaders readyState, descSig readyOne.desc == 0x10200,
      (match copyXlat 0 2 readyOne 0x10200 Access.copyWrite (carryBufs true readyOne.bufs 0 readyState) with
        | .ok l u => l.key == 0x40200 && !l.c && u.mem.wf | _ => false),
      findTransfer (chanState [pieceX] []) 0 2 0 == some pieceX, pieceX.unwritten, isScratchForm pieceX.w1,
      (match copyScratch (chanState [pieceX] []) 0 pieceX pieceX.w1 with | .ok (.scratch 0 2 8) => true | _ => false),
      after (exec (.transferFault 0 2 0) (chanState [pieceX] [])) fun t =>
        (t.tile 0).scratch.readNat (8192 * 2 + 8) 16 == bytesNat pieceX.carry && (chanOf t 0 2).exec.map (·.written) == [16],
      after (exec (.transferComplete 0 2 0) readyState) fun t =>
        (chanOf t 0 2).exec.isEmpty && (chanOf t 0 2).cdone == 1 && memWord t 0x40200 == 9 && feFull t 0x40200] = true := by decide +kernel

/-! ## Tensors -/

/-- Tensors of the task of V slot 16: 0 of signed bytes, 1 of binary32, 2 of aligned blocks, 3 of FP8, 4 with scales 5. -/
def tensors : SMap (List Word) := [
  (0, [0x04100700, 0, 0x10003, 64, 0, 0, 0, 0]), (1, [0x04100002, 256, 0x10003, 64, 0, 0, 0, 0]),
  (2, [0x0200000004100007, 512, 0x10000, 64, 0, 0, 0, 0]), (3, [0x04007340, 1024, 15, 0, 0, 0, 0, 0]),
  (4, [0x0005000006100340, 2048, 0x10003, 64, 0, 0, 0, 0]), (5, [0x04100081, 3072, 0x10000, 64, 0, 0, 0, 0])]
/-- The registers name the tensors; v1 and v2 hold 1.0 and codes. -/
def tenState (n : Nat) : State :=
  let s := mapped (here n .execute (setW [(1, 1), (2, 2), (3, 3), (4, 4)] ∘ setV [(1, BitVec.ofNat 512 0x3F800000), (2, BitVec.ofNat 512 0x38)]))
  { s with tasks := [(1, { task n with tensors := tensors })] }
def exe (s : State) (i : Instr) : Bool := takesUp (mkForm i gd0 .execute) s
def ids (r : Except Nat (List TRef)) (k : Nat) : Bool := match r with | .ok ts => ts.length == k | _ => false

/-- The operation that each conversion enters with. -/
def convOps (s : State) : List ConvOp := ([Instr.cvt ⟨gd0, .rne, false, .w 1, .g 0⟩, .align ⟨gd0, .rne, false, .w 2, .w 1⟩,
    .dealign ⟨gd0, .rsr, true, .w 1, .w 2⟩, .bscale ⟨gd0, .rne, false, .w 4, .w 1⟩, .cvld ⟨gd0, .v 9, .w 1, .g 0⟩,
    .cvst ⟨gd0, .w 1, .g 0, .v 1⟩] : List Instr).flatMap fun i => match exec i s with | .next t => (t.tile 0).conv | _ => []
def apartB (rs ts : List TRef) : Bool := rs.all fun r => ts.all fun t => (placesOf r).all fun p => !(placesOf t).contains p
/-- The hypotheses of `conversions`: each of its instructions enters the unit, and the oldest operation leaves it. -/
theorem witness_conversions :
    allOf [
      lone (tenState 16), settled (tenState 16),
      ids (namedTensor (tenState 16) 16 1 plainClass) 1, ids (namedTensor (tenState 16) 16 2 blockClass) 1,
      ids (namedTensor (tenState 16) 16 4 fun r => plainClass r && r.bse) 2,
      sameShape 0 (tensorRef (tenState 16) 16 0) (tensorRef (tenState 16) 16 1),
      blocksAgree (tensorRef (tenState 16) 16 2) (tensorRef (tenState 16) 16 1),
      ([Instr.cvt ⟨gd0, .rne, false, .w 1, .g 0⟩, .align ⟨gd0, .rne, false, .w 2, .w 1⟩, .dealign ⟨gd0, .rsr, true, .w 1, .w 2⟩,
        .bscale ⟨gd0, .rne, false, .w 4, .w 1⟩, .cvld ⟨gd0, .v 9, .w 1, .g 0⟩, .cvst ⟨gd0, .w 1, .g 0, .v 1⟩] : List Instr).all fun i =>
        i.wf && exe (tenState 16) i && after (exec i (tenState 16)) fun t =>
          (t.tile 0).conv.length == 1 && t.me.xwai == .conversion && t.me.xr.pc == 8,
      indexOk (tensorRef (tenState 16) 16 1) 0, (tenState 16).past.isEmpty, (convOps (tenState 16)).all fun op => op.got.isNone && scaled op.t && scaled op.src,
      apartB [tensorRef (tenState 16) 16 0] [tensorRef (tenState 16) 16 1], apartB [tensorRef (tenState 16) 16 1] [tensorRef (tenState 16) 16 2],
      apartB [tensorRef (tenState 16) 16 1] [tensorRef (tenState 16) 16 4, tensorRef (tenState 16) 16 5],
      after (exec (.cvt ⟨gd0, .rne, false, .w 1, .g 0⟩) (tenState 16)) fun s =>
        after (exec (.conversionUnitComplete 0) s) fun t => (t.tile 0).conv.isEmpty && t.me.xwai == .none] = true := by decide +kernel

/-- 1.0 in element 0 of the binary32 tensor: CVT gives the byte 1, and CVLD gives it back; CVST puts lane 0 in an element. -/
def floatState : State := (tenState 16).modTile 0 fun t => { t with scratch := t.scratch.write (8192 * 2 + 256) 4 0x3F800000 }
def convert (i : Instr) : State := match exec i floatState with
  | .next s => match exec (.conversionUnitComplete 0) s with | .next t => t | _ => s
  | _ => floatState
theorem witness_converted :
    allOf [
      ((convert (.cvt ⟨gd0, .rne, false, .g 0, .w 1⟩)).tile 0).scratch.readNat (8192 * 2) 4 == 1,
      (convert (.cvld ⟨gd0, .v 9, .w 1, .g 0⟩)).me.readV 9 == BitVec.ofNat 512 0x3F800000,
      ((convert (.cvst ⟨gd0, .w 1, .w 1, .v 1⟩)).tile 0).scratch.readNat (8192 * 2 + 260) 4 == 0x3F800000] = true := by decide +kernel

/-- The hypotheses of `packing`; 1.0 is code 38 of FP8. SEED of 0 takes the constant of R77. -/
theorem witness_packing :
    allOf [
      exe (tenState 16) (.seed ⟨gd0, .g 0⟩), exe (tenState 16) (.vpack ⟨gd0, .rne, false, .v 9, .v 1, .w 3⟩),
      ids (namedTensor (tenState 16) 16 3 packClass) 1, decide ((tensorRef (tenState 16) 16 3).fmt.width ≤ 32),
      after (exec (.seed ⟨gd0, .g 0⟩) (tenState 16)) fun t => t.me.xr.srgen == 0x9E3779B9,
      after (exec (.seed ⟨gd0, .w 3⟩) (tenState 16)) fun t => t.me.xr.srgen == 3,
      after (exec (.vpack ⟨gd0, .rne, false, .v 9, .v 1, .w 3⟩) (tenState 16)) fun t => t.me.readV 9 == BitVec.ofNat 512 0x38,
      exe (tenState 16) (.vunpk ⟨gd0, .v 9, .v 2, .w 3⟩),
      after (exec (.vunpk ⟨gd0, .v 9, .v 2, .w 3⟩) (tenState 16)) fun t => t.me.readV 9 == BitVec.ofNat 512 0x3F800000] = true := by decide +kernel

/-! ## Engines -/

/-- An operation of the engine. -/
def engOp : EngOp := {
  kind := .asto, slot := 32, task := 1, vf := 0, group := 0, insn := 0, next := 8, desc := 0x10, arg := 0, tensor := [], strm := 1, sem := none,
  tsr := 7, nm := false, rows := 0xFFFF, collo := 0, colhi := 0x5FF, wdest := none, vdest := none, lqTook := [], portTook := [],
  started := false, read := false, semDone := false, num := 0, mark := 0, accMark := 0 }
/-- A slot 32 with the tensors, registers for descriptors, and operations. -/
def engState (ops : List EngOp) : State :=
  let s := chg (setW [(5, 0x10), (6, 0x11), (7, 0x10020), (8, 6), (9, 0x21), (10, 0)]) (tenState 32)
  s.modTile 0 fun t => { t with eng := { t.eng with ops := ops, acc := [(1536 + 32, 9), (1536 + 35, 8)], vals := [(0, 4)], gvalid := true } }
/-- The hypotheses of `engineIssue`. -/
theorem witness_engineIssue :
    allOf [
      lone (engState []), settled (engState []), ids (namedTensor (engState []) 32 0 intClass) 1, ids (namedTensor (engState []) 32 2 alignedClass) 1,
      (0x10 : Word) &&& ~~~maskMma == 0, (0 : Word) &&& ~~~maskMload == 0, mmaFits 0x10, rowsAgree 0x10 (tensorRef (engState []) 32 0),
      (tensorRef (engState []) 32 0).loc == tileInCluster 0, decide ((tensorRef (engState []) 32 0).rank ≤ 1),
      ([Instr.mload ⟨gd0, 1, none, .w 10, .g 0⟩, .mma ⟨gd0, 1, some 3, .w 5, .g 0⟩, .mmaf ⟨gd0, 1, none, .w 5, .w 2⟩,
        .asto ⟨gd0, 1, none, .w 1, .w 5⟩, .geval ⟨gd0, 1, none, .w 5, .g 0⟩, .grule ⟨gd0, .w 5⟩] : List Instr).all fun i =>
        i.wf && exe (engState []) i && after (exec i (engState [])) fun t =>
          (t.engine 0).ops.length == 1 && t.me.xwai == .engine && t.me.xr.pc == 0] = true := by decide +kernel

/-- The hypotheses of `engineDirectEffects`: rows 1 and 2 and columns 32 and 33 are cleared. -/
theorem witness_engineDirectEffects :
    allOf [
      (engState []).engine 0 |>.ops.isEmpty, exe (engState []) (.mgrp ⟨gd0, .w 8⟩), exe (engState []) (.aclr ⟨gd0, .w 6, .w 7⟩),
      exe (engState []) (.amask ⟨gd0, .w 3, .w 7⟩), exe (engState []) (.ard ⟨gd0, .v 1, .w 9⟩), exe (engState []) (.gclr ⟨gd0⟩),
      exe (engState []) (.grd ⟨gd0, .w 9, .g 0⟩),
      after (exec (.mgrp ⟨gd0, .w 8⟩) (engState [])) fun t => (t.engine 0).g == 6 && t.me.xr.pc == 8,
      after (exec (.aclr ⟨gd0, .w 6, .w 7⟩) (engState [])) fun t => (t.engine 0).entry 1 32 == 0 && (t.engine 0).entry 1 35 == 8,
      after (exec (.amask ⟨gd0, .w 3, .g 0⟩) (engState [])) fun t => (t.engine 0).rows == 3 && (t.engine 0).colhi == 0,
      after (exec (.ard ⟨gd0, .v 1, .w 9⟩) (engState [])) fun t => t.me.readV 1 == BitVec.ofNat 512 (9 + 8 * 2 ^ 96),
      after (exec (.gclr ⟨gd0⟩) (engState [])) fun t => !(t.engine 0).gvalid && (t.engine 0).vals.isEmpty,
      after (exec (.grd ⟨gd0, .w 9, .g 0⟩) (engState [])) fun t => readW t (.w 9) == 4] = true := by decide +kernel

/-- A grammar of one output, the product of column 0 and 1.0, at byte 64 of SCRATCH, and the GRULE that loads it. -/
def ruleOp : EngOp := { engOp with kind := .grule, desc := 64, started := true }
def ruleState : State := (engState [ruleOp]).modTile 0 fun t => { t with
  eng := { t.eng with gvalid := false }
  scratch := ((((t.scratch.write (8192 * 2 + 64) 8 (2 ^ 13 + 2 ^ 25)).write (8192 * 2 + 72) 8 1).write (8192 * 2 + 80) 4 (2 ^ 18)).write (8192 * 2 + 84) 4 0x3F80) }
def ruleAt' (k : Nat) : Nat := (ruleState.tile 0).scratch.readNat (8192 * 2 + 64 + k) 1
/-- The hypotheses of `engineSteps`: an operation that may start, one whose post is due, one that may complete. -/
theorem witness_engineSteps :
    allOf [
      stillMine (engState [engOp]) 32 1, startable ((engState [engOp]).engine 0) == [0], engOp.streamed,
      startFault ((engState [engOp]).engine 0) engOp == none, destReady (engState [engOp]) engOp,
      postable ((engState [{ engOp with started := true, sem := some 3 }]).engine 0) == [0],
      decide ((Machine.semOf ((engState [engOp]).tile 0) 3).count < 65535),
      completable ((engState [{ engOp with started := true }]).engine 0) == [0],
      runsAlone (engState [{ engOp with started := true }]) 0 { engOp with started := true }, mmaFits 0x10, rowsFit 0x10,
      inColumns { engOp with started := true } 1 40, !inColumns { engOp with started := true } 2 40, !inColumns { engOp with started := true, rows := 1 } 1 40,
      completable (ruleState.engine 0) == [0], runsAlone ruleState 0 ruleOp, !(ruleState.slot 32).super, ruleOp.desc.extractLsb' 19 45 == 0,
      scratchBanks ruleState 0 0 0 == [2],
      (checkBlock ruleAt' 0 1 1 1).toOption.any (fun es => es.map (fun c => (c.start, c.len)) == [(0, 1)]),
      (match checkBlock ruleAt' 0 1 0 1 with | .error _ => true | .ok _ => false),
      after (exec (.engineOperationComplete 0) ruleState) fun t =>
        (t.engine 0).gvalid && (t.engine 0).nout == 1 && (t.engine 0).base == 64 && t.me.xr.pc == 8 && (ruleAt (t.engine 0) 0).len == 1] = true := by decide +kernel

/-! ## Tasks -/

/-- A record of a core task at 0x10000, and the admission table, a queue and a partition that take it. -/
def spawnState : State :=
  let m := [(0x40008, 5), (0x40010, 1000), (0x200000, 1), (0x200008, 1)].foldl (fun m t => Memory.setWord m t.1 t.2) []
  { memState with
    mem := m, seq := 41, pkg := { memState.pkg with admbase := 0x200001 }, queues := [(0, { PQueue.reset with en := true, weight := 1 })],
    parts := [(0, { Part.reset with en := true })], prects := [(0, { PRect.reset with valid := true })] }
/-- An uncommitted body of slot 0. -/
def bodyState : State := { spawnState with tasks := [(1, { task 0 with committed := false, words := [0, 0, 1000] })] }
def joint (s : State) (i : Instr) : Bool := i.wf && takesUp (mkForm i gd0 .joint) s && earlierDone s

/-- The hypotheses of `taskInstructions`. -/
theorem witness_taskInstructions :
    allOf [
      joint spawnState (.tspawn ⟨gd0, .a 1⟩), lone spawnState, settled spawnState,
      (spawnRecord (.tspawn ⟨gd0, .a 1⟩) 0x10000 spawnState).any (fun x => x.1.length == 32 && admitFault x.2 0 x.1 (some 0) == none),
      after (exec (.tspawn ⟨gd0, .a 1⟩) spawnState) fun t =>
        (t.queue 0).recs.map (fun r => (recSeq r.words, r.insts)) == [(41, [0])] && t.seq == 42 && t.me.xr.pc == 8,
      joint spawnState (.tcommit ⟨gd0⟩), after (exec (.tcommit ⟨gd0⟩) spawnState) fun t => t.me.ar.pc == 8,
      (bodyState.taskOf 0).any (fun t => !t.committed && !recOrd t.words && t.escrow.isEmpty && t.slots == [0]), bodyState.me.stores.isEmpty,
      after (exec (.tcommit ⟨gd0⟩) bodyState) fun t => (t.task? 1).any (·.committed) && t.me.sys.wdcnt == 1000 && t.me.ar.pc == 8,
      joint spawnState (.tend ⟨gd0⟩), spawnState.me.sys.cfp == 64, (spawnState.taskOf 0).any (fun t => !heldCopies spawnState 1 t),
      after (exec (.tend ⟨gd0⟩) spawnState) fun t => t.tasks.isEmpty && !(t.slot 0).bound,
      after (exec (.retd ⟨gd0⟩) spawnState) fun t => t.tasks.isEmpty && !(t.slot 0).bound,
      joint bodyState (.tabort ⟨gd0⟩), after (exec (.tabort ⟨gd0⟩) bodyState) fun t => t.tasks.isEmpty,
      joint spawnState (.tsadv ⟨gd0, .a 4⟩), after (exec (.tsadv ⟨gd0, .a 4⟩) spawnState) fun t => t.me.sys.tsr == 3 && t.me.xr.pc == 8,
      joint spawnState (.tscmp ⟨gd0, .a 9, .a 4, .a 1⟩),
      after (exec (.tscmp ⟨gd0, .a 9, .a 4, .a 1⟩) spawnState) fun t => readW t (.a 9) == -1] = true := by decide +kernel

/-- RINV: a reuse entry of VF 0 and ASID 0 whose argument range meets 0x10000, on a die of its own. -/
def reuseState : State := spawnState.modDie 1 fun d => { d with reuse := [(3, { words := [1, 0, 0, 0x10000, 64, 0, 0], used := 1 })] }
theorem witness_rinv :
    allOf [
      joint reuseState (.rinv ⟨gd0, .a 1, .a 4⟩), !isPure reuseState, (reuseState.die 1).reuse.all (fun e => e.2.valid && e.2.vf == 0),
      meets 0x10000 64 0x10000 3,
      after (exec (.rinv ⟨gd0, .a 1, .a 4⟩) reuseState) fun t => (t.die 1).reuse.all fun e => !e.2.valid,
      after (exec (.rinv ⟨gd0, .a 0, .a 0⟩) reuseState) fun t => (t.die 1).reuse.all fun e => !e.2.valid,
      after (exec (.rinv ⟨gd0, .a 0, .a 4⟩) reuseState) fun t => (t.die 1).reuse.all fun e => e.2.valid] = true := by decide +kernel

/-! ## Code named by digest -/

/-- A slot in the code of `entry`, whose digest lies at 0x10000; that of an entry in which no slot runs lies at 0x10040, and
that of code that is not resident at 0x10080. -/
def other : VaultEntry := { entry with slot := 3, digest := [9, 10, 11, 12, 13, 14], serial := 5, code := 0x800, frame := 0 }
def callState : State :=
  let s := mapped (here 0 .access (setA [(1, 0x10000), (2, 0x10040), (3, 0x10080)] ∘ inCode))
  let m := (List.range 24).foldl (fun m k => Memory.setWord m (0x40000 + 8 * k) (BitVec.ofNat 64 (k + 1))) []
  { s with mem := m, vaults := [(0, { Vault.reset with entries := [entry, other], serial := 6 })],
           pkg := { s.pkg with frmbase := s.pkg.frmbase.set! 0 0x300000 } }
/-- The same called from itself: its record has return point 1, rotation 2 of an 8-register region and a frame of 8. -/
def calledState : State :=
  let s := chg (fun sl => { sl with sys := { sl.sys with cfp := 96, wbase := 8 } }) callState
  { s with mem := Memory.setWord (Memory.setWord s.mem 0x300040 0x100025001) 0x300050 0x777000 }
/-- The hypotheses of `digestCalls`: CALLDR, TAILD and RETD, at the lowest and the highest place of the window. -/
theorem witness_digestCalls :
    allOf [
      joint callState (.calldr ⟨gd0, 1, .a 1⟩), ready callState [.a 1], callState.mem.wf,
      (digestOf (.calldr ⟨gd0, 1, .a 1⟩) (.reg (.a 1)) [0x10000] callState).any fun x => x.1 == 0x10000 && x.2.1 == [1, 2, 3, 4, 5, 6],
      (vaultLookup callState 0 0 [1, 2, 3, 4, 5, 6]).any (fun e => frameSize e.frame == 8),
      after (exec (.calldr ⟨gd0, 1, .a 1⟩) callState) fun t =>
        t.me.sys.cfp == 96 && t.me.sys.wbase == 8 && t.me.ar.pc == 0x80 && t.me.xr.pc == 0x80 && t.me.sys.cfda == 0x10000
          && frameWord t 0 64 0 == 0x100005001 && frameWord t 0 64 3 == 1,
      after (exec (.calldr ⟨gd0, 1, .a 1⟩) (chg (fun sl => { sl with sys := { sl.sys with wbase := 88 } }) callState)) fun t =>
        t.me.sys.wbase == 96 && !t.me.super,
      joint callState (.taild ⟨gd0, .a 2⟩), currentFrame callState 0 == 8,
      after (exec (.taild ⟨gd0, .a 2⟩) (chg (fun sl => { sl with sys := { sl.sys with wbase := 8 } }) callState)) fun t =>
        t.me.sys.cfp == 64 && t.me.sys.wbase == 0 && t.me.ar.pc == 0x800 && t.me.sys.cfh == 0x500000003,
      joint calledState (.retd ⟨gd0⟩), decide (calledState.me.sys.rslow.toNat + currentFrame calledState 0 ≤ calledState.me.sys.wbase.toNat),
      entry.rpmap[1]? == some 0x40,
      after (exec (.retd ⟨gd0⟩) calledState) fun t =>
        t.me.sys.cfp == 64 && t.me.sys.wbase == 0 && t.me.ar.pc == 0xC0 && t.me.xr.rb == 2 && t.me.sys.cfda == 0x777000] = true := by decide +kernel

/-- CALLD reads its digest through the constant cache. -/
def windowState : State := callState.modCore 0 fun c => { c with kcache := [⟨0, 0, (callState.mem.readNat 0x40000 128 : Nat), 0⟩] }
theorem witness_calld :
    allOf [
      joint windowState (.calld ⟨gd0, 1, .const 2 8⟩),
      (digestOf (.calld ⟨gd0, 1, .const 2 8⟩) (.window 2 8) [] windowState).any fun x => x.2.1 == other.digest,
      after (exec (.calld ⟨gd0, 1, .const 2 8⟩) windowState) fun t =>
        t.me.sys.cfp == 96 && t.me.sys.wbase == 0 && t.me.ar.pc == 0x800] = true := by decide +kernel

/-- The hypotheses of `vaultInstructions`. -/
theorem witness_vaultInstructions :
    allOf [
      joint callState (.cfetch ⟨gd0, .a 3⟩), (quietDigest 0 0x10080 callState).1 == some [17, 18, 19, 20, 21, 22],
      (vaultLookup callState 0 0 [17, 18, 19, 20, 21, 22]).isNone,
      after (exec (.cfetch ⟨gd0, .a 3⟩) callState) fun t => (t.vault 0).fetches.map (·.digest) == [[17, 18, 19, 20, 21, 22]] && t.me.ar.pc == 0x108,
      joint callState (.vevict ⟨gd0, .a 2⟩), !pinned callState 0 other,
      after (exec (.vevict ⟨gd0, .a 2⟩) callState) fun t => (t.vault 0).entries == [entry],
      joint callState (.vprobe ⟨gd0, .a 9, .a 2⟩), after (exec (.vprobe ⟨gd0, .a 9, .a 2⟩) callState) fun t => readW t (.a 9) == 0x500000007,
      after (exec (.vprobe ⟨gd0, .a 9, .a 3⟩) callState) fun t => readW t (.a 9) == 0] = true := by decide +kernel

/-! ## Control, traps, system registers -/

/-- The hypotheses of `nopReservedPrefetch`. -/
theorem witness_nopReservedPrefetch :
    allOf [
      after (exec (.nop ⟨gd0, .l128⟩) exeState) fun t => t.me.xr.pc == 16 && t.me.xr.pos == 1,
      mayTrap memState, after (exec (.reservedOpcode 0x1FC) memState) fun t => t.me.trap.tcause == 0x20001 && t.me.trap.tinsn == 0x1FC,
      takesUp (mkForm (.ipf ⟨gd0, .l64, 64⟩) gd0 .access) callState, (codeAt callState 0 0x100).isSome,
      (match lookupT 0 0x10000 0 Access.prefetchX true ((mapped memState).modDie 0 fun d => { d with
          tlb := d.tlb.map fun e => { e with pte := e.pte ||| 8 } }) with | .ok l _ => isDram l.key | _ => false),
      after (exec (.ipf ⟨gd0, .l64, 64⟩) callState) fun t => t.me.ar.pc == 0x108 && t.me.xr.pc == 0x100] = true := by decide +kernel

def trapped (k d : Nat) (pc : Word) (t : State) : Bool :=
  t.me.super && t.me.trap.tcause == BitVec.ofNat 64 (k + 65536 * d) && t.me.trap.tpc == pc && t.me.ar.pc == 0x4000 && t.me.xr.pc == 0x4000
/-- A slot that may trap, with the handler at 0x4000, and a slot in that handler. -/
def trapState : State := memState.modCore 0 fun c => { c with tvec := 0x4000 }
def superState : State := chg (fun sl => { sl with super := true, ctxa := 0x200, ctxx := 0x208, trap := { sl.trap with tpc := 0x200, tva := 9 } }) trapState
/-- The hypotheses of `trapsTaken`, each with the trap that it takes (R298). -/
theorem witness_trapsTaken :
    allOf [
      mayTrap trapState, joint trapState (.trap ⟨gd0, 77⟩), after (exec (.trap ⟨gd0, 77⟩) trapState) (trapped 24 77 8),
      joint trapState (.bkpt ⟨gd0⟩), after (exec (.bkpt ⟨gd0⟩) trapState) (trapped 25 0 8),
      joint trapState (.tret ⟨gd0⟩), after (exec (.tret ⟨gd0⟩) trapState) (trapped 23 0 0),
      after (exec (.snap ⟨gd0⟩) trapState) (trapped 23 0 0), roomAndWords trapState [.w (.a 1)] [],
      after (exec (.csave ⟨gd0, .a 1⟩) trapState) (trapped 23 0 0), after (exec (.crest ⟨gd0, .a 1⟩) trapState) (trapped 23 0 0),
      joint trapState (.mfsr ⟨gd0, .a 9, .tcause⟩), outOfClass trapState .tcause false,
      after (exec (.mfsr ⟨gd0, .a 9, .tcause⟩) trapState) (trapped 23 SysReg.tcause.num.toNat 0), chanRole 7 != trapState.myRole,
      after (exec (.mfsr ⟨gd0, .a 9, .cdone 7⟩) trapState) (trapped 4 0xE9 0),
      joint trapState (.mtsr ⟨gd0, .tvec, .a 1⟩), outOfClass trapState .tvec true,
      after (exec (.mtsr ⟨gd0, .tvec, .a 1⟩) trapState) (trapped 23 SysReg.tvec.num.toNat 0),
      joint trapState (.uiret ⟨gd0⟩), !trapState.me.inUi, after (exec (.uiret ⟨gd0⟩) trapState) (trapped 1 4 0),
      up (.ld ⟨gd0, .d, false, false, .l64, .q, .a 1, 4⟩) false false trapState, ready trapState [.a 1],
      after (exec (.ld ⟨gd0, .d, false, false, .l64, .q, .a 1, 4⟩) trapState) (trapped 5 3 0),
      up (.st ⟨gd0, .h, false, .l64, .a 1, 1, .a 3⟩) false false trapState,
      after (exec (.st ⟨gd0, .h, false, .l64, .a 1, 1, .a 3⟩) trapState) (trapped 5 1 0),
      superState.me.super, !isWalker 0,
      (let t := enterHandler 0 24 0 0 0 0 superState
       t.tasks.isEmpty && (t.blackbox.map fun e => e.w1.extractLsb' 0 8) == [4])] = true := by decide +kernel

/-- A slot whose task's VF and group own the engine, with G 6, an operation of stream 2 and group 1 in FLT mode; and a walker. -/
def ownState : State := (engState [{ engOp with strm := 2 }]).modTile 0 fun t => { t with
  eng := { t.eng with owner := some (0, 0), g := 6, modes := [(1, .flt)] } }
def walkerState : State := { memState with cur := ⟨15, .access⟩ }.modCore 0 fun c => { c with win0 := 5, win1 := 6 }
/-- The hypotheses of `systemRegisters`, with values of both ends of their ranges. -/
theorem witness_systemRegisters :
    allOf [
      joint trapState (.mfsr ⟨gd0, .a 9, .cfp⟩), !outOfClass trapState .cfp false,
      after (exec (.mfsr ⟨gd0, .a 9, .cfp⟩) trapState) fun t => readW t (.a 9) == 64 && t.me.ar.pc == 8 && t.me.xr.pc == 8,
      after (exec (.mfsr ⟨gd0, .a 9, .srgen⟩) trapState) fun t => readW t (.a 9) == 1,
      after (exec (.mfsr ⟨gd0, .a 9, .tva⟩) superState) fun t => readW t (.a 9) == 9 && t.me.ar.pc == 8,
      after (exec (.mfsr ⟨gd0, .a 9, .slotstat⟩) superState) fun t => readW t (.a 9) == 0x300,
      !ownsEngine trapState 0, after (exec (.mfsr ⟨gd0, .a 9, .amskrow⟩) trapState) fun t => readW t (.a 9) == 0,
      !outOfClass (superState.modVault 0 fun v => { v with vlim := 9 }) .vlim false,
      after (exec (.mfsr ⟨gd0, .a 9, .vlim⟩) (superState.modVault 0 fun v => { v with vlim := 9 })) fun t => readW t (.a 9) == 9,
      ownsEngine ownState 32, takesUp (mkForm (.mfsr ⟨gd0, .w 9, .mxstat⟩) gd0 .joint) ownState,
      [(.mxstat, 0x10406), (.mxgmode, 12), (.amskrow, 0xFFFF), (.amskcol, 0x5FF0000)].all fun (p : SysReg × Word) =>
        after (exec (.mfsr ⟨gd0, .w 9, p.1⟩) ownState) fun t => readW t (.w 9) == p.2,
      !outOfClass walkerState .win0 false,
      after (exec (.mfsr ⟨gd0, .a 9, .win0⟩) walkerState) fun t => readW t (.a 9) == 5,
      after (exec (.mfsr ⟨gd0, .a 9, .win1⟩) walkerState) fun t => readW t (.a 9) == 6,
      joint superState (.mtsr ⟨gd0, .tvec, .a 3⟩), !outOfClass superState .tvec true, !otherBound superState 0,
      after (exec (.mtsr ⟨gd0, .tvec, .a 3⟩) superState) fun t => (t.core 0).tvec == 0x22334455667788,
      after (exec (.mtsr ⟨gd0, .cwin 7, .a 3⟩) trapState) fun t => t.me.sys.cwin.toList.getD 7 0 == 0x22334455667788,
      after (exec (.mtsr ⟨gd0, .nanmode, .a 4⟩) superState) fun t => (t.core 0).nanmode,
      after (exec (.mtsr ⟨gd0, .srgen, .a 0⟩) trapState) fun t => t.me.xr.srgen == 0x9E3779B9,
      after (exec (.mtsr ⟨gd0, .rslow, .a 4⟩) trapState) fun t => t.me.sys.rslow == 0,
      after (exec (.mtsr ⟨gd0, .rslow, .a 4⟩) (chg (fun sl => { sl with sys := { sl.sys with wbase := 3 } }) superState)) fun t =>
        t.me.sys.rslow == 3,
      after (exec (.mtsr ⟨gd0, .mpdst 3, .a 4⟩) trapState) fun t => t.me.sys.mpdst.toList.getD 3 0 == 3,
      after (exec (.mtsr ⟨gd0, .vlim, .a 4⟩) superState) fun t => (t.vault 0).vlim == 3,
      after (exec (.mtsr ⟨gd0, .vlim, .a 3⟩) superState) fun t => (t.vault 0).vlim == 8,
      after (exec (.mtsr ⟨gd0, .cfp, .a 4⟩) trapState) fun t => t.me.sys.cfp == 64] = true := by decide +kernel

/-- The hypotheses of `systemReturns`. -/
theorem witness_systemReturns :
    allOf [
      joint (chg (fun sl => { sl with inUi := true, uipca := 0x300, uipcx := 0x318 }) trapState) (.uiret ⟨gd0⟩),
      after (exec (.uiret ⟨gd0⟩) (chg (fun sl => { sl with inUi := true, uipca := 0x300, uipcx := 0x318 }) trapState)) fun t =>
        !t.me.inUi && t.me.ar.pc == 0x300 && t.me.xr.pc == 0x318,
      joint superState (.tret ⟨gd0⟩),
      after (exec (.tret ⟨gd0⟩) superState) fun t => !t.me.super && t.me.ar.pc == 0x200 && t.me.xr.pc == 0x208,
      joint trapState (.waite ⟨gd0⟩), after (exec (.waite ⟨gd0⟩) trapState) fun t => t.me.awai == .waite && t.me.ar.pc == 0,
      after (exec (.waite ⟨gd0⟩) (trapState.modCore 0 fun c => { c with preq := 1 })) fun t => t.me.awai == .none && t.me.ar.pc == 8,
      joint superState (.snap ⟨gd0⟩), privileged superState, after (exec (.snap ⟨gd0⟩) superState) fun t => t.pkg.snapDone] = true := by decide +kernel

/-- A handler with an image at 0x1000000, whose first word names it, an a register and a PC. -/
def imageState : State :=
  let s := chg (setA [(1, 0x1000000)] ∘ fun sl => { sl with ar := { sl.ar with sup := sl.ar.sup.set! 0 0x1000000 } }) superState
  let k := physKey 0x1000000
  { s with mem := [(k, 0x58544358), (k + 16, 0x500), (k + 264, 64), (k + 8 * 37, 22)].foldl (fun m t => Memory.setWord m t.1 t.2) [] }
/-- What CSAVE of the handler's context leaves, and that image restored: no task counts the slot's time down, and no word of the image
is free. -/
def fullState : State := chg (fun sl => { sl with
  trap := { sl.trap with tstat := true }, sq := List.replicate 16 ⟨0, 7⟩, bqa := List.replicate 8 ⟨0, .guard, true, 0⟩,
  bqx := List.replicate 8 ⟨0, .release, true, 0⟩ }) { imageState with tasks := [] }
/-- A state that has the image's memory, and restores it. -/
def restState (m : Memory) : State := { imageState with mem := m }
theorem frames_inDram (L : Nat) (h : L ≤ 4096) : isDram (physKey 0x1000000 + 3152 + L - 1) = true := by
  have hk : physKey 0x1000000 = 0x1000000 := by decide +kernel
  simp only [isDram, hk, Bool.and_eq_true, beq_iff_eq, decide_eq_true_eq]
  omega
set_option maxRecDepth 20000 in
/-- The hypotheses of `imagesAndTensors` on an image that CSAVE wrote: whatever its words are, CREST may read it. -/
theorem witness_saved :
    allOf [
      joint fullState (.csave ⟨gd0, .a 8⟩), privileged fullState, ready fullState [.a 8], !uncommitted fullState, contextQuiet fullState 0,
      isDram (physKey 0x1000000 + 3151),
      decide (fullState.me.lq.length ≤ 32 ∧ fullState.me.sq.length ≤ 16 ∧ fullState.me.bqa.length ≤ 8 ∧ fullState.me.bqx.length ≤ 8)] = true ∧
    ∃ t, exec (.csave ⟨gd0, .a 8⟩) fullState = .next t ∧ t.mem.wf = true ∧ (restState t.mem).poison = [] ∧
      joint (restState t.mem) (.crest ⟨gd0, .a 8⟩) = true ∧ privileged (restState t.mem) = true ∧ ready (restState t.mem) [.a 8] = true ∧
      isDram (physKey 0x1000000 + 3152 + frameLen (memWord t (physKey 0x1000000 + 264)) - 1) = true := by
  refine ⟨by decide +kernel, M.state (retireBoth (.csave ⟨gd0, .a 8⟩)) (saveImage 0 (physKey 0x1000000) (taken fullState [.a 8]).2),
    rfl, ?_, rfl, rfl, rfl, rfl, frames_inDram _ (Nat.min_le_right ..)⟩
  rw [retireBoth_mem]
  exact saveImage_wf 0 (physKey 0x1000000) (s := (taken fullState [.a 8]).2) (by decide +kernel)
/-- The hypotheses of `imagesAndTensors`. -/
theorem witness_imagesAndTensors :
    allOf [
      joint imageState (.csave ⟨gd0, .a 8⟩), privileged imageState, ready imageState [.a 8], !uncommitted imageState,
      contextQuiet imageState 0, imageState.mem.wf, readW imageState (.a 8) == 0x1000000, isDram (physKey 0x1000000),
      isDram (physKey 0x1000000 + 3152 + frameLen imageState.me.sys.cfp - 1),
      joint imageState (.crest ⟨gd0, .a 8⟩), memWord imageState (physKey 0x1000000) == 0x58544358, !otherBound imageState 0,
      after (exec (.crest ⟨gd0, .a 8⟩) imageState) fun t =>
        t.me.ctxa == 0x500 && t.me.sys.cfp == 64 && t.me.ar.lo.toList.getD 2 0 == 22 && t.me.ar.pc == 8,
      joint spawnState (.ttld ⟨gd0, .a 4, .a 1⟩), (tensorRecord (.ttld ⟨gd0, .a 4, .a 1⟩) 0x10000 spawnState).isSome,
      after (exec (.ttld ⟨gd0, .a 4, .a 1⟩) spawnState) fun t =>
        (t.task? 1).any fun x => x.tensors.get 3 [] == [0, 5, 1000, 0, 0, 0, 0, 0],
      joint spawnState (.ttst ⟨gd0, .a 4, .a 1⟩), spawnState.me.sq.isEmpty,
      reachesKey (.ttst ⟨gd0, .a 4, .a 1⟩) 0x10000 .v Access.store spawnState 0x40000,
      after (exec (.ttst ⟨gd0, .a 4, .a 1⟩) spawnState) fun t => t.me.stores.map (·.data.length) == [8] && t.me.ar.pc == 8,
      (match recordScratch (.ttst ⟨gd0, .a 4, .a 1⟩) 0x8000000000000040 spawnState with
        | .ok (some (.scratch 0 2 64)) _ => true | _ => false)] = true := by decide +kernel

/-! ## Fetches and walks -/

/-- A slot in code at 0x10100; a core whose instruction cache holds that line, and one with a fill of it on its way. -/
def codeEntry : VaultEntry := { entry with code := 0x10000, bytes := List.replicate 256 0 ++ [7] }
def fetchState : State :=
  let s := chg (fun sl => { sl with ar := { sl.ar with pc := 0x10100 }, xr := { sl.xr with pc := 0x10100 } }) callState
  { s with vaults := [(0, { Vault.reset with entries := [codeEntry, other], serial := 6 })] }
def lineHere : ILine := { asid := 0, vline := 0x202, key := 0x40100, data := 0, used := 0 }
def cachedState : State := fetchState.modCore 0 fun c => { c with icache := [lineHere] }
/-- The same line, where the code ends before it. -/
def pastState : State := { cachedState with vaults := [(0, { Vault.reset with entries := [{ codeEntry with codelen := 0x100 }] })] }
def fillState : State := fetchState.modCore 0 fun c => { c with ifills := [{ vf := 0, asid := 0, vline := 0x202, key := 0x40000, demand := true }] }
/-- The walker of core 0 has a message, and tables that map 0x10000, and mark 0x30000 as migrating. -/
def walkState (m : Option (Word × Word)) (va : Word) : State :=
  let s := memState.modCore 0 fun c => { c with
    mailbox := m.toList, wmb0 := if m.isNone then some va else none, wmb1 := if m.isNone then some 0x000A00050000 else none }
  { s with
    mem := [(0x400000, 0x500001), (0x500000, 0x510001), (0x510000, 0x520001), (0x520008, 0x4261F), (0x520018, 0x4361F)].foldl
      (fun m t => Memory.setWord m t.1 t.2) [], pkg := { s.pkg with astbase := 0x400001 } }
/-- The walker of core 0 waits for a word: 0x40008 is empty, 0x40000 is full. -/
def waitState (key : Nat) : State :=
  (walkState none 0x10000).modSlot 15 fun sl => { sl with awai := .fullEmpty key true }
/-- A slice that waits for a walk of 0x10000, and the record of one that has ended. -/
def missHere : Miss := {
  slice := 5, va := 0x10000, asid := 0, kind := 0, need := 1, conf := false, user := true, tag := 10, core := 0, posted := true, stale := false,
  waiters := [.slot 0] }
def installState (w0 w2 : Word) : State :=
  memState.modDie 0 fun d => { d with tlb := [], misses := [missHere], installs := [(5, w0, 0x8000, w2)] }

/-- The hypotheses of `fetchAndWalkSteps`. -/
theorem witness_fetchAndWalkSteps :
    allOf [
      fetchState.me.bound, fetchState.me.awai == .none, !fetchState.me.ar.bad, (findI cachedState 0 0 0x202).isSome,
      after (exec (.demandFetch 0 .access) cachedState) fun t => (findI t 0 0 0x202).any (·.data == 0) && t.slots == cachedState.slots,
      (codeAt cachedState 0 0x10100).isSome, (codeAt pastState 0 0x10100).isNone, (codeHolder pastState 0x10100).isNone,
      mayTrap { pastState with cur := ⟨0, .access⟩ }, (findI pastState 0 0 0x202).isSome,
      after (exec (.demandFetch 0 .access) pastState) fun t => (t.slot 0).trap.tcause == 0x30001 && (t.slot 0).trap.tpc == 0x10100,
      (findI fetchState 0 0 0x202).isNone,
      (match lookupT 0 0x10100 0 Access.fetch true { fetchState with cur := ⟨0, .access⟩ } with
        | .ok l u => l.key == 0x40100 && (codeAt u 0 0x10100).isSome | _ => false),
      after (exec (.demandFetch 0 .access) fetchState) fun t => (t.core 0).ifills.map (fun f => (f.vline, f.key)) == [(0x202, 0x40100)],
      after (exec (.instructionLineFill 0 0) fillState) fun t =>
        (t.core 0).ifills.isEmpty && (t.core 0).icache.map (fun l => l.data.extractLsb' 0 64) == [7],
      after (exec (.wmb0Read 0) (walkState (some (1, 2)) 0)) fun t => (t.core 0).wmb0 == some 1 && (t.core 0).mailbox.length == 1,
      after (exec (.wmb1Read 0) (walkState (some (1, 2)) 0)) fun t => (t.core 0).wmb1 == some 2 && (t.core 0).mailbox.isEmpty,
      after (exec (.wmb0Read 0) memState) fun t => (t.slot 15).awai == .mailbox,
      after (exec (.win2Write 0) (waitState 0x40008)) fun t => (t.slot 15).awai == .fullEmpty 0x40008 true && (t.die 0).installs.isEmpty,
      after (exec (.win2Write 0) (waitState 0x40000)) fun t => (t.die 0).installs.length == 1,
      (walk (walkState none 0) (.walker 0) 0x10000 0).1 == .leaf 0x4261F 0x520008 3, (walk (walkState none 0) (.walker 0) 0x20000 0).1 == .fault 1 3,
      (match (walk (walkState none 0) (.walker 0) 0x30000 0).1 with | .wait _ => true | _ => false),
      after (exec (.win2Write 0) (walkState none 0x10000)) fun t =>
        (t.die 0).installs.map (fun r => (r.1, r.2.1, r.2.2.2)) == [(5, 0x4261F, 0x0030000A00050000)],
      after (exec (.win2Write 0) (walkState none 0x20000)) fun t => (t.die 0).installs.map (fun r => r.2.2.2.extractLsb' 48 4) == [1],
      after (exec (.win2Write 0) (walkState none 0x30000)) fun t => (match (t.slot 15).awai with | .fullEmpty _ true => true | _ => false),
      after (exec (.installRecordReceive 0 5) (installState 0 0x0031000A00050000)) fun t =>
        (t.die 0).misses.isEmpty && (t.die 0).reports.map (fun r => (r.code, r.level)) == [(1, 3)],
      physBad (leafKey 0x4261F false 0x10000) true == none, !scopeBad 0x4261F (leafKey 0x4261F false 0x10000) 0,
      !permBad 0x4261F missHere.access true,
      after (exec (.installRecordReceive 0 5) (installState 0x4261F 0x0030000A00050000)) fun t =>
        (t.die 0).misses.isEmpty && (t.die 0).tlb.map (fun e => (e.vpage, e.ea)) == [(1, 0x8000)]] = true := by decide +kernel

/-! ## Accesses and events -/

/-- A load and a store of slot 0 in SCRATCH, words on their way, a half that waits. -/
def accState : State :=
  let s := chg (fun sl => { sl with
    loads := [{ pos := 4, dest := .a 5, tgt := .scratch 0 2 16, size := .b, sx := true, acq := false, tsr := 0, binds := [], insn := 0x77 }],
    xwai := .branchEmpty, awai := .lqRoom 8, lq := List.replicate 25 ⟨0, none⟩ }) memState
  let s := s.modTile 0 fun t => { t with scratch := [(16400, 0x80)], lkwFly := [⟨1, 0, false⟩, ⟨2, 0, false⟩] }
  { s with flights := [{ sender := 700, port := 1, vf := 0, dest := 0, dport := 3, word := ⟨5, 6, false⟩ }] }
def stState (op : StoreOp) (tgt : Target) (size : Size) : State :=
  chg (fun sl => { sl with stores := [stHere op tgt size [0x11223344]] }) memState
/-- A slot's load, its data, and what is there when tile 0 is fenced. -/
def loadState (tgt : Target) : State := chg (fun sl => { sl with
  loads := [{ pos := 0, dest := .a 5, tgt := tgt, size := .d, sx := false, acq := false, tsr := 0, binds := [], insn := 0x77 }] }) memState
def mayReturn (s : State) (v : Nat) : Bool := match (s.slot 0).loads.head? with
  | some x => loadReady s 0 x && match loadData 0 x s with | some (y, _) => y.toNat % 2 ^ 64 == v | none => false
  | none => false
def mayStore (s : State) : Bool := (nextStore 0 s).1 == (s.slot 0).stores.head? && (nextStore 0 s).1.any (!·.body)
/-- A slot that waits for the reply to its fault entry in the word 0x40100. -/
def replyState : State := chg (fun sl => { sl with awai := .faultWord 0x40100 false, xwai := .faultWord 0x40100 false, finsn := 0x77 }) trapState

/-- A load whose tile has been fenced since it issued. -/
def fencedLoad : State :=
  (loadState (.scratch 0 2 16)).modDie 0 fun d => { d with ctrects := d.ctrects.set! 0 { CtRect.reset with valid := true, fenced := true } }
/-- The hypotheses of `accessSteps`, for every kind of target. -/
theorem witness_accessSteps :
    allOf [
      mayReturn accState 0x80,
      after (exec (.loadDataReturn 0 0) accState) fun t => (t.slot 0).readA 5 == 0xFFFFFFFFFFFFFF80 && (t.slot 0).loads.isEmpty,
      mayReturn (loadState (.phys 0x40000)) 0xF1, mayReturn (loadState (.mem (physLoc 0x40000))) 0xF1,
      mayReturn (loadState (.reg 0xFF8050000000 0)) 0x01000000, tileFenced fencedLoad 0, (fencedLoad.slot 0).canBack 0,
      after (exec (.loadDataReturn 0 0) fencedLoad) fun t => (t.slot 0).trap.tcause == 0x5000F && (t.slot 0).trap.tinsn == 0x77,
      ([(.st, .phys 0x40100, .w), (.stf, .mem (physLoc 0x40100), .d), (.bcPost, .mem (physLoc 0x40100), .d),
        (.atom .add, .mem (physLoc 0x40000), .d), (.st, .reg 0xFF8050000000 0, .d), (.st, .fifo 0 3 0x2000, .d),
        (.st, .scratch 0 2 8, .w)] : List (StoreOp × Target × Size)).all fun p => mayStore (stState p.1 p.2.1 p.2.2),
      memoriesOk (stState .st (.phys 0x40100) .w), ((stState .st (.phys 0x40100) .w).taskOf 0).any (·.twin.isNone),
      !homePoison memState (physLoc 0x40000) 8, !linkCut memState 0 0x40000, (bcPost 0 (physLoc 0x40100) 0x11223344 [] memState).1 == 0,
      pushReady (stState .st (.fifo 0 3 0x2000) .d) 0 (stHere .st (.fifo 0 3 0x2000) .d [0x11223344]),
      after (exec (.storePerformed 0) (stState .st (.fifo 0 3 0x2000) .d)) fun t =>
        ((t.tile 0).fifos.get 3 []).map (·.word) == [5, 6, 0x11223344],
      after (exec (.storePerformed 0) (stState (.atom .add) (.mem (physLoc 0x40000)) .d)) fun t => memWord t 0x40000 == 0x11223435,
      after (exec (.storePerformed 0) (stState .st (.phys 0x40100) .w)) fun t =>
        t.mem.readNat 0x40100 4 == 0x11223344 && (t.slot 0).stores.isEmpty,
      after (exec (.storePerformed 0) (stState .st (.scratch 0 2 8) .w)) fun t => (t.tile 0).scratch.readNat 16392 4 == 0x11223344,
      (accState.flights.filter fun g => g.dest == 0 && g.dport == 3).length == 1, (accState.slot 0).bound, accState.vfOf 0 == 0,
      !tileFenced accState 0, !tileCut accState 0 0,
      after (exec (.portWordArrival 0 3) accState) fun t => ((t.slot 0).portOf 3).map (·.word) == [5] && t.flights.isEmpty,
      after (exec (.portWordArrival 1 3) { accState with flights := accState.flights.map fun f => { f with dest := 1 } }) fun t =>
        ((t.slot 700).sys.mpdst.toArray.getD 1 0).getLsbD 62 && t.flights.isEmpty,
      after (exec (.linkWordArrival 0 true) accState) fun t => (t.tile 0).lkw.map (·.word) == [1] && (t.tile 0).lkwFly.length == 1,
      after (exec (.linkWordArrival 0 false) accState) fun t => (t.tile 0).lke.isEmpty,
      after (exec (.slotUnpark 0 .execute) accState) fun t => (t.slot 0).xwai == .branchEmpty,
      after (exec (.slotUnpark 0 .execute) (chg (fun sl => { sl with bqa := [⟨0, .outcome, true, 0⟩] }) accState)) fun t => (t.slot 0).xwai == .none,
      after (exec (.slotUnpark 0 .access) accState) fun t => (t.slot 0).awai == .lqRoom 8,
      after (exec (.slotUnpark 0 .access) (chg (fun sl => { sl with awai := .sqRoom 16 }) accState)) fun t => (t.slot 0).awai == .none,
      after (exec (.slotUnpark 0 .access) (chg (fun sl => { sl with awai := .portEmpty 3 }) accState)) fun t => (t.slot 0).awai == .portEmpty 3,
      waitsOn (replyState.slot 1) 0x40100 == none, replyState.dies.all (fun d => d.2.holds.isEmpty), replyState.mem.wf,
      after (exec (.faultEntryReply 0x40100 0) replyState) fun t => (t.slot 0).awai == .none && feFull t 0x40100 && !(t.slot 0).super,
      after (exec (.faultEntryReply 0x40100 1) replyState) fun t =>
        (t.slot 0).super && (t.slot 0).ar.pc == 0x4000 && (t.slot 0).trap.tinsn == 0x77] = true := by decide +kernel

/-- A slot at its boundary with events: a completion of channel 3, a byte-count trap, a semaphore overflow, a pre-emption. -/
def evState (d : List Completion) (b : List (Word × BitVec 32)) (k : Option (BitVec 5)) : State :=
  chg (fun sl => { sl with done := d, bcDue := b, semDue := k, sys := { sl.sys with uivec := 0x6000 } }) trapState
def preState (c : Bool) : State :=
  { trapState with tasks := [(1, { task 0 with committed := c })] }.modCore 0 fun c => { c with preq := 1 }
/-- The hypotheses of `eventSteps`. -/
theorem witness_eventSteps :
    allOf [
      atBoundary (evState [⟨3, 9, 8, 7⟩] [] none) 0, !preDue (evState [] [] none) 0,
      after (exec (.completionInterrupt 0) (evState [⟨3, 9, 8, 7⟩] [] none)) fun t =>
        (t.slot 0).inUi && (t.slot 0).ar.pc == 0x6000 && [8, 9, 10, 11].map (t.slot 0).readA == [9, 3, 8, 7] && (t.slot 0).done.isEmpty,
      after (exec (.byteCountTrapDelivery 0) (evState [] [(0x10000, 3)] none)) fun t => trapped 14 3 0 t && (t.slot 0).trap.tva == 0x10000,
      after (exec (.semaphoreOverflowDelivery 0) (evState [] [] (some 31))) fun t => trapped 21 31 0 t && (t.slot 0).semDue == none,
      atBoundary (preState true) 0, preDue (preState true) 0, after (exec (.preemptionTrap 0) (preState true)) (trapped 26 0 0),
      ((preState false).taskOf 0).all fun x => !unitBusy (preState false) x,
      after (exec (.preemptionTrap 0) (preState false)) fun t => (t.task? 1).isNone && !preDue t 0,
      after (exec (.preqWrite 0 0x18001) trapState) fun t => (t.core 0).preq == 1] = true := by decide +kernel

/-! ## Placement, partitions and code -/

/-- A launch record of a core task of queue 0, with time 5 and a limit of 1,000 cycles. -/
def record : List Word := [0, 5, 1000] ++ List.replicate 29 0
def placeState : State := { spawnState with
  tasks := [], slots := [], queues := [(0, { PQueue.reset with en := true, weight := 1, recs := [⟨record, [0], [], none, 0⟩] })] }
/-- The hypothesis of `tasksPlaced` on held updates and posts: nothing is held, so nothing changes. -/
theorem witness_nothingHeld : bindPending 0 (retryDone 0 (replyHolds 0 (retryPosts 0 (cleanDomains placeState)))) = placeState := by
  decide +kernel
/-- A bank that is to be in SCRATCH mode, redundant copies that differ, a task at its limit, a partition that drains. -/
def modeState : State := memState.modTile 0 fun t => { t with toMode := [(3, 1)], scratch := [(24580, 7), (16400, 8)] }
def twinState : State := { spawnState with tasks := [(1, { task 0 with twin := some 2, out := [(0, ⟨0, 5, [some 1]⟩)] }), (2, { task 1 with twin := some 1 })] }
def drainState : State := { spawnState with tasks := [], parts := [(0, { Part.reset with en := true, active := true })] }
def clearState : State := { spawnState with
  tasks := [(1, { task 0 with committed := false, clearing := true, words := record })] }
/-- The other hypotheses of `tasksPlaced`. -/
theorem witness_tasksPlaced :
    allOf [
      spawnState.pkg.admbase.getLsbD 0, admitFault spawnState 0 record none == none,
      after (exec (.launchRecordArrival false (0 :: record)) spawnState) fun t => (t.queue 0).recs.length == 1 && t.seq == 42,
      after (exec (.launchFlitSequence 3 (record ++ [0])) ({ spawnState with ports := [(3, { AqPort.reset with state := 2 })] })) fun t =>
        (t.queue 0).recs.length == 1,
      wordsOfBytes 32 (bytesOfWords record) == record,
      after (exec (.launchSend 6 record) ({ spawnState with qpairs := [(6, { QPair.reset with launch := true })] })) fun t =>
        (t.queue 0).recs.length == 1,
      (placeState.part 0).en, placeState.dies.all (fun d => d.2.gangs.isEmpty), headSpots placeState 0 0 ⟨record, [0], [], none, 0⟩ == some [(0, [0])],
      after (exec (.dispatcherPlace 0) placeState) fun t => (t.task? 2).any fun x => x.slots == [0] && !x.committed && x.words == record,
      clearedToCommit clearState 1, after (exec (.clearingQueueRelease 0) clearState) fun t => (t.task? 1).any (·.committed),
      bankMode (modeState.tile 0) 3 != 0, !bankInUse modeState 0 3,
      after (exec (.bankModeChange 0 3) modeState) fun t => bankMode (t.tile 0) 3 == 1 && (t.tile 0).scratch == [(16400, 8)],
      (twinState.task? 1).any (copiesApart twinState), after (exec (.redundantMismatch 1) twinState) fun t => (t.task? 1).isNone,
      (spawnState.task? 1).any (fun x => x.committed && taskPart spawnState x == 0),
      after (exec (.watchdogExpiry 1) spawnState) fun t => !(t.part 0).en && (t.part 0).active && (t.part 0).expiries == 1,
      partTiles drainState 0 0 == [0], after (exec (.partitionDrainComplete 0) drainState) fun t => (t.part 0).done && !(t.part 0).active,
      after (exec (.partitionResize 2 0x1B312) spawnState) fun t => (t.prect 2) == PRect.of 0x1B312,
      after (exec (.partitionResize 2 0xC000) spawnState) fun t => (t.part 0).err && (t.prect 2).x1 == 0] = true := by decide +kernel

/-- A translation in the heap of die 0: after its signature block a header of frame 8, one return point and 64 bytes. -/
def heapObj : CodeObj := {
  place := .heap 0, kind := .translation, digest := [1, 2, 3, 4, 5, 6], key := 0x600000, va := 0x90000, len := 384, bytes := [], meas := 0 }
def fetchOf (dig : List Word) (minting : Bool) (w : List FetchWaiter) : Fetch := {
  id := 9, vf := 0, asid := 0, digest := dig, addr := none, die := 0, waiters := w, minting := minting }
/-- A Selser image that holds a native translation for this chip (R293). -/
def nativeImage : List Byte :=
  bytesOfWords [0x1534C4553, 2, 72, 0x4000000000000120, 0x58410701, 0x11, 8, 0, 0, 0, 0, 0, 0, 0]
def imageDigest : List Word := digestWords (sha384 nativeImage)
def codeState (f : Fetch) : State :=
  { callState with
    mem := Memory.setWord (Memory.setWord callState.mem 0x600100 0x11) 0x600108 64,
    objects := [heapObj, { heapObj with place := .storage, kind := .selser, digest := imageDigest, bytes := nativeImage, len := 112 }],
    vaults := [(0, { Vault.reset with serial := 6, fetches := [f] })] }
/-- The hypotheses of `codeSteps`. -/
theorem witness_codeSteps :
    allOf [
      (offered (codeState (fetchOf [1, 2, 3, 4, 5, 6] false [])) 0 [1, 2, 3, 4, 5, 6] nativeKind).any (·.kind == .translation),
      (parseHeader fun j => heapObj.wordAt (codeState (fetchOf [] false [])) (256 + j)).any (fun h => h.codelen == 64 && h.rpmap.length == 1),
      after (exec (.codeFetchInstall 0 9) (codeState (fetchOf [1, 2, 3, 4, 5, 6] false []))) fun t =>
        (t.vault 0).entries.map (fun e => (e.slot, e.serial, e.code, e.frame)) == [(0, 6, 0x90140, 1)] && (t.vault 0).fetches.isEmpty,
      (mintFor (codeState (fetchOf [7] true [])) 0 [7]).isNone,
      after (exec (.codeFetchFailure 0 9) (codeState (fetchOf [7] true [⟨0, .call, 0x10000⟩]))) fun t =>
        (t.vault 0).fetches.isEmpty && (match (t.slot 0).awai with | .faultPost => true | .faultWord _ true => true | _ => false),
      after (exec (.vlimWrite 0 64) memState) fun t => (t.vault 0).vlim == 64,
      after (exec (.vlimWrite 0 65) memState) fun t => (t.vault 0).vlim == 64] = true := by decide +kernel
theorem witness_mint :
    allOf [
      (findFetch (codeState (fetchOf imageDigest true [])) 9).any (fun x => x.1 == 0 && x.2.minting),
      (mintFor (codeState (fetchOf imageDigest true [])) 0 imageDigest).any (fun x => x.1.length == 72 && x.2 == 0)] = true := by decide +kernel

/-! ## Registers, links and the package -/

/-- Published values of the standard functions: SHA-384 of "abc", CRC-32C of "123456789". -/
theorem test_standard_functions :
    allOf [
      (sha384 [0x61, 0x62, 0x63]).take 8 == [0xCB, 0x00, 0x75, 0x3F, 0x45, 0xA3, 0x5E, 0x8B],
      crc32c [0x31, 0x32, 0x33, 0x34, 0x35, 0x36, 0x37, 0x38, 0x39] == 0xE3069283] = true := by decide +kernel

def cmdState (v : Word) : State := { memState with pkg := { memState.pkg with txcmd := v, txasid := 0, txva := 0x10000 } }
def l1State (v : Word) : State := lineState.modTile 0 fun t => { t with l1ctl := v }
def srpState (r : Repair) : State := memState.modDie 0 fun d => { d with repair := [(5, r)] }
/-- The hypotheses of `commandSteps`. -/
theorem witness_commandSteps :
    allOf [
      after (exec (.txcmdInvalidatePage 8) (cmdState 9)) fun t => t.pkg.txcmd == 9,
      after (exec (.txcmdInvalidatePage 8) (cmdState 0)) fun t => t.pkg.txcmd == 8,
      after (exec (.txcmdInvalidateAll 11) (cmdState 0)) fun t => t.pkg.txcmd == 0x13,
      !txInFlight (cmdState 8), (memState.die 0).tlb.any (txEntry (cmdState 8).pkg),
      after (exec .invalidationComplete (cmdState 8)) fun t => !t.pkg.txcmd.getLsbD 3 && (t.die 0).tlb.isEmpty,
      after (exec (.l1ctlFlushAsid 0 4) (l1State 4)) fun t => (t.tile 0).l1ctl == 4,
      after (exec (.l1ctlFlushAsid 0 4) (l1State 0)) fun t => (t.tile 0).l1ctl == 4 && (t.tile 0).l1.length == 1,
      after (exec (.l1ctlFlushTile 0 6) (l1State 0)) fun t => (t.tile 0).l1ctl == 0xA,
      after (exec (.l1FlushComplete 0) (l1State 4)) fun t => !(t.tile 0).l1ctl.getLsbD 2 && (t.tile 0).l1.isEmpty,
      after (exec (.srpaddPin 0 5 0x8000000000000040) (srpState { Repair.reset with en := true })) fun t =>
        (repairOf t 0 5).go && (repairOf t 0 5).pins == [2],
      after (exec (.sectorPinComplete 0 5) (srpState { Repair.reset with en := true, go := true, pins := [2] })) fun t => !(repairOf t 0 5).go] = true := by decide +kernel

/-- The hypotheses of `registerSteps`. -/
theorem witness_registerSteps :
    allOf [
      after (exec (.registerWrite 0xFF8000000018 (-1)) memState) fun t => t.pkg.txva == 0x7FFFFFFFFF0000,
      after (exec (.registerWrite 0xFF8040000008 (-1)) memState) fun t => t.pkg.bbidx == 0xFFF,
      after (exec (.rslowWrite 0 1) memState) fun t => (t.slot 0).sys.rslow == 0,
      after (exec (.rslowWrite 0 1) (chg (fun sl => { sl with sys := { sl.sys with wbase := 97 } }) memState)) fun t => (t.slot 0).sys.rslow == 1,
      after (exec (.srgenWrite 0 0) memState) fun t => (t.slot 0).xr.srgen == 0x9E3779B9,
      after (exec (.mpdstWrite 0 3 0x800000000000BF2E) memState) fun t => (t.slot 0).sys.mpdst.toList.getD 3 0 == 0x800000000000BF2E,
      after (exec (.mpdstWrite 0 3 0x800000000000C02E) memState) fun t => !((t.slot 0).sys.mpdst.toList.getD 3 0).getLsbD 63,
      !otherBound memState 0, after (exec (.nanmodeWrite 0 3) memState) fun t => (t.core 0).nanmode,
      otherBound (memState.modSlot 1 fun sl => { sl with bound := true }) 0,
      memState.slots.all (fun x => x.2.post.isNone), memState.dies.all (fun x => x.2.posts.isEmpty),
      memState.tiles.all (fun x => x.2.chans.toList.all fun c => c.heldPost.isEmpty),
      after (exec (.pfqbaseWrite 0x12345678) memState) fun t => t.pkg.pfqbase == 0x12345640] = true := by decide +kernel

/-- Module 0 between dies 0 and 1. -/
def lnState (f : LinkEnd → LinkEnd) : State := modEnds 0 f memState
/-- The hypotheses of `linkSteps`, at both limits of RATE and of the CRC count. -/
theorem witness_linkSteps :
    allOf [
      moduleEnds 0 == (0, 1),
      after (exec (.lmctlRetrain 0 10) (lnState id)) fun t => (linkEnd t 0 0).retrain && (linkEnd t 1 0).state == 1,
      after (exec (.lmctlRetrain 0 11) (lnState id)) fun t => !(linkEnd t 0 0).retrain && (linkEnd t 0 0).err,
      after (exec (.lmctlRetrain 0 8) (lnState fun e => { e with retrain := true })) fun t => (linkEnd t 0 0).state == 0,
      after (exec (.lmctlCounterClear 0 16) (lnState fun e => { e with crc := 5 })) fun t => (linkEnd t 0 0).crc == 0,
      after (exec (.linkTrainingComplete 0) (lnState fun e => { e with state := 1, target := 2 })) fun t =>
        (linkEnd t 1 0).rate == 2 && (linkEnd t 1 0).state == 2,
      after (exec (.linkTrainingComplete 0) (lnState fun e => { e with state := 1, half := true, retired := [0, 1, 34, 35, 2, 36] })) fun t =>
        (linkEnd t 1 0).state != 1,
      after (exec (.crcWindowEnd 0) (lnState fun e => { e with win := 7 })) fun t => (linkEnd t 0 0).win == 0] = true := by decide +kernel

/-- A packet of queue pair 6: header, tag and ICRC. It is authentic or not, and `fabricSteps` has a clause for each. -/
def packet (tag : List Byte) : List Byte := [4, 0, 0, 0, 0, 0, 0, 6, 0, 0, 0, 0] ++ tag ++ [0, 0, 0, 0]
def aqState (f : AqPort → AqPort) : State := modPort 2 f memState
def qpState (x : QPair) : State := { memState with qpairs := [(6, x)] }
/-- The hypotheses of `fabricSteps`. -/
theorem witness_fabricSteps :
    allOf [
      flitGood (makeFlit 3 3 9 0 false [1, 0, 0, 0, 0, 0, 0]), flitType (makeFlit 3 3 9 0 false [1]) == 3,
      flitSeq (makeFlit 3 3 9 0 false [1, 0, 0, 0, 0, 0, 0]) == 9, !flitGood (List.replicate 8 1),
      after (exec (.aqgalFlitReceive 2 (List.replicate 8 1)) (aqState fun p => { p with state := 2 })) fun t =>
        (aqPort t 2).crc == 1 && (aqPort t 2).nak && (aqPort t 2).rxSeq == 0,
      after (exec (.aqgalFlitReceive 2 (makeFlit 0 0 9 0 false [0, 0, 0, 0, 0, 0, 0])) (aqState fun p => { p with state := 2, rxSeq := 8 })) fun t =>
        (aqPort t 2).nak && (aqPort t 2).rxSeq == 8,
      memState.mem.wf, (({ memState with
          remotes := [{ tag := 4, req := .slot 0, va := 0x10000, key := 0, port := 0, flit := [], answered := false }] } : State).remotes.find?
        fun r => r.tag == 4 && !r.answered).isSome,
      after (exec (.aqgalPortSetChange 2 false) (aqState fun p => { p with state := 2, unacked := [[1]] })) fun t =>
        (aqPort t 2).state == 3 && (aqPort t 2).unacked == [[1]],
      after (exec (.aqgalPortSetChange 2 false) (modPort 3 (fun p => { p with state := 2 }) (aqState fun p => { p with state := 2, unacked := [[1]] }))) fun t =>
        (aqPort t 2).unacked.isEmpty && (aqPort t 3).unacked.length == 1,
      after (exec (.aqgalPortSetChange 2 true) (aqState fun p => { p with en := true })) fun t => (aqPort t 2).state == 2,
      (packet (List.replicate 16 0)).length == 32, natBE (((packet []).drop 5).take 3) == 6,
      after (exec (.creditProbe 6) (qpState QPair.reset)) fun t =>
        (t.qpairs.get? 6).any (fun x => x.probes == 1 && x.txCount == 1) && t.pkg.etstall.toList == [64, 0],
      after (exec (.ptpMessage 5) memState) fun t => t.pkg.dtsrc == 0] = true := by decide +kernel

/-- Containment rectangle 3 of die 0, from (0, 0) to (0, 0). -/
def ctState (f r : Bool) : State := memState.modDie 0 fun d => { d with
  ctrects := d.ctrects.set! 3 { CtRect.reset with valid := true, fenced := f, resetDone := r } }
def voltState (v : Volt) : State := { memState with volts := [(7, v)] }
def startState (k : Nat) : State := { State.reset with stage := k }
/-- The slice that serves 0x40000 has pinned its sector. -/
def pinState : State := memState.modDie (homeDie 0x40000) fun d => { d with
  repair := [(repairSlice 0x40000, { Repair.reset with en := true, pins := [0x2000] })] }
/-- The hypotheses of `reliabilitySteps`. -/
theorem witness_reliabilitySteps :
    allOf [
      (ctRect (ctState false false) 3).covers 0, dieOfTile 0 == 0,
      after (exec (.containmentFence 3) (ctState false false)) fun t => (ctRect t 3).fenced && (t.task? 1).isNone,
      after (exec (.containmentReset 3) (ctState true false)) fun t => (ctRect t 3).resetDone && !(t.slot 0).bound,
      (List.range 16).all (fun j => j == 3 || !(ctRect (ctState true true) 3).meets (ctRect (ctState true true) j)),
      after (exec (.ctrectRejoin 3 0x50000) (ctState true true)) fun t => !(ctRect t 3).fenced,
      after (exec (.routerLinkFailure 0) (ctState false false)) fun t => (t.tile 0).dead && tileFenced t 0,
      memState.latent.isEmpty, !pinnedSector memState 0x40000, pinnedSector pinState 0x40000, isDram 0x40000,
      after (exec (.scrubbing true 0x40000) pinState) fun t => t.poison.isEmpty,
      after (exec (.scrubbing true 0x40000) memState) fun t => t.poison == [0x2000],
      after (exec (.scrubbing false 0x40000) memState) fun t => t.poison.isEmpty && (t.errs.get 1024 ErrCnt.reset).corr == 1,
      (Volt.reset : Volt).pft < 1, ((voltState { Volt.reset with below := true }).volts.get 7 Volt.reset).below,
      after (exec (.snapctlGo 1) memState) fun t => t.pkg.snapDone,
      after (exec .powerGood (startState 0)) fun t => t.stage == 1,
      after (exec .startStageComplete (startState 6)) fun t => t.stage == 7,
      after (exec .startStageComplete (startState 4)) fun t => (linkEnd t 0 0).state == 2,
      after (exec (.startStageFailure 0) (startState 1)) fun t => t.halted && t.stage == 1,
      after (exec (.thermalTrip 0) memState) fun t => t.blackbox.length == 1,
      after (exec .powerLoss memState) fun t => !t.power && t.slots.isEmpty] = true := by decide +kernel

/-! ## Steps -/

/-- A word (R40) where the step after reset fetches it: MOVI w7, 5, whose opcode is 0x28, D 7 and immediate 5. -/
def stepOf (w : Nat) : State := State.reset.withFetchWord 64 w
def moviWord : Nat := 0x000000050001C0A0
/-- The hypotheses of `stepRunsInstruction`, and what such a step does. -/
theorem witness_stepRunsInstruction :
    allOf [
      (stepOf moviWord).power, (stepOf moviWord).turns == [.issue 32 .execute], (stepOf moviWord).stage == 7,
      ((stepOf moviWord).slot 32).bound, ((stepOf moviWord).slot 32).xwai == .none, ((stepOf moviWord).slot 32).held.isNone,
      (dueFirst (stepOf moviWord) 32).isNone, !((stepOf moviWord).slot 32).xr.bad,
      (findI (stepOf moviWord) (coreOfSlot 32) 0 0).any (fun l => (wordsAt l.data 0).1 == 0x000000050001C0A0),
      (match decode 0 0x000000050001C0A0 (wordsAt (BitVec.ofNat 1024 moviWord) 0).2 with
        | .ok i => i == .movi ⟨gd0, .l64, .w 7, 5⟩ | .error _ => false),
      after (step (stepOf moviWord)) fun t => readW t (.w 7) == 5 && t.me.xr.pc == 8 && t.cur == ⟨32, .execute⟩,
      (codeAt (stepOf moviWord) 32 0).isSome, issued 32 .execute (stepOf moviWord) (stepOf moviWord) == false,
      after (exec (.movi ⟨gd0, .l64, .w 7, 5⟩) { stepOf moviWord with cur := ⟨32, .execute⟩ }) fun u =>
        issued 32 .execute (stepOf moviWord) u && !((stepOf moviWord).slot 32).tookOf .execute,
      after (step (stepOf moviWord)) fun t => (t.core 2).rotX == 1 && (t.core 2).rotA == 0,
      after (step { State.reset with turns := [.write 0xFF8050000000 5] }) fun t => t.pkg.aqtmo == 5,
      after (step { State.reset with turns := [.event .powerGood] }) fun t => t.stage == 1] = true := by decide +kernel

/-- The hypotheses of `decodingTraps`: length code 3, a NOP with bit 32 set, ADD of an a and a w register. -/
theorem witness_decodingTraps :
    allOf [
      (stepOf 3).turns == [.issue 32 .access], (codeAt (stepOf 3) 32 0).isSome, (dueFirst (stepOf 3) 32).isNone, mayTrap { stepOf 3 with cur := ⟨32, .access⟩ },
      decode 0 3 0 matches .error (.illegal 1), decode 0 0x100000000 0 matches .error (.reserved 32),
      decode 0 0x02900040 0 matches .error (.opclass _),
      after (step (stepOf 3)) fun t => t.me.trap.tcause == 0x10001 && t.me.trap.tinsn == 3 && t.me.super,
      after (step (stepOf 0x100000000)) fun t => t.me.trap.tcause == 0x200002 && t.me.super,
      after (step (stepOf 0x02900040)) fun t => t.me.trap.tcause.extractLsb' 0 16 == 3 && t.me.super] = true := by decide +kernel

/-- The hypotheses of `decodeEncode` and `encodeDecode`, of each length; the zero word is NOP. -/
theorem witness_encoding :
    allOf [
      ([Instr.nop ⟨gd0, .l64⟩, .addi ⟨⟨5, true⟩, .l128, .w 3, .w 4, 0x8000000000000001⟩, .br ⟨gd0, .l96, -2147483648⟩,
        .mma ⟨gd0, 7, some 31, .w 2, .w 3⟩, .calld ⟨gd0, 4095, .const 7 0⟩] : List Instr).all fun i =>
        i.wf && decide (i.bytes ≤ 16) && (match decode 0 (encode i).word (encode i).ext with | .ok j => i == j | .error _ => false),
      (match decodeAny (Raw.ofBits 0x000000050001C0A0 0) with
        | .ok i => i.wf && encode i == Raw.ofBits 0x000000050001C0A0 0 | .error _ => false),
      step { State.reset with power := false } matches .fault .noPower] = true := by decide +kernel

/-! ## Loads, bodies and lone tiles -/

/-- A load of byte 2 of the page, whose first-level line holds 0x22 in byte 1 and 0 in byte 2; one behind a store to it. -/
def lineLoad (acq : Bool) (s : State) : State := s.modSlot 0 fun sl => { sl with
  loads := [{ pos := 4, dest := .a 5, tgt := .mem pageLoc, size := .b, sx := false, acq := acq, tsr := 0, binds := [], insn := 0x77 }] }
def behindStore : State := (lineLoad false lineState).modSlot 0 fun sl => { sl with stores := [stHere .st (.mem pageLoc) .b [0x99]] }
/-- The tile has no CACHE bank, so that its lines are those of the slice. -/
def bare (s : State) : State := s.modTile 0 fun t => { t with modes := Vector.replicate 40 1 }
/-- What `accessSteps` asks of a load from memory. -/
def ofMemory (s : State) (v : Nat) : Bool := mayReturn s v && s.latent.isEmpty && !bypasses s 0 && (escrowOver s 0 pageLoc 1).isEmpty
/-- A body with a store to the page in its slot, and a committed task with one in escrow. -/
def bodyMem (l : List PStore) : State :=
  { ((memState.modSlot 0 fun sl => { sl with stores := l }).modTile 0 fun t => { t with
      modes := t.modes.set! 4 3, grants := t.grants.set! 0 { valid := true, vf := 0, group := 0, mask := 0x1C } }) with tasks := [(1, { task 0 with committed := false, words := [0, 0, 1000] })] }
def bodyStore : PStore := { stHere .st (.mem (physLoc 0x40100)) .w [0x11223344] with body := true }
def escrowed : EscrowStore := {
  op := .st, loc := physLoc 0x40100, size := .w, data := [.val 0x11223344], rel := false, slot := 0, pos := 0, binds := [], tsr := 0, key := none, gate := false }
def escrowState : State := { memState with tasks := [(1, { task 0 with escrow := [escrowed] })] }
/-- Tile 5 is fenced alone, and has been reset. -/
def loneState (r : Bool) : State := memState.modDie 0 fun d => { d with tileFence := [5], tileReset := if r then [5] else [] }
/-- A partition that has a rectangle which another would meet. -/
def rectState : State := { spawnState with prects := [(8, PRect.of 0x1B312)] }

/-- The hypotheses of `accessSteps`, `storesIssue`, `tasksPlaced` and `reliabilitySteps` on loads from memory, bodies, rectangles
that meet and tiles that are fenced alone. -/
theorem witness_accessesAndFences :
    allOf [
      ofMemory (lineLoad false lineState) 0, ofMemory (bare (lineLoad false sliceState)) 0, ofMemory (bare (lineLoad false memState)) 0,
      ofMemory (lineLoad true memState) 0, ofMemory behindStore 0x99,
      (pendingOver (behindStore.slot 0) 4 (.mem pageLoc) 1).length == 1, (pendingOver ((lineLoad false lineState).slot 0) 4 (.mem pageLoc) 1).isEmpty,
      inBody (bodyMem []), up (.st ⟨gd0, .w, false, .l64, .a 1, 256, .a 3⟩) false false (bodyMem []), ready (bodyMem []) [.a 1, .a 3],
      reachesKey (.st ⟨gd0, .w, false, .l64, .a 1, 256, .a 3⟩) 0x10100 .w Access.store (bodyMem []) 0x40100,
      after (exec (.st ⟨gd0, .w, false, .l64, .a 1, 256, .a 3⟩) (bodyMem [])) fun t => t.me.stores.map (·.body) == [true],
      (nextStore 0 (bodyMem [bodyStore])).1 == some bodyStore,
      after (exec (.storePerformed 0) (bodyMem [bodyStore])) fun t =>
        ((t.task? 1).map (·.escrow.map fun e => (e.loc.key, e.data))) == some [(0x40100, [.val 0x11223344])] && t.mem == memState.mem,
      (nextStore 0 escrowState).1.isNone, noReaders escrowState, memoriesOk escrowState, !reachCut escrowState 0 (physLoc 0x40100),
      after (exec (.storePerformed 0) escrowState) fun t => t.mem.readNat 0x40100 4 == 0x11223344 && (t.task? 1).any (·.escrow.isEmpty),
      (PRect.of 0x1B312).meets (rectState.prect 8),
      after (exec (.partitionResize 12 0x1B312) rectState) fun t => (t.part 3).err && t.prects == rectState.prects,
      after (exec (.containmentFence 69) memState) fun t => tileFenced t 5,
      after (exec (.containmentReset 69) (loneState false)) fun t => (t.die 0).tileReset == [5],
      after (exec (.ctrectRejoin 69 0x40000) (loneState true)) fun t => !tileFenced t 5 && (t.die 0).tileReset.isEmpty,
      escrowHeld modeState 0 == false, (memState.slot 0).tookOf .access == false] = true := by decide +kernel
/-- Escrow has room for any line of a body that has stored nothing. -/
theorem witness_escrowRoom : ∀ l : Loc, escrowRoom (bodyMem []) 0 l = true := by
  intro l
  rfl

end Sys2Proof.Tests
end

/-! # Scope and storage (00_scope.md): memory, register space and the special registers

The laws of memory beyond Sys2Proof/Laws/Memory.lean, the writes of register space and of special registers, what entering the
supervisor handler leaves in the slot, and that a retry of posts does nothing where no post is held. -/

namespace Sys2Proof.Machine.Memory

/-! ## Writes of several bytes -/

/-- A write changes the bytes that it covers and no others. -/
theorem byte_write_of_outside {m : Memory} (h : m.wf = true) (k n v : Nat) {a : Nat} (ha : a < k ∨ k + n ≤ a) :
    (m.write k n v).byte a = m.byte a := by
  induction n generalizing m k v with
  | zero => rfl
  | succ n ih =>
    rw [write, ih (wf_setByte _ _ h) _ _ (by omega), byte_setByte h, if_neg (by omega)]

/-- The first byte of a write is the value's least significant one (R6). -/
theorem byte_write_first {m : Memory} (h : m.wf = true) (k n v : Nat) :
    (m.write k (n + 1) v).byte k = BitVec.ofNat 8 v := by
  rw [write, byte_write_of_outside (wf_setByte _ _ h) _ _ _ (by omega), byte_setByte h, if_pos rfl]

theorem readNat_write {m : Memory} (h : m.wf = true) (k n v : Nat) : (m.write k n v).readNat k n = v % 256 ^ n := by
  induction n generalizing m k v with
  | zero => simp [readNat, Nat.mod_one]
  | succ n ih =>
    have hrest : (m.write k (n + 1) v).readNat (k + 1) n = v / 256 % 256 ^ n := ih (wf_setByte _ _ h) _ _
    have hfirst : (BitVec.ofNat 8 v).toNat = v % 256 := BitVec.toNat_ofNat ..
    rw [readNat, byte_write_first h, hrest, hfirst, Nat.pow_succ', Nat.mod_mul]

end Sys2Proof.Machine.Memory

namespace Sys2Proof.Machine

/-- Settles O24, by induction on the width of the write. -/
theorem memoryLaws : Obligations.memoryLaws := by
  unfold Obligations.memoryLaws
  intro m k n v h
  exact ⟨Memory.wf_write k n v h, Memory.readNat_write h k n v, fun a ha => Memory.byte_write_of_outside h k n v ha⟩

/-! ## Dies, tiles and channels after an update -/

theorem SMap.get_of_forall {α : Type} {p : α → Prop} {m : SMap α} {d : α} (hm : ∀ x ∈ m, p x.2) (hd : p d) (k : Nat) :
    p (SMap.get m k d) := by
  induction m with
  | nil => exact hd
  | cons t m ih =>
    obtain ⟨a, x⟩ := t
    by_cases hk : k = a
    · simpa [SMap.get, SMap.get?, hk] using hm (a, x) (List.mem_cons_self ..)
    · simpa [SMap.get, SMap.get?, hk] using ih fun y hy => hm y (List.mem_cons_of_mem _ hy)

@[simp] theorem State.die_modDie (d : Nat) (f : Die → Die) (s : State) : (s.modDie d f).die d = f (s.die d) := by
  simp [State.modDie, State.die]
theorem State.die_modDie_of_ne {d k : Nat} (h : k ≠ d) (f : Die → Die) (s : State) : (s.modDie d f).die k = s.die k := by
  simp [State.modDie, State.die, SMap.get_set_of_ne _ h]
@[simp] theorem State.tile_modTile (t : Nat) (f : Tile → Tile) (s : State) : (s.modTile t f).tile t = f (s.tile t) := by
  simp [State.modTile, State.tile]
theorem State.tile_modTile_of_ne {t k : Nat} (h : k ≠ t) (f : Tile → Tile) (s : State) : (s.modTile t f).tile k = s.tile k := by
  simp [State.modTile, State.tile, SMap.get_set_of_ne _ h]

theorem chanOf_modChan_self {c : Nat} (hc : c < 8) (t : Nat) (f : Channel → Channel) (s : State) :
    chanOf (s.modTile t (Tile.modChan c f)) t c = f (chanOf s t c) := by
  simp [chanOf, Tile.modChan, hc]
theorem chanOf_modChan_of_ne {t c u k : Nat} (h : u = t → k ≠ c) (f : Channel → Channel) (s : State) :
    chanOf (s.modTile t (Tile.modChan c f)) u k = chanOf s u k := by
  by_cases hu : u = t
  · subst u
    have := (h rfl).symm
    simp [chanOf, Tile.modChan, this]
  · simp [chanOf, State.tile_modTile_of_ne hu]

/-! ## Register space (R86) -/

/-- A write where a register stands is a write of that register. -/
theorem exec_registerWrite_of_regAt {a : Nat} {r : RegId} (h : regAt a = some r) (v : Word) (s : State) :
    exec (.registerWrite a v) s = .next (writeReg r v s) := by
  show execRegisterWrite a v s = _
  simp only [execRegisterWrite, h]
/-- A write where no register stands has no effect (R9). -/
theorem exec_registerWrite_of_none {a : Nat} (h : regAt a = none) (v : Word) (s : State) :
    exec (.registerWrite a v) s = .next s := by
  show execRegisterWrite a v s = _
  simp only [execRegisterWrite, h]
/-- Registers stand at multiples of 8 of the address range 0xFF. -/
theorem regAt_eq_none {a : Nat} (h : a % 8 ≠ 0 ∨ a / 2 ^ 40 % 256 ≠ 0xFF) : regAt a = none := if_pos h.symm

theorem keepBits_or_keepBits (lo hi lo' hi' : Nat) (v : Word) :
    keepBits lo hi v ||| keepBits lo' hi' v = v &&& (BitVec.ofNat 64 (2 ^ (hi + 1) - 2 ^ lo) ||| BitVec.ofNat 64 (2 ^ (hi' + 1) - 2 ^ lo')) := by
  rw [keepBits, keepBits, BitVec.and_or_distrib_left]

theorem exec_registerWrite_txva (v : Word) (s : State) :
    exec (.registerWrite 0xFF8000000018 v) s = .next { s with pkg := { s.pkg with txva := v &&& 0x7FFFFFFFFF0000#64 } } :=
  exec_registerWrite_of_regAt (r := .txva) (by decide) v s
theorem exec_registerWrite_admbase (v : Word) (s : State) :
    exec (.registerWrite 0xFF8010000000 v) s = .next { s with pkg := { s.pkg with admbase := v &&& 0xFFFFFFFF0001#64 } } := by
  rw [exec_registerWrite_of_regAt (r := .admbase) (by decide), writeReg, keepBits_or_keepBits]
  rfl

/-! ## RSLOW (R155) -/

theorem stackOk_iff {wbase rslow : BitVec 32} :
    stackOk wbase rslow = true ↔ rslow.toNat ≤ wbase.toNat ∧ wbase.toNat + 32 ≤ rslow.toNat + 128 := by
  simp [stackOk]
theorem writeRslow_sys {n : Nat} {v : Word} {s : State} (h : stackOk (s.slot n).sys.wbase (v.extractLsb' 0 32) = true) :
    ((writeRslow n v s).slot n).sys = { (s.slot n).sys with rslow := v.extractLsb' 0 32 } := by
  have hv : BitVec.ofNat 32 (v.extractLsb' 0 32).toNat = v.extractLsb' 0 32 := BitVec.ofNat_toNat _ _
  simp only [writeRslow, State.slot_modSlot, h, if_true, hv]
theorem writeRslow_slot_of_refused {n : Nat} {v : Word} {s : State}
    (h : ¬ stackOk (s.slot n).sys.wbase (v.extractLsb' 0 32) = true) : (writeRslow n v s).slot n = s.slot n := by
  simp [writeRslow, h]

/-! ## SRGEN (R77) -/

theorem writeSrgen_slot (n : Nat) (v : Word) (s : State) :
    (writeSrgen n v s).slot n = { s.slot n with xr := { (s.slot n).xr with srgen := srWrite (v.extractLsb' 0 32) } } := by
  have hv : v.truncate 32 = v.extractLsb' 0 32 := by ext; simp
  rw [writeSrgen, State.slot_modSlot, hv]

/-! ## MPDST (R156) -/

theorem mpdst_writeMpdst {k : Nat} (hk : k < 4) (n : Nat) (v : Word) (s : State) :
    ((writeMpdst n k v s).slot n).sys.mpdst.toArray.getD k 0 = mpdstValue ((s.slot n).sys.mpdst.toArray.getD k 0) v := by
  simp [writeMpdst, hk]

theorem getLsbD_keepBits_low (hi : Nat) (v : Word) (i : Nat) : (keepBits 0 hi v).getLsbD i = (decide (i ≤ hi) && v.getLsbD i) := by
  have hmask : (BitVec.ofNat 64 (2 ^ (hi + 1) - 2 ^ 0)).getLsbD i = (decide (i < 64) && decide (i ≤ hi)) := by
    simp only [BitVec.getLsbD_ofNat, Nat.pow_zero, Nat.testBit_two_pow_sub_one, Nat.lt_succ_iff]
  rw [keepBits, BitVec.getLsbD_and, hmask]
  by_cases h : i < 64
  · simp only [h, decide_true, Bool.true_and, Bool.and_comm]
  · simp only [BitVec.getLsbD_of_ge v i (by omega), Bool.false_and, Bool.and_false]
theorem getLsbD_bitAt (k : Nat) (b : Bool) (i : Nat) : (bitAt k b).getLsbD i = (decide (i < 64) && decide (i = k) && b) := by
  cases b with
  | false => simp [bitAt]
  | true =>
    simp only [bitAt, BitVec.getLsbD_shiftLeft, BitVec.getLsbD_one, if_true]
    grind

theorem mpdstValue_low (old v : Word) : (mpdstValue old v).extractLsb' 0 18 = v.extractLsb' 0 18 := by
  ext i hi
  have h62 : i ≠ 62 := by omega
  have h63 : i ≠ 63 := by omega
  have h17 : i ≤ 17 := by omega
  simp [mpdstValue, getLsbD_keepBits_low, getLsbD_bitAt, h62, h63, h17]
theorem mpdstValue_err (old v : Word) : (mpdstValue old v).getLsbD 62 = (old.getLsbD 62 && !v.getLsbD 62) := by
  simp only [mpdstValue, BitVec.getLsbD_or, getLsbD_keepBits_low, getLsbD_bitAt]
  simp only [Nat.reduceLeDiff, Nat.reduceLT, Nat.reduceEqDiff, decide_true, decide_false, Bool.true_and, Bool.false_and,
    Bool.or_false, Bool.false_or]
theorem mpdstValue_valid (old v : Word) : (mpdstValue old v).getLsbD 63
    = (v.getLsbD 63 && !(v.extractLsb' 4 2 == 3#2) && !(v.extractLsb' 0 4 == 15#4) && decide ((v.extractLsb' 8 8).toNat ≤ 191)) := by
  have hle : decide ((v.extractLsb' 8 8).toNat ≤ 191) = !decide (191 < (v.extractLsb' 8 8).toNat) := by
    simp only [← decide_not, Nat.not_lt]
  simp only [mpdstValue, BitVec.getLsbD_or, getLsbD_keepBits_low, getLsbD_bitAt, hle, Bool.not_or, Bool.and_assoc]
  simp only [Nat.reduceLeDiff, Nat.reduceLT, Nat.reduceEqDiff, decide_true, decide_false, Bool.true_and, Bool.false_and,
    Bool.or_false, Bool.false_or]

/-! ## Entering the supervisor handler (R299) -/

section
variable {n : Nat} {s : State} (hsuper : (s.slot n).super = false) (hwalk : isWalker n = false)
include hsuper hwalk

theorem enterHandler_super (kind detail : Nat) (insn tpc tva : Word) :
    ((enterHandler n kind detail insn tpc tva s).slot n).super = true := by
  simp [enterHandler, Slot.undoFrom, hsuper, hwalk]
theorem enterHandler_trap (kind detail : Nat) (insn tpc tva : Word) :
    ((enterHandler n kind detail insn tpc tva s).slot n).trap
      = { tcause := BitVec.ofNat 64 (kind + 65536 * (detail % 2 ^ 32)), tinsn := insn, tpc := tpc, tva := tva,
          tstat := (s.slot n).inUi } := by
  simp [enterHandler, Slot.undoFrom, hsuper, hwalk]
theorem enterHandler_cores (kind detail : Nat) (insn tpc tva : Word) :
    (enterHandler n kind detail insn tpc tva s).cores = s.cores := by
  simp [enterHandler, Slot.undoFrom, hsuper, hwalk, leaveQueues, forgetAsks]

end

/-! ## NANMODE (R73) -/

theorem exec_nanmodeWrite_of_alone {n : Nat} {s : State} (h : otherBound s n = false) (v : Word) :
    exec (.nanmodeWrite n v) s = .next (writeNanmode n v s) := by
  show execNanmodeWrite n v s = _
  simp [execNanmodeWrite, h]
/-- A refused write is a trap of kind 10 with the number of NANMODE; the step has taken one free choice. -/
theorem exec_nanmodeWrite_of_otherBound {n : Nat} {s : State} (h : otherBound s n = true) (v : Word) :
    exec (.nanmodeWrite n v) s = .next (enterHandler n 10 0x300 (Config.freeWord s.nextFree.1 0) (s.slot n).ar.pc 0 s.nextFree.2) := by
  show execNanmodeWrite n v s = _
  rw [execNanmodeWrite, if_pos h]
  rfl

/-! ## Posts that wait to be tried again (R303) -/

/-- No slot, no die and no channel holds a post. -/
structure NothingHeld (s : State) : Prop where
  slots : ∀ n, (s.slot n).post = none
  dies : ∀ d, (s.die d).posts = []
  chans : ∀ t c, (chanOf s t c).heldPost = []

/-- `t` holds no post, and its package registers and its memory are those of `s`. -/
structure QuietAs (s t : State) : Prop where
  held : NothingHeld t
  pkg : t.pkg = s.pkg
  mem : t.mem = s.mem

theorem NothingHeld.of_lists {s : State} (hs : ∀ x ∈ s.slots, x.2.post = none) (hd : ∀ x ∈ s.dies, x.2.posts = [])
    (ht : ∀ x ∈ s.tiles, ∀ c ∈ x.2.chans.toList, c.heldPost = []) : NothingHeld s where
  slots n := SMap.get_of_forall (p := fun x : Slot => x.post = none) hs rfl n
  dies d := SMap.get_of_forall (p := fun x : Die => x.posts = []) hd rfl d
  chans t c := by
    have hall : ∀ x ∈ (s.tile t).chans.toList, x.heldPost = [] :=
      SMap.get_of_forall (p := fun x : Tile => ∀ c ∈ x.chans.toList, c.heldPost = []) ht (by decide) t
    by_cases hc : c < 8
    · exact hall _ (by simp [chanOf, hc])
    · have hreset : chanOf s t c = Channel.reset := by simp [chanOf, hc]
      rw [hreset]
      rfl

theorem retryPosts_quiet {s t : State} (h : QuietAs s t) (d : Nat) : QuietAs s (retryPosts d t) := by
  have he : retryPosts d t = t.modDie d fun x => { x with posts := [] } := by
    simp [retryPosts, h.held.dies d]
  rw [he]
  refine ⟨⟨h.held.slots, fun k => ?_, h.held.chans⟩, h.pkg, h.mem⟩
  by_cases hk : k = d
  · subst hk; rw [State.die_modDie]
  · rw [State.die_modDie_of_ne hk]; exact h.held.dies k

theorem retryChan_quiet {s t : State} (h : QuietAs s t) (k : Nat) {c : Nat} (hc : c < 8) : QuietAs s (retryChan k c t) := by
  have he : retryChan k c t = t.modTile k (Tile.modChan c fun y => { y with heldPost := [] }) := by
    simp [retryChan, h.held.chans k c]
  rw [he]
  refine ⟨⟨h.held.slots, h.held.dies, fun u j => ?_⟩, h.pkg, h.mem⟩
  by_cases huj : u = k ∧ j = c
  · obtain ⟨rfl, rfl⟩ := huj
    rw [chanOf_modChan_self hc]
  · rw [chanOf_modChan_of_ne fun hu hj => huj ⟨hu, hj⟩]
    exact h.held.chans u j

theorem retryTile_quiet {s t : State} (h : QuietAs s t) (k : Nat) :
    QuietAs s (channels.foldl (fun acc c => retryChan k c acc) t) :=
  List.foldlRecOn channels _ h fun _ hu _ hc => retryChan_quiet hu k (List.mem_range.mp hc)

theorem retrySlot_of_none {n : Nat} {s : State} (h : (s.slot n).post = none) : retrySlot n s = s := by
  simp [retrySlot, h]

/-- Where nothing is held, trying the posts again changes no register of the package and no byte of memory. -/
theorem retryAll_quiet {s : State} (h : NothingHeld s) : QuietAs s (retryAll s) := by
  have hdies : QuietAs s ((List.range 4).foldl (fun acc d => retryPosts d acc) s) :=
    List.foldlRecOn _ _ ⟨h, rfl, rfl⟩ fun _ ht d _ => retryPosts_quiet ht d
  unfold retryAll
  extract_lets s₁ s₂
  have htiles : QuietAs s s₂ := List.foldlRecOn s₁.tiles _ hdies fun _ ht x _ => retryTile_quiet ht x.1
  rw [foldl_fixed _ s₂ s₂.slots fun x _ => retrySlot_of_none (htiles.held.slots x.1)]
  exact htiles

theorem exec_pfqbaseWrite (v : Word) (s : State) :
    exec (.pfqbaseWrite v) s = .next (retryAll (s.modPkg fun p => { p with pfqbase := v &&& 0xFFFFFFFFFFC0#64 })) := rfl

/-! ## The obligation -/

/-- Settles O50, register by register. -/
theorem registerSteps : Obligations.registerSteps := by
  unfold Obligations.registerSteps
  refine ⟨fun v s => ⟨?txasid, exec_registerWrite_txva v s, exec_registerWrite_admbase v s, ?featen, ?xvmin, ?bbidx, ?aqtmo, ?dtime,
      fun a ha => exec_registerWrite_of_none (regAt_eq_none ha) v s⟩,
    fun n v s r hr => ⟨fun h => ?rslow, fun h => ?rslowRefused⟩, fun n v s => ⟨_, rfl, ?srgen, ?srgenSys, rfl⟩,
    fun n k v s hk => ⟨_, rfl, rfl, ?mpdst⟩,
    fun n v s => ⟨fun h => exec_nanmodeWrite_of_alone h v, fun h hsuper hwalk => ?nanmodeRefused⟩, fun v s hs hd ht => ?pfqbase⟩
  case txasid => exact exec_registerWrite_of_regAt (r := .txasid) (by decide) v s
  case featen => exact exec_registerWrite_of_regAt (r := .featen) (by decide) v s
  case xvmin => exact exec_registerWrite_of_regAt (r := .xvmin) (by decide) v s
  case bbidx => exact exec_registerWrite_of_regAt (r := .bbidx) (by decide) v s
  case aqtmo => exact exec_registerWrite_of_regAt (r := .aqtmo) (by decide) v s
  case dtime => exact exec_registerWrite_of_regAt (r := .dtime) (by decide) v s
  case rslow =>
    subst hr
    exact ⟨_, rfl, writeRslow_sys (stackOk_iff.mpr h), rfl⟩
  case rslowRefused =>
    subst hr
    exact ⟨_, rfl, writeRslow_slot_of_refused (mt stackOk_iff.mp h), rfl⟩
  case srgen =>
    rw [writeSrgen_slot]
    rfl
  case srgenSys => rw [writeSrgen_slot]
  case mpdst =>
    rw [mpdst_writeMpdst hk]
    exact ⟨mpdstValue_low _ _, mpdstValue_valid _ _, mpdstValue_err _ _⟩
  case nanmodeRefused =>
    refine ⟨_, exec_nanmodeWrite_of_otherBound h v, ?_⟩
    have hsuper' : (s.nextFree.2.slot n).super = false := hsuper
    rw [enterHandler_super hsuper' hwalk, enterHandler_trap hsuper' hwalk, State.core, enterHandler_cores hsuper' hwalk]
    exact ⟨rfl, rfl, rfl, rfl⟩
  case pfqbase =>
    have hquiet := retryAll_quiet (s := s.modPkg fun p => { p with pfqbase := v &&& 0xFFFFFFFFFFC0#64 }) (.of_lists hs hd ht)
    exact ⟨_, exec_pfqbaseWrite v s, hquiet.pkg, hquiet.mem⟩

end Sys2Proof.Machine
